-- ==== Sys2Proof/Word.lean ====
section
/-! DEFINITION. The plain data every other file speaks of: bytes, the counts the part lets wrap, and the
numbered units of the rack (00_scope.md, "Numbering"). -/

namespace Sys2Proof

/-- One byte on the line port or on a drive link. -/
abbrev Byte := BitVec 8

/-- The sixteen fault conditions of a drive, SERVO_UNLOCK in bit 0 (R54, R202). -/
abbrev FaultWord := BitVec 16

/-- A count of 32 bits that wraps: rack time, uptime, and the rack clock's millisecond count (R97, R197). -/
abbrev Count32 := BitVec 32

/-- A moment of the rack clock, as its millisecond count (R97). -/
abbrev Time := Count32

/-- Slot `n` is the member with value `n - 1`. -/
abbrev SlotNo := Fin 40
/-- Shelf, zone and shelf link `n` are the member with value `n - 1`. -/
abbrev ShelfNo := Fin 4
/-- Plan `n` is the member with value `n - 1`. -/
abbrev PlanNo := Fin 8
/-- Watch rule `n` is the member with value `n - 1`. -/
abbrev RuleNo := Fin 8
/-- Watch class `n` is the member with value `n - 1`. -/
abbrev WatchClass := Fin 7
/-- Lane, carton and bin `n` (1 to 12) are the member with value `n - 1`. -/
abbrev LaneNo := Fin 12
/-- A bin 0 to 12, by its own number. Bin 0 is HOLD. -/
abbrev Bin := Fin 13
/-- Fault table entry `n` (R125) is the member with value `n - 1`. -/
abbrev FaultEntry := Fin 12

/-- The number the manual gives a unit counted from 1. -/
def num {n : Nat} (i : Fin n) : Nat := i.val + 1

/-- The unit of a number counted from 1, when there is one. -/
def ofNum (n b : Nat) : Option (Fin n) :=
  if h : 1 ≤ b ∧ b ≤ n then some ⟨b - 1, by omega⟩ else none

/-- The shelf of a slot: shelf = ⌈slot/10⌉ (00_scope.md, "Numbering"). -/
def shelfOf (i : SlotNo) : ShelfNo := ⟨i.val / 10, by omega⟩

/-- The position of a slot in its shelf, 1 to 10. -/
def positionOf (i : SlotNo) : Nat := i.val % 10 + 1

/-- A function of every member of a bank of like things, written on the list of them so that it computes in proofs. -/
def mapEach {α β : Type} {n : Nat} (f : α → β) (v : Vector α n) : Vector β n :=
  ⟨(v.toList.map f).toArray, by simp⟩

end Sys2Proof
end

