-- ==== Sys2Proof/Syntax.lean ====
section
/-! DEFINITION. The commands: one constructor per row of spec/opcode_table.json, with what it carries. A request
carries its tag and its body as it stands on the line (R183, R203); a drive reply carries the bytes the link
received (R51, R206); a pin event carries the pin and its level. -/

namespace Sys2Proof

/-- The level of a seat switch (R1). -/
inductive Seat | opened | closed
  deriving DecidableEq, Repr

/-- The handler's four input lines to the part (R145). -/
inductive HandlerLine | ready | accept | done | fail
  deriving DecidableEq, Repr

/-- The levels on the part's input pins when power is applied (R29, R95, R165, R201). -/
structure Inputs where
  /-- the raw seat switch of each slot -/
  seats : Vector Seat 40
  /-- the overcurrent line of each slot; true is active -/
  overcurrent : Vector Bool 40
  /-- the cutoff input of each zone; true is active -/
  cutoff : Vector Bool 4
  /-- the carton-present input of each bin; true is HIGH -/
  cartons : Vector Bool 12
  /-- the handler's READY, ACCEPT, DONE and FAIL lines; true is high -/
  ready : Bool
  accept : Bool
  done : Bool
  fail : Bool
  /-- the eight rack id straps -/
  straps : Byte
  deriving DecidableEq, Repr

/-- The commands of the part: the requests of the line port, and the events at its pins, links and timers. -/
inductive Instr
  | powerOn (inputs : Inputs)
  | slotOpen (tag : Byte) (body : List Byte)
  | slotStart (tag : Byte) (body : List Byte)
  | slotSuspend (tag : Byte) (body : List Byte)
  | slotContinue (tag : Byte) (body : List Byte)
  | slotEnd (tag : Byte) (body : List Byte)
  | slotAbort (tag : Byte) (body : List Byte)
  | slotRelease (tag : Byte) (body : List Byte)
  | slotRerun (tag : Byte) (body : List Byte)
  | spinSettings (tag : Byte) (body : List Byte)
  | slotQuery (tag : Byte) (body : List Byte)
  | planLoad (tag : Byte) (body : List Byte)
  | planRead (tag : Byte) (body : List Byte)
  | linkConfig (tag : Byte) (body : List Byte)
  | profileLoad (tag : Byte) (body : List Byte)
  | zoneStart (tag : Byte) (body : List Byte)
  | zoneStop (tag : Byte) (body : List Byte)
  | zoneResume (tag : Byte) (body : List Byte)
  | zoneSettings (tag : Byte) (body : List Byte)
  | zoneQuery (tag : Byte) (body : List Byte)
  | doseTableLoad (tag : Byte) (body : List Byte)
  | watchLoad (tag : Byte) (body : List Byte)
  | watchClear (tag : Byte) (body : List Byte)
  | weightsLoad (tag : Byte) (body : List Byte)
  | gradeMapLoad (tag : Byte) (body : List Byte)
  | faultTableLoad (tag : Byte) (body : List Byte)
  | gradeMapRead (tag : Byte) (body : List Byte)
  | binBar (tag : Byte) (body : List Byte)
  | binUnbar (tag : Byte) (body : List Byte)
  | sortProbe (tag : Byte) (body : List Byte)
  | handlerSettings (tag : Byte) (body : List Byte)
  | handlerReset (tag : Byte) (body : List Byte)
  | queueQuery (tag : Byte) (body : List Byte)
  | binConfig (tag : Byte) (body : List Byte)
  | binQuery (tag : Byte) (body : List Byte)
  | manifestRead (tag : Byte) (body : List Byte)
  | manifestRelease (tag : Byte) (body : List Byte)
  | lineConfig (tag : Byte) (body : List Byte)
  | noticeMask (tag : Byte) (body : List Byte)
  | setTime (tag : Byte) (body : List Byte)
  | rackQuery (tag : Byte) (body : List Byte)
  | restart (tag : Byte) (body : List Byte)
  /-- a request whose code is no request code -/
  | unknown (tag code : Byte) (body : List Byte)
  /-- with the levels the rack id straps have come to, where they have changed since they were last given (R198; log
  entry 25) -/
  | restartEffect (straps : Option Byte := none)
  | lineRateChange
  /-- the bytes that arrive on the receive line, in order, with no gap and no low stop bit among them -/
  | frameReceived (bytes : List Byte)
  | lineGap
  | lineBreak
  | frameSent
  | secondTick
  | doseMinuteTick
  | rawSeatChange (slot : SlotNo) (level : Seat)
  | seatDebounceExpiry (slot : SlotNo)
  | readySeen (slot : SlotNo)
  | spinLimitExpiry (slot : SlotNo)
  /-- the level the overcurrent line takes; true is active -/
  | overcurrentLineActive (slot : SlotNo) (active : Bool)
  | inrushBlankingEnd (slot : SlotNo)
  | stepTimeLimit (slot : SlotNo)
  | cycleOffTimeExpiry (slot : SlotNo)
  | frameStart (link : ShelfNo)
  | poll (link : ShelfNo)
  | directedTransaction (link : ShelfNo)
  | summaryTransaction (link : ShelfNo)
  | statusReply (link : ShelfNo) (bytes : List Byte)
  | identReply (link : ShelfNo) (bytes : List Byte)
  | phaseStartReply (link : ShelfNo) (bytes : List Byte)
  | haltReply (link : ShelfNo) (bytes : List Byte)
  | summaryReply (link : ShelfNo) (bytes : List Byte)
  | miss (link : ShelfNo)
  /-- the value the read returns, in deci-degrees, whatever it is -/
  | airSensorRead (zone : ShelfNo) (value : Int)
  | sensorNoResponse (zone : ShelfNo)
  | cutoffChange (zone : ShelfNo) (active : Bool)
  | tachEdge (zone : ShelfNo)
  | fanWindowEnd (zone : ShelfNo)
  | segmentEnd (zone : ShelfNo)
  | controlInterval (zone : ShelfNo)
  | pwmPeriodStart (zone : ShelfNo)
  | pwmOnTimeEnd (zone : ShelfNo)
  | tripGraceExpiry (zone : ShelfNo)
  | orderDispatch
  | handlerReadyRise
  | deskewExpiry
  | handlerAccept
  | acceptTimeout
  | handlerDone
  | handlerFail
  | evidenceTimeout
  | completionTimeout
  /-- the handler input line that drops -/
  | handlerLineDrop (line : HandlerLine)
  | releaseTimeout
  | cartonPresentRise (lane : LaneNo)
  | cartonPresentDrop (lane : LaneNo)
  | startByte
  | framingDiscard
  /-- the length byte received, above 240 -/
  | lengthDiscard (len : Byte)
  deriving DecidableEq, Repr

end Sys2Proof
end

