-- ==== Sys2Proof/Decode.lean ====
section
/-! DEFINITION. What a word spells by the opcode table's bits. spec/opcode_table.json gives bits to no row, so no word
spells a command. -/

namespace Sys2Proof

/-- The command a word of the opcode table spells: none, since the table gives no row any bits. -/
def decodeTableWord (_nbits _w : Nat) : Option Instr := none

end Sys2Proof
end

