-- ==== Sys2Proof/Config.lean ====
section
/-! DEFINITION. What the manual fixes for the part as plain numbers: the caps, ranges and sizes its rules name. The
one opaque constant is a choice the manual leaves open. -/

namespace Sys2Proof.Config

/-- The cap of the dose accumulator, the deficit and a dose target, in sixteenths (R31, R98). -/
def doseCap : Nat := 1048575
/-- The cap of the counts of 16 bits that saturate. -/
def cap16 : Nat := 65535
/-- The milliseconds for which a drive's temperature is fresh (R100). -/
def freshMs : Nat := 120000
/-- The milliseconds between two expiries of a zone's control interval timer (R86). -/
def controlMs : Nat := 2000
/-- The clamp of the integral accumulator A (R74, R86). -/
def accCap : Int := 100000
/-- The clamp of the control error (R86). -/
def errorCap : Int := 500
/-- The full duty, in per mille (R86). -/
def dutyFull : Nat := 1000
/-- The top of a temperature in deci-degrees (00_scope.md, "Units"; R76, R80). -/
def tempTop : Nat := 1500
/-- The band by which OVER_LIMIT is left (R77). -/
def overLimitBand : Nat := 50
/-- The entries of the manifest ring (R174). -/
def ringSize : Nat := 512
/-- The requests LP queues, and the BUSY refusals it keeps (R188). -/
def requestQueueSize : Nat := 4
/-- The ordinary notices the notice queue holds (R195). -/
def ordinaryNotices : Nat := 63
/-- The consecutive extractions before a waiting insertion (R149). -/
def streakTop : Nat := 4
/-- The consecutive accept timeouts that put the port in FAULT (R153). -/
def acceptTimeoutTop : Nat := 3
/-- The longest body of a line frame (R183). -/
def bodyTop : Nat := 240
/-- The milliseconds between two bytes of one frame beyond which the frame is discarded (R185). -/
def gapMs : Nat := 20
/-- The part revision that RACK QUERY reports (R198). -/
def revision : Nat := 1
/-- The start byte of a line frame (R202). -/
def startByte : Byte := 0x7E
/-- The sync byte of a drive-link frame (R206). -/
def sync : Byte := 0xA5
/-- A chain of LOOP steps is followed for two to this power step entries, which is more than one chain can make (R38):
with fifteen LOOP steps at most, the k-th lowest can be entered at most twice as often as those below it together, and
three times more. -/
def chainDoublings : Nat := 25

/-- Whether the minutes remaining of a grace (R96, R204) are rounded up where they are no whole number, for the
milliseconds that remain. DESIGN CHOICE (log entry 36): the manual does not say how they are rounded, so the value is
free. -/
opaque graceRoundsUp : Nat → Bool

end Sys2Proof.Config
end

