-- ==== Sys2Proof/Machine/Records.lean ====
section
/-! DEFINITION. The records each block keeps, as plain data, with the values each takes at power-on. A field that is
the model's own and not the spec's says so. -/

namespace Sys2Proof.Machine

/-! ## SC: slots and plans (chapters 1 and 2) -/

/-- The thirteen slot states, in the order of R3. -/
inductive SlotState
  | vacant | loadWait | seating | seated | powering | identifying | running | paused | review | ending
  | graded | held | unloading
  deriving DecidableEq, Repr

/-- The latch output (R8). -/
inductive Latch | engaged | released
  deriving DecidableEq, Repr

/-- The power switch output (R9). -/
inductive Power | on | off
  deriving DecidableEq, Repr

/-- A slot's place in the spin-up permit scheme (R10). -/
inductive Permit | none | queued | held
  deriving DecidableEq, Repr

/-- Why a slot in HELD is held, in the order of R1. -/
inductive HoldReason
  | verdict | barred | withdrawn | aborted | extractUnconfirmed | handlerFail | handlerTimeout
  deriving DecidableEq, Repr

/-- The phases of a CYCLE step (R36, R47). -/
inductive CyclePhase | halting | off | waiting | spinning | rejoining
  deriving DecidableEq, Repr

/-- The eleven end causes, in the order of R17. -/
inductive EndCause
  | complete | hostEnd | watchReject (cls : WatchClass) | driveFailed | stepLimit | silent | noSpin
  | overcurrent | zoneTrip | abort | removed
  deriving DecidableEq, Repr

/-- What IDENT reports (R53). -/
structure Identity where
  serial : List Byte
  model : Nat
  capacity : Nat
  firmware : Nat
  deriving DecidableEq, Repr

/-- The spin-up times of the current run, in milliseconds (R1, R11). -/
structure SpinRec where
  first : Option Nat
  latest : Option Nat
  worst : Option Nat
  count : Nat
  deriving DecidableEq, Repr

/-- The drive's end-of-test summary (R2, R55). -/
structure Summary where
  grown : Nat
  pending : Nat
  maxTemp : Nat
  headCount : Nat
  margins : List Nat
  driveVerdict : Nat
  deriving DecidableEq, Repr

/-- SU's verdict as SC stores it (R2, R124). -/
structure Verdict where
  bin : Bin
  score : Option Nat
  fault : Option FaultEntry
  bar : Bool
  deriving DecidableEq, Repr

/-- The run record (R2). -/
structure RunRec where
  identity : Option Identity
  runCount : Nat
  endCause : Option EndCause
  base : Option Nat
  fallback : Option Nat
  deficit : Nat
  summary : Option Summary
  verdict : Option Verdict
  summaryMissing : Bool
  countRegressed : Bool
  zonePaused : Bool
  deriving DecidableEq, Repr

/-- The slot record (R1), with the step working values of R36 and the spin capture of R11. -/
structure SlotRec where
  state : SlotState
  plan : Option PlanNo
  /-- the step index 1 to 16 -/
  step : Option Nat
  stepClock : Nat
  doseStart : Nat
  /-- the counter of the LOOP step with index `n + 1`, at `n`; 0 for a step of another kind -/
  loops : Vector Nat 16
  seatRaw : Seat
  seatStable : Seat
  debounce : Option Time
  latch : Latch
  power : Power
  permit : Permit
  spin : SpinRec
  hold : Option HoldReason
  run : RunRec
  cyclePhase : Option CyclePhase
  phaseArmed : Bool
  offTimer : Option Time
  /-- the moment of the grant, while the permit is HELD (R11) -/
  grantedAt : Option Time
  /-- the spin limit timer (R11) -/
  spinLimit : Option Time
  /-- inrush blanking (R11) -/
  blanking : Option Time
  /-- the current step has been entered (R37); clear at step index 1 after an IDENT success into PAUSED -/
  stepEntered : Bool
  /-- the model's own: how many steps this slot has entered, to tell one entry of a step from another (R43) -/
  stepEntry : Nat
  deriving DecidableEq, Repr

def SpinRec.empty : SpinRec := { first := none, latest := none, worst := none, count := 0 }

/-- The empty run record (R2). DESIGN CHOICE (log entry 40): R2 gives no empty value of the run count, and the model takes
0. -/
def RunRec.empty : RunRec :=
  { identity := none, runCount := 0, endCause := none, base := none, fallback := none, deficit := 0,
    summary := none, verdict := none, summaryMissing := false, countRegressed := false,
    zonePaused := false }

/-- A slot record with the empty values of R1 and R36, at a seat whose two values are given. -/
def SlotRec.empty (raw stable : Seat) (debounce : Option Time) (entry : Nat) : SlotRec :=
  { state := .vacant, plan := none, step := none, stepClock := 0, doseStart := 0,
    loops := Vector.replicate 16 0, seatRaw := raw, seatStable := stable, debounce := debounce,
    latch := .engaged, power := .off, permit := .none, spin := SpinRec.empty, hold := none,
    run := RunRec.empty, cyclePhase := none, phaseArmed := false, offTimer := none, grantedAt := none,
    spinLimit := none, blanking := none, stepEntered := false, stepEntry := entry }

/-- A slot as the sampling of its seat at power-on or RESTART leaves it (R29, R30). -/
def SlotRec.sampled (seat : Seat) : SlotRec :=
  match seat with
  | .opened => SlotRec.empty .opened .opened none 0
  | .closed => { SlotRec.empty .closed .closed none 0 with state := .seated }

/-- The limit action of a step (R31). -/
inductive LimitAction | fail | continue
  deriving DecidableEq, Repr

/-- A plan step with the fields of its kind (R31). -/
inductive PlanStep
  | baseline
  | exercise (phase : Nat) (target : Option Nat) (limit : Nat) (act : LimitAction)
  | soak (target limit : Nat) (act : LimitAction)
  | cycle (offTime : Nat)
  | loop (target count : Nat)
  deriving DecidableEq, Repr

/-- A plan of the plan table (R31). -/
structure Plan where
  steps : List PlanStep
  refs : Nat
  deriving DecidableEq, Repr

def Plan.empty : Plan := { steps := [], refs := 0 }

/-- The SPIN settings in force (R14): the permit limit K, seconds, milliseconds, milliseconds. -/
structure SpinSettings where
  permits : Nat
  limitS : Nat
  blankingMs : Nat
  debounceMs : Nat
  deriving DecidableEq, Repr

def SpinSettings.powerOn : SpinSettings := { permits := 4, limitS := 20, blankingMs := 300, debounceMs := 200 }

/-! ## SL: shelf links (chapter 3) -/

/-- The drive state of a STATUS reply, and the drive status of any reply (R51, R54). -/
inductive DriveState | idle | busy | done | failed
  deriving DecidableEq, Repr

/-- A slot's last-status record (R69). -/
structure LastStatus where
  state : DriveState
  phase : Nat
  progress : Nat
  temp : Nat
  grown : Nat
  pending : Nat
  fault : FaultWord
  time : Time
  deriving DecidableEq, Repr

/-- What SL keeps for each slot of its shelf (R56). -/
structure LinkSlot where
  last : Option LastStatus
  consecutive : Nat
  total : Nat
  deriving DecidableEq, Repr

def LinkSlot.empty : LinkSlot := { last := none, consecutive := 0, total := 0 }

/-- The four phases of a scan frame (R56). -/
inductive FramePhase | start | poll | gap | wait
  deriving DecidableEq, Repr

/-- The codes SC asks for, with the phase of PHASE START (R53, R63). -/
inductive DirectedCode | ident | phaseStart (phase : Nat) | halt
  deriving DecidableEq, Repr

/-- What SC acts on at the end of a directed transaction (R43, R48, R64): nothing; the step entry that asked for
it; or the ZONE_TRIP end that asked for it. The model's own: the spec tells them apart in words. -/
inductive Purpose | plain | step (entry : Nat) | zoneEnd
  deriving DecidableEq, Repr

/-- An entry of the directed queue (R63). -/
structure Directed where
  slot : SlotNo
  code : DirectedCode
  purpose : Purpose
  deriving DecidableEq, Repr

/-- The request of a transaction (R53). -/
inductive LinkRequest
  | directed (code : DirectedCode) (purpose : Purpose)
  | status
  | summary (block : Nat)
  deriving DecidableEq, Repr

/-- An outstanding transaction (R52, R56) with the expiry of its poll timeout. -/
structure Transaction where
  slot : SlotNo
  request : LinkRequest
  expiry : Time
  /-- a reply has begun that fails a test of R52: whatever follows is discarded until the timeout -/
  spoiled : Bool
  deriving DecidableEq, Repr

/-- The fields of block 0 of a summary (R55). -/
structure Block0 where
  grown : Nat
  pending : Nat
  maxTemp : Nat
  headCount : Nat
  driveVerdict : Nat
  deriving DecidableEq, Repr

/-- A summary operation with its progress (R65). -/
structure SummaryOp where
  slot : SlotNo
  next : Nat
  block0 : Option Block0
  margins : List Nat
  misses : Nat
  deriving DecidableEq, Repr

/-- The settings of a link (R72). -/
structure LinkSettings where
  pollTimeout : Nat
  missLimit : Nat
  gapBudget : Nat
  minPeriod : Nat
  deriving DecidableEq, Repr

def LinkSettings.powerOn : LinkSettings :=
  { pollTimeout := 25, missLimit := 4, gapBudget := 4, minPeriod := 2000 }

/-- The state of one shelf link (R56). -/
structure Link where
  phase : FramePhase
  frameStart : Time
  scan : List SlotNo
  joins : List SlotNo
  /-- the slots of the scan list not yet polled in this frame -/
  unpolled : List SlotNo
  directed : List Directed
  summary : List SummaryOp
  gapCount : Nat
  outstanding : Option Transaction
  settings : LinkSettings
  staged : Option LinkSettings
  deriving DecidableEq, Repr

/-- A link with nothing to do, whose first frame has started at the moment given: with no slot to poll and no
summary to read, POLL and GAP end in the frame start's own event (R59 to R61), and the link stands in WAIT. -/
def Link.idleFrom (now : Time) (settings : LinkSettings) : Link :=
  { phase := .wait, frameStart := now, scan := [], joins := [], unpolled := [], directed := [], summary := [],
    gapCount := 0, outstanding := none, settings := settings, staged := none }

/-! ## ZC: zones (chapter 4) -/

/-- The three zone states (R75). -/
inductive ZoneState | off | run | tripped
  deriving DecidableEq, Repr

/-- A segment of a profile (R80). -/
structure Segment where
  target : Nat
  rate : Nat
  hold : Nat
  deriving DecidableEq, Repr

/-- A profile (R80). -/
structure Profile where
  segments : List Segment
  loop : Bool
  deriving DecidableEq, Repr

/-- The substate of a zone's player (R74). -/
inductive PlayerState | ramp | hold | finished
  deriving DecidableEq, Repr

/-- A zone's player (R74): the segment index 1 to 16, the substate and the hold count. -/
structure Player where
  segment : Nat
  sub : PlayerState
  hold : Nat
  deriving DecidableEq, Repr

/-- The status of a zone's air sensor (R76). -/
inductive SensorStatus | good | fault
  deriving DecidableEq, Repr

/-- The four causes of a trip, in the order of R74. -/
inductive Cause | overLimit | cutoff | fanLow | sensor
  deriving DecidableEq, Repr

/-- A set of causes. -/
structure Causes where
  overLimit : Bool
  cutoff : Bool
  fanLow : Bool
  sensor : Bool
  deriving DecidableEq, Repr

/-- The trip record (R74, R89). -/
structure TripRec where
  first : Cause
  time : Count32
  seen : Causes
  deriving DecidableEq, Repr

/-- The grace of a trip (R92). -/
inductive Grace | running (expiry : Time) | expired
  deriving DecidableEq, Repr

/-- The settings of a zone (R88). -/
structure ZoneSettings where
  kp : Nat
  ki : Nat
  pwmMs : Nat
  fanMin : Nat
  tripLimit : Nat
  graceMin : Nat
  deriving DecidableEq, Repr

def ZoneSettings.powerOn : ZoneSettings :=
  { kp := 20, ki := 10, pwmMs := 1000, fanMin := 1800, tripLimit := 900, graceMin := 10 }

/-- The zone record (R74). -/
structure Zone where
  state : ZoneState
  active : Option Profile
  staged : Option Profile
  player : Option Player
  setpoint : Option Nat
  air : Option Nat
  sensor : SensorStatus
  acc : Int
  prevDuty : Nat
  duty : Nat
  pendingDuty : Option Nat
  heater : Power
  fanCount : Nat
  fanSpeed : Option Nat
  lowWindows : Nat
  causes : Causes
  trip : Option TripRec
  grace : Option Grace
  settings : ZoneSettings
  /-- the control interval timer (R86) -/
  control : Option Time
  /-- the end of the PWM period (R87) -/
  periodEnd : Option Time
  /-- the end of the period's on-time (R87) -/
  onEnd : Option Time
  /-- an air sensor read is under way (R76) -/
  reading : Bool
  /-- the fan window has run its second and its end has not been taken (R79) -/
  windowOver : Bool
  deriving DecidableEq, Repr

/-- A zone at power-on (R74, R95). -/
def Zone.powerOn (cutoff : Bool) : Zone :=
  { state := .off, active := none, staged := none, player := none, setpoint := none, air := none,
    sensor := .fault, acc := 0, prevDuty := 0, duty := 0, pendingDuty := none, heater := .off,
    fanCount := 0, fanSpeed := none, lowWindows := 0,
    causes := { overLimit := false, cutoff := cutoff, fanLow := false, sensor := true },
    trip := none, grace := none, settings := ZoneSettings.powerOn, control := none, periodEnd := none,
    onEnd := none, reading := false, windowOver := false }

/-! ## DI: dose (chapter 5) -/

/-- Where the temperature of a tick came from (R98, R100). -/
inductive DoseSource | drive | air | none
  deriving DecidableEq, Repr

/-- The dose record of a slot (R98). -/
structure DoseRec where
  acc : Nat
  source : Option DoseSource
  temp : Option Nat
  band : Option Nat
  credit : Nat
  airMinutes : Nat
  uncredited : Nat
  saturated : Bool
  deriving DecidableEq, Repr

/-- The empty dose record (R98). -/
def DoseRec.empty : DoseRec :=
  { acc := 0, source := none, temp := none, band := none, credit := 0, airMinutes := 0, uncredited := 0,
    saturated := false }

/-- The dose table (R104). -/
structure DoseTable where
  weights : Vector Nat 16
  base : Nat
  deriving DecidableEq, Repr

def DoseTable.powerOn : DoseTable := { weights := Vector.replicate 16 16, base := 400 }

/-! ## WU: watch rules (chapter 6) -/

/-- How a rule's specs combine (R107). -/
inductive WatchMode | all | any
  deriving DecidableEq, Repr

/-- What a match does (R107). -/
inductive WatchAction | note | suspend | reject
  deriving DecidableEq, Repr

/-- What a rule asks of one fault condition (R108). -/
inductive Spec | ignore | set | clear | changed | rose | fell
  deriving DecidableEq, Repr

/-- A watch rule (R107). -/
structure WatchRule where
  enabled : Bool
  mode : WatchMode
  action : WatchAction
  cls : Option WatchClass
  /-- one spec for each fault condition, SERVO_UNLOCK first -/
  specs : Vector Spec 16
  deriving DecidableEq, Repr

def WatchRule.powerOn : WatchRule :=
  { enabled := false, mode := .all, action := .note, cls := none, specs := Vector.replicate 16 .ignore }

/-- A FULL watch latch (R110). -/
structure WatchLatch where
  rule : RuleNo
  action : WatchAction
  cls : Option WatchClass
  stamp : Count32
  snapshot : FaultWord
  again : Bool
  deriving DecidableEq, Repr

/-- The watch record of a slot (R110); an absent latch is EMPTY. -/
structure WatchRec where
  prior : FaultWord
  latch : Option WatchLatch
  deriving DecidableEq, Repr

def WatchRec.empty : WatchRec := { prior := 0, latch := none }

/-! ## SU: grading and sorting (chapter 7) -/

/-- The grading weights and the head margin floor (R122). -/
structure Weights where
  wd : Nat
  ws : Nat
  wu : Nat
  wm : Nat
  wh : Nat
  floor : Nat
  deriving DecidableEq, Repr

def Weights.powerOn : Weights := { wd := 20, ws := 4, wu := 4, wm := 8, wh := 2, floor := 100 }

/-- A band of the grade map (R122). -/
structure Band where
  lower : Nat
  bin : Bin
  deriving DecidableEq, Repr

/-- SU's four tables (R122). -/
structure SortTables where
  weights : Weights
  map : List Band
  faults : Vector Bin 12
  barred : Vector Bool 12
  deriving DecidableEq, Repr

def SortTables.powerOn : SortTables :=
  { weights := Weights.powerOn, map := [{ lower := 0, bin := 0 }], faults := Vector.replicate 12 0,
    barred := Vector.replicate 12 false }

/-! ## HP: the handler port (chapter 8) -/

/-- An order's task (R142): INSERT, or EXTRACT to the lane of a bin. -/
inductive OrderKind | insert | extract (lane : LaneNo)
  deriving DecidableEq, Repr

/-- An order (R142). Its position is where it stands: in the queue, or current. -/
structure Order where
  kind : OrderKind
  slot : SlotNo
  number : Nat
  /-- the model's own: the orders that had joined the queue before this one, since numbers wrap (R142, R144) -/
  age : Nat
  deriving DecidableEq, Repr

/-- The two handshake modes (R163). -/
inductive PortMode | interlocked | strobed
  deriving DecidableEq, Repr

/-- The HANDLER settings (R163): milliseconds, seconds, seconds. -/
structure PortSettings where
  mode : PortMode
  deskew : Nat
  acceptS : Nat
  completionS : Nat
  deriving DecidableEq, Repr

def PortSettings.powerOn : PortSettings := { mode := .interlocked, deskew := 2, acceptS := 10, completionS := 60 }

/-- The states of the port (R146). -/
inductive PortState | idle | deskew | offered | inFlight | checking | confirming | fault
  deriving DecidableEq, Repr

/-- The outcome the handler reported (R145). -/
inductive PortOutcome | done | fail
  deriving DecidableEq, Repr

/-- Why the port is in FAULT (R145). -/
inductive FaultReason | acceptTimeouts | completionTimeout | releaseTimeout
  deriving DecidableEq, Repr

/-- The timers of the port (R145). -/
inductive TimerKind | deskew | accept | completion | evidence | release
  deriving DecidableEq, Repr

structure PortTimer where
  kind : TimerKind
  expiry : Time
  deriving DecidableEq, Repr

/-- The current order with the settings in force at its dispatch (R151). -/
structure CurrentOrder where
  order : Order
  settings : PortSettings
  deriving DecidableEq, Repr

/-- The port record and the levels of the port's input lines (R145). -/
structure Port where
  state : PortState
  current : Option CurrentOrder
  queue : List Order
  timer : Option PortTimer
  outcome : Option PortOutcome
  acceptTimeouts : Nat
  streak : Nat
  fault : Option FaultReason
  settings : PortSettings
  /-- the number the next order takes (R142) -/
  nextNumber : Nat
  /-- the model's own: the orders that have joined so far -/
  joined : Nat
  readyLine : Bool
  acceptLine : Bool
  doneLine : Bool
  failLine : Bool
  deriving DecidableEq, Repr

def Port.powerOn (i : Inputs) : Port :=
  { state := .idle, current := none, queue := [], timer := none, outcome := none, acceptTimeouts := 0,
    streak := 0, fault := none, settings := PortSettings.powerOn, nextNumber := 1, joined := 0,
    readyLine := i.ready, acceptLine := i.accept, doneLine := i.done, failLine := i.fail }

/-! ## CM: cartons and the manifest (chapter 9) -/

/-- The states of a bin carton (R166). -/
inductive CartonState | absent | opened | changing | closing
  deriving DecidableEq, Repr

/-- The carton record of a bin (R165). -/
structure Carton where
  state : CartonState
  sequence : Nat
  fill : Nat
  capacity : Nat
  staged : Option Nat
  pendingClose : Bool
  present : Bool
  deriving DecidableEq, Repr

/-- A carton record after the sampling of its input at power-on (R165): HIGH opens it as a rise in ABSENT does. -/
def Carton.powerOn (present : Bool) : Carton :=
  { state := if present then .opened else .absent, sequence := 1, fill := 0, capacity := 20, staged := none,
    pendingClose := false, present := present }

/-- What a SHIPPED record holds beside its number and time (R175). -/
structure Shipped where
  slot : SlotNo
  identity : Option Identity
  runCount : Nat
  lane : LaneNo
  sequence : Nat
  position : Nat
  score : Option Nat
  fault : Option FaultEntry
  dose : Nat
  spinFirst : Option Nat
  spinWorst : Option Nat
  growth : Option Int
  margin : Option Nat
  deriving DecidableEq, Repr

/-- What a CARTON record holds beside its number and time (R176). -/
structure CartonClose where
  lane : LaneNo
  sequence : Nat
  count : Nat
  short : Bool
  deriving DecidableEq, Repr

inductive ManifestBody | shipped (r : Shipped) | carton (r : CartonClose)
  deriving DecidableEq, Repr

/-- A record of the manifest ring (R174). -/
structure ManifestRec where
  number : Nat
  time : Count32
  body : ManifestBody
  deriving DecidableEq, Repr

/-- CM's reservation (R174, R177). -/
structure Reservation where
  slot : SlotNo
  lane : LaneNo
  entries : Nat
  deriving DecidableEq, Repr

/-- The manifest ring and what CM keeps beside it (R174). -/
structure Ring where
  records : List ManifestRec
  next : Nat
  reservation : Option Reservation
  threshold : Nat
  above : Bool
  deriving DecidableEq, Repr

def Ring.powerOn : Ring := { records := [], next := 1, reservation := none, threshold := 448, above := false }

/-! ## LP: the line port (chapter 10) -/

/-- The line rates, in the order of R184. -/
inductive LineRate | r9600 | r19200 | r38400 | r57600 | r115200 | r230400 | r460800
  deriving DecidableEq, Repr

/-- The kinds of notice, in the order of R193. -/
inductive NoticeKind
  | slotState | runEnd | watch | zoneTrip | zoneClear | carton | handler | manifestHigh | overflow
  deriving DecidableEq, Repr

/-- How a score came about (R131): the band, the inputs and the terms. -/
structure ScoreDetail where
  band : Nat
  g : Nat
  s : Nat
  u : Nat
  m : Nat
  h : Nat
  pd : Nat
  ps : Nat
  pu : Nat
  pm : Nat
  ph : Nat
  penalty : Nat
  score : Nat
  deriving DecidableEq, Repr

/-- The events of a WATCH notice (R117). -/
inductive WatchEvent | filled | again | overwritten
  deriving DecidableEq, Repr

/-- The events of a CARTON notice (R171). -/
inductive CartonEvent | opened | full | short | removedEmpty | held | awaitingSpace
  deriving DecidableEq, Repr

/-- The events of a HANDLER notice, in the order of R159. -/
inductive HandlerEvent | acceptTimeout | unconfirmed | fail | completionTimeout | portFault
  deriving DecidableEq, Repr

/-- What a notice carries, as its rule names it. -/
inductive NoticeBody
  /-- R4 -/
  | slotState (slot : SlotNo) (now before : SlotState) (cause : Option EndCause) (hold : Option HoldReason)
  /-- R131 -/
  | runEnd (slot : SlotNo) (run : RunRec) (verdict : Verdict) (replaced : Option Bin) (detail : Option ScoreDetail)
  /-- R117 -/
  | watch (slot : SlotNo) (event : WatchEvent) (runCount : Nat) (latch : WatchLatch)
      (again : Option (RuleNo × WatchAction × FaultWord))
  /-- R89, R90 -/
  | zoneTrip (zone : ShelfNo) (first : Cause) (present seen : Causes) (time : Count32)
  /-- R91 -/
  | zoneClear (zone : ShelfNo) (first : Cause) (seen : Causes) (time : Count32)
  /-- R171 -/
  | carton (lane : LaneNo) (event : CartonEvent) (record : Carton) (closed : Option (Nat × Nat × Nat))
  /-- R159 -/
  | handlerSlot (slot : SlotNo) (event : HandlerEvent) (order : Order) (state : SlotState) (timeouts : Nat)
  /-- R161 -/
  | handlerPort (reason : FaultReason) (slot : SlotNo) (order : Nat)
  /-- R181 -/
  | manifestHigh (held threshold oldest newest reserved closing : Nat)
  /-- R196 -/
  | overflow (count : Nat) (kind : NoticeKind) (source : Nat) (time : Count32)
  deriving DecidableEq, Repr

/-- A waiting notice (R193, R195). -/
structure Notice where
  source : Nat
  body : NoticeBody
  time : Count32
  merges : Nat
  deriving DecidableEq, Repr

/-- A request (R188). -/
structure Request where
  tag : Byte
  code : Byte
  body : List Byte
  deriving DecidableEq, Repr

/-- What the last byte of a frame brings with it (R184, R199). -/
inductive AfterSent | nothing | newRate (r : LineRate) | restart
  deriving DecidableEq, Repr

/-- A frame to send: a served reply, a BUSY refusal or a notice (R189, R192). -/
structure OutFrame where
  tag : Byte
  code : Byte
  body : List Byte
  /-- a served reply, whose last byte lets the next request be served -/
  served : Bool
  after : AfterSent
  deriving DecidableEq, Repr

/-- The receiver (R182): HUNT, or COLLECT with the bytes taken since the start byte and the moment of the last. -/
inductive Receiver | hunt | collect (bytes : List Byte) (last : Time)
  deriving DecidableEq, Repr

/-- The notice mask; a set flag is MASKED (R194, R203). -/
structure NoticeMask where
  slot : Bool
  climate : Bool
  ship : Bool
  deriving DecidableEq, Repr

/-- The line counters (R182). -/
structure LineCounters where
  gap : Nat
  length : Nat
  crc : Nat
  framing : Nat
  breaks : Nat
  busy : Nat
  unanswered : Nat
  deriving DecidableEq, Repr

/-- The port record of LP (R182), with the frame its transmitter is sending. -/
structure Line where
  rate : LineRate
  receiver : Receiver
  requests : List Request
  replies : List OutFrame
  notices : List Notice
  mask : NoticeMask
  sequence : BitVec 16
  rackTime : Count32
  uptime : Count32
  restarts : Nat
  rackId : Byte
  counters : LineCounters
  sending : Option OutFrame
  deriving DecidableEq, Repr

def Line.powerOn (straps : Byte) : Line :=
  { rate := .r115200, receiver := .hunt, requests := [], replies := [], notices := [],
    mask := { slot := false, climate := false, ship := false }, sequence := 0, rackTime := 0, uptime := 0,
    restarts := 0, rackId := straps,
    counters := { gap := 0, length := 0, crc := 0, framing := 0, breaks := 0, busy := 0, unanswered := 0 },
    sending := none }

/-! ## The rack clock (R97, R197) -/

/-- The rack clock: the millisecond count, the milliseconds since the last second tick, and the second ticks since
the last dose minute tick. -/
structure Clock where
  ms : Time
  ofSecond : Nat
  ofMinute : Nat
  deriving DecidableEq, Repr

def Clock.powerOn : Clock := { ms := 0, ofSecond := 0, ofMinute := 0 }

end Sys2Proof.Machine
end

