-- ==== Sys2Proof/Machine/State.lean ====
section
/-! DEFINITION. The state of the whole part, the ways a step can stop, and the state after reset. -/

namespace Sys2Proof.Machine

/-- The state of the UQ-40: one field for each block's records, the rack clock, the pins no block's record holds,
and the commands that wait. -/
structure State where
  /-- the commands that wait, first in first out -/
  pending : List Instr
  /-- the rack clock (R97, R197) -/
  clock : Clock
  /-- SC: the forty slot records (R1) -/
  slots : Vector SlotRec 40
  /-- SC: the plan table (R31) -/
  plans : Vector Plan 8
  /-- SC: the spin-up permit queue (R10) -/
  permitQueue : List SlotNo
  /-- SC: the SPIN settings (R14) -/
  spin : SpinSettings
  /-- the overcurrent lines' levels (R13) -/
  overcurrent : Vector Bool 40
  /-- SL: the four shelf links (R56) -/
  links : Vector Link 4
  /-- SL: last-status records and miss counts, by slot (R56) -/
  linkSlots : Vector LinkSlot 40
  /-- ZC: the four zone records (R74) -/
  zones : Vector Zone 4
  /-- DI: the dose records (R98) -/
  doses : Vector DoseRec 40
  /-- DI: the dose table (R104) -/
  doseTable : DoseTable
  /-- WU: the rule table (R107) -/
  rules : Vector WatchRule 8
  /-- WU: the watch records (R110) -/
  watches : Vector WatchRec 40
  /-- SU: the four tables (R122) -/
  sort : SortTables
  /-- HP: the port record (R145) -/
  port : Port
  /-- CM: the twelve carton records (R165) -/
  cartons : Vector Carton 12
  /-- CM: the manifest ring (R174) -/
  ring : Ring
  /-- LP: the port record (R182) -/
  line : Line
  /-- the levels of the eight rack id straps (R198) -/
  straps : Byte
  deriving DecidableEq, Repr

/-- The faults of the part: none. The manual gives every command an effect in every state, and an event that no
rule applies to is discarded (R4), so no step faults. -/
inductive Fault
  deriving DecidableEq, Repr

/-- The refusals of the model. -/
inductive Refusal
  /-- raised by `exec` alone, for a command that has no meaning yet; safe: the model stops where the part goes on -/
  | notModelled (mnemonic : String)
  deriving DecidableEq, Repr

/-- The part right after power-on with the pin levels given, and no command waiting (R29, R56, R74, R98, R104, R107,
R110, R122, R145, R165, R174, R182). -/
def State.ofInputs (i : Inputs) : State :=
  { pending := []
    clock := Clock.powerOn
    slots := mapEach SlotRec.sampled i.seats
    plans := Vector.replicate 8 Plan.empty
    permitQueue := []
    spin := SpinSettings.powerOn
    overcurrent := i.overcurrent
    links := Vector.replicate 4 (Link.idleFrom 0 LinkSettings.powerOn)
    linkSlots := Vector.replicate 40 LinkSlot.empty
    zones := mapEach Zone.powerOn i.cutoff
    doses := Vector.replicate 40 DoseRec.empty
    doseTable := DoseTable.powerOn
    rules := Vector.replicate 8 WatchRule.powerOn
    watches := Vector.replicate 40 WatchRec.empty
    sort := SortTables.powerOn
    port := Port.powerOn i
    cartons := mapEach Carton.powerOn i.cartons
    ring := Ring.powerOn
    line := Line.powerOn i.straps
    straps := i.straps }

/-- The pin levels the model takes at reset: an empty rack with every line at rest. DESIGN CHOICE (log entry 1):
the manual samples the pins and states no level. Unsafe. -/
def Inputs.atRest : Inputs :=
  { seats := Vector.replicate 40 .opened, overcurrent := Vector.replicate 40 false,
    cutoff := Vector.replicate 4 false, cartons := Vector.replicate 12 false, ready := false, accept := false,
    done := false, fail := false, straps := 0 }

/-- The part right after reset: power-on (R29 and the power-on columns of every chapter) with the pins at rest. -/
def State.reset : State := State.ofInputs Inputs.atRest

end Sys2Proof.Machine
end

