-- ==== Sys2Proof/Machine/Ops.lean ====
section
/-! DEFINITION. The named operations every block is written with: one read and one write for each kind of record,
the rack clock's arithmetic, and the small arithmetic of counts that saturate or wrap. -/

namespace Sys2Proof.Machine

/-! ## Reading and writing records -/

/-- The slot record of a slot (R1). -/
def State.slot (s : State) (i : SlotNo) : SlotRec := s.slots[i]

def State.setSlot (s : State) (i : SlotNo) (r : SlotRec) : State := { s with slots := s.slots.set i r }

/-- The slot record of one slot changed, every other left alone. -/
def State.modSlot (s : State) (i : SlotNo) (f : SlotRec → SlotRec) : State := s.setSlot i (f (s.slot i))

/-- A change to the run record of one slot (R2). -/
def State.modRun (s : State) (i : SlotNo) (f : RunRec → RunRec) : State :=
  s.modSlot i fun r => { r with run := f r.run }

/-- The plan of the plan table (R31). -/
def State.plan (s : State) (p : PlanNo) : Plan := s.plans[p]

def State.setPlan (s : State) (p : PlanNo) (x : Plan) : State := { s with plans := s.plans.set p x }

/-- The record of a shelf link (R56). -/
def State.link (s : State) (l : ShelfNo) : Link := s.links[l]

def State.setLink (s : State) (l : ShelfNo) (x : Link) : State := { s with links := s.links.set l x }

def State.modLink (s : State) (l : ShelfNo) (f : Link → Link) : State := s.setLink l (f (s.link l))

/-- What SL keeps for one slot (R56). -/
def State.linkSlot (s : State) (i : SlotNo) : LinkSlot := s.linkSlots[i]

def State.setLinkSlot (s : State) (i : SlotNo) (x : LinkSlot) : State :=
  { s with linkSlots := s.linkSlots.set i x }

/-- The zone record (R74). -/
def State.zone (s : State) (z : ShelfNo) : Zone := s.zones[z]

def State.setZone (s : State) (z : ShelfNo) (x : Zone) : State := { s with zones := s.zones.set z x }

def State.modZone (s : State) (z : ShelfNo) (f : Zone → Zone) : State := s.setZone z (f (s.zone z))

/-- The dose record of a slot (R98). -/
def State.dose (s : State) (i : SlotNo) : DoseRec := s.doses[i]

def State.setDose (s : State) (i : SlotNo) (x : DoseRec) : State := { s with doses := s.doses.set i x }

/-- The watch record of a slot (R110). -/
def State.watch (s : State) (i : SlotNo) : WatchRec := s.watches[i]

def State.setWatch (s : State) (i : SlotNo) (x : WatchRec) : State := { s with watches := s.watches.set i x }

/-- The carton record of a bin (R165). -/
def State.carton (s : State) (b : LaneNo) : Carton := s.cartons[b]

def State.setCarton (s : State) (b : LaneNo) (x : Carton) : State := { s with cartons := s.cartons.set b x }

def State.modCarton (s : State) (b : LaneNo) (f : Carton → Carton) : State := s.setCarton b (f (s.carton b))

def State.setPort (s : State) (p : Port) : State := { s with port := p }

def State.setRing (s : State) (r : Ring) : State := { s with ring := r }

def State.setLine (s : State) (l : Line) : State := { s with line := l }

/-- The bar flag of a bin 1 to 12 (R122). -/
def State.barred (s : State) (b : LaneNo) : Bool := s.sort.barred[b]

/-! ## Time (R97) -/

/-- The moment `ms` milliseconds after `t`. -/
def Time.after (t : Time) (ms : Nat) : Time := t + BitVec.ofNat 32 ms

/-- The milliseconds from `t` to `now`, modulo 2³² (R97). -/
def Time.since (now t : Time) : Nat := (now - t).toNat

/-- The rack clock's count has come to `t`: the difference modulo 2³² lies in the half that is not ahead. -/
def Time.reached (now t : Time) : Bool := Time.since now t < 2147483648

/-- The rack clock's count has gone past `t`. -/
def Time.passed (now t : Time) : Bool := Time.reached now t && now ≠ t

/-- The milliseconds that remain to `t`, 0 when it has been reached (R204). -/
def Time.remaining (now t : Time) : Nat := if Time.reached now t then 0 else Time.since t now

/-- The rack clock's millisecond count (R97). -/
def State.now (s : State) : Time := s.clock.ms

/-- A timer that has an expiry and has reached it. -/
def State.timerOver (s : State) (t : Option Time) : Bool :=
  match t with
  | some e => Time.reached s.now e
  | none => false

/-! ## Counts (00_scope.md, "Units and number conventions") -/

/-- A count raised by `n` that saturates at `top`. -/
def saturate (top n : Nat) : Nat := min top n

/-- A value clamped to a range. -/
def clampNat (lo hi n : Nat) : Nat := max lo (min hi n)

/-- A whole number clamped to a range. -/
def clampInt (lo hi z : Int) : Int := max lo (min hi z)

/-- The number after `n` in a count that runs from 1 to `top` and wraps to 1 (R142, R165, R174). -/
def nextWrap (top n : Nat) : Nat := if n ≥ top then 1 else n + 1

/-! ## Ranges of units -/

/-- The slots, lowest number first (R22, R39). -/
def allSlots : List SlotNo := List.finRange 40

/-- The slots of a shelf, lowest number first. -/
def slotsOfShelf (z : ShelfNo) : List SlotNo := allSlots.filter fun i => shelfOf i = z

def allShelves : List ShelfNo := List.finRange 4

/-- The bins 1 to 12, lowest number first (R178). -/
def allLanes : List LaneNo := List.finRange 12

/-- The lane of a bin, when it has one: bin 0 is HOLD (00_scope.md, "Numbering"). -/
def laneOf (b : Bin) : Option LaneNo := ofNum 12 b.val

/-- The bin of a lane. -/
def binOf (b : LaneNo) : Bin := ⟨b.val + 1, by omega⟩


/-! ## Questions several blocks ask of a slot -/

/-- The slot has a run in progress (R7, R17): POWERING through REVIEW. -/
def SlotState.runs : SlotState → Bool
  | .powering | .identifying | .running | .paused | .review => true
  | _ => false

/-- The step the slot is at, when its plan has one (R1, R31). -/
def State.currentStep (s : State) (i : SlotNo) : Option PlanStep :=
  match (s.slot i).plan, (s.slot i).step with
  | some p, some (n + 1) => (s.plan p).steps[n]?
  | _, _ => none

/-- The CYCLE phases in which the drive is off its shelf link (R47). -/
def SlotRec.cycleOffLink (r : SlotRec) : Bool :=
  match r.cyclePhase with
  | some .off | some .waiting | some .spinning => true
  | _ => false

/-- The slots whose permit is HELD (R10). -/
def State.holders (s : State) : Nat := s.slots.toList.countP fun r => r.permit = .held

/-- The zone of a slot is TRIPPED (R16, R26). -/
def State.zoneTripped (s : State) (i : SlotNo) : Bool := (s.zone (shelfOf i)).state = .tripped

/-- The dose the slot has received in its current step (R37). -/
def State.stepDose (s : State) (i : SlotNo) : Nat := (s.dose i).acc - (s.slot i).doseStart

/-- Manifest entries neither held by a record nor reserved (R174). -/
def Ring.free (r : Ring) : Nat :=
  Config.ringSize - r.records.length - (match r.reservation with | some v => v.entries | none => 0)

end Sys2Proof.Machine
end

