-- ==== Sys2Proof/Machine/Flags.lean ====
section
/-! DEFINITION. Sets, flags and named values: the causes of a zone as a set, the groups of the notice mask, and the
byte each named value is sent as, its position in the list of the rule that names it (R202). -/

namespace Sys2Proof.Machine

/-! ## Causes (R74, R76 to R79) -/

def Causes.none : Causes := { overLimit := false, cutoff := false, fanLow := false, sensor := false }

def Causes.has (s : Causes) : Cause → Bool
  | .overLimit => s.overLimit
  | .cutoff => s.cutoff
  | .fanLow => s.fanLow
  | .sensor => s.sensor

def Causes.add (s : Causes) : Cause → Causes
  | .overLimit => { s with overLimit := true }
  | .cutoff => { s with cutoff := true }
  | .fanLow => { s with fanLow := true }
  | .sensor => { s with sensor := true }

def Causes.remove (s : Causes) : Cause → Causes
  | .overLimit => { s with overLimit := false }
  | .cutoff => { s with cutoff := false }
  | .fanLow => { s with fanLow := false }
  | .sensor => { s with sensor := false }

def Causes.isEmpty (s : Causes) : Bool := !(s.overLimit || s.cutoff || s.fanLow || s.sensor)

/-- Members of a list of flags as a bit-set: the n-th flag is bit n - 1 (R202). -/
def bitSet : List Bool → Nat
  | [] => 0
  | b :: bs => (if b then 1 else 0) + 2 * bitSet bs

/-- OVER_LIMIT, CUTOFF, FAN_LOW and SENSOR as bits 0 to 3 (R202). -/
def Causes.bits (s : Causes) : Nat := bitSet [s.overLimit, s.cutoff, s.fanLow, s.sensor]

/-- The SLOT, CLIMATE and SHIP bits of NOTICE MASK (R203). -/
def NoticeMask.bits (m : NoticeMask) : Nat := bitSet [m.slot, m.climate, m.ship]

/-! ## The kind and group of a notice (R193) -/

def NoticeBody.kind : NoticeBody → NoticeKind
  | .slotState .. => .slotState
  | .runEnd .. => .runEnd
  | .watch .. => .watch
  | .zoneTrip .. => .zoneTrip
  | .zoneClear .. => .zoneClear
  | .carton .. => .carton
  | .handlerSlot .. | .handlerPort .. => .handler
  | .manifestHigh .. => .manifestHigh
  | .overflow .. => .overflow

/-- The group of a kind is MASKED (R193, R194); OVERFLOW belongs to none. -/
def NoticeMask.masks (m : NoticeMask) : NoticeKind → Bool
  | .slotState | .runEnd | .watch => m.slot
  | .zoneTrip | .zoneClear => m.climate
  | .carton | .handler | .manifestHigh => m.ship
  | .overflow => false

/-- The source of a notice, 0 for the port, the ring and the line port (R193, R203). -/
def NoticeBody.source : NoticeBody → Nat
  | .slotState i .. | .runEnd i .. | .watch i .. | .handlerSlot i .. => num i
  | .zoneTrip z .. | .zoneClear z .. => num z
  | .carton b .. => num b
  | .handlerPort .. | .manifestHigh .. | .overflow .. => 0

/-! ## The bytes of named values (R202) -/

def SlotState.byte : SlotState → Nat
  | .vacant => 1 | .loadWait => 2 | .seating => 3 | .seated => 4 | .powering => 5 | .identifying => 6
  | .running => 7 | .paused => 8 | .review => 9 | .ending => 10 | .graded => 11 | .held => 12
  | .unloading => 13

def HoldReason.byte : HoldReason → Nat
  | .verdict => 1 | .barred => 2 | .withdrawn => 3 | .aborted => 4 | .extractUnconfirmed => 5
  | .handlerFail => 6 | .handlerTimeout => 7

def Seat.byte : Seat → Nat | .opened => 1 | .closed => 2
def Latch.byte : Latch → Nat | .engaged => 1 | .released => 2
def Power.byte : Power → Nat | .on => 1 | .off => 2
def Permit.byte : Permit → Nat | .none => 1 | .queued => 2 | .held => 3
def CyclePhase.byte : CyclePhase → Nat
  | .halting => 1 | .off => 2 | .waiting => 3 | .spinning => 4 | .rejoining => 5

def EndCause.byte : EndCause → Nat
  | .complete => 1 | .hostEnd => 2 | .watchReject _ => 3 | .driveFailed => 4 | .stepLimit => 5 | .silent => 6
  | .noSpin => 7 | .overcurrent => 8 | .zoneTrip => 9 | .abort => 10 | .removed => 11

/-- The class of a WATCH_REJECT (R17). -/
def EndCause.cls : EndCause → Option WatchClass
  | .watchReject c => some c
  | _ => none

/-- The fault table entry of an end cause that is a fault cause (R124, R125). -/
def EndCause.entry : EndCause → Option FaultEntry
  | .watchReject c => some ⟨c.val, by omega⟩
  | .driveFailed => some 7
  | .stepLimit => some 8
  | .silent => some 9
  | .noSpin => some 10
  | .overcurrent => some 11
  | _ => none

def DriveState.byte : DriveState → Nat | .idle => 1 | .busy => 2 | .done => 3 | .failed => 4
def FramePhase.byte : FramePhase → Nat | .start => 1 | .poll => 2 | .gap => 3 | .wait => 4
/-- The drive-link codes in the order of R53 and R54. -/
def DirectedCode.byte : DirectedCode → Nat | .ident => 1 | .phaseStart _ => 2 | .halt => 3
def LinkRequest.byte : LinkRequest → Nat | .directed c _ => c.byte | .status => 4 | .summary _ => 5
def ZoneState.byte : ZoneState → Nat | .off => 1 | .run => 2 | .tripped => 3
def PlayerState.byte : PlayerState → Nat | .ramp => 1 | .hold => 2 | .finished => 3
def SensorStatus.byte : SensorStatus → Nat | .good => 1 | .fault => 2
def Cause.byte : Cause → Nat | .overLimit => 1 | .cutoff => 2 | .fanLow => 3 | .sensor => 4
def DoseSource.byte : DoseSource → Nat | .drive => 1 | .air => 2 | .none => 3
def WatchMode.byte : WatchMode → Nat | .all => 1 | .any => 2
def WatchAction.byte : WatchAction → Nat | .note => 1 | .suspend => 2 | .reject => 3
def Spec.byte : Spec → Nat
  | .ignore => 1 | .set => 2 | .clear => 3 | .changed => 4 | .rose => 5 | .fell => 6
def OrderKind.byte : OrderKind → Nat | .insert => 1 | .extract _ => 2
def PortMode.byte : PortMode → Nat | .interlocked => 1 | .strobed => 2
def PortState.byte : PortState → Nat
  | .idle => 1 | .deskew => 2 | .offered => 3 | .inFlight => 4 | .checking => 5 | .confirming => 6
  | .fault => 7
def PortOutcome.byte : PortOutcome → Nat | .done => 1 | .fail => 2
def FaultReason.byte : FaultReason → Nat
  | .acceptTimeouts => 1 | .completionTimeout => 2 | .releaseTimeout => 3
def TimerKind.byte : TimerKind → Nat
  | .deskew => 1 | .accept => 2 | .completion => 3 | .evidence => 4 | .release => 5
def CartonState.byte : CartonState → Nat | .absent => 1 | .opened => 2 | .changing => 3 | .closing => 4
def LineRate.byte : LineRate → Nat
  | .r9600 => 1 | .r19200 => 2 | .r38400 => 3 | .r57600 => 4 | .r115200 => 5 | .r230400 => 6
  | .r460800 => 7
def NoticeKind.byte : NoticeKind → Nat
  | .slotState => 1 | .runEnd => 2 | .watch => 3 | .zoneTrip => 4 | .zoneClear => 5 | .carton => 6
  | .handler => 7 | .manifestHigh => 8 | .overflow => 9
def WatchEvent.byte : WatchEvent → Nat | .filled => 1 | .again => 2 | .overwritten => 3
def CartonEvent.byte : CartonEvent → Nat
  | .opened => 1 | .full => 2 | .short => 3 | .removedEmpty => 4 | .held => 5 | .awaitingSpace => 6
def HandlerEvent.byte : HandlerEvent → Nat
  | .acceptTimeout => 1 | .unconfirmed => 2 | .fail => 3 | .completionTimeout => 4 | .portFault => 5

/-- The refusal codes, in the order of R190. -/
inductive RefusalCode | unknown | length | range | state | inUse | cause | busy
  deriving DecidableEq, Repr

def RefusalCode.byte : RefusalCode → Nat
  | .unknown => 1 | .length => 2 | .range => 3 | .state => 4 | .inUse => 5 | .cause => 6 | .busy => 7

end Sys2Proof.Machine
end

