-- ==== Sys2Proof/Machine/Operands.lean ====
section
/-! DEFINITION. What the bytes that reach the part mean: numbers of several bytes, optional fields, the entries of
PLAN LOAD, PROFILE LOAD, WATCH LOAD and GRADE MAP LOAD (R202, R203), and the drive-link replies (R51 to R55, R206). -/

namespace Sys2Proof.Machine

/-! ## Numbers (R202): most significant byte first -/

def be16 (a b : Byte) : Nat := a.toNat * 256 + b.toNat
def be24 (a b c : Byte) : Nat := be16 a b * 256 + c.toNat
def be32 (a b c d : Byte) : Nat := be16 a b * 65536 + be16 c d

/-- What a presence byte says in a request; a value other than 0 or 1 is none of the two (R202). -/
def presence (b : Byte) : Option Bool := if b = 0 then some false else if b = 1 then some true else none

/-- A flag byte of a request: any value other than 0 is set (R202). -/
def flagOf (b : Byte) : Bool := b != 0

/-- A list of bytes cut into pieces of `n`, at most `k` of them. -/
def pieces (n : Nat) : Nat → List Byte → List (List Byte)
  | 0, _ => []
  | k + 1, bs => bs.take n :: pieces n k (bs.drop n)

/-! ## Step entries (R31, R33, R203) -/

/-- A checked value with the mark that it was clamped. -/
structure Taken (α : Type) where
  value : α
  clamped : Bool
  deriving DecidableEq, Repr

/-- A tuning value clamped to its range (R191). -/
def takeNat (lo hi n : Nat) : Taken Nat := { value := clampNat lo hi n, clamped := n < lo || hi < n }

/-- A step entry of PLAN LOAD at step index `index`: none where R33 check 4 gives RANGE. -/
def readStep (index : Nat) (e : List Byte) : Option (Taken PlanStep) :=
  match e with
  | [kind, phase, flags, t2, t1, t0, l1, l0, o1, o0, target, count] =>
    let dose := takeNat 0 Config.doseCap (be24 t2 t1 t0)
    let limit := takeNat 1 65535 (be16 l1 l0)
    let act : LimitAction := if flags.getLsbD 1 then .continue else .fail
    if kind = 1 then some { value := .baseline, clamped := false }
    else if kind = 2 then
      if 1 ≤ phase.toNat ∧ phase.toNat ≤ 15 then
        if flags.getLsbD 0 then
          some { value := .exercise phase.toNat (some dose.value) limit.value act
                 clamped := dose.clamped || limit.clamped }
        else some { value := .exercise phase.toNat none limit.value act, clamped := limit.clamped }
      else none
    else if kind = 3 then
      if flags.getLsbD 0 then
        some { value := .soak dose.value limit.value act, clamped := dose.clamped || limit.clamped }
      else none
    else if kind = 4 then
      let off := takeNat 1 600 (be16 o1 o0)
      some { value := .cycle off.value, clamped := off.clamped }
    else if kind = 5 then
      if 1 ≤ target.toNat ∧ target.toNat < index then
        let n := takeNat 1 255 count.toNat
        some { value := .loop target.toNat n.value, clamped := n.clamped }
      else none
    else none
  | _ => none

/-- The step entries of PLAN LOAD from step index `index` on. -/
def readSteps (index : Nat) : List (List Byte) → Option (Taken (List PlanStep))
  | [] => some { value := [], clamped := false }
  | e :: es =>
    match readStep index e, readSteps (index + 1) es with
    | some x, some xs => some { value := x.value :: xs.value, clamped := x.clamped || xs.clamped }
    | _, _ => none

/-! ## Segments, rules and bands (R80, R118, R133, R203) -/

/-- A segment of PROFILE LOAD, clamped (R80). -/
def readSegment (e : List Byte) : Option (Taken Segment) :=
  match e with
  | [t1, t0, r1, r0, h1, h0] =>
    let target := takeNat 0 Config.tempTop (be16 t1 t0)
    let rate := takeNat 0 500 (be16 r1 r0)
    some { value := { target := target.value, rate := rate.value, hold := be16 h1 h0 }
           clamped := target.clamped || rate.clamped }
  | _ => none

def readSegments : List (List Byte) → Option (Taken (List Segment))
  | [] => some { value := [], clamped := false }
  | e :: es =>
    match readSegment e, readSegments es with
    | some x, some xs => some { value := x.value :: xs.value, clamped := x.clamped || xs.clamped }
    | _, _ => none

def readSpec (b : Byte) : Option Spec :=
  if b = 1 then some .ignore else if b = 2 then some .set else if b = 3 then some .clear
  else if b = 4 then some .changed else if b = 5 then some .rose else if b = 6 then some .fell else none

def readSpecs : List Byte → Option (List Spec)
  | [] => some []
  | b :: bs => match readSpec b, readSpecs bs with
    | some x, some xs => some (x :: xs)
    | _, _ => none

/-- A rule entry of WATCH LOAD: none where R118 check 2 gives RANGE. A NOTE or SUSPEND rule takes no class. -/
def readRule (e : List Byte) : Option WatchRule :=
  match e with
  | enabled :: mode :: action :: cls :: specs =>
    let mode? : Option WatchMode := if mode = 1 then some .all else if mode = 2 then some .any else none
    let action? : Option WatchAction :=
      if action = 1 then some .note else if action = 2 then some .suspend
      else if action = 3 then some .reject else none
    match mode?, action?, readSpecs specs with
    | some m, some a, some xs =>
      let v : Vector Spec 16 := Vector.ofFn fun n => (xs[n.val]?).getD .ignore
      match a, ofNum 7 cls.toNat with
      | .reject, some c => some { enabled := flagOf enabled, mode := m, action := a, cls := some c, specs := v }
      | .reject, none => none
      | _, _ => some { enabled := flagOf enabled, mode := m, action := a, cls := none, specs := v }
    | _, _, _ => none
  | _ => none

def readRules : List (List Byte) → Option (List WatchRule)
  | [] => some []
  | e :: es => match readRule e, readRules es with
    | some x, some xs => some (x :: xs)
    | _, _ => none

/-- A bin 0 to 12. -/
def readBin (b : Byte) : Option Bin := if h : b.toNat < 13 then some ⟨b.toNat, h⟩ else none

def readBins : List Byte → Option (List Bin)
  | [] => some []
  | b :: bs => match readBin b, readBins bs with
    | some x, some xs => some (x :: xs)
    | _, _ => none

def readBand (e : List Byte) : Option Band :=
  match e with
  | [l1, l0, b] => (readBin b).map fun bin => { lower := be16 l1 l0, bin := bin }
  | _ => none

def readBands : List (List Byte) → Option (List Band)
  | [] => some []
  | e :: es => match readBand e, readBands es with
    | some x, some xs => some (x :: xs)
    | _, _ => none

/-- Lower bounds at or below 1000, strictly descending, the last 0 (R133 checks 3, 5 and 6). -/
def bandsInOrder : List Band → Bool
  | [] => false
  | [b] => b.lower == 0
  | b :: c :: rest => b.lower ≤ 1000 && c.lower < b.lower && bandsInOrder (c :: rest)

/-! ## Drive-link frames (R51 to R55, R206) -/

/-- The sum of the bytes of a frame modulo 256 (R51). -/
def byteSum (bs : List Byte) : Byte := bs.foldl (· + ·) 0

/-- The code byte of a request (R206). -/
def LinkRequest.code : LinkRequest → Byte
  | .directed .ident _ => 0x11
  | .directed (.phaseStart _) _ => 0x12
  | .directed .halt _ => 0x13
  | .status => 0x14
  | .summary _ => 0x15

/-- The payload of a request (R53 to R55). -/
def LinkRequest.payload : LinkRequest → List Byte
  | .directed (.phaseStart p) _ => [BitVec.ofNat 8 p]
  | .summary b => [BitVec.ofNat 8 b]
  | _ => []

/-- The bytes the SL sends for a request: sync, code, length, payload and the check that makes the sum 0 (R51, R206). -/
def LinkRequest.wire (r : LinkRequest) : List Byte :=
  let head := Config.sync :: r.code :: BitVec.ofNat 8 r.payload.length :: r.payload
  head ++ [- byteSum head]

/-- The payload length a reply to a request must have (R206). -/
def LinkRequest.replyLength : LinkRequest → Nat
  | .directed .ident _ => 25
  | .directed (.phaseStart _) _ => 0
  | .directed .halt _ => 0
  | .status => 9
  | .summary b => if b = 0 then 8 else 5

def readDriveState (b : Byte) : Option DriveState :=
  if b = 0 then some .idle else if b = 1 then some .busy else if b = 2 then some .done
  else if b = 3 then some .failed else none

/-- The drive status and payload of a reply that passes tests 1 to 5 of R52 for a request. Bytes before the sync
are discarded (R51), and so are bytes after the reply's last one. -/
def readReply (r : LinkRequest) (bytes : List Byte) : Option (DriveState × List Byte) :=
  match bytes.dropWhile (· != Config.sync) with
  | _sync :: code :: status :: len :: rest =>
    match readDriveState status with
    | some d =>
      if code = r.code ∧ len.toNat = r.replyLength ∧ r.replyLength < rest.length ∧
          byteSum (Config.sync :: code :: status :: len :: rest.take (r.replyLength + 1)) = 0 then
        some (d, rest.take r.replyLength)
      else none
    | none => none
  | _ => none

/-- The last-status record of a good STATUS reply, with its clamps; a phase above 15 fails (R54). -/
def readStatus (d : DriveState) (payload : List Byte) (now : Time) : Option LastStatus :=
  match payload with
  | [phase, progress, temp, g1, g0, p1, p0, f1, f0] =>
    if phase.toNat ≤ 15 then
      some { state := d, phase := phase.toNat, progress := min 100 progress.toNat, temp := min 150 temp.toNat,
             grown := be16 g1 g0, pending := be16 p1 p0, fault := BitVec.ofNat 16 (be16 f1 f0), time := now }
    else none
  | _ => none

/-- The identity of a good IDENT reply (R53, R206). -/
def readIdentity (payload : List Byte) : Option Identity :=
  match payload.drop 20 with
  | [m1, m0, c, f1, f0] =>
    some { serial := payload.take 20, model := be16 m1 m0, capacity := c.toNat, firmware := be16 f1 f0 }
  | _ => none

/-- What a good SUMMARY reply holds: block 0, or the margins of a later block (R55). -/
inductive SummaryBlock | zero (b : Block0) | margins (ms : List Nat)
  deriving DecidableEq, Repr

/-- A SUMMARY payload for the block asked, with the clamps of R55; another block's number fails. -/
def readBlock (asked : Nat) (payload : List Byte) : Option SummaryBlock :=
  match payload with
  | [b, g1, g0, p1, p0, t, h, v] =>
    if b.toNat = asked ∧ asked = 0 then
      some (.zero { grown := be16 g1 g0, pending := be16 p1 p0, maxTemp := min 150 t.toNat,
                    headCount := clampNat 1 12 h.toNat, driveVerdict := v.toNat })
    else none
  | [b, m1, m2, m3, m4] =>
    if b.toNat = asked ∧ asked ≠ 0 then some (.margins [m1.toNat, m2.toNat, m3.toNat, m4.toNat]) else none
  | _ => none

end Sys2Proof.Machine
end

