-- ==== Sys2Proof/Machine/Layout.lean ====
section
/-! DEFINITION. How the part writes what it sends: numbers, optional fields and lists (R202), the line frame with its
CRC (R183), notices (R203), manifest records (R205), and the pieces the query replies are made of. The spec gives no
size for some fields of a reply: such a field takes the fewest whole bytes that hold its range (log entry 16). -/

namespace Sys2Proof.Machine

/-! ## Conventions (R202) -/

def u8 (n : Nat) : List Byte := [BitVec.ofNat 8 n]
def u16 (n : Nat) : List Byte := [BitVec.ofNat 8 (n / 256), BitVec.ofNat 8 n]
def u24 (n : Nat) : List Byte := BitVec.ofNat 8 (n / 65536) :: u16 n
def u32 (n : Nat) : List Byte := u16 (n / 65536) ++ u16 n
/-- A signed field of three bytes, in two's complement (R202). -/
def i24 (z : Int) : List Byte := u24 (BitVec.ofInt 24 z).toNat
def flag (b : Bool) : List Byte := u8 (if b then 1 else 0)

/-- An optional field of `size` bytes: a presence byte and the field, or zeros (R202). -/
def optional (size : Nat) : Option (List Byte) → List Byte
  | some bs => u8 1 ++ bs
  | none => u8 0 ++ List.replicate size 0

def opt8 (o : Option Nat) : List Byte := optional 1 (o.map u8)
def opt16 (o : Option Nat) : List Byte := optional 2 (o.map u16)

/-- A list of varying length: a count byte and the entries (R202). -/
def counted (entries : List (List Byte)) : List Byte := u8 entries.length ++ entries.flatten

/-- Bytes at a fixed size, filled up with zeros. -/
def fixed (size : Nat) (bs : List Byte) : List Byte := (bs ++ List.replicate size 0).take size

/-- A timer's remaining milliseconds behind its presence byte (R204). -/
def timerLeft (now : Time) (t : Option Time) : List Byte := optional 4 (t.map fun e => u32 (Time.remaining now e))

/-! ## The line frame (R183, R202) -/

/-- One bit of the CRC: polynomial x¹⁶ + x¹² + x⁵ + 1, most significant bit first (R183). -/
def crcBit (r : BitVec 16) : BitVec 16 := if r.msb then (r <<< 1) ^^^ 0x1021#16 else r <<< 1

/-- One byte into the CRC register (R183). -/
def crcByte (r : BitVec 16) (b : Byte) : BitVec 16 :=
  crcBit (crcBit (crcBit (crcBit (crcBit (crcBit (crcBit (crcBit (r ^^^ (b.zeroExtend 16 <<< 8)))))))))

/-- The CRC of a frame's length, tag, code and body: the register starts with all bits set (R183). -/
def crc16 (bs : List Byte) : BitVec 16 := bs.foldl crcByte 0xFFFF#16

/-- The bytes of a frame on the line (R202). -/
def lineFrame (tag code : Byte) (body : List Byte) : List Byte :=
  let inner := u8 body.length ++ [tag, code] ++ body
  Config.startByte :: inner ++ u16 (crc16 inner).toNat

/-- The bytes the transmitter puts on the line for a frame. -/
def OutFrame.wire (f : OutFrame) : List Byte := lineFrame f.tag f.code f.body

/-! ## Records as they are sent -/

/-- An end cause with its optional class (R2, R17; log entry 19). -/
def EndCause.bytes (c : EndCause) : List Byte := u8 c.byte ++ opt8 (c.cls.map num)

def optCause (c : Option EndCause) : List Byte := optional 3 (c.map EndCause.bytes)

def Identity.bytes (x : Identity) : List Byte :=
  fixed 20 x.serial ++ u16 x.model ++ u8 x.capacity ++ u16 x.firmware

/-- A verdict: bin, score, fault cause, bar recorded (R2). Bar recorded is sent as a flag, yes 1 and no 0: the model's
choice (log entry 59). -/
def Verdict.bytes (v : Verdict) : List Byte :=
  u8 v.bin.val ++ opt16 v.score ++ opt8 (v.fault.map num) ++ flag v.bar

def Summary.bytes (x : Summary) : List Byte :=
  u16 x.grown ++ u16 x.pending ++ u8 x.maxTemp ++ u8 x.headCount ++ counted (x.margins.map u8) ++
    u8 x.driveVerdict

/-- A step entry of PLAN LOAD and PLAN READ; a field the kind does not use is 0 (R203). -/
def PlanStep.bytes : PlanStep → List Byte
  | .baseline => u8 1 ++ List.replicate 11 0
  | .exercise phase target limit act =>
    u8 2 ++ u8 phase ++ u8 (bitSet [target.isSome, act = .continue]) ++ u24 (target.getD 0) ++ u16 limit ++
      List.replicate 4 0
  | .soak target limit act =>
    u8 3 ++ u8 0 ++ u8 (bitSet [true, act = .continue]) ++ u24 target ++ u16 limit ++ List.replicate 4 0
  | .cycle off => u8 4 ++ List.replicate 7 0 ++ u16 off ++ List.replicate 2 0
  | .loop target count => u8 5 ++ List.replicate 9 0 ++ u8 target ++ u8 count

def Segment.bytes (x : Segment) : List Byte := u16 x.target ++ u16 x.rate ++ u16 x.hold

/-- A rule entry of WATCH LOAD (R118, R203); an absent class is a class byte of 0 (log entry 42). -/
def WatchRule.bytes (r : WatchRule) : List Byte :=
  flag r.enabled ++ u8 r.mode.byte ++ u8 r.action.byte ++ u8 (match r.cls with | some c => num c | none => 0) ++
    (r.specs.toList.map fun x => u8 x.byte).flatten

/-- A watch latch: EMPTY or FULL with its fields (R110, R120). The layout is the model's (log entry 43). -/
def latchBytes (l : Option WatchLatch) : List Byte :=
  match l with
  | none => u8 1 ++ List.replicate 11 0
  | some x =>
    u8 2 ++ u8 (num x.rule) ++ u8 x.action.byte ++ opt8 (x.cls.map num) ++ u32 x.stamp.toNat ++
      u16 x.snapshot.toNat ++ flag x.again

/-- The lane line's value: 0 for INSERT (R142). -/
def OrderKind.lane : OrderKind → Nat
  | .insert => 0
  | .extract b => num b

/-- An order record at a position (R142): kind, slot, lane, bin, number, position. -/
def Order.bytes (o : Order) (position : Nat) : List Byte :=
  u8 o.kind.byte ++ u8 (num o.slot) ++ u8 o.kind.lane ++
    opt8 (match o.kind with | .insert => none | .extract b => some (num b)) ++ u16 o.number ++ u8 position

def LinkSettings.bytes (x : LinkSettings) : List Byte :=
  u8 x.pollTimeout ++ u8 x.missLimit ++ u8 x.gapBudget ++ u16 x.minPeriod

def DoseTable.bytes (x : DoseTable) : List Byte := (x.weights.toList.map u8).flatten ++ u16 x.base

def Weights.bytes (w : Weights) : List Byte :=
  u8 w.wd ++ u8 w.ws ++ u8 w.wu ++ u8 w.wm ++ u8 w.wh ++ u8 w.floor

def bandsBytes (m : List Band) : List Byte := counted (m.map fun b => u16 b.lower ++ u8 b.bin.val)

/-! ## Manifest records (R205) -/

/-- A manifest record at its 55 bytes. -/
def ManifestRec.bytes (r : ManifestRec) : List Byte :=
  match r.body with
  | .shipped x =>
    u8 1 ++
      u8 (bitSet [x.identity.isSome, x.score.isSome, x.fault.isSome, x.spinFirst.isSome, x.spinWorst.isSome,
        x.growth.isSome, x.margin.isSome]) ++
      u32 r.number ++ u32 r.time.toNat ++ u8 (num x.slot) ++ u16 x.sequence ++ u8 (num x.lane) ++
      u8 x.position ++ u8 x.runCount ++ u16 (x.score.getD 0) ++
      u8 (match x.fault with | some e => num e | none => 0) ++ u24 x.dose ++ u16 (x.spinFirst.getD 0) ++
      u16 (x.spinWorst.getD 0) ++ i24 (x.growth.getD 0) ++ u8 (x.margin.getD 0) ++
      (match x.identity with | some d => d.bytes | none => List.replicate 25 0)
  | .carton x =>
    u8 2 ++ u8 (bitSet [x.short]) ++ u32 r.number ++ u32 r.time.toNat ++ u8 (num x.lane) ++ u16 x.sequence ++
      u8 x.count ++ List.replicate 41 0

/-- The entries reserved (R174). -/
def Ring.reserved (r : Ring) : Nat := match r.reservation with | some v => v.entries | none => 0

/-- The number of the oldest record, 0 for an empty ring (R205). -/
def Ring.oldest (r : Ring) : Nat := match r.records.head? with | some x => x.number | none => 0

/-- The number of the newest record, 0 for an empty ring (R205). -/
def Ring.newest (r : Ring) : Nat := match r.records.getLast? with | some x => x.number | none => 0

/-- The ring values of R179 and R205, the count taken first (R203; log entry 17). -/
def Ring.values (r : Ring) (count : Nat) : List Byte :=
  u8 count ++ u8 (bitSet [!r.records.isEmpty]) ++ u16 r.records.length ++ u32 r.oldest ++ u32 r.newest ++
    u32 r.next ++ u8 r.reserved

/-! ## Notices (R193, R203) -/

/-- The content of a notice, in the order its rule lists it (log entries 16, 19; for WATCH 44, for RUN_END 45). In
CARTON the record number, sequence and count of the CARTON record stand behind one presence byte, zeros for an event
other than FULL and SHORT (R171): the model's choice (log entry 54). -/
def NoticeBody.bytes : NoticeBody → List Byte
  | .slotState i now before cause hold =>
    u8 (num i) ++ u8 now.byte ++ u8 before.byte ++ optCause cause ++ opt8 (hold.map HoldReason.byte)
  | .runEnd i run v replaced detail =>
    u8 (num i) ++ u8 run.runCount ++ optional 20 (run.identity.map fun x => fixed 20 x.serial) ++
      optCause run.endCause ++ flag run.summaryMissing ++ flag run.countRegressed ++ v.bytes ++
      opt8 (replaced.map fun b => b.val) ++
      optional 31 (detail.map fun d =>
        u8 d.band ++ u24 d.g ++ u16 d.s ++ u24 d.u ++ u16 d.m ++ u8 d.h ++
          u32 d.pd ++ u24 d.ps ++ u24 d.pu ++ u24 d.pm ++ u16 d.ph ++ u32 d.penalty) ++
      opt8 (v.fault.map num)
  | .watch i event count latch again =>
    u8 (num i) ++ u8 event.byte ++ u8 count ++ (latchBytes (some latch)).drop 1 ++
      optional 4 (again.map fun x => u8 (num x.1) ++ u8 x.2.1.byte ++ u16 x.2.2.toNat)
  | .zoneTrip z first present seen time =>
    u8 (num z) ++ u8 first.byte ++ u8 present.bits ++ u8 seen.bits ++ u32 time.toNat
  | .zoneClear z first seen time => u8 (num z) ++ u8 first.byte ++ u8 seen.bits ++ u32 time.toNat
  | .carton b event r closed =>
    u8 (num b) ++ u8 event.byte ++ u8 r.state.byte ++ u16 r.sequence ++ u8 r.fill ++ u8 r.capacity ++
      opt8 r.staged ++ optional 7 (closed.map fun c => u32 c.1 ++ u16 c.2.1 ++ u8 c.2.2)
  | .handlerSlot i event o st n =>
    u8 (num i) ++ u8 event.byte ++ u8 o.kind.byte ++ u16 o.number ++ u8 o.kind.lane ++
      opt8 (match o.kind with | .insert => none | .extract b => some (num b)) ++ u8 st.byte ++ u8 n
  | .handlerPort reason slot order =>
    u8 HandlerEvent.portFault.byte ++ u8 reason.byte ++ u8 (num slot) ++ u16 order
  | .manifestHigh held threshold oldest newest reserved closing =>
    u16 held ++ u16 threshold ++ u32 oldest ++ u32 newest ++ u8 reserved ++ u8 closing
  | .overflow count kind source time => u16 count ++ u8 kind.byte ++ u8 source ++ u32 time.toNat

/-- The frame of a notice under its sequence number: tag 0, and the codes 0x80 to 0x88 (R192, R203). -/
def Notice.frame (n : Notice) (sequence : BitVec 16) : OutFrame :=
  { tag := 0, code := BitVec.ofNat 8 (0x7F + n.body.kind.byte)
    body := u16 sequence.toNat ++ u32 n.time.toNat ++ u8 n.merges ++ u8 n.source ++ n.body.bytes
    served := false, after := .nothing }

end Sys2Proof.Machine
end

