-- ==== Sys2Proof/Machine/Notices.lean ====
section
/-! DEFINITION. The notice queue (R193 to R196) and the manifest ring's writer, whose high-water judgement queues a
notice of its own (R174, R181). -/

namespace Sys2Proof.Machine

/-! ## The notice queue (R194 to R196) -/

/-- A waiting notice is of the same kind and source as a new one (R195). -/
def Notice.sameAs (n : Notice) (b : NoticeBody) : Bool := n.body.kind = b.kind && n.source = b.source

/-- A waiting notice with the content of a newer one: its place is kept and its merge count rises (R195). -/
def Notice.replacedBy (n : Notice) (b : NoticeBody) (time : Count32) : Notice :=
  { n with body := b, time := time, merges := saturate 255 (n.merges + 1) }

/-- The waiting notices with the first of the same kind and source replaced (R195, item 1). -/
def mergeNotice (b : NoticeBody) (time : Count32) : List Notice → List Notice
  | [] => []
  | n :: ns => if n.sameAs b then n.replacedBy b time :: ns else n :: mergeNotice b time ns

/-- An OVERFLOW notice counts one more drop; another notice is left alone (R196). -/
def Notice.countDrop (n : Notice) : Notice :=
  match n.body with
  | .overflow c k src t => { n with body := .overflow (saturate Config.cap16 (c + 1)) k src t }
  | _ => n

/-- The notice is of the OVERFLOW kind. -/
def Notice.isOverflow (n : Notice) : Bool := n.body.kind = .overflow

/-- An ordinary notice is dropped: OVERFLOW counts it, or is queued with it in the 64th entry (R196). -/
def dropNotice (b : NoticeBody) (time : Count32) (ns : List Notice) : List Notice :=
  if ns.any Notice.isOverflow then ns.map Notice.countDrop
  else ns ++ [{ source := 0, body := .overflow 1 b.kind b.source time, time := time, merges := 0 }]

/-- The notice queue after a notice is offered while its group is OPEN (R195). -/
def placeNotice (b : NoticeBody) (time : Count32) (ns : List Notice) : List Notice :=
  if ns.any (fun n => n.sameAs b) then mergeNotice b time ns
  else if ns.countP (fun n => !n.isOverflow) < Config.ordinaryNotices then
    ns ++ [{ source := b.source, body := b, time := time, merges := 0 }]
  else dropNotice b time ns

/-- A rule queues a notice: it is offered only while its group is OPEN (R194), with the rack time (R193). -/
def State.notify (s : State) (b : NoticeBody) : State :=
  if s.line.mask.masks b.kind then s
  else s.setLine { s.line with notices := placeNotice b s.line.rackTime s.line.notices }

/-! ## Writing the manifest ring (R174, R181) -/

/-- The bins in CLOSING (R181). -/
def State.closingBins (s : State) : Nat := s.cartons.toList.countP fun c => c.state = .closing

/-- The high-water state is judged: a move from BELOW to ABOVE queues MANIFEST_HIGH (R181). -/
def State.judgeHighWater (s : State) : State :=
  let above : Bool := s.ring.threshold ≤ s.ring.records.length
  let t := s.setRing { s.ring with above := above }
  if above && !s.ring.above then
    t.notify (.manifestHigh s.ring.records.length s.ring.threshold s.ring.oldest s.ring.newest s.ring.reserved
      s.closingBins)
  else t

/-- A record is written: it takes the next record number and the rack time (R174 to R176). -/
def State.writeRecord (s : State) (b : ManifestBody) : State :=
  (s.setRing { s.ring with
    records := s.ring.records ++ [{ number := s.ring.next, time := s.line.rackTime, body := b }]
    next := nextWrap 4294967295 s.ring.next }).judgeHighWater

end Sys2Proof.Machine
end

