-- ==== Sys2Proof/Machine/Links.lean ====
section
/-! DEFINITION. The shelf link engine (chapter 3): joining and leaving, what SC asks for, and the phases of the scan
frame. What SC does with what a link learns is in Machine/Replies.lean. -/

namespace Sys2Proof.Machine

/-- A slot is on a link's scan list or among its pending joins (R57, R63). -/
def Link.knows (l : Link) (i : SlotNo) : Bool := l.scan.contains i || l.joins.contains i

/-- SC asks for a slot to join its link (R57). -/
def Link.join (l : Link) (i : SlotNo) : Link := if l.knows i then l else { l with joins := l.joins ++ [i] }

/-- A slot leaves its link (R58): list place, outstanding transaction, directed entry, summary operation. -/
def Link.leave (l : Link) (i : SlotNo) : Link :=
  if l.knows i then
    { l with
      scan := l.scan.filter (· ≠ i)
      joins := l.joins.filter (· ≠ i)
      unpolled := l.unpolled.filter (· ≠ i)
      directed := l.directed.filter (·.slot ≠ i)
      summary := l.summary.filter (·.slot ≠ i)
      outstanding := match l.outstanding with
        | some t => if t.slot = i then none else some t
        | none => none }
  else l

/-- SC asks for a directed transaction (R63): discarded for a slot the link does not know; in place of the
slot's waiting entry; or at the tail. -/
def Link.ask (l : Link) (i : SlotNo) (c : DirectedCode) (p : Purpose) : Link :=
  let e : Directed := { slot := i, code := c, purpose := p }
  if l.knows i then
    if l.directed.any (·.slot = i) then
      { l with directed := l.directed.map fun d => if d.slot = i then e else d }
    else { l with directed := l.directed ++ [e] }
  else l

/-- A summary operation before its first block (R65). -/
def SummaryOp.begin (i : SlotNo) : SummaryOp :=
  { slot := i, next := 0, block0 := none, margins := [], misses := 0 }

/-- SC asks for a summary read (R65). -/
def Link.askSummary (l : Link) (i : SlotNo) : Link :=
  if l.summary.any (·.slot = i) then l else { l with summary := l.summary ++ [SummaryOp.begin i] }

def State.joinLink (s : State) (i : SlotNo) : State := s.modLink (shelfOf i) (·.join i)
def State.leaveLink (s : State) (i : SlotNo) : State := s.modLink (shelfOf i) (·.leave i)
def State.askLink (s : State) (i : SlotNo) (c : DirectedCode) (p : Purpose) : State :=
  s.modLink (shelfOf i) (·.ask i c p)
def State.askSummary (s : State) (i : SlotNo) : State := s.modLink (shelfOf i) (·.askSummary i)

/-- A slot's record is emptied of its last status (R69). -/
def State.forgetStatus (s : State) (i : SlotNo) : State :=
  s.setLinkSlot i { s.linkSlot i with last := none }

/-! ## The scan frame (R59 to R63) -/

/-- The link has no transaction outstanding (R52). -/
def Link.free (l : Link) : Bool := l.outstanding.isNone

/-- The oldest eligible entry of the directed queue: its slot is on the scan list (R63). -/
def Link.eligible (l : Link) : Option Directed := l.directed.find? fun d => l.scan.contains d.slot

/-- R61: the gap budget is used, the summary queue is empty, or the head waits for its join. -/
def Link.gapOver (l : Link) : Bool :=
  match l.summary with
  | [] => true
  | op :: _ => l.settings.gapBudget ≤ l.gapCount || l.joins.contains op.slot

/-- The gap ends: the gap count returns to 0 and the phase becomes WAIT (R61). -/
def Link.endGap (l : Link) : Link := { l with gapCount := 0, phase := .wait }

/-- A free link whose phase has no work left goes on to the next one: POLL to GAP when every slot has been polled
or skipped (R60), GAP to WAIT when no directed entry can be sent and the gap is over (R61). -/
def Link.advance (l : Link) : Link :=
  if l.free then
    let l := if l.phase = .poll && l.unpolled.isEmpty then { l with phase := .gap } else l
    if l.phase = .gap && l.eligible.isNone && l.gapOver then l.endGap else l
  else l

/-- Every link is brought on to the phase its work gives it. -/
def State.advanceLinks (s : State) : State := { s with links := mapEach Link.advance s.links }

/-- The minimum frame period in force has elapsed since the frame start (R62 item 1). -/
def Link.periodOver (l : Link) (now : Time) : Bool := l.settings.minPeriod ≤ Time.since now l.frameStart

/-- The next frame may start: the link is in WAIT, free, and its minimum frame period is over (R62). -/
def Link.frameDue (l : Link) (now : Time) : Bool := l.phase = .wait && l.free && l.periodOver now

/-- A frame start (R59). -/
def Link.startFrame (l : Link) (now : Time) : Link :=
  { l with
    frameStart := now
    scan := l.scan ++ l.joins
    joins := []
    settings := l.staged.getD l.settings
    staged := none
    phase := .poll
    unpolled := l.scan ++ l.joins }

/-- A transaction begins: its poll timeout runs from now (R52). -/
def Link.send (l : Link) (i : SlotNo) (r : LinkRequest) (now : Time) : Link :=
  { l with outstanding := some { slot := i, request := r, expiry := Time.after now l.settings.pollTimeout,
                                 spoiled := false } }

/-- The directed entry that can be sent is sent (R63). -/
def Link.sendDirected (l : Link) (now : Time) : Link :=
  match l.eligible with
  | some d =>
    { l with directed := l.directed.filter (·.slot ≠ d.slot) }.send d.slot (.directed d.code d.purpose) now
  | none => l

/-- STATUS goes to the first slot not yet polled (R60). -/
def Link.sendPoll (l : Link) (now : Time) : Link :=
  match l.unpolled with
  | i :: rest => { l with unpolled := rest }.send i .status now
  | [] => l

/-- The next block of the head operation is asked for, and the gap count rises (R61, R66). -/
def Link.sendSummary (l : Link) (now : Time) : Link :=
  match l.summary with
  | op :: _ => { l with gapCount := l.gapCount + 1 }.send op.slot (.summary op.next) now
  | [] => l

/-- The selector: the position of the shelf it connects, none between transactions (R51). -/
def Link.selector (l : Link) : Option Nat := l.outstanding.map fun t => positionOf t.slot

/-- The bytes of the request outstanding (R51, R206). -/
def Link.sent (l : Link) : Option (List Byte) := l.outstanding.map fun t => t.request.wire

/-! ## Miss counts (R71) -/

/-- A miss raises both counts (R71). -/
def LinkSlot.miss (x : LinkSlot) : LinkSlot :=
  { x with consecutive := saturate 255 (x.consecutive + 1), total := saturate Config.cap16 (x.total + 1) }

/-- A good reply sets the consecutive count to 0 (R71). -/
def LinkSlot.good (x : LinkSlot) : LinkSlot := { x with consecutive := 0 }

end Sys2Proof.Machine
end

