-- ==== Sys2Proof/Machine/Sorting.lean ====
section
/-! DEFINITION. The verdict (R123 to R131), worked out from the run record, the spin record, the miss count and SU's
tables, and SORT PROBE's part of it (R140). -/

namespace Sys2Proof.Machine

/-- The base defect count of a run, or its fallback base (R126). -/
def RunRec.gradeBase (r : RunRec) : Option Nat := r.base.or r.fallback

/-- The smallest of a list of margins; the list of a summary is never empty (R127). -/
def weakest : List Nat → Nat
  | [] => 0
  | [m] => m
  | m :: n :: rest => min m (weakest (n :: rest))

/-- Defect growth G (R126). -/
def growthInput (base : Option Nat) (x : Summary) : Nat :=
  match base with
  | some b => (x.grown - b) + x.pending
  | none => x.pending

/-- The final defects are below the base (R126, item 3). -/
def regressed (base : Option Nat) (x : Summary) : Bool :=
  match base with
  | some b => x.grown < b
  | none => false

/-- Spin-up drift S (R127). -/
def driftInput (r : SpinRec) : Nat := if 2 ≤ r.count then r.worst.getD 0 - r.first.getD 0 else 0

/-- The band of a score: the first whose lower bound is at or below it, with its number (R129). -/
def bandFrom (score : Nat) : Nat → List Band → Option (Nat × Bin)
  | _, [] => none
  | k, b :: bs => if b.lower ≤ score then some (k, b.bin) else bandFrom score (k + 1) bs

def bandOf (m : List Band) (score : Nat) : Option (Nat × Bin) := bandFrom score 1 m

/-- The score with its inputs and terms (R127, R128), and the band (R129). -/
def scoreDetail (t : SortTables) (run : RunRec) (x : Summary) (spin : SpinRec) (misses : Nat) : ScoreDetail :=
  let w := t.weights
  let g := growthInput run.gradeBase x
  let s := driftInput spin
  let u := run.deficit
  let h := weakest x.margins
  let pd := g * w.wd
  let ps := s * w.ws / 16
  let pu := u * w.wu / 64
  let pm := misses * w.wm / 8
  let ph := (w.floor - h) * w.wh
  let p := pd + ps + pu + pm + ph
  let score := 1000 - p
  { band := match bandOf t.map score with | some x => x.1 | none => 0
    g := g, s := s, u := u, m := misses, h := h, pd := pd, ps := ps, pu := pu, pm := pm, ph := ph,
    penalty := p, score := score }

/-- The bar step (R124 step 5, R130): the bin, bar recorded, and the bin it replaced. -/
def barStep (t : SortTables) (b : Bin) : Bin × Bool × Option Bin :=
  match laneOf b with
  | some n => if t.barred[n] then (0, true, some b) else (b, false, none)
  | none => (b, false, none)

/-- What SU works out for a run (R124). -/
structure Judgement where
  verdict : Verdict
  replaced : Option Bin
  detail : Option ScoreDetail
  regressed : Bool
  deriving DecidableEq, Repr

/-- A judgement of bin 0 with score and fault cause absent (R124 step 2). -/
def Judgement.hold : Judgement :=
  { verdict := { bin := 0, score := none, fault := none, bar := false }
    replaced := none, detail := none, regressed := false }

/-- A judgement by the fault table (R124 step 3, R125). -/
def judgeFault (t : SortTables) (e : FaultEntry) : Judgement :=
  let (b, bar, old) := barStep t t.faults[e]
  { verdict := { bin := b, score := none, fault := some e, bar := bar }
    replaced := old, detail := none, regressed := false }

/-- A judgement by the score (R124 step 4). -/
def judgeScore (t : SortTables) (run : RunRec) (x : Summary) (spin : SpinRec) (misses : Nat) : Judgement :=
  let d := scoreDetail t run x spin misses
  let (b, bar, old) := barStep t (match bandOf t.map d.score with | some x => x.2 | none => 0)
  { verdict := { bin := b, score := some d.score, fault := none, bar := bar }
    replaced := old, detail := some d, regressed := regressed run.gradeBase x }

/-- The verdict of a run (R124). -/
def judge (t : SortTables) (run : RunRec) (spin : SpinRec) (misses : Nat) : Judgement :=
  match run.endCause with
  | none => Judgement.hold
  | some c =>
    match c.entry with
    | some e => judgeFault t e
    | none =>
      if c = .complete ∨ c = .hostEnd then
        match run.summaryMissing, run.summary with
        | false, some x => judgeScore t run x spin misses
        | _, _ => Judgement.hold
      else Judgement.hold

end Sys2Proof.Machine
end

