-- ==== Sys2Proof/Machine/Slots.lean ====
section
/-! DEFINITION. The slot controller's own operations (chapter 1): changes of state, orders it asks for, run ends and
their paths, the verdict, the spin-up permit scheme, run start and the seat teardown. -/

namespace Sys2Proof.Machine

/-! ## Changes of state (R4) -/

/-- The slot goes to a state; the SLOT_STATE notice carries the end cause the run record holds, and the hold reason
in HELD (R4). The hold reason is absent in every other state (R1). -/
def State.enter (s : State) (i : SlotNo) (st : SlotState) (hold : Option HoldReason) : State :=
  (s.modSlot i fun r => { r with state := st, hold := hold }).notify
    (.slotState i st (s.slot i).state (s.slot i).run.endCause hold)

/-- The slot goes to HELD for a reason. -/
def State.enterHeld (s : State) (i : SlotNo) (why : HoldReason) : State := s.enter i .held (some why)

/-- The slot enters VACANT: every record of it takes its empty values (R1, R69, R98, R110). The seat keeps its two
values and a running debounce (R5, R6 item 5; log entry 11). -/
def State.enterVacant (s : State) (i : SlotNo) (cause : Option EndCause) : State :=
  let r := s.slot i
  (((s.setSlot i (SlotRec.empty r.seatRaw r.seatStable r.debounce r.stepEntry)).forgetStatus i).setDose i
    DoseRec.empty).setWatch i WatchRec.empty |>.notify (.slotState i .vacant r.state cause none)

/-! ## Plans (R32) -/

def State.countPlan (s : State) (p : PlanNo) : State := s.setPlan p { s.plan p with refs := (s.plan p).refs + 1 }

def State.uncountPlan (s : State) (p : PlanNo) : State := s.setPlan p { s.plan p with refs := (s.plan p).refs - 1 }

/-- The slot's assigned plan is removed and its reference count drops by one (R17, R32). -/
def State.dropPlan (s : State) (i : SlotNo) : State :=
  match (s.slot i).plan with
  | some p => (s.modSlot i fun r => { r with plan := none }).uncountPlan p
  | none => s

/-! ## Orders that SC asks for (R143, R144) -/

/-- An order joins the tail of the queue and takes the next number (R142, R143). -/
def Port.joinOrder (p : Port) (kind : OrderKind) (i : SlotNo) : Port :=
  { p with
    queue := p.queue ++ [{ kind := kind, slot := i, number := p.nextNumber, age := p.joined }]
    nextNumber := nextWrap 65535 p.nextNumber
    joined := p.joined + 1 }

def State.joinOrder (s : State) (kind : OrderKind) (i : SlotNo) : State := s.setPort (s.port.joinOrder kind i)

/-- The slot's queued order is withdrawn, if there is one (R144). -/
def State.withdrawOrder (s : State) (i : SlotNo) : State :=
  s.setPort { s.port with queue := s.port.queue.filter (·.slot ≠ i) }

/-- The slot has an order in the queue (R143). -/
def State.orderQueued (s : State) (i : SlotNo) : Bool := s.port.queue.any (·.slot = i)

/-! ## Power and the end of a run (R9, R17) -/

/-- The power switch is turned off, and the slot leaves its shelf link in the same event (R9, R58). -/
def State.powerOff (s : State) (i : SlotNo) : State :=
  (s.modSlot i fun r => { r with power := .off }).leaveLink i

/-- The permit leaves the scheme, with its spin capture timers; no grant is made (R10). -/
def State.clearPermit (s : State) (i : SlotNo) : State :=
  { s.modSlot i fun r => { r with permit := .none, grantedAt := none, spinLimit := none, blanking := none } with
    permitQueue := s.permitQueue.filter (· ≠ i) }

/-- A run ends with a cause: the cause is recorded, the plan is removed and counted down, and the step values go
(R17). -/
def State.recordEnd (s : State) (i : SlotNo) (c : EndCause) : State :=
  ((s.modRun i fun r => { r with endCause := some c }).dropPlan i).modSlot i fun r =>
    { r with step := none, cyclePhase := none, phaseArmed := false, offTimer := none, stepEntered := false }

/-! ## The verdict (R20, R123) -/

/-- SC asks SU for a verdict, stores it and moves the slot by R20. The count regressed flag and the RUN_END notice
come first (R123). -/
def State.verdict (s : State) (i : SlotNo) : State :=
  let j := judge s.sort (s.slot i).run (s.slot i).spin (s.linkSlot i).total
  let s := s.modRun i fun r => { r with countRegressed := r.countRegressed || j.regressed }
  let s := s.notify (.runEnd i (s.slot i).run j.verdict j.replaced j.detail)
  let s := s.modRun i fun r => { r with verdict := some j.verdict }
  match laneOf j.verdict.bin with
  | some b => (s.enter i .graded none).joinOrder (.extract b) i
  | none => s.enterHeld i (if j.verdict.bar then .barred else .verdict)

/-- Steps 1 to 4 of R19, with the permit already out of the scheme. -/
def State.toVerdict (s : State) (i : SlotNo) : State :=
  ((s.powerOff i).modRun i fun r => { r with summaryMissing := true }).verdict i

/-! ## Spin-up permits (R10, R11, R13) -/

/-- Overcurrent after the power is off and the permit is out of the scheme (R13 items 2 and 3). -/
def State.overcurrentEnd (s : State) (i : SlotNo) : State :=
  if (s.slot i).state.runs then (s.recordEnd i .overcurrent).toVerdict i
  else if (s.slot i).state = .ending then
    (s.modRun i fun r => { r with summaryMissing := r.summaryMissing || r.summary.isNone }).verdict i
  else s

/-- The slot is granted its permit: power on, spin capture, spin limit and inrush blanking (R11). -/
def State.grant (s : State) (i : SlotNo) : State :=
  { s.modSlot i fun r =>
      { r with
        permit := .held, power := .on, grantedAt := some s.now
        spinLimit := some (Time.after s.now (s.spin.limitS * 1000))
        blanking := if s.spin.blankingMs = 0 then none else some (Time.after s.now s.spin.blankingMs) } with
    permitQueue := s.permitQueue.filter (· ≠ i) }

/-- The overcurrent line is regarded: power on and inrush blanking not running (R13). -/
def SlotRec.regardsOvercurrent (r : SlotRec) : Bool := r.power = .on && r.blanking.isNone

/-- Overcurrent is taken where the line is active and regarded; no grant is made (R13). -/
def State.checkOvercurrent (s : State) (i : SlotNo) : State :=
  if s.overcurrent[i] && (s.slot i).regardsOvercurrent then
    ((s.powerOff i).clearPermit i).overcurrentEnd i
  else s

/-- Grants while the queue is not empty and the holder count is below K (R10). A slot granted with a blanking time
of 0 and its line active takes overcurrent at once (R13). -/
def grants : Nat → State → State
  | 0, s => s
  | n + 1, s =>
    match s.permitQueue with
    | [] => s
    | i :: _ => if s.holders < s.spin.permits then grants n ((s.grant i).checkOvercurrent i) else s

/-- The grant test (R10). The queue never holds more than 40 slots, and a grant removes one. -/
def State.testGrants (s : State) : State := grants 41 s

/-- The slot joins the permit queue at its tail (R10). -/
def State.joinPermit (s : State) (i : SlotNo) : State :=
  ({ s.modSlot i fun r => { r with permit := .queued } with permitQueue := s.permitQueue ++ [i] }).testGrants

/-- A QUEUED permit leaves the queue, a HELD permit is returned (R10). -/
def State.dropPermit (s : State) (i : SlotNo) : State :=
  match (s.slot i).permit with
  | .none => s
  | .queued => s.clearPermit i
  | .held => (s.clearPermit i).testGrants

/-- Overcurrent is taken (R13). -/
def State.takeOvercurrent (s : State) (i : SlotNo) : State := ((s.powerOff i).dropPermit i).overcurrentEnd i

/-! ## The paths a run's end takes (R18, R19) -/

/-- An end that goes straight to its verdict (R19): SILENT, NO_SPIN, OVERCURRENT, ABORT, and ZONE_TRIP off the link. -/
def State.endAtOnce (s : State) (i : SlotNo) (c : EndCause) : State :=
  (((s.recordEnd i c).powerOff i).dropPermit i).toVerdict i

/-- An end with a summary: ENDING with HALT and a summary read while the drive is on its link, the shorter path
otherwise (R18). -/
def State.endWithSummary (s : State) (i : SlotNo) (c : EndCause) : State :=
  if (s.slot i).cycleOffLink then s.endAtOnce i c
  else (((s.recordEnd i c).enter i .ending none).askLink i .halt .plain).askSummary i

/-- The drive is on its shelf link for a ZONE_TRIP end (R19): IDENTIFYING after the join, PAUSED, REVIEW, or RUNNING
outside the OFF, WAITING and SPINNING phases of a CYCLE step. -/
def State.zoneEndOnLink (s : State) (i : SlotNo) : Bool :=
  match (s.slot i).state with
  | .identifying => (s.link (shelfOf i)).scan.contains i
  | .paused | .review => true
  | .running => !(s.slot i).cycleOffLink
  | _ => false

/-- A ZONE_TRIP end (R19). -/
def State.endByZone (s : State) (i : SlotNo) : State :=
  if s.zoneEndOnLink i then ((s.recordEnd i .zoneTrip).enter i .ending none).askLink i .halt .zoneEnd
  else s.endAtOnce i .zoneTrip

/-! ## Run start (R15) -/

/-- The run record at a run start (R15 item 2). -/
def RunRec.start (r : RunRec) (rerun : Bool) : RunRec :=
  { RunRec.empty with
    identity := if rerun then r.identity else none
    runCount := if rerun then saturate 255 (r.runCount + 1) else 1 }

/-- A run starts, with the plan already assigned and counted (R15): records cleared, the other blocks told, POWERING
and the permit queue. -/
def State.startRun (s : State) (i : SlotNo) (rerun : Bool) : State :=
  let s := s.modSlot i fun r =>
    { r with
      run := r.run.start rerun, hold := none, spin := SpinRec.empty, step := none, stepClock := 0,
      doseStart := 0, loops := Vector.replicate 16 0, cyclePhase := none, phaseArmed := false,
      offTimer := none, stepEntered := false }
  let s := (s.setDose i DoseRec.empty).setWatch i WatchRec.empty
  let s := s.setLinkSlot i LinkSlot.empty
  (s.enter i .powering none).joinPermit i

/-- The plan is newly assigned and counted (R15 item 1, R25). -/
def State.assignPlan (s : State) (i : SlotNo) (p : PlanNo) : State :=
  (s.modSlot i fun r => { r with plan := some p }).countPlan p

/-- The slot goes to SEATED, and on to POWERING with an assigned plan (R6 item 4). -/
def State.enterSeated (s : State) (i : SlotNo) : State :=
  let s := s.enter i .seated none
  if (s.slot i).plan.isSome then s.startRun i false else s

/-! ## The seat teardown (R7) -/

/-- The seat teardown: the drive has gone, and the slot goes to VACANT (R7). -/
def State.teardown (s : State) (i : SlotNo) : State :=
  let s := (((s.powerOff i).dropPermit i).leaveLink i).withdrawOrder i
  let s := if (s.slot i).state.runs then s.recordEnd i .removed else s
  s.enterVacant i (s.slot i).run.endCause

end Sys2Proof.Machine
end

