-- ==== Sys2Proof/Machine/Steps.lean ====
section
/-! DEFINITION. Plans at work (chapter 2): entering a step, advancing the plan, the tests of a tick and of a reply,
the CYCLE phases, and what a step does when its slot comes back to RUNNING. -/

namespace Sys2Proof.Machine

/-! ## Entry and advance (R37, R38) -/

/-- The step with step index `n` of the slot's assigned plan (R31). -/
def State.stepAt (s : State) (i : SlotNo) (n : Nat) : Option PlanStep :=
  match (s.slot i).plan, n with
  | some p, k + 1 => (s.plan p).steps[k]?
  | _, _ => none

/-- Items 1 to 4 of step entry (R37). -/
def SlotRec.beginStep (r : SlotRec) (n acc : Nat) : SlotRec :=
  { r with
    step := some n, stepClock := 0, doseStart := acc, cyclePhase := none, phaseArmed := false,
    stepEntered := true, stepEntry := r.stepEntry + 1 }

def State.beginStep (s : State) (i : SlotNo) (n : Nat) : State :=
  s.modSlot i fun r => r.beginStep n (s.dose i).acc

/-- The loop counter of the LOOP step with index `n` (R46). -/
def SlotRec.loopCount (r : SlotRec) (n : Nat) : Nat := r.loops.toList.getD (n - 1) 0

def SlotRec.setLoop (r : SlotRec) (n c : Nat) : SlotRec := { r with loops := r.loops.setIfInBounds (n - 1) c }

/-- PHASE START for the step's phase is put in the directed queue, and the phase armed flag is cleared (R43). -/
def State.askPhase (s : State) (i : SlotNo) (phase : Nat) : State :=
  (s.modSlot i fun r => { r with phaseArmed := false }).askLink i (.phaseStart phase) (.step (s.slot i).stepEntry)

/-- HALT of a CYCLE step in HALTING is put in the directed queue (R48). -/
def State.askCycleHalt (s : State) (i : SlotNo) : State :=
  s.askLink i .halt (.step (s.slot i).stepEntry)

/-- Entry to a CYCLE step (R48). -/
def State.beginCycle (s : State) (i : SlotNo) : State :=
  (s.modSlot i fun r => { r with cyclePhase := some .halting }).askCycleHalt i

/-- One step entry (R37): the state after it, and the step index to enter next in the same event, where the step is a
LOOP step (R38, R46). -/
def State.enterOnce (s : State) (i : SlotNo) (n : Nat) : State × Option Nat :=
  match s.stepAt i n with
  | none => (s.endWithSummary i .complete, none)
  | some .baseline => (s.beginStep i n, none)
  | some (.soak ..) => (s.beginStep i n, none)
  | some (.exercise phase ..) => ((s.beginStep i n).askPhase i phase, none)
  | some (.cycle _) => ((s.beginStep i n).beginCycle i, none)
  | some (.loop target count) =>
    if (s.slot i).loopCount n < count then
      ((s.beginStep i n).modSlot i fun r => r.setLoop n (r.loopCount n + 1), some target)
    else ((s.beginStep i n).modSlot i fun r => r.setLoop n 0, some (n + 1))

/-- Step entries from a step index on, as long as a LOOP step names another, two to the power `k` of them at most. The
chain is finite, and no longer than that (log entry 24). -/
def enterChain (i : SlotNo) : Nat → State × Option Nat → State × Option Nat
  | _, (s, none) => (s, none)
  | 0, (s, some n) => s.enterOnce i n
  | k + 1, (s, some n) => enterChain i k (enterChain i k (s, some n))

/-- A step of the slot's plan is entered, and on through LOOP steps, until a step of another kind is entered or the run
completes (R37, R38, R46). -/
def State.enterStep (s : State) (i : SlotNo) (n : Nat) : State := (enterChain i Config.chainDoublings (s, some n)).1

/-- The current step is done, and the plan advances (R38). -/
def State.advance (s : State) (i : SlotNo) : State := s.enterStep i ((s.slot i).step.getD 0 + 1)

/-! ## Time limits (R41) -/

/-- The dose target, time limit and limit action of a step that has them (R31). -/
def PlanStep.limits : PlanStep → Option (Option Nat × Nat × LimitAction)
  | .exercise _ target limit act => some (target, limit, act)
  | .soak target limit act => some (some target, limit, act)
  | _ => none

def PlanStep.isExercise : PlanStep → Bool
  | .exercise .. => true
  | _ => false

/-- The drive may be left to idle at this step: BASELINE and SOAK ask for no transaction at entry (R41). -/
def PlanStep.idles : PlanStep → Bool
  | .baseline | .soak .. => true
  | _ => false

/-- The dose a step still owes (R41). -/
def shortfall (target : Option Nat) (dose : Nat) : Nat :=
  match target with
  | some t => t - dose
  | none => 0

/-- HALT for a drive left running its phase by an EXERCISE step that CONTINUE ended (R41). -/
def State.haltLeftPhase (s : State) (i : SlotNo) (was : PlanStep) : State :=
  if was.isExercise && (s.slot i).state = .running && ((s.currentStep i).any PlanStep.idles) then
    s.askLink i .halt .plain
  else s

/-- The limit action of the current step is taken (R41). -/
def State.takeLimit (s : State) (i : SlotNo) (x : PlanStep) (target : Option Nat) (act : LimitAction) : State :=
  match act with
  | .fail => s.endWithSummary i .stepLimit
  | .continue =>
    ((s.modRun i fun r =>
      { r with deficit := saturate Config.doseCap (r.deficit + shortfall target (s.stepDose i)) }).advance i).haltLeftPhase
        i x

/-- A SOAK step has received its target (R45). -/
def State.soakMet (s : State) (i : SlotNo) : PlanStep → Bool
  | .soak target _ _ => target ≤ s.stepDose i
  | _ => false

/-- The second test of R40: the step clock against the time limit. -/
def State.testLimit (s : State) (i : SlotNo) (x : PlanStep) : State :=
  match x.limits with
  | some (target, limit, act) => if limit ≤ (s.slot i).stepClock then s.takeLimit i x target act else s
  | none => s

/-- The tests of a dose minute tick at which the step clock rose (R40). -/
def State.testStep (s : State) (i : SlotNo) : State :=
  match s.currentStep i with
  | some x => if s.soakMet i x then s.advance i else s.testLimit i x
  | none => s

/-- The step clock rises at this tick (R39). -/
def SlotRec.clocks (r : SlotRec) : Bool :=
  r.state = .running && ((r.power = .on && r.stepEntered) || r.cyclePhase = some .off)

/-- SC's part of a dose minute tick at one slot: the step clock and the tests (R39, R40). -/
def State.tickStep (s : State) (i : SlotNo) : State :=
  if (s.slot i).clocks then
    (s.modSlot i fun r => { r with stepClock := saturate Config.cap16 (r.stepClock + 1) }).testStep i
  else s

/-! ## Replies (R40, R42, R44, R45, R49) -/

/-- A good STATUS reply that is not FAILED, taken in RUNNING, is tested against the current step (R40). -/
def State.testReply (s : State) (i : SlotNo) (x : LastStatus) : State :=
  match s.currentStep i with
  | some .baseline => (s.modRun i fun r => { r with base := some x.grown }).advance i
  | some (.exercise phase target _ _) =>
    if (s.slot i).phaseArmed && x.state = .done && x.phase = phase then
      if target.all (· ≤ s.stepDose i) then s.advance i else s.askPhase i phase
    else s
  | some (.soak target _ _) => if target ≤ s.stepDose i then s.advance i else s
  | some (.cycle _) => if (s.slot i).cyclePhase = some .rejoining then s.advance i else s
  | _ => s

/-! ## Directed transactions of a step (R43, R48) -/

/-- The slot is in RUNNING at the step entry that asked (R43, R48), be it after a pause that is over (log entry 41). -/
def State.atEntry (s : State) (i : SlotNo) (entry : Nat) : Bool :=
  (s.slot i).state = .running && (s.slot i).stepEntered && (s.slot i).stepEntry = entry

/-- A CYCLE step moves on from HALTING to OFF (R48). -/
def State.cycleOff (s : State) (i : SlotNo) : State :=
  let off := match s.currentStep i with | some (.cycle t) => t | _ => 0
  (s.powerOff i).modSlot i fun r =>
    { r with cyclePhase := some .off, offTimer := some (Time.after s.now (off * 1000)) }

/-- A HALT transaction has ended, by a reply or by a miss (R48, R19, R64). -/
def State.haltEnded (s : State) (i : SlotNo) (p : Purpose) : State :=
  match p with
  | .plain => s
  | .step entry => if s.atEntry i entry && (s.slot i).cyclePhase = some .halting then s.cycleOff i else s
  | .zoneEnd => if (s.slot i).state = .ending then ((s.powerOff i).dropPermit i).toVerdict i else s

/-- A slot in RUNNING comes up again in a CYCLE step (R48): SPINNING and the permit queue. -/
def State.spinAgain (s : State) (i : SlotNo) : State :=
  (s.modSlot i fun r => { r with cyclePhase := some .spinning }).joinPermit i

/-- The off-time timer expires, in RUNNING in the OFF phase (R48). -/
def State.offTimeOver (s : State) (i : SlotNo) : State :=
  if (s.slot i).state = .running && (s.slot i).cyclePhase = some .off then
    let t := s.modSlot i fun r => { r with offTimer := none }
    if (s.slot i).run.zonePaused then t.modSlot i fun r => { r with cyclePhase := some .waiting }
    else t.spinAgain i
  else s

/-! ## Coming back to RUNNING (R50) -/

/-- The current step of a slot that has returned to RUNNING goes on (R50). -/
def State.resumeStep (s : State) (i : SlotNo) : State :=
  if (s.slot i).stepEntered then
    match s.currentStep i with
    | some (.exercise phase _ _ _) => s.askPhase i phase
    | some (.cycle _) => if (s.slot i).cyclePhase = some .halting then s.askCycleHalt i else s
    | _ => s
  else s.enterStep i ((s.slot i).step.getD 1)

/-- The slot returns to RUNNING at its current step with the zone-paused flag clear (R22, R26). -/
def State.returnToRun (s : State) (i : SlotNo) : State :=
  ((s.modRun i fun r => { r with zonePaused := false }).enter i .running none).resumeStep i

/-! ## IDENT (R16) -/

/-- IDENT succeeds in IDENTIFYING (R16): RUNNING at step 1, or PAUSED before it in a TRIPPED zone. -/
def State.identified (s : State) (i : SlotNo) (x : Identity) : State :=
  let s := s.modRun i fun r => { r with identity := some x }
  if s.zoneTripped i then
    ((s.modSlot i fun r => { r with step := some 1 }).modRun i fun r => { r with zonePaused := true }).enter i .paused
      none
  else (s.enter i .running none).enterStep i 1

/-! ## READY (R11, R49) -/

/-- A spin time in the spin record (R11 item 2). -/
def SpinRec.record (r : SpinRec) (t : Nat) : SpinRec :=
  { first := some (r.first.getD t), latest := some t, worst := some (max (r.worst.getD 0) t)
    count := saturate 255 (r.count + 1) }

/-- POWERING goes on to IDENTIFYING: the join and IDENT are asked for (R16). -/
def State.startIdent (s : State) (i : SlotNo) : State :=
  ((s.enter i .identifying none).joinLink i).askLink i .ident .plain

/-- A CYCLE spin-up has ended by READY (R49). -/
def State.rejoin (s : State) (i : SlotNo) : State :=
  let t := (s.joinLink i).modSlot i fun r => { r with cyclePhase := some .rejoining }
  if (s.slot i).run.zonePaused then t.enter i .paused none else t

/-- READY is seen high for the first time in a spin capture (R11). Inrush blanking runs no longer than the permit is
HELD (R1), so it ends here, and an active line is then overcurrent (R13; log entry 12). -/
def State.readyHigh (s : State) (i : SlotNo) : State :=
  match (s.slot i).grantedAt with
  | none => s
  | some g =>
    let t := ((s.modSlot i fun r =>
      { r with spin := r.spin.record (saturate Config.cap16 (Time.since s.now g)) }).dropPermit i).checkOvercurrent i
    if (t.slot i).state = .powering then t.startIdent i
    else if (t.slot i).state = .running then t.rejoin i
    else t

/-! ## Zone events at a slot (R22) -/

/-- A trip reaches a slot of the shelf (R22). -/
def State.slotTrip (s : State) (i : SlotNo) : State :=
  match (s.slot i).state with
  | .running =>
    if (s.slot i).cycleOffLink then s.modRun i fun r => { r with zonePaused := true }
    else (s.enter i .paused none).askLink i .halt .plain
  | .review => s.modRun i fun r => { r with zonePaused := true }
  | _ => s

/-- A ZONE RESUME reaches a slot of the shelf (R22, R48). -/
def State.slotResume (s : State) (i : SlotNo) : State :=
  match (s.slot i).state with
  | .paused => s.returnToRun i
  | .review => s.modRun i fun r => { r with zonePaused := false }
  | .running =>
    let t := s.modRun i fun r => { r with zonePaused := false }
    if (s.slot i).cyclePhase = some .waiting then t.spinAgain i else t
  | _ => s

/-- A trip grace expiry reaches a slot of the shelf (R22). -/
def State.slotGrace (s : State) (i : SlotNo) : State :=
  match (s.slot i).state with
  | .powering | .identifying | .paused | .review => s.endByZone i
  | .running => if (s.slot i).run.zonePaused then s.endByZone i else s
  | _ => s

/-- An event at every slot of a shelf, lowest number first (R22). -/
def State.onShelf (s : State) (z : ShelfNo) (f : State → SlotNo → State) : State := (slotsOfShelf z).foldl f s

end Sys2Proof.Machine
end

