-- ==== Sys2Proof/Machine/Zones.lean ====
section
/-! DEFINITION. The zone climate unit (chapter 4): causes and trips, the player, the control law and the PWM, and what
a zone hands to the slots of its shelf. -/

namespace Sys2Proof.Machine

/-! ## Trips (R89 to R92) -/

/-- What the trip does to the zone itself (R89 items 1 to 4): the heater, the PWM and control timers, the state and
the trip record. The causes present hold the cause added. -/
def Zone.cut (z : Zone) (c : Cause) (time : Count32) : Zone :=
  { z with
    state := .tripped, heater := .off, control := none, periodEnd := none, onEnd := none, duty := 0, prevDuty := 0,
    pendingDuty := none, trip := some { first := c, time := time, seen := z.causes } }

/-- The grace expires with the zone still TRIPPED (R92). -/
def State.graceOver (s : State) (z : ShelfNo) : State :=
  if (s.zone z).state = .tripped then
    (s.modZone z fun x => { x with grace := some .expired }).onShelf z State.slotGrace
  else s

/-- The grace starts at a trip; a trip grace of 0 makes it expire in the trip event (R92). -/
def State.startGrace (s : State) (z : ShelfNo) : State :=
  let m := (s.zone z).settings.graceMin
  let t := s.modZone z fun x => { x with grace := some (.running (Time.after s.now (m * 60000))) }
  if m = 0 then t.graceOver z else t

/-- A ZONE_TRIP notice with the trip record as it stands (R89, R90). -/
def State.notifyTrip (s : State) (z : ShelfNo) : State :=
  match (s.zone z).trip with
  | some t => s.notify (.zoneTrip z t.first (s.zone z).causes t.seen t.time)
  | none => s

/-- A zone in RUN trips (R89). -/
def State.tripZone (s : State) (z : ShelfNo) (c : Cause) : State :=
  (((s.modZone z fun x => x.cut c s.line.rackTime).onShelf z State.slotTrip).startGrace z).notifyTrip z

/-- A cause joins the causes seen of a trip (R90). -/
def TripRec.see (t : TripRec) (c : Cause) : TripRec := { t with seen := t.seen.add c }

/-- A cause becomes present (R76 to R79): it trips a zone in RUN, joins the trip record of a TRIPPED one, and does no
more in OFF. A cause already present is not added again. -/
def State.addCause (s : State) (z : ShelfNo) (c : Cause) : State :=
  if (s.zone z).causes.has c then s
  else
    let t := s.modZone z fun x => { x with causes := x.causes.add c }
    match (s.zone z).state with
    | .off => t
    | .run => t.tripZone z c
    | .tripped => (t.modZone z fun x => { x with trip := x.trip.map (·.see c) }).notifyTrip z

/-- A cause leaves the present causes; the last one to leave a TRIPPED zone queues ZONE_CLEAR (R91). -/
def State.removeCause (s : State) (z : ShelfNo) (c : Cause) : State :=
  if (s.zone z).causes.has c then
    let t := s.modZone z fun x => { x with causes := x.causes.remove c }
    match (s.zone z).state, (t.zone z).causes.isEmpty, (s.zone z).trip with
    | .tripped, true, some r => t.notify (.zoneClear z r.first r.seen s.line.rackTime)
    | _, _, _ => t
  else s

/-! ## Measurements (R76 to R79) -/

/-- A good reading against the trip limit and its band (R77). -/
def State.judgeOverLimit (s : State) (z : ShelfNo) (t : Nat) : State :=
  let limit := (s.zone z).settings.tripLimit
  if limit < t then s.addCause z .overLimit
  else if t + Config.overLimitBand ≤ limit then s.removeCause z .overLimit
  else s

/-- A good reading (R76 item 1, R77). -/
def State.goodReading (s : State) (z : ShelfNo) (t : Nat) : State :=
  ((s.modZone z fun x => { x with air := some t, sensor := .good, reading := false }).removeCause z .sensor).judgeOverLimit
    z t

/-- A faulted read (R76 items 2 and 3). -/
def State.badReading (s : State) (z : ShelfNo) : State :=
  (s.modZone z fun x => { x with sensor := .fault, reading := false }).addCause z .sensor

/-- The fan speed of a window and its low-window count (R79 items 1 to 4). -/
def Zone.endWindow (z : Zone) : Zone :=
  { z with
    fanSpeed := some (z.fanCount * 30)
    lowWindows := if z.fanCount * 30 < z.settings.fanMin then saturate 3 (z.lowWindows + 1) else 0
    fanCount := 0
    windowOver := false }

/-- The end of a fan window (R79). -/
def State.windowEnd (s : State) (z : ShelfNo) : State :=
  let t := s.modZone z Zone.endWindow
  if (t.zone z).lowWindows = 0 then t.removeCause z .fanLow
  else if (t.zone z).lowWindows = 3 then t.addCause z .fanLow
  else t

/-! ## The player (R82, R83) -/

/-- The segment the player is at (R74). -/
def Zone.segment (z : Zone) : Option Segment :=
  match z.active, z.player with
  | some p, some w => p.segments[w.segment - 1]?
  | _, _ => none

/-- A segment of the active profile is entered (R82). -/
def Zone.enterSegment (z : Zone) (n : Nat) : Zone :=
  match z.active with
  | none => z
  | some p =>
    match p.segments[n - 1]? with
    | none => z
    | some g =>
      if g.rate = 0 ∨ z.setpoint = some g.target then
        { z with setpoint := some g.target, player := some { segment := n, sub := .hold, hold := 0 } }
      else { z with player := some { segment := n, sub := .ramp, hold := 0 } }

/-- A segment boundary (R81, R83 item 3). -/
def Zone.boundary (z : Zone) : Zone :=
  match z.staged with
  | some p => { z with active := some p, staged := none }.enterSegment 1
  | none =>
    match z.active, z.player with
    | some p, some w =>
      if w.segment < p.segments.length then z.enterSegment (w.segment + 1)
      else if p.loop then z.enterSegment 1
      else { z with player := some { w with sub := .finished } }
    | _, _ => z

/-- The segment end test (R83 item 3). -/
def Zone.endTest (z : Zone) : Zone :=
  match z.player, z.segment with
  | some w, some g => if w.sub = .hold ∧ g.hold ≤ w.hold then z.boundary else z
  | _, _ => z

/-- The setpoint moved toward a target by a ramp rate, and not past it (R83 item 1). -/
def rampTo (target rate from_ : Nat) : Nat :=
  if from_ < target then min target (from_ + rate) else max target (from_ - rate)

/-- One step of the player of a zone in RUN (R83). -/
def Zone.playerTick (z : Zone) : Zone :=
  match z.player, z.segment with
  | some w, some g =>
    match w.sub with
    | .ramp =>
      let p := rampTo g.target g.rate (z.setpoint.getD 0)
      if p = g.target then
        { z with setpoint := some p, player := some { w with sub := .hold, hold := 0 } }.endTest
      else { z with setpoint := some p }
    | .hold => { z with player := some { w with hold := saturate Config.cap16 (w.hold + 1) } }.endTest
    | .finished => z
  | _, _ => z

/-! ## Control and PWM (R86, R87) -/

/-- The error of the control law (R86 item 1). -/
def Zone.error (z : Zone) : Int :=
  clampInt (-Config.errorCap) Config.errorCap ((z.setpoint.getD 0 : Int) - (z.air.getD 0 : Int))

/-- The accumulator after a control interval (R86 item 3). -/
def Zone.nextAcc (z : Zone) : Int :=
  if (z.prevDuty = Config.dutyFull ∧ 0 < z.error) ∨ (z.prevDuty = 0 ∧ z.error < 0) then z.acc
  else clampInt (-Config.accCap) Config.accCap (z.acc + z.error * (z.settings.ki : Int))

/-- The duty of a control interval (R86 items 2 and 4). -/
def Zone.nextDuty (z : Zone) : Nat :=
  (clampInt 0 (Config.dutyFull : Int)
    (Int.tdiv (z.error * (z.settings.kp : Int)) 4 + Int.tdiv z.nextAcc 256)).toNat

/-- The control law at an expiry of the control interval timer, which runs on (R86). -/
def Zone.control2s (z : Zone) (now : Time) : Zone :=
  { z with
    acc := z.nextAcc, prevDuty := z.nextDuty, pendingDuty := some z.nextDuty,
    control := some (Time.after now Config.controlMs) }

/-- A PWM period starts (R87). -/
def Zone.startPeriod (z : Zone) (now : Time) : Zone :=
  let duty := z.pendingDuty.getD z.duty
  let len := z.settings.pwmMs
  let on := duty * len / 1000
  { z with
    duty := duty
    pendingDuty := none
    heater := if on = 0 then .off else .on
    periodEnd := some (Time.after now len)
    onEnd := if on = 0 ∨ on = len then none else some (Time.after now on) }

/-! ## Starting and stopping (R84, R85, R93) -/

/-- The zone enters RUN: a PWM period and the control interval timer start (R84, R93). -/
def Zone.run (z : Zone) (now : Time) : Zone :=
  { z with state := .run, acc := 0, prevDuty := 0, duty := 0, pendingDuty := none,
           control := some (Time.after now Config.controlMs) }.startPeriod now

/-- ZONE START accepted (R84). -/
def Zone.start (z : Zone) (now : Time) : Zone := ({ z with setpoint := z.air }.enterSegment 1).run now

/-- The zone in OFF: no player, no control, a staged profile made active (R85, R95). -/
def Zone.toOff (z : Zone) : Zone :=
  { z with
    state := .off, heater := .off, control := none, periodEnd := none, onEnd := none, duty := 0, prevDuty := 0,
    acc := 0, pendingDuty := none, player := none, setpoint := none, active := z.staged.or z.active,
    staged := none, trip := none, grace := none }

/-- ZONE RESUME accepted at the zone itself (R93 items 1 to 5). -/
def Zone.resume (z : Zone) (now : Time) : Zone := { z with grace := none, trip := none }.run now

/-- ZONE RESUME accepted (R93). -/
def State.resumeZone (s : State) (z : ShelfNo) : State :=
  (s.modZone z fun x => x.resume s.now).onShelf z State.slotResume

/-- An accepted profile takes its place (R81). -/
def Zone.takeProfile (z : Zone) (p : Profile) : Zone :=
  match z.state with
  | .off => { z with active := some p }
  | _ =>
    match z.player with
    | some w =>
      if w.sub = .finished then { z with active := some p }.enterSegment 1 else { z with staged := some p }
    | none => { z with staged := some p }

end Sys2Proof.Machine
end

