-- ==== Sys2Proof/Machine/Dose.lean ====
section
/-! DEFINITION. The dose minute tick (chapter 5): DI's credit of a slot, SC's step clock and tests after it, and the
players of the zones in RUN. -/

namespace Sys2Proof.Machine

/-- The slot qualifies for credit (R99). -/
def SlotRec.qualifies (r : SlotRec) : Bool := r.state = .running && r.power = .on

/-- The temperature of the minute and where it came from (R100). -/
def State.minuteTemp (s : State) (i : SlotNo) : DoseSource × Option Nat :=
  let z := s.zone (shelfOf i)
  let rest : DoseSource × Option Nat := if z.sensor = .good then (.air, z.air) else (.none, none)
  match (s.linkSlot i).last with
  | some x => if Time.since s.now x.time ≤ Config.freshMs then (.drive, some (x.temp * 10)) else rest
  | none => rest

/-- The band of a temperature (R101). -/
def DoseTable.band (t : DoseTable) (temp : Nat) : Option (Fin 16) :=
  if temp < t.base then none else some ⟨min 15 ((temp - t.base) / 20), by omega⟩

/-- The update of a dose record at a qualifying tick (R102). -/
def DoseRec.credited (d : DoseRec) (t : DoseTable) (source : DoseSource) (temp : Option Nat) : DoseRec :=
  let band := temp.bind t.band
  let weight := match band with | some b => t.weights[b] | none => 0
  let acc := min Config.doseCap (d.acc + weight)
  { acc := acc
    source := some source
    temp := temp
    band := band.map Fin.val
    credit := acc - d.acc
    airMinutes := if source = .air then saturate Config.cap16 (d.airMinutes + 1) else d.airMinutes
    uncredited := if acc - d.acc = 0 then saturate Config.cap16 (d.uncredited + 1) else d.uncredited
    saturated := d.saturated || Config.doseCap < d.acc + weight }

/-- DI's part of the tick at one slot (R99 to R102). -/
def State.credit (s : State) (i : SlotNo) : State :=
  if (s.slot i).qualifies then
    s.setDose i ((s.dose i).credited s.doseTable (s.minuteTemp i).1 (s.minuteTemp i).2)
  else s

/-- The tick at one slot: the credit first, then the step clock and the tests (R97, R39, R40). -/
def State.tickSlot (s : State) (i : SlotNo) : State := (s.credit i).tickStep i

/-- The tick at one zone: a zone in RUN steps its player (R83). -/
def State.tickZone (s : State) (z : ShelfNo) : State :=
  if (s.zone z).state = .run then s.modZone z Zone.playerTick else s

/-- The dose minute tick at every slot and zone, lowest number first (R97, R39). -/
def State.minute (s : State) : State := allShelves.foldl State.tickZone (allSlots.foldl State.tickSlot s)

end Sys2Proof.Machine
end

