-- ==== Sys2Proof/Machine/Cartons.lean ====
section
/-! DEFINITION. The carton and manifest unit (chapter 9): cartons opened, filled and closed, the reservation, freed
space, and the records written. -/

namespace Sys2Proof.Machine

/-! ## Notices and openings (R167, R171) -/

/-- A CARTON notice with the record as it stands (R171). -/
def State.notifyCarton (s : State) (b : LaneNo) (e : CartonEvent) (closed : Option (Nat × Nat × Nat)) : State :=
  s.notify (.carton b e (s.carton b) closed)

/-- A new carton (R167 items 1 to 4). -/
def Carton.opening (c : Carton) : Carton :=
  { c with
    sequence := if c.state = .changing then nextWrap 65535 c.sequence else c.sequence
    fill := 0
    capacity := c.staged.getD c.capacity
    staged := none
    state := .opened }

/-- A new carton is opened (R167). -/
def State.openCarton (s : State) (b : LaneNo) : State :=
  (s.modCarton b Carton.opening).notifyCarton b .opened none

/-- The bin enters ABSENT with an event, and goes on to OPEN while present is HIGH (R166). -/
def State.enterAbsent (s : State) (b : LaneNo) (e : CartonEvent) (closed : Option (Nat × Nat × Nat)) : State :=
  let t := (s.modCarton b fun c => { c with state := .absent, pendingClose := false }).notifyCarton b e closed
  if (t.carton b).present then t.openCarton b else t

/-! ## Records (R175, R176) -/

/-- The CARTON record of the carton as it stands (R176). -/
def Carton.close (c : Carton) (b : LaneNo) (short : Bool) : ManifestBody :=
  .carton { lane := b, sequence := c.sequence, count := c.fill, short := short }

/-- The carton is gone: the next carton takes the next number (R168, R169, R178). -/
def Carton.emptied (c : Carton) : Carton := { c with sequence := nextWrap 65535 c.sequence, fill := 0 }

/-- What the notice of a close carries of the CARTON record written (R171). -/
def State.closed (s : State) (b : LaneNo) : Nat × Nat × Nat :=
  (s.ring.next, (s.carton b).sequence, (s.carton b).fill)

/-- A short close into a free, unreserved entry (R169 item 2, R178). -/
def State.closeShort (s : State) (b : LaneNo) : State :=
  ((s.writeRecord ((s.carton b).close b true)).modCarton b Carton.emptied).enterAbsent b .short (some (s.closed b))

/-- Defect growth as the record carries it (R175). -/
def RunRec.growth (r : RunRec) : Option Int :=
  match r.summary, r.gradeBase with
  | some x, some b => some ((x.grown : Int) - (b : Int))
  | _, _ => none

/-- The SHIPPED record of a drive at its place in the carton (R175). -/
def State.shipped (s : State) (i : SlotNo) (b : LaneNo) : ManifestBody :=
  let r := s.slot i
  .shipped
    { slot := i, identity := r.run.identity, runCount := r.run.runCount, lane := b,
      sequence := (s.carton b).sequence, position := (s.carton b).fill,
      score := r.run.verdict.bind (·.score), fault := r.run.verdict.bind (·.fault), dose := (s.dose i).acc,
      spinFirst := r.spin.first, spinWorst := r.spin.worst, growth := r.run.growth,
      margin := r.run.summary.map fun x => weakest x.margins }

/-! ## Freed space (R177, R178) -/

/-- A bin in CLOSING that waits for space is served while an entry is free (R178). -/
def State.serveBin (s : State) (b : LaneNo) : State :=
  if (s.carton b).state = .closing && !(s.carton b).pendingClose && 1 ≤ s.ring.free then s.closeShort b else s

/-- Freed space is served, lowest bin first (R178). -/
def State.serveFreed (s : State) : State := allLanes.foldl State.serveBin s

/-- The entries an extraction to the bin needs (R147). -/
def Carton.need (c : Carton) : Nat := if c.fill + 1 = c.capacity then 2 else 1

/-- The reservation of a dispatched extraction (R177). -/
def State.reserve (s : State) (i : SlotNo) (b : LaneNo) : State :=
  s.setRing { s.ring with reservation := some { slot := i, lane := b, entries := (s.carton b).need } }

/-- The reservation is released (R177). -/
def State.release (s : State) : State := s.setRing { s.ring with reservation := none }

/-- One reserved entry pays for a record (R177). -/
def Ring.pay (r : Ring) : Ring :=
  { r with reservation := r.reservation.map fun v => { v with entries := v.entries - 1 } }

/-- A record paid for by the reservation is written (R168, R177). -/
def State.writePaid (s : State) (b : ManifestBody) : State := (s.setRing s.ring.pay).writeRecord b

/-! ## The end of an extraction (R168, R170) -/

/-- The close held for the bin's current extraction is taken up, with the reservation already released (R170):
REMOVED_EMPTY comes before the notices of the bins served (log entry 50). -/
def State.takeUpClose (s : State) (b : LaneNo) : State :=
  let t := s.modCarton b fun c => { c with pendingClose := false }
  if (t.carton b).fill = 0 then (t.enterAbsent b .removedEmpty none).serveFreed
  else
    let u := t.serveFreed
    if (u.carton b).state = .closing then u.notifyCarton b .awaitingSpace none else u

/-- The reservation is released, and the close held for the extraction, if there is one, is taken up; otherwise the
entries released are served (R170, R177, R178). -/
def State.endExtraction (s : State) (b : LaneNo) : State :=
  if (s.carton b).state = .closing && (s.carton b).pendingClose then s.release.takeUpClose b
  else s.release.serveFreed

/-- The carton is full (R168 item 3). -/
def State.fullCarton (s : State) (b : LaneNo) : State :=
  let t := s.writePaid ((s.carton b).close b false)
  if (s.carton b).state = .closing then
    (t.modCarton b Carton.emptied).enterAbsent b .full (some (s.closed b))
  else (t.modCarton b fun c => { c with state := .changing }).notifyCarton b .full (some (s.closed b))

/-- A confirmed extraction is counted into the bin's carton (R168). -/
def State.countIn (s : State) (i : SlotNo) (b : LaneNo) : State :=
  let t := s.modCarton b fun c => { c with fill := c.fill + 1 }
  let u := t.writePaid (t.shipped i b)
  if (u.carton b).fill = (u.carton b).capacity then (u.fullCarton b).release.serveFreed else u.endExtraction b

/-! ## The carton-present inputs (R167, R169) -/

/-- HP's current order is an extraction to the bin, from its dispatch until its handshake has ended (R142, R169). -/
def State.extracting (s : State) (b : LaneNo) : Bool := s.port.current.any fun c => c.order.kind = .extract b

/-- The handshake of an extraction has ended, and the order is current no more: a close that was held for it after its
outcome is taken up (R142, R169, R170; log entry 22). -/
def State.endHeld (s : State) (b : LaneNo) : State :=
  if (s.carton b).state = .closing && (s.carton b).pendingClose then s.takeUpClose b else s

/-- The carton-present input rises (R167). -/
def State.presentRise (s : State) (b : LaneNo) : State :=
  let c := s.carton b
  let t := s.modCarton b fun c => { c with present := true }
  match c.state with
  | .absent => t.openCarton b
  | .changing => if c.present then t else t.openCarton b
  | _ => t

/-- A carton in OPEN is taken away (R169). -/
def State.cartonTaken (s : State) (b : LaneNo) : State :=
  if s.extracting b then
    (s.modCarton b fun c => { c with state := .closing, pendingClose := true }).notifyCarton b .held none
  else if (s.carton b).fill = 0 then s.enterAbsent b .removedEmpty none
  else if 1 ≤ s.ring.free then s.closeShort b
  else
    (s.modCarton b fun c => { c with state := .closing, pendingClose := false }).notifyCarton b .awaitingSpace none

/-- The carton-present input drops (R167, R169). -/
def State.presentDrop (s : State) (b : LaneNo) : State :=
  let t := s.modCarton b fun c => { c with present := false }
  if (s.carton b).state = .opened then t.cartonTaken b else t

end Sys2Proof.Machine
end

