-- ==== Sys2Proof/Machine/Handler.lean ====
section
/-! DEFINITION. The handler port (chapter 8): eligibility, the arbiter, dispatch, the handshake, the outcomes and what
they do to the slot (R23), and port FAULT. -/

namespace Sys2Proof.Machine

/-! ## Eligibility (R147, R148) -/

/-- The first test of R147 or R148 an order fails; none for an eligible order. -/
def State.orderTest (s : State) (o : Order) : Option Nat :=
  if !s.port.readyLine then some 1
  else if s.port.state = .fault then some 2
  else
    match o.kind with
    | .extract b =>
      if (s.carton b).state ≠ .opened then some 3
      else if s.ring.free < (s.carton b).need then some 4
      else none
    | .insert =>
      if (s.slot o.slot).state ≠ .loadWait then some 3
      else if (s.slot o.slot).seatStable ≠ .opened ∨ (s.slot o.slot).debounce.isSome then some 4
      else none

def State.eligible (s : State) (o : Order) : Bool := (s.orderTest o).isNone

def OrderKind.isInsert : OrderKind → Bool
  | .insert => true
  | .extract _ => false

/-- The oldest eligible order of each kind (R149). -/
def State.oldestInsert (s : State) : Option Order := s.port.queue.find? fun o => o.kind.isInsert && s.eligible o
def State.oldestExtract (s : State) : Option Order := s.port.queue.find? fun o => !o.kind.isInsert && s.eligible o

/-! ## The port's output lines (R145, R146) -/

/-- The order whose kind, slot and lane the output lines show; none where they are idle. -/
def Port.shown (p : Port) : Option Order :=
  match p.state with
  | .idle | .fault => none
  | _ => p.current.map (·.order)

def Port.offer (p : Port) : Bool := p.state = .offered
def Port.confirm (p : Port) : Bool := p.state = .confirming

/-- What the port's five output lines carry (R145). -/
structure PortLines where
  insert : Bool
  slot : Nat
  lane : Nat
  offer : Bool
  confirm : Bool
  deriving DecidableEq, Repr

/-- The levels of the port's output lines: kind, slot and lane of the order shown, and their idle values INSERT, 0 and 0
where none is (R145). -/
def Port.lines (p : Port) : PortLines :=
  { insert := p.shown.all fun o => o.kind.isInsert
    slot := match p.shown with | some o => num o.slot | none => 0
    lane := match p.shown with | some o => o.kind.lane | none => 0
    offer := p.offer
    confirm := p.confirm }

/-! ## Ends of the handshake (R156, R161) -/

/-- The port with its current order, timer and outcome gone. -/
def Port.cleared (p : Port) (st : PortState) : Port :=
  { p with state := st, current := none, timer := none, outcome := none }

/-- The port returns to IDLE; the arbiter runs at the end of the event (R146, R149). -/
def State.portIdle (s : State) : State := s.setPort (s.port.cleared .idle)

/-- The port enters FAULT because of a timeout of an order (R161). -/
def State.portFault (s : State) (why : FaultReason) (o : Order) : State :=
  (s.setPort { s.port.cleared .fault with fault := some why }).notify (.handlerPort why o.slot o.number)

/-- The handler's line of an outcome. -/
def Port.outcomeLine (p : Port) : PortOutcome → Bool
  | .done => p.doneLine
  | .fail => p.failLine

/-- The outcome has been applied, and the handshake ends by the mode of the dispatch (R156). Interlocked, it waits for
the outcome's line alone, whatever the other line's level (log entry 60). -/
def State.endHandshake (s : State) (c : CurrentOrder) (o : PortOutcome) : State :=
  match c.settings.mode with
  | .strobed => s.portIdle
  | .interlocked =>
    if s.port.outcomeLine o then
      s.setPort { s.port with
        state := .confirming, outcome := some o
        timer := some { kind := .release, expiry := Time.after s.now (c.settings.acceptS * 1000) } }
    else s.portIdle

/-! ## What an outcome does to the slot (R23, R157, R158) -/

/-- The latch is engaged again (R8). -/
def State.engage (s : State) (i : SlotNo) : State := s.modSlot i fun r => { r with latch := .engaged }

/-- An extraction comes back to its slot: the teardown when the drive has gone, HELD otherwise (R23). -/
def State.extractBack (s : State) (i : SlotNo) (why : HoldReason) : State :=
  let t := s.engage i
  if (s.slot i).seatStable = .opened then t.teardown i else t.enterHeld i why

/-- An insertion ends without a seated drive: the plan is dropped (R23, R32). -/
def State.insertBack (s : State) (i : SlotNo) : State :=
  let t := s.dropPlan i
  if (s.slot i).seatStable = .opened then t.enterVacant i (t.slot i).run.endCause else t.enter i .seated none

/-- A HANDLER notice for the slot, ahead of the notices of what the order's end does to it, with the slot's state after
the event (R159; log entry 26). -/
def State.handlerNotice (s : State) (o : Order) (e : HandlerEvent) (count : Nat) (act : State → State) : State :=
  act (s.notify (.handlerSlot o.slot e o ((act s).slot o.slot).state count))

/-- The extraction's end is handed to CM (R158, R160). -/
def State.endAtCarton (s : State) (o : Order) : State :=
  match o.kind with
  | .extract b => s.endExtraction b
  | .insert => s

/-- The handshake of an order ends in CONFIRMING: CM takes up a close held for it since its outcome (R142, R170). -/
def State.handshakeOver (s : State) (o : Order) : State :=
  match o.kind with
  | .extract b => s.endHeld b
  | .insert => s

/-- The slot's side of an end other than confirmation (R158). -/
def State.orderBack (s : State) (o : Order) (why : HoldReason) : State :=
  match o.kind with
  | .extract _ => s.extractBack o.slot why
  | .insert => s.insertBack o.slot

/-- An end other than confirmation is applied: CM, the HANDLER notice, the slot (R158, R160). -/
def State.orderFails (s : State) (o : Order) (e : HandlerEvent) (why : HoldReason) : State :=
  (s.endAtCarton o).handlerNotice o e s.port.acceptTimeouts fun t => t.orderBack o why

/-- A confirmed order (R157, R158): the drive shipped and the slot emptied, or the slot SEATED and its run started. -/
def State.orderConfirmed (s : State) (o : Order) : State :=
  match o.kind with
  | .extract b => (s.countIn o.slot b).enterVacant o.slot none
  | .insert => s.enterSeated o.slot

/-- The evidence of a DONE holds (R155). -/
def State.evidence (s : State) (o : Order) : Bool :=
  match o.kind with
  | .extract _ => (s.slot o.slot).seatStable = .opened
  | .insert => (s.slot o.slot).seatStable = .closed

/-! ## IN_FLIGHT and CHECKING (R154, R155) -/

/-- The order is confirmed, and the handshake ends (R155, R157). -/
def State.confirm (s : State) (c : CurrentOrder) : State := (s.orderConfirmed c.order).endHandshake c .done

/-- DONE is taken (R154 item 1, R155). -/
def State.takeDone (s : State) (c : CurrentOrder) : State :=
  let t := s.setPort { s.port with state := .checking, outcome := some .done, timer := none }
  if s.evidence c.order then t.confirm c
  else
    t.setPort { t.port with
      timer := some { kind := .evidence, expiry := Time.after s.now (2 * s.spin.debounceMs) } }

/-- FAIL is taken (R154 item 2, R158). -/
def State.takeFail (s : State) (c : CurrentOrder) : State :=
  ((s.setPort { s.port with outcome := some .fail, timer := none }).orderFails c.order .fail .handlerFail).endHandshake
    c .fail

/-- DONE or FAIL is taken in IN_FLIGHT; with both lines high in interlocked mode the outcome is FAIL (R154). -/
def State.takeOutcome (s : State) (c : CurrentOrder) (o : PortOutcome) : State :=
  match o with
  | .fail => s.takeFail c
  | .done => if c.settings.mode = .interlocked && s.port.failLine then s.takeFail c else s.takeDone c

/-- In interlocked mode a line seen high in IN_FLIGHT is taken (R154; log entry 23). -/
def State.readLines (s : State) (c : CurrentOrder) : State :=
  if c.settings.mode = .interlocked then
    if s.port.failLine then s.takeFail c else if s.port.doneLine then s.takeDone c else s
  else s

/-! ## OFFERED (R151 to R153) -/

/-- ACCEPT is taken (R152). -/
def State.takeAccept (s : State) (c : CurrentOrder) : State :=
  (s.setPort { s.port with
    state := .inFlight, acceptTimeouts := 0
    timer := some { kind := .completion, expiry := Time.after s.now (c.settings.completionS * 1000) } }).readLines c

/-- OFFER rises; an ACCEPT still high is taken (R151, R152). -/
def State.raiseOffer (s : State) (c : CurrentOrder) : State :=
  let t := s.setPort { s.port with
    state := .offered, timer := some { kind := .accept, expiry := Time.after s.now (c.settings.acceptS * 1000) } }
  if s.port.acceptLine then t.takeAccept c else t

/-- The order goes back to its place in the queue (R144). -/
def returnOrder (o : Order) : List Order → List Order
  | [] => [o]
  | q :: qs => if o.age < q.age then o :: q :: qs else q :: returnOrder o qs

/-- The slot's side of a returned order (R153 items 2 and 3, R137). -/
def State.orderReturned (s : State) (o : Order) : State :=
  match o.kind with
  | .extract b =>
    let t := s.engage o.slot
    if (s.slot o.slot).seatStable = .opened then t.teardown o.slot
    else if s.barred b then (t.withdrawOrder o.slot).enterHeld o.slot .withdrawn
    else t.enter o.slot .graded none
  | .insert => if (s.slot o.slot).seatStable = .closed then (s.withdrawOrder o.slot).enterSeated o.slot else s

/-- The accept timer expires in OFFERED (R153). -/
def State.acceptOver (s : State) (c : CurrentOrder) : State :=
  let n := saturate Config.acceptTimeoutTop (s.port.acceptTimeouts + 1)
  let t := s.setPort { s.port.cleared .idle with queue := returnOrder c.order s.port.queue }
  let u := (t.endAtCarton c.order).handlerNotice c.order .acceptTimeout n fun x => x.orderReturned c.order
  let v := u.setPort { u.port with acceptTimeouts := n }
  if n = Config.acceptTimeoutTop then v.portFault .acceptTimeouts c.order else v

/-! ## The arbiter (R149 to R151) -/

/-- The latch is released and the slot goes to UNLOADING (R151 item 2, R23). -/
def State.unload (s : State) (i : SlotNo) : State :=
  (s.modSlot i fun r => { r with latch := .released }).enter i .unloading none

/-- An order is dispatched (R151), with the extract streak it leaves (R150). A deskew of 0 raises OFFER at once. -/
def State.dispatch (s : State) (o : Order) (streak : Nat) : State :=
  let c : CurrentOrder := { order := o, settings := s.port.settings }
  let s := s.setPort { s.port with
    queue := s.port.queue.filter (·.slot ≠ o.slot), current := some c, streak := streak, state := .deskew }
  let s := match o.kind with
    | .extract b => (s.reserve o.slot b).unload o.slot
    | .insert => s
  if c.settings.deskew = 0 then s.raiseOffer c
  else
    s.setPort { s.port with timer := some { kind := .deskew, expiry := Time.after s.now c.settings.deskew } }

/-- A run of the arbiter in IDLE (R149). -/
def State.arbiter (s : State) : State :=
  match s.oldestInsert, s.oldestExtract with
  | none, none => s.setPort { s.port with streak := 0 }
  | none, some e => s.dispatch e 0
  | some i, none => s.dispatch i 0
  | some i, some e => if s.port.streak < Config.streakTop then s.dispatch e (s.port.streak + 1) else s.dispatch i 0

/-- The arbiter runs at the end of an event that may have changed what it reads, while the port is IDLE (R149). -/
def State.arbitrate (s : State) : State := if s.port.state = .idle then s.arbiter else s

/-! ## Seat evidence (R155) -/

/-- A stable seat change of a slot, as evidence for an order in CHECKING (R155 item 1). -/
def State.seatEvidence (s : State) (i : SlotNo) : State :=
  match s.port.current with
  | some c => if s.port.state = .checking && c.order.slot = i && s.evidence c.order then s.confirm c else s
  | none => s

/-! ## The seat (R5 to R7) -/

/-- The raw seat changes to a level (R5, R6 item 1). -/
def State.rawSeat (s : State) (i : SlotNo) (level : Seat) : State :=
  if (s.slot i).seatRaw = level then s
  else
    let t := s.modSlot i fun r => { r with seatRaw := level, debounce := some (Time.after s.now s.spin.debounceMs) }
    if level = .closed ∧ (s.slot i).seatStable = .opened ∧
        ((s.slot i).state = .vacant ∨ ((s.slot i).state = .loadWait ∧ s.orderQueued i)) then t.enter i .seating none
    else t

/-- The stable seat has become CLOSED (R6 items 2 and 5, R23). -/
def State.seatClosed (s : State) (i : SlotNo) : State :=
  match (s.slot i).state with
  | .seating | .vacant => (s.withdrawOrder i).enterSeated i
  | .loadWait => if s.orderQueued i then (s.withdrawOrder i).enterSeated i else s.seatEvidence i
  | _ => s.seatEvidence i

/-- The stable seat has become OPEN (R7, R23). -/
def State.seatOpened (s : State) (i : SlotNo) : State :=
  match (s.slot i).state with
  | .powering | .identifying | .running | .paused | .review | .ending | .seated | .graded | .held => s.teardown i
  | _ => s.seatEvidence i

/-- The debounce ends (R5, R6 items 2, 3 and 5). -/
def State.debounceOver (s : State) (i : SlotNo) : State :=
  let r := s.slot i
  let t := s.modSlot i fun r => { r with debounce := none, seatStable := r.seatRaw }
  if r.seatRaw = r.seatStable then
    if r.state = .seating then
      if r.plan.isSome then t.enter i .loadWait none else t.enterVacant i none
    else t
  else if r.seatRaw = .closed then t.seatClosed i
  else t.seatOpened i

end Sys2Proof.Machine
end

