-- ==== Sys2Proof/Machine/Watch.lean ====
section
/-! DEFINITION. The watch unit (chapter 6): specs, rules, the latch, and the actions WU hands to SC. -/

namespace Sys2Proof.Machine

/-- What a spec says of a prior and a current value; none where the condition is not tested (R108). -/
def Spec.test (x : Spec) (prior current : Bool) : Option Bool :=
  match x with
  | .ignore => none
  | .set => some current
  | .clear => some (!current)
  | .changed => some (prior != current)
  | .rose => some (!prior && current)
  | .fell => some (prior && !current)

/-- The outcomes of a rule's specs that are not IGNORE (R109). -/
def WatchRule.outcomes (r : WatchRule) (prior current : FaultWord) : List Bool :=
  (List.finRange 16).filterMap fun n => (r.specs[n]).test (prior.getLsbD n.val) (current.getLsbD n.val)

/-- The rule matches (R109). -/
def WatchRule.isMatch (r : WatchRule) (prior current : FaultWord) : Bool :=
  let o := r.outcomes prior current
  r.enabled && !o.isEmpty &&
    match r.mode with
    | .all => o.all id
    | .any => o.any id

/-- The winning rule: the lowest-numbered rule that matches (R112). -/
def State.winner (s : State) (prior current : FaultWord) : Option RuleNo :=
  (List.finRange 8).find? fun n => (s.rules[n]).isMatch prior current

/-- SC applies a SUSPEND (R21, R114): RUNNING goes to REVIEW with HALT, REVIEW stays. -/
def State.watchSuspend (s : State) (i : SlotNo) : State :=
  if (s.slot i).state = .running then (s.enter i .review none).askLink i .halt .plain else s

/-- SC applies a REJECT (R21). -/
def State.watchReject (s : State) (i : SlotNo) (c : Option WatchClass) : State :=
  match c with
  | some k => if (s.slot i).state = .running ∨ (s.slot i).state = .review then s.endWithSummary i (.watchReject k) else s
  | none => s

/-- The action of a match is handed to SC (R114 item 3, R115). -/
def State.watchAct (s : State) (i : SlotNo) (r : WatchRule) : State :=
  match r.action with
  | .note => s
  | .suspend => s.watchSuspend i
  | .reject => s.watchReject i r.cls

/-- The latch a winning rule records (R114, R115). -/
def WatchRule.latched (r : WatchRule) (n : RuleNo) (current : FaultWord) (time : Count32) (again : Bool) : WatchLatch :=
  { rule := n, action := r.action, cls := r.cls, stamp := time, snapshot := current, again := again }

def State.setLatch (s : State) (i : SlotNo) (l : WatchLatch) : State :=
  s.setWatch i { s.watch i with latch := some l }

/-- A winning rule finds the latch EMPTY (R114). -/
def State.fillLatch (s : State) (i : SlotNo) (n : RuleNo) (current : FaultWord) : State :=
  let r := s.rules[n]
  let l := r.latched n current s.line.rackTime false
  ((s.setLatch i l).notify (.watch i .filled (s.slot i).run.runCount l none)).watchAct i r

/-- A winning rule finds the latch FULL (R115). -/
def State.hitLatch (s : State) (i : SlotNo) (n : RuleNo) (current : FaultWord) (old : WatchLatch) : State :=
  let r := s.rules[n]
  match r.action with
  | .reject =>
    let l := r.latched n current s.line.rackTime true
    ((s.setLatch i l).notify (.watch i .overwritten (s.slot i).run.runCount l none)).watchAct i r
  | _ =>
    if old.again then s
    else
      let l := { old with again := true }
      (s.setLatch i l).notify (.watch i .again (s.slot i).run.runCount l (some (n, r.action, current)))

/-- The match of an evaluation (R112). -/
def State.takeMatch (s : State) (i : SlotNo) (current : FaultWord) : State :=
  match s.winner (s.watch i).prior current, (s.watch i).latch with
  | none, _ => s
  | some n, none => s.fillLatch i n current
  | some n, some l => s.hitLatch i n current l

/-- An evaluation of a good STATUS reply (R111 to R113). -/
def State.evaluate (s : State) (i : SlotNo) (current : FaultWord) : State :=
  let t := s.takeMatch i current
  t.setWatch i { t.watch i with prior := current }

end Sys2Proof.Machine
end

