-- ==== Sys2Proof/Machine/Replies.lean ====
section
/-! DEFINITION. How a drive-link transaction ends (R52, R64 to R71): a good reply of each code, a reply that fails its
tests, and a miss. -/

namespace Sys2Proof.Machine

/-! ## Ending a transaction (R52) -/

/-- The outstanding transaction is over, and the selector connects no port (R51, R52). -/
def State.endTransaction (s : State) (l : ShelfNo) : State := s.modLink l fun x => { x with outstanding := none }

/-- A good reply of any code sets the slot's consecutive miss count to 0 (R71). -/
def State.goodReply (s : State) (l : ShelfNo) (i : SlotNo) : State :=
  (s.endTransaction l).setLinkSlot i (s.linkSlot i).good

/-- A reply that fails a test of R52 has begun: the link discards whatever follows until the poll timeout. -/
def Link.spoil (x : Link) : Link :=
  { x with outstanding := x.outstanding.map fun t => { t with spoiled := true } }

/-- The transaction a reply may end: outstanding, not spoiled, and its poll timeout not passed (R52). -/
def Link.awaiting (x : Link) (now : Time) : Option Transaction :=
  x.outstanding.filter fun t => !t.spoiled && !Time.passed now t.expiry

/-- The link after bytes that are no good reply: discarded before a sync, a failed reply from a sync on (R51, R52). -/
def State.badReply (s : State) (l : ShelfNo) (bytes : List Byte) : State :=
  if bytes.contains Config.sync then s.modLink l Link.spoil else s

/-! ## STATUS (R69, R70) -/

/-- The states in which poll results and misses are applied to a run (R21, R69, R71). -/
def SlotState.polled : SlotState → Bool
  | .identifying | .running | .paused | .review => true
  | _ => false

/-- The fallback base is written by the first good STATUS reply of the run (R69). -/
def State.writeFallback (s : State) (i : SlotNo) (grown : Nat) : State :=
  if (s.slot i).state.polled && (s.slot i).run.fallback.isNone then
    s.modRun i fun r => { r with fallback := some grown }
  else s

/-- Step 3 of R70: WU evaluates in RUNNING and REVIEW. -/
def State.watchStep (s : State) (i : SlotNo) (w : FaultWord) : State :=
  if (s.slot i).state = .running ∨ (s.slot i).state = .review then s.evaluate i w else s

/-- Step 4 of R70: a FAILED drive ends its run. -/
def State.failedStep (s : State) (i : SlotNo) (d : DriveState) : State :=
  if (s.slot i).state.polled && d = .failed then s.endWithSummary i .driveFailed else s

/-- Step 5 of R70: the current step's test. -/
def State.planStep (s : State) (i : SlotNo) (x : LastStatus) : State :=
  if (s.slot i).state = .running && x.state ≠ .failed then s.testReply i x else s

/-- A good STATUS reply (R70). -/
def State.statusTaken (s : State) (l : ShelfNo) (i : SlotNo) (x : LastStatus) : State :=
  let s := s.goodReply l i
  let s := s.setLinkSlot i { s.linkSlot i with last := some x }
  (((s.writeFallback i x.grown).watchStep i x.fault).failedStep i x.state).planStep i x

/-! ## IDENT and PHASE START (R64) -/

/-- A good IDENT reply (R16, R64). -/
def State.identTaken (s : State) (l : ShelfNo) (i : SlotNo) (x : Identity) : State :=
  let t := s.goodReply l i
  if (t.slot i).state = .identifying then t.identified i x else t

/-- A good PHASE START reply (R43, R64). -/
def State.phaseTaken (s : State) (l : ShelfNo) (i : SlotNo) (p : Purpose) : State :=
  let t := s.goodReply l i
  match p with
  | .step entry => if t.atEntry i entry then t.modSlot i fun r => { r with phaseArmed := true } else t
  | _ => t

/-! ## SUMMARY (R65 to R67) -/

/-- The head operation is replaced by its progress. -/
def Link.setHead (x : Link) (op : SummaryOp) : Link := { x with summary := op :: x.summary.drop 1 }

/-- The head operation leaves the queue (R66, R67). -/
def Link.dropHead (x : Link) : Link := { x with summary := x.summary.drop 1 }

/-- A summary as SL hands it to SC (R55, R66). -/
def Block0.summary (b : Block0) (margins : List Nat) : Summary :=
  { grown := b.grown, pending := b.pending, maxTemp := b.maxTemp, headCount := b.headCount, margins := margins,
    driveVerdict := b.driveVerdict }

/-- The summary completes: SC stores it, turns the power off and asks for the verdict (R66, R18). -/
def State.summaryComplete (s : State) (l : ShelfNo) (i : SlotNo) (x : Summary) : State :=
  (((s.modLink l Link.dropHead).modRun i fun r => { r with summary := some x }).powerOff i).verdict i

/-- A block of the head operation has been read (R66). -/
def State.blockTaken (s : State) (l : ShelfNo) (i : SlotNo) (op : SummaryOp) (b : SummaryBlock) : State :=
  let t := s.goodReply l i
  match b, op.block0 with
  | .zero z, _ => t.modLink l (·.setHead { op with next := 1, block0 := some z })
  | .margins ms, some z =>
    let kept := op.margins ++ ms.take (z.headCount - 4 * (op.next - 1))
    if z.headCount ≤ 4 * op.next then t.summaryComplete l i (z.summary kept)
    else t.modLink l (·.setHead { op with next := op.next + 1, margins := kept })
  | .margins _, none => t

/-- The summary fails: SC flags it missing, turns the power off and asks for the verdict (R67, R18). -/
def State.summaryFails (s : State) (l : ShelfNo) (i : SlotNo) : State :=
  (((s.modLink l Link.dropHead).modRun i fun r => { r with summaryMissing := true }).powerOff i).verdict i

/-! ## Misses (R67, R71) -/

/-- SL reports SILENT where the consecutive count has reached the miss limit (R71). -/
def State.judgeSilent (s : State) (l : ShelfNo) (i : SlotNo) : State :=
  if (s.link l).settings.missLimit ≤ (s.linkSlot i).consecutive && (s.slot i).state.polled then s.endAtOnce i .silent
  else s

/-- A directed transaction has missed (R64). -/
def State.directedMiss (s : State) (i : SlotNo) (c : DirectedCode) (p : Purpose) : State :=
  match c, p with
  | .ident, _ => if (s.slot i).state = .identifying then s.askLink i .ident .plain else s
  | .phaseStart n, .step entry => if s.atEntry i entry then s.askPhase i n else s
  | .phaseStart _, _ => s
  | .halt, p => s.haltEnded i p

/-- A summary transaction has missed (R67): the gap ends, and the operation fails at the miss limit. That the gap ends
also where the operation fails, though R61 lets the next operation go on in the same gap, is the model's choice (log
entry 57). -/
def State.summaryMiss (s : State) (l : ShelfNo) (i : SlotNo) : State :=
  match (s.link l).summary with
  | op :: _ =>
    let n := saturate 15 (op.misses + 1)
    let t := s.modLink l fun x => (x.setHead { op with misses := n }).endGap
    if (s.link l).settings.missLimit ≤ n then t.summaryFails l i else t
  | [] => s

/-- What a miss means for the code that missed (R64, R67). -/
def State.codeMiss (s : State) (l : ShelfNo) (i : SlotNo) : LinkRequest → State
  | .directed c p => s.directedMiss i c p
  | .status => s
  | .summary _ => s.summaryMiss l i

/-- The outstanding transaction ends as a miss (R71): the counts, SILENT, then what the code asks for. -/
def State.missed (s : State) (l : ShelfNo) (t : Transaction) : State :=
  let u := (s.endTransaction l).setLinkSlot t.slot (s.linkSlot t.slot).miss
  (u.judgeSilent l t.slot).codeMiss l t.slot t.request

end Sys2Proof.Machine
end

