-- ==== Sys2Proof/Machine/Requests.lean ====
section
/-! DEFINITION. What the blocks do with a served request, its checks in their order and its reply (R189 to R191,
R203): the requests that change something. Queries and reads are in Machine/Queries.lean. -/

namespace Sys2Proof.Machine

/-! ## Replies (R190, R203) -/

/-- A reply body, and what its last byte brings with it (R184, R199). -/
structure Answer where
  body : List Byte
  after : AfterSent
  deriving DecidableEq, Repr

/-- ACCEPTED with its data. -/
def Answer.accept (data : List Byte) : Answer := { body := u8 1 ++ data, after := .nothing }

/-- ACCEPTED, or ACCEPTED_CLAMPED with the request's body as taken before the data (R203). -/
def Answer.taken (clamped : Bool) (taken data : List Byte) : Answer :=
  { body := if clamped then u8 2 ++ taken ++ data else u8 1 ++ data, after := .nothing }

/-- REFUSED with its code and detail. -/
def Answer.refuse (c : RefusalCode) (detail : List Byte) : Answer :=
  { body := u8 3 ++ u8 c.byte ++ detail, after := .nothing }

/-- A request that is refused changes nothing (R190). -/
def State.refuse (s : State) (c : RefusalCode) : State × Answer := (s, Answer.refuse c [])

/-! ## Slot requests (R24 to R28) -/

/-- The ACCEPTED reply of a slot request reports the slot's state after it (R24). -/
def State.slotReply (s : State) (i : SlotNo) : State × Answer := (s, Answer.accept (u8 (s.slot i).state.byte))

/-- The checks of a slot request that names a plan (R24). -/
def State.withPlan (s : State) (slot plan : Byte) (f : SlotNo → PlanNo → State × Answer) : State × Answer :=
  match ofNum 40 slot.toNat, ofNum 8 plan.toNat with
  | some i, some p => if (s.plan p).steps.isEmpty then s.refuse .range else f i p
  | _, _ => s.refuse .range

/-- The check of a request that names a slot (R24). -/
def State.withSlot (s : State) (slot : Byte) (f : SlotNo → State × Answer) : State × Answer :=
  match ofNum 40 slot.toNat with
  | some i => f i
  | none => s.refuse .range

/-- SLOT OPEN taken (R25). -/
def State.openSlot (s : State) (i : SlotNo) (p : PlanNo) : State :=
  ((s.assignPlan i p).enter i .loadWait none).joinOrder .insert i

/-- SLOT OPEN (R24, R25), by the slot's state alone (log entry 49). -/
def serveSlotOpen (body : List Byte) (s : State) : State × Answer :=
  match body with
  | [slot, plan] => s.withPlan slot plan fun i p =>
    if (s.slot i).state = .vacant then (s.openSlot i p).slotReply i else s.refuse .state
  | _ => s.refuse .length

def serveSlotStart (body : List Byte) (s : State) : State × Answer :=
  match body with
  | [slot, plan] => s.withPlan slot plan fun i p =>
    if (s.slot i).state = .seated then ((s.assignPlan i p).startRun i false).slotReply i else s.refuse .state
  | _ => s.refuse .length

/-- SLOT SUSPEND taken (R26). -/
def State.suspend (s : State) (i : SlotNo) : State :=
  let t := if (s.slot i).state = .paused then s.modRun i fun r => { r with zonePaused := true } else s
  (t.enter i .review none).askLink i .halt .plain

/-- SLOT SUSPEND is accepted (R24, R26): RUNNING with the drive on its link, or PAUSED. -/
def SlotRec.suspendable (r : SlotRec) : Bool := r.state = .paused || (r.state = .running && !r.cycleOffLink)

def serveSlotSuspend (body : List Byte) (s : State) : State × Answer :=
  match body with
  | [slot] => s.withSlot slot fun i =>
    if (s.slot i).suspendable then (s.suspend i).slotReply i else s.refuse .state
  | _ => s.refuse .length

/-- SLOT CONTINUE taken (R26). -/
def State.continueSlot (s : State) (i : SlotNo) : State :=
  if s.zoneTripped i then (s.modRun i fun r => { r with zonePaused := true }).enter i .paused none
  else s.returnToRun i

def serveSlotContinue (body : List Byte) (s : State) : State × Answer :=
  match body with
  | [slot] => s.withSlot slot fun i =>
    if (s.slot i).state = .review then (s.continueSlot i).slotReply i else s.refuse .state
  | _ => s.refuse .length

def serveSlotEnd (body : List Byte) (s : State) : State × Answer :=
  match body with
  | [slot] => s.withSlot slot fun i =>
    if (s.slot i).state = .running ∨ (s.slot i).state = .paused ∨ (s.slot i).state = .review then
      (s.endWithSummary i .hostEnd).slotReply i
    else s.refuse .state
  | _ => s.refuse .length

/-- SLOT ABORT in ENDING (R27 item 3). -/
def State.abortEnding (s : State) (i : SlotNo) : State :=
  ((s.powerOff i).modRun i fun r =>
    { r with endCause := some .abort, summaryMissing := r.summaryMissing || r.summary.isNone }).verdict i

/-- SLOT ABORT in the states that accept it; none in the others (R27). The slot's state alone decides, in CONFIRMING too
(log entry 48). -/
def State.abortSlot (s : State) (i : SlotNo) : Option State :=
  match (s.slot i).state with
  | .loadWait => if s.orderQueued i then some (((s.withdrawOrder i).dropPlan i).enterVacant i none) else none
  | .powering | .identifying | .running | .paused | .review => some (s.endAtOnce i .abort)
  | .ending => some (s.abortEnding i)
  | .graded => some ((s.withdrawOrder i).enterHeld i .aborted)
  | _ => none

def serveSlotAbort (body : List Byte) (s : State) : State × Answer :=
  match body with
  | [slot] => s.withSlot slot fun i =>
    match s.abortSlot i with
    | some t => t.slotReply i
    | none => s.refuse .state
  | _ => s.refuse .length

/-- SLOT RELEASE taken (R28). -/
def State.releaseSlot (s : State) (i : SlotNo) (b : LaneNo) : State :=
  ((s.modRun i fun r => { r with verdict := r.verdict.map fun v => { v with bin := binOf b } }).enter i .graded
    none).joinOrder (.extract b) i

/-- SLOT RELEASE (R24, R28), by the slot's state alone (log entry 49). -/
def serveSlotRelease (body : List Byte) (s : State) : State × Answer :=
  match body with
  | [slot, bin] =>
    match ofNum 40 slot.toNat, ofNum 12 bin.toNat with
    | some i, some b =>
      if (s.slot i).state = .held ∧ s.barred b = false then (s.releaseSlot i b).slotReply i else s.refuse .state
    | _, _ => s.refuse .range
  | _ => s.refuse .length

def serveSlotRerun (body : List Byte) (s : State) : State × Answer :=
  match body with
  | [slot, plan] => s.withPlan slot plan fun i p =>
    if (s.slot i).state = .held ∧ (s.slot i).run.identity.isSome then
      ((s.assignPlan i p).startRun i true).slotReply i
    else s.refuse .state
  | _ => s.refuse .length

/-! ## SPIN settings (R14) -/

def SpinSettings.bytes (x : SpinSettings) : List Byte :=
  u8 x.permits ++ u8 x.limitS ++ u16 x.blankingMs ++ u16 x.debounceMs

def serveSpinSettings (body : List Byte) (s : State) : State × Answer :=
  match body with
  | [k, l, b1, b0, d1, d0] =>
    let k := takeNat 1 10 k.toNat
    let l := takeNat 1 60 l.toNat
    let b := takeNat 0 1000 (be16 b1 b0)
    let d := takeNat 50 1000 (be16 d1 d0)
    let x : SpinSettings := { permits := k.value, limitS := l.value, blankingMs := b.value, debounceMs := d.value }
    if (0 < s.holders ∧ x.limitS ≠ s.spin.limitS) ∨ x.permits < s.holders then s.refuse .state
    else
      (({ s with spin := x }).testGrants,
        Answer.taken (k.clamped || l.clamped || b.clamped || d.clamped) x.bytes [])
  | _ => s.refuse .length

/-! ## PLAN LOAD (R33, R34) -/

def servePlanLoad (body : List Byte) (s : State) : State × Answer :=
  match body with
  | plan :: count :: rest =>
    if rest.length ≠ 12 * count.toNat then s.refuse .length
    else
      match ofNum 8 plan.toNat with
      | none => s.refuse .range
      | some p =>
        if 16 < count.toNat then s.refuse .range
        else if (s.plan p).refs ≠ 0 then s.refuse .inUse
        else
          match readSteps 1 (pieces 12 count.toNat rest) with
          | none => s.refuse .range
          | some x =>
            (s.setPlan p { s.plan p with steps := x.value },
              Answer.taken x.clamped (plan :: count :: (x.value.map PlanStep.bytes).flatten) [])
  | _ => s.refuse .length

/-! ## LINK CONFIG (R72) -/

def serveLinkConfig (body : List Byte) (s : State) : State × Answer :=
  match body with
  | [link, t, m, g, p1, p0] =>
    match ofNum 4 link.toNat with
    | none => s.refuse .range
    | some l =>
      let t := takeNat 5 100 t.toNat
      let m := takeNat 1 15 m.toNat
      let g := takeNat 0 16 g.toNat
      let p := takeNat 500 10000 (be16 p1 p0)
      let x : LinkSettings := { pollTimeout := t.value, missLimit := m.value, gapBudget := g.value, minPeriod := p.value }
      (s.modLink l fun y => { y with staged := some x },
        Answer.taken (t.clamped || m.clamped || g.clamped || p.clamped) (link :: x.bytes) [])
  | _ => s.refuse .length

/-! ## Zone requests (R80, R81, R84, R85, R88, R93) -/

def State.withZone (s : State) (zone : Byte) (f : ShelfNo → State × Answer) : State × Answer :=
  match ofNum 4 zone.toNat with
  | some z => f z
  | none => s.refuse .range

def serveProfileLoad (body : List Byte) (s : State) : State × Answer :=
  match body with
  | zone :: count :: loop :: rest =>
    if rest.length ≠ 6 * count.toNat then s.refuse .length
    else s.withZone zone fun z =>
      if count.toNat < 1 ∨ 16 < count.toNat then s.refuse .range
      else
        match readSegments (pieces 6 count.toNat rest) with
        | none => s.refuse .length
        | some x =>
          (s.modZone z fun y => y.takeProfile { segments := x.value, loop := flagOf loop },
            Answer.taken x.clamped (zone :: count :: flag (flagOf loop) ++ (x.value.map Segment.bytes).flatten) [])
  | _ => s.refuse .length

/-- CAUSE, with the present causes (R190, R203). -/
def State.refuseCause (s : State) (z : ShelfNo) : State × Answer :=
  (s, Answer.refuse .cause (u8 (s.zone z).causes.bits))

def serveZoneStart (body : List Byte) (s : State) : State × Answer :=
  match body with
  | [zone] => s.withZone zone fun z =>
    if (s.zone z).state ≠ .off then s.refuse .state
    else if (s.zone z).active.isNone then s.refuse .range
    else if (s.zone z).causes.isEmpty then (s.modZone z (·.start s.now), Answer.accept [])
    else s.refuseCause z
  | _ => s.refuse .length

def serveZoneStop (body : List Byte) (s : State) : State × Answer :=
  match body with
  | [zone] => s.withZone zone fun z =>
    if (s.zone z).state = .run then (s.modZone z Zone.toOff, Answer.accept []) else s.refuse .state
  | _ => s.refuse .length

def serveZoneResume (body : List Byte) (s : State) : State × Answer :=
  match body with
  | [zone] => s.withZone zone fun z =>
    if (s.zone z).state ≠ .tripped then s.refuse .state
    else if (s.zone z).causes.isEmpty then (s.resumeZone z, Answer.accept [])
    else s.refuseCause z
  | _ => s.refuse .length

def ZoneSettings.bytes (x : ZoneSettings) : List Byte :=
  u8 x.kp ++ u8 x.ki ++ u16 x.pwmMs ++ u16 x.fanMin ++ u16 x.tripLimit ++ u8 x.graceMin

def serveZoneSettings (body : List Byte) (s : State) : State × Answer :=
  match body with
  | [zone, kp, ki, w1, w0, f1, f0, t1, t0, g] => s.withZone zone fun z =>
    let w := takeNat 250 4000 (be16 w1 w0)
    let f := takeNat 0 9000 (be16 f1 f0)
    let t := takeNat 300 1200 (be16 t1 t0)
    let g := takeNat 0 60 g.toNat
    let x : ZoneSettings :=
      { kp := kp.toNat, ki := ki.toNat, pwmMs := w.value, fanMin := f.value, tripLimit := t.value, graceMin := g.value }
    (s.modZone z fun y => { y with settings := x },
      Answer.taken (w.clamped || f.clamped || t.clamped || g.clamped) (zone :: x.bytes) [])
  | _ => s.refuse .length

/-! ## Table loads (R105, R118, R132 to R134) -/

def serveDoseTableLoad (body : List Byte) (s : State) : State × Answer :=
  match body.drop 16 with
  | [b1, b0] =>
    let base := takeNat 200 800 (be16 b1 b0)
    let x : DoseTable := { weights := Vector.ofFn fun n => (body.getD n.val 0).toNat, base := base.value }
    ({ s with doseTable := x }, Answer.taken base.clamped x.bytes [])
  | _ => s.refuse .length

def serveWatchLoad (body : List Byte) (s : State) : State × Answer :=
  if body.length ≠ 160 then s.refuse .length
  else
    match readRules (pieces 20 8 body) with
    | none => s.refuse .range
    | some rs =>
      let t : Vector WatchRule 8 := Vector.ofFn fun n => rs.getD n.val WatchRule.powerOn
      ({ s with rules := t }, Answer.accept (t.toList.map WatchRule.bytes).flatten)

def serveWatchClear (body : List Byte) (s : State) : State × Answer :=
  match body with
  | [slot] => s.withSlot slot fun i =>
    (s.setWatch i { s.watch i with latch := none }, Answer.accept (latchBytes (s.watch i).latch))
  | _ => s.refuse .length

def serveWeightsLoad (body : List Byte) (s : State) : State × Answer :=
  match body with
  | [d, p, u, m, h, f] =>
    let w : Weights := { wd := d.toNat, ws := p.toNat, wu := u.toNat, wm := m.toNat, wh := h.toNat, floor := f.toNat }
    ({ s with sort := { s.sort with weights := w } }, Answer.accept w.bytes)
  | _ => s.refuse .length

def serveGradeMapLoad (body : List Byte) (s : State) : State × Answer :=
  match body with
  | count :: rest =>
    if rest.length ≠ 3 * count.toNat then s.refuse .length
    else if count.toNat < 1 ∨ 8 < count.toNat then s.refuse .range
    else
      match readBands (pieces 3 count.toNat rest) with
      | none => s.refuse .range
      | some m =>
        if m.all (·.lower ≤ 1000) ∧ bandsInOrder m then
          ({ s with sort := { s.sort with map := m } }, Answer.accept (bandsBytes m))
        else s.refuse .range
  | _ => s.refuse .length

def serveFaultTableLoad (body : List Byte) (s : State) : State × Answer :=
  if body.length ≠ 12 then s.refuse .length
  else
    match readBins body with
    | none => s.refuse .range
    | some bs =>
      let t : Vector Bin 12 := Vector.ofFn fun n => bs.getD n.val 0
      ({ s with sort := { s.sort with faults := t } }, Answer.accept (t.toList.map fun b => u8 b.val).flatten)

/-! ## Bin bars (R136 to R138) -/

def State.setBar (s : State) (b : LaneNo) (v : Bool) : State :=
  { s with sort := { s.sort with barred := s.sort.barred.set b v } }

/-- The slots whose queued EXTRACT orders are for a bin, in queue order (R136). -/
def State.queuedTo (s : State) (b : LaneNo) : List SlotNo :=
  (s.port.queue.filter fun o => o.kind = .extract b).map (·.slot)

/-- The current EXTRACT order to a bin: offered or in flight (R136, R173). -/
def State.currentTo (s : State) (b : LaneNo) : Option SlotNo :=
  (s.port.current.filter fun c => c.order.kind = .extract b).map (·.order.slot)

/-- An order is withdrawn by a bar, and its slot goes to HELD (R137). -/
def State.withdrawn (s : State) (i : SlotNo) : State := (s.withdrawOrder i).enterHeld i .withdrawn

/-- BIN BAR taken (R136 items 1 to 3). -/
def State.barBin (s : State) (b : LaneNo) : State := (s.queuedTo b).foldl State.withdrawn (s.setBar b true)

/-- BIN BAR (R136): the order offered or in flight is reported for a bin already BARRED too (log entry 46). -/
def serveBinBar (body : List Byte) (s : State) : State × Answer :=
  match body with
  | [bin] =>
    match ofNum 12 bin.toNat with
    | some b =>
      (s.barBin b,
        Answer.accept (u8 (num b) ++ counted ((s.queuedTo b).map fun i => u8 (num i)) ++
          opt8 ((s.currentTo b).map num)))
    | none => s.refuse .range
  | _ => s.refuse .length

def serveBinUnbar (body : List Byte) (s : State) : State × Answer :=
  match body with
  | [bin] =>
    match ofNum 12 bin.toNat with
    | some b => (s.setBar b false, Answer.accept (u8 (num b)))
    | none => s.refuse .range
  | _ => s.refuse .length

/-! ## Handler control (R162, R163) -/

def PortSettings.bytes (x : PortSettings) : List Byte :=
  u8 x.mode.byte ++ u8 x.deskew ++ u8 x.acceptS ++ u16 x.completionS

def readMode (b : Byte) : Option PortMode :=
  if b = 1 then some .interlocked else if b = 2 then some .strobed else none

def serveHandlerSettings (body : List Byte) (s : State) : State × Answer :=
  match body with
  | [mode, d, a, c1, c0] =>
    match readMode mode with
    | none => s.refuse .range
    | some m =>
      let d := takeNat 0 15 d.toNat
      let a := takeNat 1 60 a.toNat
      let c := takeNat 5 300 (be16 c1 c0)
      let x : PortSettings := { mode := m, deskew := d.value, acceptS := a.value, completionS := c.value }
      (s.setPort { s.port with settings := x }, Answer.taken (d.clamped || a.clamped || c.clamped) x.bytes [])
  | _ => s.refuse .length

def serveHandlerReset (body : List Byte) (s : State) : State × Answer :=
  match body with
  | [] =>
    match s.port.state, s.port.fault with
    | .fault, some why =>
      (s.setPort { s.port with state := .idle, fault := none, acceptTimeouts := 0 }, Answer.accept (u8 why.byte))
    | _, _ => s.refuse .state
  | _ => s.refuse .length

/-! ## BIN CONFIG and MANIFEST RELEASE (R172, R180) -/

/-- The staged capacity, and the next carton's number in ABSENT (R172). -/
def Carton.config (c : Carton) (capacity : Nat) (sequence : Option Nat) : Carton :=
  { c with staged := some capacity, sequence := sequence.getD c.sequence }

def serveBinConfig (body : List Byte) (s : State) : State × Answer :=
  match body with
  | [bin, cap, has, n1, n0] =>
    match ofNum 12 bin.toNat, presence has with
    | some b, some p =>
      let n := if p then some (be16 n1 n0) else none
      if n = some 0 then s.refuse .range
      else if n.isSome ∧ (s.carton b).state ≠ .absent then s.refuse .state
      else
        let c := takeNat 1 60 cap.toNat
        (s.modCarton b (·.config c.value n), Answer.taken c.clamped (bin :: u8 c.value ++ opt16 n) [])
    | _, _ => s.refuse .range
  | _ => s.refuse .length

/-- The records left when the record with a number and every older one are removed (R180). -/
def recordsAfter (n : Nat) : List ManifestRec → List ManifestRec
  | [] => []
  | r :: rs => if r.number = n then rs else recordsAfter n rs

/-- The records and threshold after MANIFEST RELEASE (R180 items 1 and 2). -/
def Ring.released (r : Ring) (number threshold : Option Nat) : Ring :=
  { r with
    records := match number with | some n => recordsAfter n r.records | none => r.records
    threshold := threshold.getD r.threshold }

/-- MANIFEST RELEASE taken (R180). -/
def State.releaseRecords (s : State) (number threshold : Option Nat) : State :=
  (s.setRing (s.ring.released number threshold)).judgeHighWater.serveFreed

def serveManifestRelease (body : List Byte) (s : State) : State × Answer :=
  match body with
  | [h1, n3, n2, n1, n0, h2, t1, t0] =>
    match presence h1, presence h2 with
    | some p, some q =>
      let n := if p then some (be32 n3 n2 n1 n0) else none
      let x := takeNat 1 512 (be16 t1 t0)
      let t := if q then some x.value else none
      if n.all fun k => s.ring.records.any (·.number = k) then
        let u := s.releaseRecords n t
        let removed := s.ring.records.length - (s.ring.released n t).records.length
        (u, Answer.taken (q && x.clamped) (optional 4 (n.map u32) ++ opt16 t) (u16 removed ++ u.ring.values 0))
      else s.refuse .range
    | _, _ => s.refuse .range
  | _ => s.refuse .length

/-! ## The line port's own requests (R184, R194, R197, R199) -/

def readRate (b : Byte) : Option LineRate :=
  if b = 1 then some .r9600 else if b = 2 then some .r19200 else if b = 3 then some .r38400
  else if b = 4 then some .r57600 else if b = 5 then some .r115200 else if b = 6 then some .r230400
  else if b = 7 then some .r460800 else none

def serveLineConfig (body : List Byte) (s : State) : State × Answer :=
  match body with
  | [rate] =>
    match readRate rate with
    | some r => (s, { body := u8 1 ++ u8 r.byte, after := .newRate r })
    | none => s.refuse .range
  | _ => s.refuse .length

def serveNoticeMask (body : List Byte) (s : State) : State × Answer :=
  match body with
  | [m] =>
    if m.toNat < 8 then
      let x : NoticeMask := { slot := m.getLsbD 0, climate := m.getLsbD 1, ship := m.getLsbD 2 }
      (s.setLine { s.line with mask := x }, Answer.accept (u8 x.bits ++ u8 s.line.notices.length))
    else s.refuse .range
  | _ => s.refuse .length

def serveSetTime (body : List Byte) (s : State) : State × Answer :=
  match body with
  | [t3, t2, t1, t0] =>
    let t : Count32 := BitVec.ofNat 32 (be32 t3 t2 t1 t0)
    (s.setLine { s.line with rackTime := t }, Answer.accept (u32 s.line.rackTime.toNat ++ u32 t.toNat))
  | _ => s.refuse .length

def serveRestart (body : List Byte) (s : State) : State × Answer :=
  match body with
  | [] => (s, { body := u8 1, after := .restart })
  | _ => s.refuse .length

end Sys2Proof.Machine
end

