-- ==== Sys2Proof/Machine/Queries.lean ====
section
/-! DEFINITION. The requests that only report (R35, R73, R96, R106, R121, R135, R140, R164, R173, R179, R198, R204).
Each field stands in the order its rule lists it; the sizes the manual leaves open are log entry 16's. -/

namespace Sys2Proof.Machine

/-! ## SLOT QUERY (R1, R2, R36, R73, R98, R121, R164, R204) -/

/-- The loop counters of the plan's LOOP steps, in step order (R1). With no plan assigned, as once the run has ended,
the list is empty: the model's choice (log entry 56). -/
def State.loopCounters (s : State) (i : SlotNo) : List Nat :=
  match (s.slot i).plan with
  | some p =>
    ((s.plan p).steps.zip (s.slot i).loops.toList).filterMap fun x =>
      match x.1 with
      | .loop .. => some x.2
      | _ => none
  | none => []

def SpinRec.bytes (r : SpinRec) : List Byte := opt16 r.first ++ opt16 r.latest ++ opt16 r.worst ++ u8 r.count

/-- The slot record of R1, the run record apart, and the step working values of R36. -/
def State.slotBytes (s : State) (i : SlotNo) : List Byte :=
  let r := s.slot i
  u8 r.state.byte ++ opt8 (r.plan.map num) ++ opt8 r.step ++ u16 r.stepClock ++ u24 r.doseStart ++
    counted ((s.loopCounters i).map u8) ++ u8 (Seat.byte r.seatRaw) ++ u8 (Seat.byte r.seatStable) ++ timerLeft s.now r.debounce ++
    u8 r.latch.byte ++ u8 r.power.byte ++ u8 r.permit.byte ++ r.spin.bytes ++ opt8 (r.hold.map HoldReason.byte) ++
    opt8 (r.cyclePhase.map CyclePhase.byte) ++ flag r.phaseArmed ++ timerLeft s.now r.offTimer

/-- The run record of R2. A summary takes the size of one with twelve margins (log entry 33). -/
def RunRec.bytes (r : RunRec) : List Byte :=
  optional 25 (r.identity.map Identity.bytes) ++ u8 r.runCount ++ optCause r.endCause ++ opt16 r.base ++
    opt16 r.fallback ++ u24 r.deficit ++ optional 20 (r.summary.map fun x => fixed 20 x.bytes) ++
    optional 7 (r.verdict.map Verdict.bytes) ++ flag r.summaryMissing ++ flag r.countRegressed ++ flag r.zonePaused

def LastStatus.bytes (x : LastStatus) : List Byte :=
  u8 x.state.byte ++ u8 x.phase ++ u8 x.progress ++ u8 x.temp ++ u16 x.grown ++ u16 x.pending ++ u16 x.fault.toNat ++
    u32 x.time.toNat

/-- On the scan list 1, among the pending joins 2, neither 3 (R73). That it is one byte, and the three numbers, are the
model's choice: R73 gives the three no names and no table (log entry 55). -/
def Link.standing (l : Link) (i : SlotNo) : Nat := if l.scan.contains i then 1 else if l.joins.contains i then 2 else 3

/-- A summary operation's place and progress (R65, R73), at a fixed size, with the head count sent once, ahead of the
other fields of block 0 (log entry 33). Those four stand behind one presence byte (log entry 54). -/
def SummaryOp.bytes (op : SummaryOp) (place : Nat) : List Byte :=
  fixed 25 (u8 place ++ u8 op.next ++ opt8 (op.block0.map (·.headCount)) ++
    optional 6 (op.block0.map fun b => u16 b.grown ++ u16 b.pending ++ u8 b.maxTemp ++ u8 b.driveVerdict) ++
    counted (op.margins.map u8) ++ u8 op.misses)

/-- The link part of R73. The place and progress of a summary operation stand behind one presence byte (log entry 54).
-/
def State.linkBytes (s : State) (i : SlotNo) : List Byte :=
  let l := s.link (shelfOf i)
  let x := s.linkSlot i
  optional 14 (x.last.map LastStatus.bytes) ++ u8 x.consecutive ++ u16 x.total ++ u8 (l.standing i) ++
    opt8 ((l.directed.find? fun d => d.slot = i).map fun d => d.code.byte) ++
    optional 25 ((l.summary.find? fun op => op.slot = i).map fun op =>
      op.bytes (l.summary.findIdx fun o => o.slot = i))

/-- The dose record of R98. -/
def DoseRec.bytes (d : DoseRec) : List Byte :=
  u24 d.acc ++ opt8 (d.source.map DoseSource.byte) ++ opt16 d.temp ++ opt8 d.band ++ u8 d.credit ++ u16 d.airMinutes ++
    u16 d.uncredited ++ flag d.saturated

/-- The position of the current order: OFFERED 2, IN_FLIGHT 3 (R142, R146). -/
def Port.position (p : Port) : Nat :=
  match p.state with
  | .deskew | .offered => 2
  | _ => 3

/-- The order part of R164: kind, number, position and place in the queue. A slot that has both a current order and a
queued one shows the current one (log entry 53). The parts stand behind one presence byte (log entry 54). -/
def State.orderBytes (s : State) (i : SlotNo) : List Byte :=
  let queued := (s.port.queue.find? fun o => o.slot = i).map fun o =>
    u8 o.kind.byte ++ u16 o.number ++ u8 1 ++ opt8 (some (s.port.queue.findIdx fun x => x.slot = i))
  let current := (s.port.current.filter fun c => c.order.slot = i).map fun c =>
    u8 c.order.kind.byte ++ u16 c.order.number ++ u8 s.port.position ++ opt8 none
  optional 6 (current.or queued)

/-- The data of SLOT QUERY (R204 item 2). -/
def State.slotQueryBytes (s : State) (i : SlotNo) : List Byte :=
  s.slotBytes i ++ (s.slot i).run.bytes ++ s.linkBytes i ++ (s.dose i).bytes ++
    (u16 (s.watch i).prior.toNat ++ latchBytes (s.watch i).latch) ++ s.orderBytes i

def serveSlotQuery (body : List Byte) (s : State) : State × Answer :=
  match body with
  | [slot] => s.withSlot slot fun i => (s, Answer.accept (s.slotQueryBytes i))
  | _ => s.refuse .length

/-! ## PLAN READ (R35) -/

def servePlanRead (body : List Byte) (s : State) : State × Answer :=
  match body with
  | [plan] =>
    match ofNum 8 plan.toNat with
    | some p => (s, Answer.accept (counted ((s.plan p).steps.map PlanStep.bytes) ++ u8 (s.plan p).refs))
    | none => s.refuse .range
  | _ => s.refuse .length

/-! ## ZONE QUERY (R96, R204) -/

/-- The minutes that remain of a number of milliseconds; a part of a minute is rounded as the part rounds it (log
entry 36). -/
def minutesLeft (ms : Nat) : Nat := if Config.graceRoundsUp ms then (ms + 59999) / 60000 else ms / 60000

def Grace.bytes (now : Time) : Grace → List Byte
  | .running e => u8 1 ++ u16 (minutesLeft (Time.remaining now e))
  | .expired => u8 2 ++ u16 0

/-- Part 1 of ZONE QUERY (R96). That a profile is present is sent as a flag (log entry 59). -/
def Zone.bytes (z : Zone) (now : Time) : List Byte :=
  u8 z.state.byte ++ flag z.active.isSome ++ flag z.staged.isSome ++
    optional 4 (z.player.map fun p => u8 p.segment ++ u8 p.sub.byte ++ u16 p.hold) ++ opt16 z.setpoint ++ opt16 z.air ++
    u8 z.sensor.byte ++ i24 z.acc ++ u16 z.prevDuty ++ u16 z.duty ++ opt16 z.pendingDuty ++ u8 z.heater.byte ++
    opt16 z.fanSpeed ++ u8 z.lowWindows ++ u8 z.causes.bits ++
    optional 6 (z.trip.map fun t => u8 t.first.byte ++ u32 t.time.toNat ++ u8 t.seen.bits) ++
    optional 3 (z.grace.map (Grace.bytes now)) ++ z.settings.bytes

/-- Parts 2 and 3: the presence byte, the loop flag and the segments (R204 item 4). For an absent profile the loop flag
and the count of segments are 0 and no segment follows: the model's choice (log entry 58). -/
def profileBytes (p : Option Profile) : List Byte :=
  match p with
  | some x => u8 1 ++ flag x.loop ++ counted (x.segments.map Segment.bytes)
  | none => u8 0 ++ flag false ++ counted []

def serveZoneQuery (body : List Byte) (s : State) : State × Answer :=
  match body with
  | [zone, part] => s.withZone zone fun z =>
    if part = 1 then (s, Answer.accept ((s.zone z).bytes s.now))
    else if part = 2 then (s, Answer.accept (profileBytes (s.zone z).active))
    else if part = 3 then (s, Answer.accept (profileBytes (s.zone z).staged))
    else s.refuse .range
  | _ => s.refuse .length

/-! ## GRADE MAP READ and SORT PROBE (R135, R140) -/

def serveGradeMapRead (body : List Byte) (s : State) : State × Answer :=
  match body with
  | [] =>
    (s, Answer.accept (s.sort.weights.bytes ++ bandsBytes s.sort.map ++
      (s.sort.faults.toList.map fun b => u8 b.val).flatten ++ (s.sort.barred.toList.map flag).flatten))
  | _ => s.refuse .length

/-- What a probe reports of a bin: the bar flag of a bin 1 to 12 and the verdict's bin (R140; log entry 18). -/
def SortTables.probe (t : SortTables) (entry : Nat) (band : Option Nat) (b : Bin) : List Byte :=
  u8 entry ++ u8 b.val ++ opt8 band ++ optional 1 ((laneOf b).map fun n => flag t.barred[n]) ++
    u8 (barStep t b).1.val

def serveSortProbe (body : List Byte) (s : State) : State × Answer :=
  match body with
  | [h, l, e] =>
    if 1000 < be16 h l then s.refuse .range
    else if e = 0 then
      match bandOf s.sort.map (be16 h l) with
      | some (k, b) => (s, Answer.accept (s.sort.probe 0 (some k) b))
      | none => (s, Answer.accept (s.sort.probe 0 none 0))
    else
      match ofNum 12 e.toNat with
      | some n => (s, Answer.accept (s.sort.probe (num n) none s.sort.faults[n]))
      | none => s.refuse .range
  | _ => s.refuse .length

/-! ## QUEUE QUERY (R73, R164, R204) -/

/-- The link report of R73. The next block and miss count of the head operation stand behind one presence byte (log
entry 54). -/
def Link.bytes (l : Link) : List Byte :=
  u8 l.phase.byte ++ counted (l.scan.map fun i => u8 (num i)) ++ counted (l.joins.map fun i => u8 (num i)) ++
    counted (l.directed.map fun d => u8 (num d.slot) ++ u8 d.code.byte) ++
    counted (l.summary.map fun op => u8 (num op.slot)) ++
    optional 2 (l.summary.head?.map fun op => u8 op.next ++ u8 op.misses) ++
    optional 2 (l.outstanding.map fun t => u8 (num t.slot) ++ u8 t.request.byte) ++ l.settings.bytes ++
    optional 5 (l.staged.map LinkSettings.bytes)

/-- The port report of R164, with at most sixteen orders from a start position. The kind and remaining time of the timer
stand behind one presence byte (log entry 54). -/
def State.portBytes (s : State) (start : Nat) : List Byte :=
  let p := s.port
  u8 p.state.byte ++ opt8 (p.fault.map FaultReason.byte) ++
    optional 8 (p.current.map fun c => c.order.bytes p.position) ++
    optional 5 (p.timer.map fun t => u8 t.kind.byte ++ u32 (Time.remaining s.now t.expiry)) ++
    opt8 (p.outcome.map PortOutcome.byte) ++ u8 p.queue.length ++
    counted (((p.queue.drop start).take 16).map fun o =>
      o.bytes 1 ++ flag (s.eligible o) ++ opt8 (s.orderTest o)) ++
    u8 p.streak ++ u8 p.acceptTimeouts ++ p.settings.bytes ++
    flag p.readyLine ++ flag p.acceptLine ++ flag p.doneLine ++ flag p.failLine ++
    (s.plans.toList.map fun x => u8 x.refs).flatten

def serveQueueQuery (body : List Byte) (s : State) : State × Answer :=
  match body with
  | [part, start] =>
    match ofNum 4 part.toNat with
    | some l => (s, Answer.accept (s.link l).bytes)
    | none => if part = 5 then (s, Answer.accept (s.portBytes start.toNat)) else s.refuse .range
  | _ => s.refuse .length

/-! ## BIN QUERY and MANIFEST READ (R173, R179, R205) -/

/-- HIGH 1, LOW 2 (R165, R202). -/
def Carton.bytes (c : Carton) : List Byte :=
  u8 c.state.byte ++ u16 c.sequence ++ u8 c.fill ++ u8 c.capacity ++ opt8 c.staged ++ flag c.pendingClose ++
    u8 (if c.present then 1 else 2)

/-- BIN QUERY (R173). The slot and position of the current EXTRACT stand behind one presence byte, zeros without one:
the model's choice (log entry 54). -/
def serveBinQuery (body : List Byte) (s : State) : State × Answer :=
  match body with
  | [bin] =>
    match ofNum 12 bin.toNat with
    | some b =>
      (s, Answer.accept ((s.carton b).bytes ++ flag (s.barred b) ++
        optional 2 ((s.currentTo b).map fun i => u8 (num i) ++ u8 s.port.position) ++ u8 (s.queuedTo b).length))
    | none => s.refuse .range
  | _ => s.refuse .length

/-- The records from a start number on, or from the oldest when the ring does not hold it (R179). -/
def Ring.readFrom (r : Ring) (start : Nat) : List ManifestRec :=
  if r.records.any (·.number = start) then r.records.dropWhile (·.number ≠ start) else r.records

def serveManifestRead (body : List Byte) (s : State) : State × Answer :=
  match body with
  | [n3, n2, n1, n0, c] =>
    let k := takeNat 1 4 c.toNat
    let data := s.ring.values k.value ++
      (((s.ring.readFrom (be32 n3 n2 n1 n0)).take k.value).map ManifestRec.bytes).flatten
    (s, Answer.taken k.clamped [] data)
  | _ => s.refuse .length

/-! ## RACK QUERY (R198) -/

def LineCounters.bytes (c : LineCounters) : List Byte :=
  u16 c.gap ++ u16 c.length ++ u16 c.crc ++ u16 c.framing ++ u16 c.breaks ++ u16 c.busy ++ u16 c.unanswered

/-- The count of a waiting OVERFLOW notice (R198). -/
def Line.overflowCount (l : Line) : Option Nat :=
  l.notices.findSome? fun n => match n.body with
    | .overflow c .. => some c
    | _ => none

/-- The BUSY refusals in the reply list (R188). One that is being sent has left the list, by R192, and is not counted,
though R189 and the table of section 10.8 show a reply being sent in it: the model's choice (log entry 61). -/
def Line.busyReplies (l : Line) : Nat := l.replies.countP fun f => !f.served

def serveRackQuery (body : List Byte) (s : State) : State × Answer :=
  match body with
  | [] =>
    let l := s.line
    (s, Answer.accept (u8 Config.revision ++ u8 l.rackId.toNat ++ u32 l.rackTime.toNat ++ u32 l.uptime.toNat ++
      u16 l.restarts ++ u8 l.rate.byte ++ u8 l.mask.bits ++ u8 l.notices.length ++ opt16 l.overflowCount ++
      u8 l.requests.length ++ u8 l.busyReplies ++ l.counters.bytes ++ s.doseTable.bytes))
  | _ => s.refuse .length

end Sys2Proof.Machine
end

