-- ==== Sys2Proof/Machine/LinePort.lean ====
section
/-! DEFINITION. The line port (chapter 10): the request codes, requests placed and served, the transmitter, the receiver
byte by byte, and what the last byte of a frame brings with it, RESTART among it. -/

namespace Sys2Proof.Machine

/-! ## Request codes (R203) -/

/-- The request codes of R203. -/
inductive RequestCode
  | slotOpen | slotStart | slotSuspend | slotContinue | slotEnd | slotAbort | slotRelease | slotRerun | slotQuery
  | spinSettings | planLoad | planRead | linkConfig | profileLoad | zoneStart | zoneStop | zoneResume | zoneSettings
  | zoneQuery | doseTableLoad | watchLoad | watchClear | weightsLoad | gradeMapLoad | faultTableLoad | gradeMapRead
  | binBar | binUnbar | sortProbe | handlerSettings | handlerReset | queueQuery | binConfig | binQuery | manifestRead
  | manifestRelease | lineConfig | noticeMask | setTime | rackQuery | restart
  deriving DecidableEq, Repr

/-- The code byte of a request (R203). -/
def RequestCode.byte : RequestCode → Byte
  | .slotOpen => 0x01 | .slotStart => 0x02 | .slotSuspend => 0x03 | .slotContinue => 0x04 | .slotEnd => 0x05
  | .slotAbort => 0x06 | .slotRelease => 0x07 | .slotRerun => 0x08 | .slotQuery => 0x09 | .spinSettings => 0x0A
  | .planLoad => 0x10 | .planRead => 0x11 | .linkConfig => 0x18 | .profileLoad => 0x20 | .zoneStart => 0x21
  | .zoneStop => 0x22 | .zoneResume => 0x23 | .zoneSettings => 0x24 | .zoneQuery => 0x25 | .doseTableLoad => 0x28
  | .watchLoad => 0x30 | .watchClear => 0x31 | .weightsLoad => 0x38 | .gradeMapLoad => 0x39 | .faultTableLoad => 0x3A
  | .gradeMapRead => 0x3B | .binBar => 0x3C | .binUnbar => 0x3D | .sortProbe => 0x3E | .handlerSettings => 0x40
  | .handlerReset => 0x41 | .queueQuery => 0x42 | .binConfig => 0x48 | .binQuery => 0x49 | .manifestRead => 0x4A
  | .manifestRelease => 0x4B | .lineConfig => 0x50 | .noticeMask => 0x51 | .setTime => 0x52 | .rackQuery => 0x53
  | .restart => 0x54

/-- The request codes in rising order of their bytes. -/
def RequestCode.list : List RequestCode :=
  [.slotOpen, .slotStart, .slotSuspend, .slotContinue, .slotEnd, .slotAbort, .slotRelease, .slotRerun, .slotQuery,
   .spinSettings, .planLoad, .planRead, .linkConfig, .profileLoad, .zoneStart, .zoneStop, .zoneResume, .zoneSettings,
   .zoneQuery, .doseTableLoad, .watchLoad, .watchClear, .weightsLoad, .gradeMapLoad, .faultTableLoad, .gradeMapRead,
   .binBar, .binUnbar, .sortProbe, .handlerSettings, .handlerReset, .queueQuery, .binConfig, .binQuery, .manifestRead,
   .manifestRelease, .lineConfig, .noticeMask, .setTime, .rackQuery, .restart]

/-- The request code a code byte is, if it is one (R189). -/
def RequestCode.ofByte (b : Byte) : Option RequestCode := RequestCode.list.find? fun c => c.byte = b

/-- A request goes to the block that owns it (R189). -/
def RequestCode.serve : RequestCode → List Byte → State → State × Answer
  | .slotOpen => serveSlotOpen | .slotStart => serveSlotStart | .slotSuspend => serveSlotSuspend
  | .slotContinue => serveSlotContinue | .slotEnd => serveSlotEnd | .slotAbort => serveSlotAbort
  | .slotRelease => serveSlotRelease | .slotRerun => serveSlotRerun | .slotQuery => serveSlotQuery
  | .spinSettings => serveSpinSettings | .planLoad => servePlanLoad | .planRead => servePlanRead
  | .linkConfig => serveLinkConfig | .profileLoad => serveProfileLoad | .zoneStart => serveZoneStart
  | .zoneStop => serveZoneStop | .zoneResume => serveZoneResume | .zoneSettings => serveZoneSettings
  | .zoneQuery => serveZoneQuery | .doseTableLoad => serveDoseTableLoad | .watchLoad => serveWatchLoad
  | .watchClear => serveWatchClear | .weightsLoad => serveWeightsLoad | .gradeMapLoad => serveGradeMapLoad
  | .faultTableLoad => serveFaultTableLoad | .gradeMapRead => serveGradeMapRead | .binBar => serveBinBar
  | .binUnbar => serveBinUnbar | .sortProbe => serveSortProbe | .handlerSettings => serveHandlerSettings
  | .handlerReset => serveHandlerReset | .queueQuery => serveQueueQuery | .binConfig => serveBinConfig
  | .binQuery => serveBinQuery | .manifestRead => serveManifestRead | .manifestRelease => serveManifestRelease
  | .lineConfig => serveLineConfig | .noticeMask => serveNoticeMask | .setTime => serveSetTime
  | .rackQuery => serveRackQuery | .restart => serveRestart

/-- A request's effect and answer; a code that is no request code is refused with UNKNOWN (R189). -/
def Request.answer (r : Request) (s : State) : State × Answer :=
  match RequestCode.ofByte r.code with
  | some c => c.serve r.body s
  | none => s.refuse .unknown

/-! ## Requests placed and served (R188, R189) -/

/-- The BUSY refusal of a request (R188, R203). -/
def Request.busy (r : Request) (queued : Nat) : OutFrame :=
  { tag := r.tag, code := r.code, body := (Answer.refuse .busy (u8 queued)).body, served := false, after := .nothing }

/-- A well-formed frame becomes a request and is placed (R188). -/
def Line.place (l : Line) (r : Request) : Line :=
  if l.requests.length < Config.requestQueueSize then { l with requests := l.requests ++ [r] }
  else if l.busyReplies < Config.requestQueueSize then
    { l with
      replies := l.replies ++ [r.busy l.requests.length]
      counters := { l.counters with busy := saturate Config.cap16 (l.counters.busy + 1) } }
  else
    { l with counters := { l.counters with unanswered := saturate Config.cap16 (l.counters.unanswered + 1) } }

/-- A served reply waits or is being sent (R189). -/
def Line.servedWaits (l : Line) : Bool := l.replies.any (·.served) || l.sending.any (·.served)

/-- The reply of a served request (R189). -/
def Request.reply (r : Request) (a : Answer) : OutFrame :=
  { tag := r.tag, code := r.code, body := a.body, served := true, after := a.after }

/-- A frame joins the tail of the reply list (R189). -/
def State.addReply (s : State) (f : OutFrame) : State := s.setLine { s.line with replies := s.line.replies ++ [f] }

/-- A request taken from the queue is served: its effect, and its reply in the reply list (R189). -/
def State.serve (s : State) (r : Request) : State := ((r.answer s).1).addReply (r.reply (r.answer s).2)

/-- The head of the request queue is served when no served reply waits or is being sent (R189). -/
def State.serveHead (s : State) : State :=
  if s.line.servedWaits then s
  else
    match s.line.requests with
    | r :: rest => (s.setLine { s.line with requests := rest }).serve r
    | [] => s

/-! ## The transmitter (R192) -/

/-- The next frame to send is chosen while the line is free: the oldest reply, or the oldest notice under the next
sequence number (R192). -/
def Line.transmit (l : Line) : Line :=
  match l.sending, l.replies, l.notices with
  | some _, _, _ => l
  | none, f :: rest, _ => { l with replies := rest, sending := some f }
  | none, [], n :: rest => { l with notices := rest, sending := some (n.frame l.sequence), sequence := l.sequence + 1 }
  | none, [], [] => l

/-- The bytes the transmitter is sending (R183). -/
def Line.output (l : Line) : List Byte := match l.sending with | some f => f.wire | none => []

/-- What an event leaves to be done in it: the phases of the links (R60, R61), a run of the arbiter (R149), and the
transmitter's next frame (R192). An order that an accept timeout returns may be dispatched again here (log entry 47). -/
def State.finish (s : State) : State :=
  let t := s.advanceLinks.arbitrate
  t.setLine t.line.transmit

/-- The transmitter's part alone, for an event that touches no link and no order. -/
def State.flush (s : State) : State := s.setLine s.line.transmit

/-- A request arrives: it is placed, and served if it may be (R188, R189). -/
def State.arrive (s : State) (r : Request) : State := ((s.setLine (s.line.place r)).serveHead).finish

/-! ## RESTART (R200, R201 and the chapters it names) -/

/-- HP at RESTART (R145): the current order dropped, the end of its extraction handed to CM, the queue emptied. -/
def State.restartPort (s : State) : State :=
  let t := s.setPort
    { (s.port.cleared .idle) with queue := [], acceptTimeouts := 0, streak := 0, fault := none }
  match s.port.current with
  | some c => t.endAtCarton c.order
  | none => t

/-- RESTART queues no MANIFEST_HIGH (R181): one for the record of a close it takes up goes from the notice queue, which
RESTART has emptied before (R201; log entry 51). -/
def State.withoutHighWater (s : State) : State :=
  s.setLine { s.line with notices := s.line.notices.filter fun n => n.body.kind ≠ .manifestHigh }

/-- SC at RESTART (R30, R31): the slots sampled anew, the plans kept with counts of 0. -/
def State.restartSlots (s : State) : State :=
  { s with
    slots := mapEach (fun r => SlotRec.sampled r.seatRaw) s.slots
    plans := mapEach (fun p => { p with refs := 0 }) s.plans
    permitQueue := [] }

/-- SL at RESTART (R56): everything dropped, staged settings in force, and a frame start at once. -/
def State.restartLinks (s : State) : State :=
  { s with
    links := mapEach (fun l => Link.idleFrom s.now (l.staged.getD l.settings)) s.links
    linkSlots := Vector.replicate 40 LinkSlot.empty }

/-- ZC at RESTART (R95). -/
def State.restartZones (s : State) : State := { s with zones := mapEach Zone.toOff s.zones }

/-- DI and WU at RESTART (R98, R110). -/
def State.restartRecords (s : State) : State :=
  { s with doses := Vector.replicate 40 DoseRec.empty, watches := Vector.replicate 40 WatchRec.empty }

/-- LP at RESTART (R201 item 2). -/
def State.restartLine (s : State) : State :=
  s.setLine { s.line with restarts := saturate Config.cap16 (s.line.restarts + 1), rackId := s.straps }

/-- RESTART takes effect (R200, R201): the notice queue emptied first, HP before CM's close, then the other blocks. -/
def State.restart (s : State) : State :=
  let t := (s.setLine { s.line with notices := [] }).restartPort.release.withoutHighWater
  t.restartSlots.restartLinks.restartZones.restartRecords.restartLine

/-! ## Frames sent (R184, R189, R192, R199) -/

/-- The new line rate comes into force: a frame partly received is discarded and not counted (R184). A rate that is the
one in force changes nothing. -/
def Line.setRate (l : Line) (r : LineRate) : Line := if l.rate = r then l else { l with rate := r, receiver := .hunt }

/-- What the last byte of a frame brings with it (R184, R199). -/
def State.afterSent (s : State) : AfterSent → State
  | .nothing => s
  | .newRate r => s.setLine (s.line.setRate r)
  | .restart => s.restart

/-- The last byte of the frame being sent has been sent (R184, R189, R192, R199). -/
def State.frameOut (s : State) : State :=
  match s.line.sending with
  | some f => (((s.setLine { s.line with sending := none }).afterSent f.after).serveHead).finish
  | none => s

/-! ## The receiver (R185, R187) -/

def Line.countGap (l : Line) : Line :=
  { l with counters := { l.counters with gap := saturate Config.cap16 (l.counters.gap + 1) } }
def Line.countLength (l : Line) : Line :=
  { l with counters := { l.counters with length := saturate Config.cap16 (l.counters.length + 1) } }
def Line.countCrc (l : Line) : Line :=
  { l with counters := { l.counters with crc := saturate Config.cap16 (l.counters.crc + 1) } }
def Line.countFraming (l : Line) : Line :=
  { l with counters := { l.counters with framing := saturate Config.cap16 (l.counters.framing + 1) } }
def Line.countBreak (l : Line) : Line :=
  { l with counters := { l.counters with breaks := saturate Config.cap16 (l.counters.breaks + 1) } }

/-- The receiver in HUNT. -/
def Line.hunt (l : Line) : Line := { l with receiver := .hunt }

/-- More than 20 ms have passed since the last byte of a frame partly taken (R185). -/
def Line.gapPassed (l : Line) (now : Time) : Bool :=
  match l.receiver with
  | .hunt => false
  | .collect _ last => Config.gapMs < Time.since now last

/-- A frame whose next byte has not come within 20 ms is discarded and counted as GAP (R185). -/
def Line.lapse (l : Line) (now : Time) : Line := if l.gapPassed now then l.hunt.countGap else l

/-- The gap is judged as the receiver meets the line again: a byte, or a break, that comes too late finds HUNT (R185). -/
def State.lapse (s : State) : State := s.setLine (s.line.lapse s.now)

/-- A frame taken whole is judged by its CRC, over length, tag, code and body (R183, R185). -/
def judgeFrame (bytes : List Byte) : Option Request :=
  match bytes with
  | len :: tag :: code :: rest =>
    let body := rest.take len.toNat
    match rest.drop len.toNat with
    | [c1, c0] =>
      if be16 c1 c0 = (crc16 (len :: tag :: code :: body)).toNat then some { tag := tag, code := code, body := body }
      else none
    | _ => none
  | _ => none

/-- A frame taken whole: placed as a request when well formed, discarded and counted otherwise (R185, R188). -/
def State.frameTaken (s : State) (bytes : List Byte) : State :=
  match judgeFrame bytes with
  | some r => (s.setLine s.line.hunt).arrive r
  | none => s.setLine s.line.hunt.countCrc

/-- A byte arrives in COLLECT after those given (R185). -/
def State.collect (s : State) (bytes : List Byte) (b : Byte) : State :=
  let all := bytes ++ [b]
  match all with
  | [] => s
  | len :: _ =>
    if Config.bodyTop < len.toNat then s.setLine s.line.hunt.countLength
    else if all.length = len.toNat + 5 then s.frameTaken all
    else s.setLine { s.line with receiver := .collect all s.now }

/-- A byte arrives with its stop bit high: one that comes more than 20 ms after the last is met in HUNT (R185). -/
def State.receive (s : State) (b : Byte) : State :=
  let t := s.lapse
  match t.line.receiver with
  | .hunt => if b = Config.startByte then t.setLine { t.line with receiver := .collect [] t.now } else t
  | .collect bytes _ => t.collect bytes b

/-- Bytes arrive one after another, with no gap among them. -/
def State.receiveAll (s : State) (bytes : List Byte) : State := bytes.foldl State.receive s

/-- The receiver has a frame partly taken. -/
def Line.collecting (l : Line) : Bool :=
  match l.receiver with
  | .hunt => false
  | .collect .. => true

/-- A byte arrives with its stop bit low: counted in COLLECT, and not in HUNT (R185). -/
def Line.badStop (l : Line) : Line := if l.collecting then l.hunt.countFraming else l

end Sys2Proof.Machine
end

