-- ==== Sys2Proof/Machine/Clock.lean ====
section
/-! DEFINITION. The rack clock (R97, R197), and what is due of itself when no command waits: the timers of every block
and the work a free link has to do (log entry 2). -/

namespace Sys2Proof.Machine

/-! ## The rack clock -/

/-- One millisecond passes. -/
def Clock.tick (c : Clock) : Clock := { c with ms := c.ms + 1, ofSecond := c.ofSecond + 1 }

/-- The clock at a second tick: carried on to the end of the second (R197; log entry 4). -/
def Clock.second (c : Clock) : Clock :=
  { ms := Time.after c.ms (1000 - c.ofSecond), ofSecond := c.ofSecond - 1000, ofMinute := c.ofMinute + 1 }

/-- The clock at a dose minute tick (R97; log entry 4). -/
def Clock.minute (c : Clock) : Clock := { c with ofMinute := c.ofMinute - 60 }

/-- A zone at a second tick: a read of its air sensor starts and its fan window is over (R76, R79). That the time from
power-on to the first tick is a window too is the model's choice (log entry 52). -/
def Zone.second (z : Zone) : Zone := { z with reading := true, windowOver := true }

/-- Rack time and uptime at a second tick (R197). -/
def Line.second (l : Line) : Line := { l with rackTime := l.rackTime + 1, uptime := l.uptime + 1 }

/-! ## What is due -/

/-- The clock's ticks; a sensor read that has not answered by the next second tick comes first (R76). -/
def State.dueTick (s : State) : Option Instr :=
  if s.clock.ofSecond < 1000 then
    if s.clock.ofMinute < 60 then none else some .doseMinuteTick
  else
    match allShelves.find? fun z => (s.zone z).reading with
    | some z => some (.sensorNoResponse z)
    | none => some .secondTick

/-- A slot's timers (R5, R11, R36). -/
def State.dueSlot (s : State) (i : SlotNo) : Option Instr :=
  let r := s.slot i
  if s.timerOver r.debounce then some (.seatDebounceExpiry i)
  else if s.timerOver r.blanking then some (.inrushBlankingEnd i)
  else if s.timerOver r.spinLimit then some (.spinLimitExpiry i)
  else if s.timerOver r.offTimer then some (.cycleOffTimeExpiry i)
  else none

/-- A link's work: a poll timeout, or what a free link does next. A frame start that is due goes before a directed entry
that waits (R52, R59 to R63). -/
def State.dueLink (s : State) (l : ShelfNo) : Option Instr :=
  let x := s.link l
  match x.outstanding with
  | some t => if Time.reached s.now t.expiry then some (.miss l) else none
  | none =>
    if x.frameDue s.now then some (.frameStart l)
    else if x.eligible.isSome then some (.directedTransaction l)
    else
      match x.phase with
      | .poll => if x.unpolled.isEmpty then none else some (.poll l)
      | .gap => if x.gapOver then none else some (.summaryTransaction l)
      | .wait | .start => none

/-- A zone's timers (R79, R86, R87, R92). -/
def State.dueZone (s : State) (z : ShelfNo) : Option Instr :=
  let x := s.zone z
  if x.windowOver then some (.fanWindowEnd z)
  else if s.timerOver x.control then some (.controlInterval z)
  else if s.timerOver x.periodEnd then some (.pwmPeriodStart z)
  else if s.timerOver x.onEnd then some (.pwmOnTimeEnd z)
  else
    match x.grace with
    | some (.running e) => if Time.reached s.now e then some (.tripGraceExpiry z) else none
    | _ => none

/-- The timer of the handler port (R145). -/
def State.duePort (s : State) : Option Instr :=
  match s.port.timer with
  | some t =>
    if Time.reached s.now t.expiry then
      match t.kind with
      | .deskew => some .deskewExpiry
      | .accept => some .acceptTimeout
      | .completion => some .completionTimeout
      | .evidence => some .evidenceTimeout
      | .release => some .releaseTimeout
    else none
  | none => none

/-- The receiver's gap limit (R185). -/
def State.dueLine (s : State) : Option Instr :=
  if s.line.gapPassed s.now then some .lineGap else none

/-- The first event that is due, in a fixed order (log entry 2). -/
def State.due (s : State) : Option Instr :=
  s.dueTick.or ((allSlots.findSome? s.dueSlot).or ((allShelves.findSome? s.dueZone).or
    ((allShelves.findSome? s.dueLink).or (s.duePort.or s.dueLine))))

end Sys2Proof.Machine
end

