-- ==== Sys2Proof/Machine/ExecEvents.lean ====
section
/-! DEFINITION. The meanings of the event commands: power, the line, the rack clock, the pins of the slots, the drive
links, the zones, the handler's lines and the carton inputs. An event that no rule applies to is discarded (R4). -/

namespace Sys2Proof.Machine

/-! ## Power -/

/-- POWER_ON (R29): every block at its power-on values with the pins sampled; the commands that wait stay (log
entry 34). -/
def execPowerOn (inputs : Inputs) (s : State) : Host.Outcome State Fault Refusal :=
  .next { State.ofInputs inputs with pending := s.pending }

/-! ## The line (R184 to R189, R192, R199, R200) -/

/-- The frame being sent brings something with it. -/
def State.sendingWith (s : State) (p : AfterSent → Bool) : Bool := s.line.sending.any fun f => p f.after

def AfterSent.isRestart : AfterSent → Bool
  | .restart => true
  | _ => false

def AfterSent.isRate : AfterSent → Bool
  | .newRate _ => true
  | _ => false

/-- The rack id straps come to the levels given, or stay as they are (R198). -/
def State.setStraps (s : State) (x : Option Byte) : State := { s with straps := x.getD s.straps }

/-- RESTART_EFFECT (R200): the last byte of a RESTART reply is sent. The straps are sampled again at the levels given,
or at those they had (R198, R201; log entries 6, 25). -/
def execRestartEffect (s : State) (straps : Option Byte := none) : Host.Outcome State Fault Refusal :=
  .next (if s.sendingWith AfterSent.isRestart then (s.setStraps straps).frameOut else s)

/-- LINE_RATE_CHANGE (R184): the last byte of a LINE CONFIG reply is sent (log entry 6). -/
def execLineRateChange (s : State) : Host.Outcome State Fault Refusal :=
  .next (if s.sendingWith AfterSent.isRate then s.frameOut else s)

/-- FRAME_RECEIVED (R188): bytes arrive and are taken by the receiver (R185). -/
def execFrameReceived (bytes : List Byte) (s : State) : Host.Outcome State Fault Refusal := .next (s.receiveAll bytes)

/-- GAP (R185). -/
def execLineGap (s : State) : Host.Outcome State Fault Refusal :=
  .next (if s.line.collecting then s.setLine s.line.hunt.countGap else s)

/-- LINE_BREAK (R187), after the gap that has passed before it, if one has (R185). -/
def execLineBreak (s : State) : Host.Outcome State Fault Refusal :=
  .next (s.setLine (s.line.lapse s.now).hunt.countBreak)

/-- FRAME_SENT (R192). -/
def execFrameSent (s : State) : Host.Outcome State Fault Refusal := .next s.frameOut

/-- START_BYTE (R185): a byte equal to the start byte arrives. -/
def execStartByte (s : State) : Host.Outcome State Fault Refusal := .next (s.receive Config.startByte)

/-- FRAMING_DISCARD (R185): a byte that comes too late is met in HUNT. -/
def execFramingDiscard (s : State) : Host.Outcome State Fault Refusal :=
  .next (s.setLine (s.line.lapse s.now).badStop)

/-- LENGTH_DISCARD (R185): a byte above 240 arrives, as a length byte where the receiver waits for one. -/
def execLengthDiscard (len : Byte) (s : State) : Host.Outcome State Fault Refusal := .next (s.receive len)

/-! ## The rack clock (R97, R197) -/

/-- SECOND_TICK (R197, R76, R79). The time it carries the clock over may bring the receiver's gap with it (R185; log
entry 4). -/
def execSecondTick (s : State) : Host.Outcome State Fault Refusal :=
  .next
    { s with
      clock := s.clock.second, line := (s.line.lapse s.clock.second.ms).second, zones := mapEach Zone.second s.zones }

/-- DOSE_MINUTE_TICK (R97). -/
def execDoseMinuteTick (s : State) : Host.Outcome State Fault Refusal :=
  .next ({ s with clock := s.clock.minute }).minute.finish

/-! ## Slots (R5, R11 to R13, R41, R48) -/

/-- RAW_SEAT_CHANGE (R5, R6). -/
def execRawSeatChange (slot : SlotNo) (level : Seat) (s : State) : Host.Outcome State Fault Refusal :=
  .next (s.rawSeat slot level).finish

/-- SEAT_DEBOUNCE_EXPIRY (R5). -/
def execSeatDebounceExpiry (slot : SlotNo) (s : State) : Host.Outcome State Fault Refusal :=
  .next (if (s.slot slot).debounce.isSome then (s.debounceOver slot).finish else s)

/-- READY_SEEN (R11). -/
def execReadySeen (slot : SlotNo) (s : State) : Host.Outcome State Fault Refusal :=
  .next (if (s.slot slot).grantedAt.isSome then (s.readyHigh slot).finish else s)

/-- SPIN_LIMIT_EXPIRY (R12). -/
def execSpinLimitExpiry (slot : SlotNo) (s : State) : Host.Outcome State Fault Refusal :=
  .next (if (s.slot slot).spinLimit.isSome then (s.endAtOnce slot .noSpin).finish else s)

/-- The level of a slot's overcurrent line (R13). -/
def State.setOvercurrent (s : State) (i : SlotNo) (v : Bool) : State :=
  { s with overcurrent := s.overcurrent.set i v }

/-- OVERCURRENT_LINE_ACTIVE (R13): the line takes a level; active while regarded, it is overcurrent. -/
def execOvercurrentLineActive (slot : SlotNo) (active : Bool) (s : State) : Host.Outcome State Fault Refusal :=
  let t := s.setOvercurrent slot active
  .next (if active && (s.slot slot).regardsOvercurrent then (t.takeOvercurrent slot).finish else t)

/-- INRUSH_BLANKING_END (R13). -/
def execInrushBlankingEnd (slot : SlotNo) (s : State) : Host.Outcome State Fault Refusal :=
  let t := s.modSlot slot fun r => { r with blanking := none }
  .next (if (s.slot slot).blanking.isSome then
      if s.overcurrent[slot] && (t.slot slot).regardsOvercurrent then (t.takeOvercurrent slot).finish else t
    else s)

/-- STEP_TIME_LIMIT (R41): the limit test of R40 alone, for a step that is not done by its target (log entry 8). -/
def execStepTimeLimit (slot : SlotNo) (s : State) : Host.Outcome State Fault Refusal :=
  .next (match s.currentStep slot with
    | some x =>
      if (s.slot slot).state = .running && (s.slot slot).stepEntered && !s.soakMet slot x then
        (s.testLimit slot x).finish
      else s
    | none => s)

/-- CYCLE_OFF_TIME_EXPIRY (R48). -/
def execCycleOffTimeExpiry (slot : SlotNo) (s : State) : Host.Outcome State Fault Refusal :=
  .next (if (s.slot slot).offTimer.isSome then (s.offTimeOver slot).finish else s)

/-! ## Shelf links (R59 to R61, R63) -/

/-- FRAME_START (R59, R62): the minimum frame period is over, and no transaction is outstanding. -/
def execFrameStart (link : ShelfNo) (s : State) : Host.Outcome State Fault Refusal :=
  .next (if (s.link link).frameDue s.now then
      s.modLink link fun x => (x.startFrame s.now).advance
    else s)

/-- POLL (R60). -/
def execPoll (link : ShelfNo) (s : State) : Host.Outcome State Fault Refusal :=
  .next (if (s.link link).phase = .poll && (s.link link).free && (s.link link).eligible.isNone then
      s.modLink link (·.sendPoll s.now)
    else s)

/-- DIRECTED_TRANSACTION (R63). -/
def execDirectedTransaction (link : ShelfNo) (s : State) : Host.Outcome State Fault Refusal :=
  .next (if (s.link link).free then s.modLink link (·.sendDirected s.now) else s)

/-- SUMMARY_TRANSACTION (R61). -/
def execSummaryTransaction (link : ShelfNo) (s : State) : Host.Outcome State Fault Refusal :=
  .next (if (s.link link).phase = .gap && (s.link link).free && (s.link link).eligible.isNone && !(s.link link).gapOver
    then s.modLink link (·.sendSummary s.now)
    else s)

/-! ## Drive replies (R52, R64, R66, R70, R71) -/

/-- STATUS_REPLY (R70). -/
def execStatusReply (link : ShelfNo) (bytes : List Byte) (s : State) : Host.Outcome State Fault Refusal :=
  .next (match (s.link link).awaiting s.now with
    | some t =>
      match t.request, readReply t.request bytes with
      | .status, some (d, p) =>
        match readStatus d p s.now with
        | some x => (s.statusTaken link t.slot x).finish
        | none => s.badReply link bytes
      | _, _ => s.badReply link bytes
    | none => s)

/-- IDENT_REPLY (R16, R64). -/
def execIdentReply (link : ShelfNo) (bytes : List Byte) (s : State) : Host.Outcome State Fault Refusal :=
  .next (match (s.link link).awaiting s.now with
    | some t =>
      match t.request, readReply t.request bytes with
      | .directed .ident _, some (_, p) =>
        match readIdentity p with
        | some x => (s.identTaken link t.slot x).finish
        | none => s.badReply link bytes
      | _, _ => s.badReply link bytes
    | none => s)

/-- PHASE_START_REPLY (R43, R64). -/
def execPhaseStartReply (link : ShelfNo) (bytes : List Byte) (s : State) : Host.Outcome State Fault Refusal :=
  .next (match (s.link link).awaiting s.now with
    | some t =>
      match t.request, readReply t.request bytes with
      | .directed (.phaseStart _) p, some _ => (s.phaseTaken link t.slot p).finish
      | _, _ => s.badReply link bytes
    | none => s)

/-- HALT_REPLY (R48, R64). -/
def execHaltReply (link : ShelfNo) (bytes : List Byte) (s : State) : Host.Outcome State Fault Refusal :=
  .next (match (s.link link).awaiting s.now with
    | some t =>
      match t.request, readReply t.request bytes with
      | .directed .halt p, some _ => ((s.goodReply link t.slot).haltEnded t.slot p).finish
      | _, _ => s.badReply link bytes
    | none => s)

/-- SUMMARY_REPLY (R66). -/
def execSummaryReply (link : ShelfNo) (bytes : List Byte) (s : State) : Host.Outcome State Fault Refusal :=
  .next (match (s.link link).awaiting s.now with
    | some t =>
      match t.request, readReply t.request bytes, (s.link link).summary with
      | .summary n, some (_, p), op :: _ =>
        match readBlock n p with
        | some b => (s.blockTaken link t.slot op b).finish
        | none => s.badReply link bytes
      | _, _, _ => s.badReply link bytes
    | none => s)

/-- MISS (R52, R71): the poll timeout of the outstanding transaction expires. -/
def execMiss (link : ShelfNo) (s : State) : Host.Outcome State Fault Refusal :=
  .next (match (s.link link).outstanding with
    | some t => if Time.reached s.now t.expiry then (s.missed link t).finish else s
    | none => s)

/-! ## Zones (R76 to R79, R83, R86, R87, R92) -/

/-- AIR_SENSOR_READ (R76). -/
def execAirSensorRead (zone : ShelfNo) (value : Int) (s : State) : Host.Outcome State Fault Refusal :=
  .next (if 0 ≤ value ∧ value ≤ (Config.tempTop : Int) then s.goodReading zone value.toNat else s.badReading zone).finish

/-- SENSOR_NO_RESPONSE (R76). -/
def execSensorNoResponse (zone : ShelfNo) (s : State) : Host.Outcome State Fault Refusal :=
  .next (s.badReading zone).finish

/-- CUTOFF_CHANGE (R78). -/
def execCutoffChange (zone : ShelfNo) (active : Bool) (s : State) : Host.Outcome State Fault Refusal :=
  .next (if active then s.addCause zone .cutoff else s.removeCause zone .cutoff).finish

/-- TACH_EDGE (R79). -/
def execTachEdge (zone : ShelfNo) (s : State) : Host.Outcome State Fault Refusal :=
  .next (s.modZone zone fun x => { x with fanCount := saturate 1000 (x.fanCount + 1) })

/-- FAN_WINDOW_END (R79). -/
def execFanWindowEnd (zone : ShelfNo) (s : State) : Host.Outcome State Fault Refusal := .next (s.windowEnd zone).finish

/-- The hold count of a player in HOLD has been raised (R83). -/
def Zone.heldOnce (z : Zone) : Bool := z.player.any fun w => w.sub = .hold && 1 ≤ w.hold

/-- SEGMENT_END (R83): the segment end test alone, for a hold that has been counted (log entry 8). -/
def execSegmentEnd (zone : ShelfNo) (s : State) : Host.Outcome State Fault Refusal :=
  .next (if (s.zone zone).state = .run && (s.zone zone).heldOnce then s.modZone zone Zone.endTest else s)

/-- CONTROL_INTERVAL (R86). -/
def execControlInterval (zone : ShelfNo) (s : State) : Host.Outcome State Fault Refusal :=
  .next (if (s.zone zone).state = .run then s.modZone zone (·.control2s s.now) else s)

/-- PWM_PERIOD_START (R87). -/
def execPwmPeriodStart (zone : ShelfNo) (s : State) : Host.Outcome State Fault Refusal :=
  .next (if (s.zone zone).state = .run then s.modZone zone (·.startPeriod s.now) else s)

/-- PWM_ON_TIME_END (R87). -/
def execPwmOnTimeEnd (zone : ShelfNo) (s : State) : Host.Outcome State Fault Refusal :=
  .next (if (s.zone zone).onEnd.isSome then s.modZone zone fun x => { x with heater := .off, onEnd := none } else s)

/-- A grace is running. -/
def Zone.graceRuns (z : Zone) : Bool :=
  match z.grace with
  | some (.running _) => true
  | _ => false

/-- TRIP_GRACE_EXPIRY (R92). -/
def execTripGraceExpiry (zone : ShelfNo) (s : State) : Host.Outcome State Fault Refusal :=
  .next (if (s.zone zone).graceRuns then (s.graceOver zone).finish else s)

/-! ## The handler port (R149, R151 to R160) -/

/-- ORDER_DISPATCH (R151): a run of the arbiter (log entry 7). -/
def execOrderDispatch (s : State) : Host.Outcome State Fault Refusal := .next s.finish

/-- HANDLER_READY_RISE (R149). -/
def execHandlerReadyRise (s : State) : Host.Outcome State Fault Refusal :=
  .next (s.setPort { s.port with readyLine := true }).finish

/-- The current order, where the port is in a state. -/
def Port.currentIn (p : Port) (st : PortState) : Option CurrentOrder := if p.state = st then p.current else none

/-- DESKEW_EXPIRY (R151). -/
def execDeskewExpiry (s : State) : Host.Outcome State Fault Refusal :=
  .next (match s.port.currentIn .deskew with
    | some c => (s.raiseOffer c).finish
    | none => s)

/-- ACCEPT (R152): the line is high; it is taken in OFFERED. -/
def execHandlerAccept (s : State) : Host.Outcome State Fault Refusal :=
  let t := s.setPort { s.port with acceptLine := true }
  .next (match s.port.currentIn .offered with
    | some c => (t.takeAccept c).finish
    | none => t)

/-- ACCEPT_TIMEOUT (R153). -/
def execAcceptTimeout (s : State) : Host.Outcome State Fault Refusal :=
  .next (match s.port.currentIn .offered with
    | some c => (s.acceptOver c).finish
    | none => s)

/-- An outcome line that has gone to high is taken: seen high in interlocked mode, at its rising edge in strobed mode
(R154). -/
def CurrentOrder.reads (c : CurrentOrder) (wasHigh : Bool) : Bool := c.settings.mode = .interlocked || !wasHigh

/-- DONE (R154): the line is high; it is taken in IN_FLIGHT. -/
def execHandlerDone (s : State) : Host.Outcome State Fault Refusal :=
  let t := s.setPort { s.port with doneLine := true }
  .next (match s.port.currentIn .inFlight with
    | some c => if c.reads s.port.doneLine then (t.takeOutcome c .done).finish else t
    | none => t)

/-- FAIL (R154, R158): the line is high; it is taken in IN_FLIGHT. -/
def execHandlerFail (s : State) : Host.Outcome State Fault Refusal :=
  let t := s.setPort { s.port with failLine := true }
  .next (match s.port.currentIn .inFlight with
    | some c => if c.reads s.port.failLine then (t.takeOutcome c .fail).finish else t
    | none => t)

/-- EVIDENCE_TIMEOUT (R155, R158). -/
def execEvidenceTimeout (s : State) : Host.Outcome State Fault Refusal :=
  .next (match s.port.currentIn .checking with
    | some c => ((s.orderFails c.order .unconfirmed .extractUnconfirmed).endHandshake c .done).finish
    | none => s)

/-- COMPLETION_TIMEOUT (R160). -/
def execCompletionTimeout (s : State) : Host.Outcome State Fault Refusal :=
  .next (match s.port.currentIn .inFlight with
    | some c =>
      (((s.setPort (s.port.cleared .idle)).orderFails c.order .completionTimeout .handlerTimeout).portFault
        .completionTimeout c.order).finish
    | none => s)

/-- An input line of the handler takes a level. -/
def Port.setLow (p : Port) : HandlerLine → Port
  | .ready => { p with readyLine := false }
  | .accept => { p with acceptLine := false }
  | .done => { p with doneLine := false }
  | .fail => { p with failLine := false }

/-- The line whose drop ends the handshake of an outcome (R156): the outcome's own, whatever the other line's level,
which is the model's choice where both are held high (log entry 60). -/
def PortOutcome.line : PortOutcome → HandlerLine
  | .done => .done
  | .fail => .fail

/-- HANDLER_LINE_DROP (R156): the line is low; the outcome's line, in CONFIRMING, ends the handshake. -/
def execHandlerLineDrop (line : HandlerLine) (s : State) : Host.Outcome State Fault Refusal :=
  let t := s.setPort (s.port.setLow line)
  .next (match s.port.currentIn .confirming with
    | some c => if s.port.outcome.any (fun o => o.line = line) then (t.portIdle.handshakeOver c.order).finish else t
    | none => t)

/-- RELEASE_TIMEOUT (R156). A close held for the order is taken up first, so that its CARTON notice comes before the
port's PORT_FAULT notice: the model's choice (log entry 62). -/
def execReleaseTimeout (s : State) : Host.Outcome State Fault Refusal :=
  .next (match s.port.currentIn .confirming with
    | some c => ((s.handshakeOver c.order).portFault .releaseTimeout c.order).finish
    | none => s)

/-! ## Carton inputs (R167, R169) -/

/-- CARTON_PRESENT_RISE (R167). -/
def execCartonPresentRise (lane : LaneNo) (s : State) : Host.Outcome State Fault Refusal :=
  .next (s.presentRise lane).finish

/-- CARTON_PRESENT_DROP (R169). -/
def execCartonPresentDrop (lane : LaneNo) (s : State) : Host.Outcome State Fault Refusal :=
  .next (s.presentDrop lane).finish

end Sys2Proof.Machine
end

