-- ==== Sys2Proof/Machine/ExecRequests.lean ====
section
/-! DEFINITION. The meanings of the request commands: a request that arrives whole and well formed is placed, and is
served at once where no served reply waits (R188, R189; log entry 5). What each one does when it is served is in
Machine/Requests.lean and Machine/Queries.lean. -/

namespace Sys2Proof.Machine

/-- A request command: the request arrives. -/
def State.request (s : State) (c : RequestCode) (tag : Byte) (body : List Byte) : State :=
  s.arrive { tag := tag, code := c.byte, body := body }

/-- SLOT_OPEN (R25). -/
def execSlotOpen (tag : Byte) (body : List Byte) (s : State) : Host.Outcome State Fault Refusal :=
  .next (s.request .slotOpen tag body)

/-- SLOT_START (R25). -/
def execSlotStart (tag : Byte) (body : List Byte) (s : State) : Host.Outcome State Fault Refusal :=
  .next (s.request .slotStart tag body)

/-- SLOT_SUSPEND (R26). -/
def execSlotSuspend (tag : Byte) (body : List Byte) (s : State) : Host.Outcome State Fault Refusal :=
  .next (s.request .slotSuspend tag body)

/-- SLOT_CONTINUE (R26). -/
def execSlotContinue (tag : Byte) (body : List Byte) (s : State) : Host.Outcome State Fault Refusal :=
  .next (s.request .slotContinue tag body)

/-- SLOT_END (R26). -/
def execSlotEnd (tag : Byte) (body : List Byte) (s : State) : Host.Outcome State Fault Refusal :=
  .next (s.request .slotEnd tag body)

/-- SLOT_ABORT (R27). -/
def execSlotAbort (tag : Byte) (body : List Byte) (s : State) : Host.Outcome State Fault Refusal :=
  .next (s.request .slotAbort tag body)

/-- SLOT_RELEASE (R28). -/
def execSlotRelease (tag : Byte) (body : List Byte) (s : State) : Host.Outcome State Fault Refusal :=
  .next (s.request .slotRelease tag body)

/-- SLOT_RERUN (R28). -/
def execSlotRerun (tag : Byte) (body : List Byte) (s : State) : Host.Outcome State Fault Refusal :=
  .next (s.request .slotRerun tag body)

/-- SPIN_SETTINGS (R14). -/
def execSpinSettings (tag : Byte) (body : List Byte) (s : State) : Host.Outcome State Fault Refusal :=
  .next (s.request .spinSettings tag body)

/-- SLOT_QUERY (R204). -/
def execSlotQuery (tag : Byte) (body : List Byte) (s : State) : Host.Outcome State Fault Refusal :=
  .next (s.request .slotQuery tag body)

/-- PLAN_LOAD (R33). -/
def execPlanLoad (tag : Byte) (body : List Byte) (s : State) : Host.Outcome State Fault Refusal :=
  .next (s.request .planLoad tag body)

/-- PLAN_READ (R35). -/
def execPlanRead (tag : Byte) (body : List Byte) (s : State) : Host.Outcome State Fault Refusal :=
  .next (s.request .planRead tag body)

/-- LINK_CONFIG (R72). -/
def execLinkConfig (tag : Byte) (body : List Byte) (s : State) : Host.Outcome State Fault Refusal :=
  .next (s.request .linkConfig tag body)

/-- PROFILE_LOAD (R80). -/
def execProfileLoad (tag : Byte) (body : List Byte) (s : State) : Host.Outcome State Fault Refusal :=
  .next (s.request .profileLoad tag body)

/-- ZONE_START (R84). -/
def execZoneStart (tag : Byte) (body : List Byte) (s : State) : Host.Outcome State Fault Refusal :=
  .next (s.request .zoneStart tag body)

/-- ZONE_STOP (R85). -/
def execZoneStop (tag : Byte) (body : List Byte) (s : State) : Host.Outcome State Fault Refusal :=
  .next (s.request .zoneStop tag body)

/-- ZONE_RESUME (R93). -/
def execZoneResume (tag : Byte) (body : List Byte) (s : State) : Host.Outcome State Fault Refusal :=
  .next (s.request .zoneResume tag body)

/-- ZONE_SETTINGS (R88). -/
def execZoneSettings (tag : Byte) (body : List Byte) (s : State) : Host.Outcome State Fault Refusal :=
  .next (s.request .zoneSettings tag body)

/-- ZONE_QUERY (R96). -/
def execZoneQuery (tag : Byte) (body : List Byte) (s : State) : Host.Outcome State Fault Refusal :=
  .next (s.request .zoneQuery tag body)

/-- DOSE_TABLE_LOAD (R105). -/
def execDoseTableLoad (tag : Byte) (body : List Byte) (s : State) : Host.Outcome State Fault Refusal :=
  .next (s.request .doseTableLoad tag body)

/-- WATCH_LOAD (R118). -/
def execWatchLoad (tag : Byte) (body : List Byte) (s : State) : Host.Outcome State Fault Refusal :=
  .next (s.request .watchLoad tag body)

/-- WATCH_CLEAR (R120). -/
def execWatchClear (tag : Byte) (body : List Byte) (s : State) : Host.Outcome State Fault Refusal :=
  .next (s.request .watchClear tag body)

/-- WEIGHTS_LOAD (R132). -/
def execWeightsLoad (tag : Byte) (body : List Byte) (s : State) : Host.Outcome State Fault Refusal :=
  .next (s.request .weightsLoad tag body)

/-- GRADE_MAP_LOAD (R133). -/
def execGradeMapLoad (tag : Byte) (body : List Byte) (s : State) : Host.Outcome State Fault Refusal :=
  .next (s.request .gradeMapLoad tag body)

/-- FAULT_TABLE_LOAD (R134). -/
def execFaultTableLoad (tag : Byte) (body : List Byte) (s : State) : Host.Outcome State Fault Refusal :=
  .next (s.request .faultTableLoad tag body)

/-- GRADE_MAP_READ (R135). -/
def execGradeMapRead (tag : Byte) (body : List Byte) (s : State) : Host.Outcome State Fault Refusal :=
  .next (s.request .gradeMapRead tag body)

/-- BIN_BAR (R136). -/
def execBinBar (tag : Byte) (body : List Byte) (s : State) : Host.Outcome State Fault Refusal :=
  .next (s.request .binBar tag body)

/-- BIN_UNBAR (R138). -/
def execBinUnbar (tag : Byte) (body : List Byte) (s : State) : Host.Outcome State Fault Refusal :=
  .next (s.request .binUnbar tag body)

/-- SORT_PROBE (R140). -/
def execSortProbe (tag : Byte) (body : List Byte) (s : State) : Host.Outcome State Fault Refusal :=
  .next (s.request .sortProbe tag body)

/-- HANDLER_SETTINGS (R163). -/
def execHandlerSettings (tag : Byte) (body : List Byte) (s : State) : Host.Outcome State Fault Refusal :=
  .next (s.request .handlerSettings tag body)

/-- HANDLER_RESET (R162). -/
def execHandlerReset (tag : Byte) (body : List Byte) (s : State) : Host.Outcome State Fault Refusal :=
  .next (s.request .handlerReset tag body)

/-- QUEUE_QUERY (R164). -/
def execQueueQuery (tag : Byte) (body : List Byte) (s : State) : Host.Outcome State Fault Refusal :=
  .next (s.request .queueQuery tag body)

/-- BIN_CONFIG (R172). -/
def execBinConfig (tag : Byte) (body : List Byte) (s : State) : Host.Outcome State Fault Refusal :=
  .next (s.request .binConfig tag body)

/-- BIN_QUERY (R173). -/
def execBinQuery (tag : Byte) (body : List Byte) (s : State) : Host.Outcome State Fault Refusal :=
  .next (s.request .binQuery tag body)

/-- MANIFEST_READ (R179). -/
def execManifestRead (tag : Byte) (body : List Byte) (s : State) : Host.Outcome State Fault Refusal :=
  .next (s.request .manifestRead tag body)

/-- MANIFEST_RELEASE (R180). -/
def execManifestRelease (tag : Byte) (body : List Byte) (s : State) : Host.Outcome State Fault Refusal :=
  .next (s.request .manifestRelease tag body)

/-- LINE_CONFIG (R184). -/
def execLineConfig (tag : Byte) (body : List Byte) (s : State) : Host.Outcome State Fault Refusal :=
  .next (s.request .lineConfig tag body)

/-- NOTICE_MASK (R194). -/
def execNoticeMask (tag : Byte) (body : List Byte) (s : State) : Host.Outcome State Fault Refusal :=
  .next (s.request .noticeMask tag body)

/-- SET_TIME (R197). -/
def execSetTime (tag : Byte) (body : List Byte) (s : State) : Host.Outcome State Fault Refusal :=
  .next (s.request .setTime tag body)

/-- RACK_QUERY (R198). -/
def execRackQuery (tag : Byte) (body : List Byte) (s : State) : Host.Outcome State Fault Refusal :=
  .next (s.request .rackQuery tag body)

/-- RESTART (R199). -/
def execRestart (tag : Byte) (body : List Byte) (s : State) : Host.Outcome State Fault Refusal :=
  .next (s.request .restart tag body)

/-- UNKNOWN (R189): a request whose code is no request code. -/
def execUnknown (tag code : Byte) (body : List Byte) (s : State) : Host.Outcome State Fault Refusal :=
  .next (s.arrive { tag := tag, code := code, body := body })

end Sys2Proof.Machine
end

