-- ==== Sys2Proof/Machine/Dispatch.lean ====
section
/-! DEFINITION. One arm for each command: a direct call of its meaning. -/

namespace Sys2Proof.Machine

def exec (i : Instr) (s : State) : Host.Outcome State Fault Refusal :=
  match i with
  | .powerOn inputs => Sys2Proof.Machine.execPowerOn inputs s
  | .slotOpen tag body => Sys2Proof.Machine.execSlotOpen tag body s
  | .slotStart tag body => Sys2Proof.Machine.execSlotStart tag body s
  | .slotSuspend tag body => Sys2Proof.Machine.execSlotSuspend tag body s
  | .slotContinue tag body => Sys2Proof.Machine.execSlotContinue tag body s
  | .slotEnd tag body => Sys2Proof.Machine.execSlotEnd tag body s
  | .slotAbort tag body => Sys2Proof.Machine.execSlotAbort tag body s
  | .slotRelease tag body => Sys2Proof.Machine.execSlotRelease tag body s
  | .slotRerun tag body => Sys2Proof.Machine.execSlotRerun tag body s
  | .spinSettings tag body => Sys2Proof.Machine.execSpinSettings tag body s
  | .slotQuery tag body => Sys2Proof.Machine.execSlotQuery tag body s
  | .planLoad tag body => Sys2Proof.Machine.execPlanLoad tag body s
  | .planRead tag body => Sys2Proof.Machine.execPlanRead tag body s
  | .linkConfig tag body => Sys2Proof.Machine.execLinkConfig tag body s
  | .profileLoad tag body => Sys2Proof.Machine.execProfileLoad tag body s
  | .zoneStart tag body => Sys2Proof.Machine.execZoneStart tag body s
  | .zoneStop tag body => Sys2Proof.Machine.execZoneStop tag body s
  | .zoneResume tag body => Sys2Proof.Machine.execZoneResume tag body s
  | .zoneSettings tag body => Sys2Proof.Machine.execZoneSettings tag body s
  | .zoneQuery tag body => Sys2Proof.Machine.execZoneQuery tag body s
  | .doseTableLoad tag body => Sys2Proof.Machine.execDoseTableLoad tag body s
  | .watchLoad tag body => Sys2Proof.Machine.execWatchLoad tag body s
  | .watchClear tag body => Sys2Proof.Machine.execWatchClear tag body s
  | .weightsLoad tag body => Sys2Proof.Machine.execWeightsLoad tag body s
  | .gradeMapLoad tag body => Sys2Proof.Machine.execGradeMapLoad tag body s
  | .faultTableLoad tag body => Sys2Proof.Machine.execFaultTableLoad tag body s
  | .gradeMapRead tag body => Sys2Proof.Machine.execGradeMapRead tag body s
  | .binBar tag body => Sys2Proof.Machine.execBinBar tag body s
  | .binUnbar tag body => Sys2Proof.Machine.execBinUnbar tag body s
  | .sortProbe tag body => Sys2Proof.Machine.execSortProbe tag body s
  | .handlerSettings tag body => Sys2Proof.Machine.execHandlerSettings tag body s
  | .handlerReset tag body => Sys2Proof.Machine.execHandlerReset tag body s
  | .queueQuery tag body => Sys2Proof.Machine.execQueueQuery tag body s
  | .binConfig tag body => Sys2Proof.Machine.execBinConfig tag body s
  | .binQuery tag body => Sys2Proof.Machine.execBinQuery tag body s
  | .manifestRead tag body => Sys2Proof.Machine.execManifestRead tag body s
  | .manifestRelease tag body => Sys2Proof.Machine.execManifestRelease tag body s
  | .lineConfig tag body => Sys2Proof.Machine.execLineConfig tag body s
  | .noticeMask tag body => Sys2Proof.Machine.execNoticeMask tag body s
  | .setTime tag body => Sys2Proof.Machine.execSetTime tag body s
  | .rackQuery tag body => Sys2Proof.Machine.execRackQuery tag body s
  | .restart tag body => Sys2Proof.Machine.execRestart tag body s
  | .unknown tag code body => Sys2Proof.Machine.execUnknown tag code body s
  | .restartEffect straps => Sys2Proof.Machine.execRestartEffect s straps
  | .lineRateChange => Sys2Proof.Machine.execLineRateChange s
  | .frameReceived bytes => Sys2Proof.Machine.execFrameReceived bytes s
  | .lineGap => Sys2Proof.Machine.execLineGap s
  | .lineBreak => Sys2Proof.Machine.execLineBreak s
  | .frameSent => Sys2Proof.Machine.execFrameSent s
  | .secondTick => Sys2Proof.Machine.execSecondTick s
  | .doseMinuteTick => Sys2Proof.Machine.execDoseMinuteTick s
  | .rawSeatChange slot level => Sys2Proof.Machine.execRawSeatChange slot level s
  | .seatDebounceExpiry slot => Sys2Proof.Machine.execSeatDebounceExpiry slot s
  | .readySeen slot => Sys2Proof.Machine.execReadySeen slot s
  | .spinLimitExpiry slot => Sys2Proof.Machine.execSpinLimitExpiry slot s
  | .overcurrentLineActive slot active => Sys2Proof.Machine.execOvercurrentLineActive slot active s
  | .inrushBlankingEnd slot => Sys2Proof.Machine.execInrushBlankingEnd slot s
  | .stepTimeLimit slot => Sys2Proof.Machine.execStepTimeLimit slot s
  | .cycleOffTimeExpiry slot => Sys2Proof.Machine.execCycleOffTimeExpiry slot s
  | .frameStart link => Sys2Proof.Machine.execFrameStart link s
  | .poll link => Sys2Proof.Machine.execPoll link s
  | .directedTransaction link => Sys2Proof.Machine.execDirectedTransaction link s
  | .summaryTransaction link => Sys2Proof.Machine.execSummaryTransaction link s
  | .statusReply link bytes => Sys2Proof.Machine.execStatusReply link bytes s
  | .identReply link bytes => Sys2Proof.Machine.execIdentReply link bytes s
  | .phaseStartReply link bytes => Sys2Proof.Machine.execPhaseStartReply link bytes s
  | .haltReply link bytes => Sys2Proof.Machine.execHaltReply link bytes s
  | .summaryReply link bytes => Sys2Proof.Machine.execSummaryReply link bytes s
  | .miss link => Sys2Proof.Machine.execMiss link s
  | .airSensorRead zone value => Sys2Proof.Machine.execAirSensorRead zone value s
  | .sensorNoResponse zone => Sys2Proof.Machine.execSensorNoResponse zone s
  | .cutoffChange zone active => Sys2Proof.Machine.execCutoffChange zone active s
  | .tachEdge zone => Sys2Proof.Machine.execTachEdge zone s
  | .fanWindowEnd zone => Sys2Proof.Machine.execFanWindowEnd zone s
  | .segmentEnd zone => Sys2Proof.Machine.execSegmentEnd zone s
  | .controlInterval zone => Sys2Proof.Machine.execControlInterval zone s
  | .pwmPeriodStart zone => Sys2Proof.Machine.execPwmPeriodStart zone s
  | .pwmOnTimeEnd zone => Sys2Proof.Machine.execPwmOnTimeEnd zone s
  | .tripGraceExpiry zone => Sys2Proof.Machine.execTripGraceExpiry zone s
  | .orderDispatch => Sys2Proof.Machine.execOrderDispatch s
  | .handlerReadyRise => Sys2Proof.Machine.execHandlerReadyRise s
  | .deskewExpiry => Sys2Proof.Machine.execDeskewExpiry s
  | .handlerAccept => Sys2Proof.Machine.execHandlerAccept s
  | .acceptTimeout => Sys2Proof.Machine.execAcceptTimeout s
  | .handlerDone => Sys2Proof.Machine.execHandlerDone s
  | .handlerFail => Sys2Proof.Machine.execHandlerFail s
  | .evidenceTimeout => Sys2Proof.Machine.execEvidenceTimeout s
  | .completionTimeout => Sys2Proof.Machine.execCompletionTimeout s
  | .handlerLineDrop line => Sys2Proof.Machine.execHandlerLineDrop line s
  | .releaseTimeout => Sys2Proof.Machine.execReleaseTimeout s
  | .cartonPresentRise lane => Sys2Proof.Machine.execCartonPresentRise lane s
  | .cartonPresentDrop lane => Sys2Proof.Machine.execCartonPresentDrop lane s
  | .startByte => Sys2Proof.Machine.execStartByte s
  | .framingDiscard => Sys2Proof.Machine.execFramingDiscard s
  | .lengthDiscard len => Sys2Proof.Machine.execLengthDiscard len s

end Sys2Proof.Machine
end

