-- ==== Sys2Proof/Machine/Step.lean ====
section
/-! DEFINITION. One step: the command at the front of the queue is carried out; on an empty queue the next event that
is due is posted, or one millisecond passes (log entry 2). -/

namespace Sys2Proof.Machine

/-- One millisecond of the rack clock passes. -/
def State.tickMs (s : State) : State := { s with clock := s.clock.tick }

/-- What the part does when no command waits: it posts the event that is due, or a millisecond passes (log entry 2). -/
def State.idle (s : State) : State :=
  match s.due with
  | some c => { s with pending := [c] }
  | none => s.tickMs

/-- One step of the part. -/
def step (s : State) : Host.Outcome State Fault Refusal :=
  match s.pending with
  | c :: rest => exec c { s with pending := rest }
  | [] => .next s.idle

/-- The state with the command that a word spells at the front of its queue; unchanged where the word spells none. -/
def State.withFetchWord (s : State) (nbits w : Nat) : State :=
  match decodeTableWord nbits w with
  | some c => { s with pending := c :: s.pending }
  | none => s

end Sys2Proof.Machine
end

