-- ==== Sys2Proof/Safety.lean ====
section
/-! DEFINITION. What counts as a safe run: the invariants the manual states of the part, and the terms the claims use.
-/

namespace Sys2Proof.Machine

/-! ## Invariants -/

/-- The fields a zone has in each of its states (the table of R75): the heater is driven in RUN alone, the duties are 0
and no timer of the control law or the PWM runs outside RUN, OFF has no player, and a trip record and a grace are
present in TRIPPED alone. -/
def Zone.asState (z : Zone) : Prop :=
  match z.state with
  | .off =>
    z.heater = .off ∧ z.player = none ∧ z.setpoint = none ∧ z.duty = 0 ∧ z.prevDuty = 0 ∧ z.pendingDuty = none ∧
      z.control = none ∧ z.periodEnd = none ∧ z.onEnd = none ∧ z.staged = none ∧ z.trip = none ∧ z.grace = none
  | .run => z.trip = none ∧ z.grace = none
  | .tripped =>
    z.heater = .off ∧ z.duty = 0 ∧ z.prevDuty = 0 ∧ z.pendingDuty = none ∧ z.control = none ∧ z.periodEnd = none ∧
      z.onEnd = none ∧ z.trip.isSome ∧ z.grace.isSome

/-- Every zone is as its state says (R75, R89). -/
def State.zonesAsState (s : State) : Prop := ∀ z, (s.zone z).asState

/-- No dose accumulator is above its cap (R103). -/
def State.dosesCapped (s : State) : Prop := ∀ i, (s.dose i).acc ≤ Config.doseCap

/-- No more slots hold a spin-up permit than the permit limit allows (R10). -/
def State.permitsWithinLimit (s : State) : Prop := s.holders ≤ s.spin.permits

/-- The notice queue as R195 says it stays: at most 63 ordinary notices and one OVERFLOW, no two of the same kind and
source. -/
def noticesInOrder (ns : List Notice) : Prop :=
  ns.countP (fun n => !n.isOverflow) ≤ Config.ordinaryNotices ∧
    ns.Pairwise fun a b => ¬ (a.body.kind = b.body.kind ∧ a.source = b.source)

/-- Every notice waits under the source its content has (R193). -/
def noticesSourced (ns : List Notice) : Prop := ∀ n ∈ ns, n.source = n.body.source

/-- The line port's queues are within their sizes (R182, R188, R195). -/
def State.lineWithinSizes (s : State) : Prop :=
  s.line.requests.length ≤ Config.requestQueueSize ∧ s.line.busyReplies ≤ Config.requestQueueSize ∧
    s.line.replies.countP (·.served) + (if s.line.sending.any (·.served) then 1 else 0) ≤ 1 ∧
    noticesInOrder s.line.notices ∧ noticesSourced s.line.notices

/-- The current order until its outcome has been applied: in DESKEW, OFFERED, IN_FLIGHT or CHECKING (R146). -/
def Port.live (p : Port) : Option CurrentOrder :=
  match p.state with
  | .deskew | .offered | .inFlight | .checking => p.current
  | .idle | .confirming | .fault => none

/-- The states in which the slot's drive is on its shelf link (R9, R16, R47, R58). -/
def SlotRec.onLink (r : SlotRec) : Bool :=
  match r.state with
  | .identifying | .paused | .review | .ending => true
  | .running => !r.cycleOffLink
  | _ => false

/-- What every slot, plan, link and order of a part that runs has to do with each other (R8, R9, R10, R32, R47, R52,
R65, R143). In CONFIRMING the current order's slot has moved on, and is left out of what R143 says (log entry 49). -/
structure State.InOrder (s : State) : Prop where
  /-- R32: a plan's reference count is the number of slots whose assigned plan it is -/
  plansCounted : ∀ p, (s.plan p).refs = s.slots.toList.countP fun r => r.plan = some p
  /-- R32: a slot without a run in progress or a pending assignment has no plan -/
  planDropped : ∀ i, (s.slot i).state ∈ [.vacant, .seated, .ending, .graded, .held, .unloading] → (s.slot i).plan = none
  /-- R9: power is on in these six states alone -/
  powered : ∀ i, (s.slot i).power = .on →
    (s.slot i).state ∈ [.powering, .identifying, .running, .paused, .review, .ending]
  /-- R9, R47: a drive on its link has its power on -/
  linkPowered : ∀ i, (s.slot i).onLink = true → (s.slot i).power = .on
  /-- R10: a permit is wanted or held for a spin-up alone -/
  permits : ∀ i, (s.slot i).permit ≠ .none →
    (s.slot i).state = .powering ∨ ((s.slot i).state = .running ∧ (s.slot i).cyclePhase = some .spinning)
  /-- R10: the permit queue holds slots that are QUEUED -/
  permitsQueued : ∀ i ∈ s.permitQueue, (s.slot i).permit = .queued
  /-- R11: a permit held has its power on -/
  permitPowered : ∀ i, (s.slot i).permit = .held → (s.slot i).power = .on
  /-- R11: the spin capture and the spin limit run while the permit is held -/
  captured : ∀ i, ((s.slot i).grantedAt.isSome = true ∨ (s.slot i).spinLimit.isSome = true) → (s.slot i).permit = .held
  /-- R36, R47: a cycle phase is that of a current CYCLE step -/
  cycles : ∀ i, (s.slot i).cyclePhase ≠ none →
    (s.slot i).state ∈ [.running, .paused, .review] ∧ ∃ off, s.currentStep i = some (.cycle off)
  /-- R50: a CYCLE step with its drive off the link is in RUNNING -/
  cyclesRun : ∀ i, (s.slot i).cycleOffLink = true → (s.slot i).state = .running
  /-- R57, R58: a link knows the slots of its shelf whose drives are on it, and no other -/
  linksKnow : ∀ l i, (s.link l).knows i = true ↔ shelfOf i = l ∧ (s.slot i).onLink = true
  /-- R60: the slots still to poll are on the scan list -/
  pollsKnown : ∀ l, ∀ i ∈ (s.link l).unpolled, i ∈ (s.link l).scan
  /-- R52: a transaction is outstanding for a slot of the link alone, and a SUMMARY one for the head operation's -/
  transactionsKnown : ∀ l t, (s.link l).outstanding = some t →
    (s.link l).knows t.slot = true ∧
      (∀ n, t.request = .summary n → (s.link l).summary.head?.map (·.slot) = some t.slot)
  /-- R65, R18: a summary operation is of a slot of the shelf in ENDING -/
  summariesEnding : ∀ l, ∀ op ∈ (s.link l).summary, shelfOf op.slot = l ∧ (s.slot op.slot).state = .ending
  /-- R143: no slot has two orders in the queue -/
  ordersOnce : s.port.queue.Pairwise fun a b => a.slot ≠ b.slot
  /-- R143: a queued INSERT is of a slot in LOAD_WAIT, or in SEATING, with its plan, a queued EXTRACT of one in GRADED
  -/
  ordersQueued : ∀ o ∈ s.port.queue,
    match o.kind with
    | .insert =>
      ((s.slot o.slot).state = .loadWait ∨ (s.slot o.slot).state = .seating) ∧ (s.slot o.slot).plan ≠ none
    | .extract _ => (s.slot o.slot).state = .graded
  /-- R143, R151: the slot of the current order is in no other, and is in LOAD_WAIT with its plan, or in UNLOADING -/
  orderCurrent : ∀ c, s.port.live = some c →
    (∀ o ∈ s.port.queue, o.slot ≠ c.order.slot) ∧
      (match c.order.kind with
        | .insert => (s.slot c.order.slot).state = .loadWait ∧ (s.slot c.order.slot).plan ≠ none
        | .extract _ => (s.slot c.order.slot).state = .unloading)
  /-- R8: a latch is released for the current EXTRACT alone -/
  latches : ∀ i, (s.slot i).latch = .released →
    ∃ c b, s.port.live = some c ∧ c.order.slot = i ∧ c.order.kind = .extract b

/-- The carton of a bin within its capacity (R165, R166). -/
def Carton.withinCapacity (c : Carton) : Prop :=
  1 ≤ c.capacity ∧ (∀ n, c.staged = some n → 1 ≤ n) ∧ c.fill ≤ c.capacity ∧ (c.state = .opened → c.fill < c.capacity)

/-- Cartons hold no more than their capacity (R166), and the ring no more than 512 records, the entries reserved among
them (R174); the current extraction has its reservation, and nothing else has one (R177). -/
def State.cartonsWithinSizes (s : State) : Prop :=
  (∀ b, (s.carton b).withinCapacity) ∧ s.ring.records.length + s.ring.reserved ≤ Config.ringSize ∧
    (∀ c b, s.port.live = some c → c.order.kind = .extract b →
      (s.carton b).fill < (s.carton b).capacity ∧
        ((s.carton b).state = .opened ∨ ((s.carton b).state = .closing ∧ (s.carton b).pendingClose = true)) ∧
        ∃ r, s.ring.reservation = some r ∧ r.lane = b ∧
          r.entries = if (s.carton b).fill + 1 = (s.carton b).capacity then 2 else 1) ∧
    ((∀ c, s.port.live = some c → c.order.kind = .insert) → s.ring.reservation = none)

/-! ## Terms of the claims -/

/-- No request waits, and no served reply waits or is being sent: a request that arrives is served at once (R189). -/
def State.ready (s : State) : Prop := s.line.requests = [] ∧ s.line.servedWaits = false

/-- A request has had its effect and is answered: its reply joins the reply list, and the event does what it leaves to
be done (R189). -/
def State.answered (s : State) (tag : Byte) (c : RequestCode) (a : Answer) : State :=
  (s.addReply { tag := tag, code := c.byte, body := a.body, served := true, after := a.after }).finish

/-- The bytes of a reply on a drive link: sync, the echoed code, the drive status, the length, the payload, and the
check that makes the sum of the frame 0 (R51, R206). -/
def replyFrame (code status : Byte) (payload : List Byte) : List Byte :=
  let head := Config.sync :: code :: status :: BitVec.ofNat 8 payload.length :: payload
  head ++ [- byteSum head]

/-- The state after a good reply of a link for a slot, before the reply's own effect: no transaction outstanding, and
the slot's consecutive miss count 0 (R52, R71). -/
def State.replied (s : State) (l : ShelfNo) (i : SlotNo) : State :=
  (s.setLink l { s.link l with outstanding := none }).setLinkSlot i { s.linkSlot i with consecutive := 0 }

/-- The state once the run of a slot with its drive on the link has ended with a cause (R17, R18): the plan removed and
counted down, the step values gone, ENDING with its notice, and HALT and a summary read asked for. -/
def State.runEnded (s : State) (i : SlotNo) (c : EndCause) : State :=
  (((match (s.slot i).plan with
    | some p => s.setPlan p { steps := (s.plan p).steps, refs := (s.plan p).refs - 1 }
    | none => s).setSlot i
      { s.slot i with
        plan := none, step := none, cyclePhase := none, phaseArmed := false, offTimer := none,
        stepEntered := false, state := .ending, hold := none,
        run := { (s.slot i).run with endCause := some c } }).notify
    (.slotState i .ending (s.slot i).state (some c) none)).modLink (shelfOf i) fun l =>
      (l.ask i .halt .plain).askSummary i

/-- SU has judged the slot by the tables, run record, spin record and miss count given, and SC has moved it by the
verdict (R20, R123). What that does to the slot is a claim of its own. -/
def State.judgedAs (u : State) (i : SlotNo) (t : SortTables) (run : RunRec) (spin : SpinRec) (misses : Nat) : Prop :=
  ∃ v : State, u = v.verdict i ∧ v.sort = t ∧ (v.slot i).run = run ∧ (v.slot i).spin = spin ∧
    (v.linkSlot i).total = misses

/-- The frame of an event of a slot: the two states differ in the slot records, the plan table, the permit queue, the
links, the watch records, the handler port and the line port at most. -/
def State.sameBeyondSlots (s t : State) : Prop :=
  t.clock = s.clock ∧ t.spin = s.spin ∧ t.overcurrent = s.overcurrent ∧ t.zones = s.zones ∧ t.doses = s.doses ∧
    t.doseTable = s.doseTable ∧ t.rules = s.rules ∧ t.sort = s.sort ∧ t.cartons = s.cartons ∧
    t.ring = s.ring ∧ t.straps = s.straps ∧ t.pending = s.pending

/-- The event makes a cause, absent till then, present at a zone of `s`, and `y` is the zone with it: the cutoff input
active (R78), a faulted read (R76), a good reading above the trip limit, which takes SENSOR away (R77), the third low
fan window (R79). -/
def State.causeComes (s : State) (z : ShelfNo) (e : Instr) (c : Cause) (y : Zone) : Prop :=
  let x := s.zone z
  match c with
  | .cutoff =>
    e = .cutoffChange z true ∧ x.causes.cutoff = false ∧ y = { x with causes := { x.causes with cutoff := true } }
  | .sensor =>
    (e = .sensorNoResponse z ∨ ∃ v : Int, (v < 0 ∨ 1500 < v) ∧ e = .airSensorRead z v) ∧ x.causes.sensor = false ∧
      y = { x with sensor := .fault, reading := false, causes := { x.causes with sensor := true } }
  | .overLimit =>
    x.causes.overLimit = false ∧
      ∃ v : Nat, v ≤ 1500 ∧ x.settings.tripLimit < v ∧ e = .airSensorRead z (v : Int) ∧
        y =
          { x with
            air := some v, sensor := .good, reading := false
            causes := { x.causes with sensor := false, overLimit := true } }
  | .fanLow =>
    e = .fanWindowEnd z ∧ x.causes.fanLow = false ∧ x.fanCount * 30 < x.settings.fanMin ∧ 2 ≤ x.lowWindows ∧
      y =
        { x with
          fanSpeed := some (x.fanCount * 30), lowWindows := 3, fanCount := 0, windowOver := false
          causes := { x.causes with fanLow := true } }

/-- The event makes no cause present at a zone of `s`, and may take some away; `y` is the zone after it: the cutoff
input inactive (R78), a good reading that does not set OVER_LIMIT (R77), a fan window that is not low (R79). -/
def State.causesLeave (s : State) (z : ShelfNo) (e : Instr) (y : Zone) : Prop :=
  let x := s.zone z
  (e = .cutoffChange z false ∧ y = { x with causes := { x.causes with cutoff := false } }) ∨
  (∃ v : Nat, v ≤ 1500 ∧ (v ≤ x.settings.tripLimit ∨ x.causes.overLimit = true) ∧ e = .airSensorRead z (v : Int) ∧
    y =
      { x with
        air := some v, sensor := .good, reading := false
        causes :=
          { x.causes with
            sensor := false
            overLimit := if v + 50 ≤ x.settings.tripLimit then false else x.causes.overLimit } }) ∨
  (e = .fanWindowEnd z ∧ x.settings.fanMin ≤ x.fanCount * 30 ∧
    y =
      { x with
        fanSpeed := some (x.fanCount * 30), lowWindows := 0, fanCount := 0, windowOver := false
        causes := { x.causes with fanLow := false } })

/-- A HALT transaction of a slot of `s` has ended, by a reply or by a miss (R64). `T` is `s` with the transaction over
and its counts taken, `total` the slot's total miss count in `T`, and `o` the outcome. A CYCLE step goes from HALTING
to OFF at the step entry that asked (R48), and a ZONE_TRIP end to its verdict (R19). Elsewhere SC acts on nothing. -/
def State.haltOver (s T : State) (i : SlotNo) (p : Purpose) (total : Nat)
    (o : Host.Outcome State Fault Refusal) : Prop :=
  let r := s.slot i
  (∀ off, p = .step r.stepEntry → r.state = .running → r.stepEntered = true → r.cyclePhase = some .halting →
    s.currentStep i = some (.cycle off) →
    ∃ u : State, o = .next u.finish ∧ s.sameBeyondSlots u ∧ (u.slot i).power = .off ∧
      (u.slot i).cyclePhase = some .off ∧ (u.slot i).offTimer = some (s.now + BitVec.ofNat 32 (off * 1000)) ∧
      (u.link (shelfOf i)).knows i = false) ∧
  (p = .zoneEnd → r.state = .ending →
    ∃ u : State, o = .next u.finish ∧ s.sameBeyondSlots u ∧ (u.slot i).power = .off ∧
      (u.slot i).permit = .none ∧ (u.slot i).run.summaryMissing = true ∧
      ((u.slot i).state = .graded ∨ (u.slot i).state = .held) ∧
      u.judgedAs i s.sort { r.run with summaryMissing := true } r.spin total) ∧
  (p = .plain ∨ (p = .zoneEnd ∧ r.state ≠ .ending) ∨
    (∃ n, p = .step n ∧
      (n ≠ r.stepEntry ∨ r.state ≠ .running ∨ r.stepEntered = false ∨ r.cyclePhase ≠ some .halting)) →
    o = .next T.finish)

/-- From a slot of `s` in RUNNING, step index `n` of its plan has been entered in `u` at the dose given (R37, R43,
R48); past the last step the run has ended COMPLETE (R38). Of a LOOP step this says nothing: it names another step. -/
def State.stepEnteredAt (s u : State) (i : SlotNo) (n acc : Nat) : Prop :=
  match s.stepAt i n with
  | some (.loop ..) => True
  | some y =>
    (u.slot i).state = .running ∧ (u.slot i).plan = (s.slot i).plan ∧ (u.slot i).step = some n ∧
      (u.slot i).stepClock = 0 ∧ (u.slot i).doseStart = acc ∧ (u.slot i).phaseArmed = false ∧
      (u.slot i).stepEntered = true ∧
      (match y with
        | .cycle _ => (u.slot i).cyclePhase = some .halting
        | _ => (u.slot i).cyclePhase = none) ∧
      ((s.link (shelfOf i)).knows i = true →
        match y with
        | .exercise phase .. => ∃ d ∈ (u.link (shelfOf i)).directed,
            d.slot = i ∧ d.code = .phaseStart phase ∧ d.purpose = .step (u.slot i).stepEntry
        | .cycle _ => ∃ d ∈ (u.link (shelfOf i)).directed,
            d.slot = i ∧ d.code = .halt ∧ d.purpose = .step (u.slot i).stepEntry
        | _ => True)
  | none =>
    (u.slot i).state = .ending ∧ (u.slot i).run.endCause = some .complete ∧ (u.slot i).plan = none ∧
      ∃ op ∈ (u.link (shelfOf i)).summary, op.slot = i

/-- The plan of a slot of `s` in RUNNING has advanced in `u` (R38, R46): the next step is entered, or, where the next
step is a LOOP step, the step it names while its counter is below its count, and the one after it with the counter at
0 again. -/
def State.advancedFrom (s u : State) (i : SlotNo) (acc : Nat) : Prop :=
  ∀ n, (s.slot i).step = some n →
    match s.stepAt i (n + 1) with
    | some (.loop target count) =>
      let times := (s.slot i).loops.toList.getD n 0
      if times < count then
        s.stepEnteredAt u i target acc ∧
          (∀ y, s.stepAt i target = some y → (∀ a b, y ≠ .loop a b) →
            (u.slot i).loops = (s.slot i).loops.setIfInBounds n (times + 1))
      else
        s.stepEnteredAt u i (n + 2) acc ∧
          (∀ y, s.stepAt i (n + 2) = some y → (∀ a b, y ≠ .loop a b) →
            (u.slot i).loops = (s.slot i).loops.setIfInBounds n 0)
    | _ => s.stepEnteredAt u i (n + 1) acc ∧ (u.slot i).loops = (s.slot i).loops

/-- A carton that has left its bin (R166, R167): the bin is ABSENT under the sequence number given, or OPEN with a new
carton of the staged capacity while its input is HIGH. -/
def Carton.gone (c : Carton) (sequence : Nat) : Carton :=
  if c.present then
    { c with
      sequence := sequence, fill := 0, capacity := c.staged.getD c.capacity, staged := none, state := .opened,
      pendingClose := false }
  else { c with sequence := sequence, fill := 0, state := .absent, pendingClose := false }

/-- The state after a good STATUS reply of a drive whose polls are applied, before the watch unit and the step look at
it: the transaction over, the last-status record and the fallback base written (R69, R71). -/
def State.statusStored (s : State) (l : ShelfNo) (i : SlotNo) (x : LastStatus) : State :=
  ((s.replied l i).setLinkSlot i { last := some x, consecutive := 0, total := (s.linkSlot i).total }).setSlot i
    { s.slot i with run := { (s.slot i).run with fallback := some ((s.slot i).run.fallback.getD x.grown) } }

end Sys2Proof.Machine
end

