-- ==== Sys2Proof/WellFormed.lean ====
section
/-! DEFINITION. Which commands the outside world can give. The operands' types hold most of the manual's ranges; what is
checked here is what a frame on the line can carry (R183, R185, R189). -/

namespace Sys2Proof

/-- A frame carries at most 240 body bytes (R183). -/
def bodyFits (body : List Byte) : Bool := body.length ≤ Config.bodyTop

/-- The bytes are one whole frame: start byte, length, tag, code, as many body bytes as the length says, CRC (R183). -/
def wholeFrame (bytes : List Byte) : Bool :=
  match bytes with
  | b :: len :: rest => b = Config.startByte && len.toNat ≤ Config.bodyTop && rest.length = len.toNat + 4
  | _ => false

/-- The command is one the line, the pins, the links and the timers can give. -/
def Instr.wellFormed : Instr → Bool
  | .slotOpen _ body | .slotStart _ body | .slotSuspend _ body | .slotContinue _ body | .slotEnd _ body
  | .slotAbort _ body | .slotRelease _ body | .slotRerun _ body | .spinSettings _ body | .slotQuery _ body
  | .planLoad _ body | .planRead _ body | .linkConfig _ body | .profileLoad _ body | .zoneStart _ body
  | .zoneStop _ body | .zoneResume _ body | .zoneSettings _ body | .zoneQuery _ body | .doseTableLoad _ body
  | .watchLoad _ body | .watchClear _ body | .weightsLoad _ body | .gradeMapLoad _ body | .faultTableLoad _ body
  | .gradeMapRead _ body | .binBar _ body | .binUnbar _ body | .sortProbe _ body | .handlerSettings _ body
  | .handlerReset _ body | .queueQuery _ body | .binConfig _ body | .binQuery _ body | .manifestRead _ body
  | .manifestRelease _ body | .lineConfig _ body | .noticeMask _ body | .setTime _ body | .rackQuery _ body
  | .restart _ body => bodyFits body
  | .unknown _ code body => bodyFits body && (Machine.RequestCode.ofByte code).isNone
  | .frameReceived bytes => wholeFrame bytes
  | .lengthDiscard len => Config.bodyTop < len.toNat
  | .powerOn _ | .restartEffect _ | .lineRateChange | .lineGap | .lineBreak | .frameSent | .secondTick
  | .doseMinuteTick | .rawSeatChange .. | .seatDebounceExpiry _ | .readySeen _ | .spinLimitExpiry _
  | .overcurrentLineActive .. | .inrushBlankingEnd _ | .stepTimeLimit _ | .cycleOffTimeExpiry _ | .frameStart _
  | .poll _ | .directedTransaction _ | .summaryTransaction _ | .statusReply .. | .identReply .. | .phaseStartReply ..
  | .haltReply .. | .summaryReply .. | .miss _ | .airSensorRead .. | .sensorNoResponse _ | .cutoffChange ..
  | .tachEdge _ | .fanWindowEnd _ | .segmentEnd _ | .controlInterval _ | .pwmPeriodStart _ | .pwmOnTimeEnd _
  | .tripGraceExpiry _ | .orderDispatch | .handlerReadyRise | .deskewExpiry | .handlerAccept | .acceptTimeout
  | .handlerDone | .handlerFail | .evidenceTimeout | .completionTimeout | .handlerLineDrop _ | .releaseTimeout
  | .cartonPresentRise _ | .cartonPresentDrop _ | .startByte | .framingDiscard => true

end Sys2Proof
end

