-- ==== Sys2Proof/Certificates/Slice0/Obligations.lean ====
section
/-! DEFINITION. The statements for the provers, block by block. A request statement is about a part in which no request
waits and no served reply waits or is being sent (`State.ready`): the request is then served as it arrives (R189). -/

open Sys2Proof Sys2Proof.Machine

/-! ## The machine -/

/-- A step carries out the command at the front of the queue. -/
def Obligations.StepTakesFrontCommand : Prop :=
  ∀ (c : Instr) (rest : List Instr) (s : State),
    step { s with pending := c :: rest } = exec c { s with pending := rest }

/-- No command stops the part: each takes it to a next state, whatever state it is in, and leaves the queue of the
commands that wait as it is. The part has no fault, the model refuses nothing, and the queue is the model's own (log
entries 2, 35). -/
def Obligations.EveryCommandRuns : Prop :=
  ∀ (c : Instr) (s : State), ∃ t : State, exec c s = .next t ∧ t.pending = s.pending

/-- Reset is power-on (R29, R56, R74, R98, R104, R107, R110, R122, R145, R165, R174, R182), with the pins at rest, which
is the model's choice (log entry 1), and every invariant stated below holds there.
POWER_ON: each seat is sampled once into both values, and a slot whose seat is CLOSED is SEATED with no plan (R29);
a bin whose input is HIGH opens (R165); CUTOFF is present where the cutoff input is active (R95); the straps are
sampled (R201). -/
def Obligations.PowerOnAndReset : Prop :=
  (∀ i, State.reset.slot i = SlotRec.empty .opened .opened none 0) ∧
  (∀ p, State.reset.plan p = { steps := [], refs := 0 }) ∧ State.reset.permitQueue = [] ∧
  State.reset.spin = { permits := 4, limitS := 20, blankingMs := 300, debounceMs := 200 } ∧
  (∀ l, (State.reset.link l).settings = { pollTimeout := 25, missLimit := 4, gapBudget := 4, minPeriod := 2000 } ∧
    (State.reset.link l).scan = [] ∧ (State.reset.link l).outstanding = none ∧ (State.reset.link l).staged = none) ∧
  (∀ z, (State.reset.zone z).state = .off ∧ (State.reset.zone z).sensor = .fault ∧
    (State.reset.zone z).causes = { overLimit := false, cutoff := false, fanLow := false, sensor := true } ∧
    (State.reset.zone z).settings =
      { kp := 20, ki := 10, pwmMs := 1000, fanMin := 1800, tripLimit := 900, graceMin := 10 }) ∧
  (∀ i, State.reset.dose i = DoseRec.empty) ∧
  State.reset.doseTable = { weights := Vector.replicate 16 16, base := 400 } ∧
  (∀ i, State.reset.watch i = { prior := 0, latch := none }) ∧
  State.reset.port.state = .idle ∧ State.reset.port.queue = [] ∧ State.reset.port.nextNumber = 1 ∧
  State.reset.port.settings = { mode := .interlocked, deskew := 2, acceptS := 10, completionS := 60 } ∧
  State.reset.port.lines = { insert := true, slot := 0, lane := 0, offer := false, confirm := false } ∧
  (∀ b, State.reset.carton b =
    { state := .absent, sequence := 1, fill := 0, capacity := 20, staged := none, pendingClose := false,
      present := false }) ∧
  State.reset.ring = { records := [], next := 1, reservation := none, threshold := 448, above := false } ∧
  State.reset.line.rate = .r115200 ∧ State.reset.line.notices = [] ∧ State.reset.line.rackTime = 0 ∧
  State.reset.zonesAsState ∧ State.reset.dosesCapped ∧ State.reset.permitsWithinLimit ∧
  State.reset.lineWithinSizes ∧ State.reset.InOrder ∧ State.reset.cartonsWithinSizes ∧
  ∀ (x : Inputs) (s : State), ∃ t : State, exec (.powerOn x) s = .next t ∧
    (∀ i : SlotNo, (t.slot i).seatRaw = x.seats[i] ∧ (t.slot i).seatStable = x.seats[i] ∧ (t.slot i).plan = none ∧
      (t.slot i).state = (if x.seats[i] = .closed then .seated else .vacant) ∧ (t.slot i).power = .off ∧
      (t.slot i).latch = .engaged) ∧
    (∀ b : LaneNo, (t.carton b).present = x.cartons[b] ∧ (t.carton b).fill = 0 ∧ (t.carton b).sequence = 1 ∧
      (t.carton b).state = (if x.cartons[b] then .opened else .absent)) ∧
    (∀ z : ShelfNo, (t.zone z).causes =
      { overLimit := false, cutoff := x.cutoff[z], fanLow := false, sensor := true }) ∧
    t.line.rackId = x.straps ∧ t.line.notices = [] ∧ t.plans = Vector.replicate 8 { steps := [], refs := 0 } ∧
    t.pending = s.pending

/-! ## Slots and runs -/

/-- SLOT OPEN of a VACANT slot (R25): the plan assigned and counted, LOAD_WAIT with its notice, and an INSERT order at
the tail of the queue under the next number. Nothing else changes before the reply. The order's age is the model's (log
entry 15), and so is that the slot's state alone decides, where its old order is still current in CONFIRMING, which R143
speaks against (log entry 49). -/
def Obligations.SlotOpenAssignsPlan : Prop :=
  ∀ (s : State) (tag slot plan : Byte) (i : SlotNo) (p : PlanNo),
    s.ready → ofNum 40 slot.toNat = some i → ofNum 8 plan.toNat = some p → (s.plan p).steps ≠ [] →
    (s.slot i).state = .vacant →
    exec (.slotOpen tag [slot, plan]) s = .next
      (((((s.setPlan p { steps := (s.plan p).steps, refs := (s.plan p).refs + 1 }).setSlot i
        { s.slot i with plan := some p, state := .loadWait, hold := none }).setPort
          { s.port with
            queue := s.port.queue ++
              [{ kind := .insert, slot := i, number := s.port.nextNumber, age := s.port.joined }]
            nextNumber := if 65535 ≤ s.port.nextNumber then 1 else s.port.nextNumber + 1
            joined := s.port.joined + 1 }).notify
        (.slotState i .loadWait .vacant (s.slot i).run.endCause none)).answered tag .slotOpen (Answer.accept [2]))

/-- SLOT START in SEATED and SLOT RERUN in HELD with an identity start a run (R15): the plan assigned and counted, the
run and spin records and the step values cleared, the identity kept and the run count raised on a rerun, the dose and
watch records and the miss counts emptied, POWERING with its notice, and then the spin-up permit asked for. -/
def Obligations.RunStartClears : Prop :=
  ∀ (s : State) (tag slot plan : Byte) (i : SlotNo) (p : PlanNo),
    s.ready → ofNum 40 slot.toNat = some i → ofNum 8 plan.toNat = some p → (s.plan p).steps ≠ [] →
    let started (identity : Option Identity) (count : Nat) : State :=
      ((((((s.setPlan p { steps := (s.plan p).steps, refs := (s.plan p).refs + 1 }).setSlot i
        { s.slot i with
          plan := some p, state := .powering, hold := none, step := none, stepClock := 0, doseStart := 0,
          loops := Vector.replicate 16 0, cyclePhase := none, phaseArmed := false, offTimer := none,
          stepEntered := false, spin := { first := none, latest := none, worst := none, count := 0 },
          run := { identity := identity, runCount := count, endCause := none, base := none, fallback := none,
                   deficit := 0, summary := none, verdict := none, summaryMissing := false,
                   countRegressed := false, zonePaused := false } }).setDose i DoseRec.empty).setWatch i
        WatchRec.empty).setLinkSlot i { last := none, consecutive := 0, total := 0 }).notify
        (.slotState i .powering (s.slot i).state none none)).joinPermit i
    ((s.slot i).state = .seated →
      exec (.slotStart tag [slot, plan]) s = .next ((started none 1).answered tag .slotStart
        (Answer.accept (u8 ((started none 1).slot i).state.byte)))) ∧
    (∀ x, (s.slot i).state = .held → (s.slot i).run.identity = some x →
      exec (.slotRerun tag [slot, plan]) s = .next
        ((started (some x) (min 255 ((s.slot i).run.runCount + 1))).answered tag .slotRerun
          (Answer.accept (u8 ((started (some x) (min 255 ((s.slot i).run.runCount + 1))).slot i).state.byte))))

/-- Asking for a spin-up permit (R10, R11): with the limit reached the slot waits at the tail; with room, nobody ahead
and its overcurrent line inactive it is granted at once: power on, the capture and the spin limit running from now,
and inrush blanking for the time in force. -/
def Obligations.PermitGrantedOrQueued : Prop :=
  ∀ (s : State) (i : SlotNo), i ∉ s.permitQueue → (s.slot i).permit = .none →
    (s.spin.permits ≤ s.holders →
      s.joinPermit i = { s.setSlot i { s.slot i with permit := .queued } with permitQueue := s.permitQueue ++ [i] }) ∧
    (s.permitQueue = [] → s.holders < s.spin.permits → s.overcurrent[i] = false →
      s.joinPermit i = s.setSlot i
        { s.slot i with
          permit := .held, power := .on, grantedAt := some s.now
          spinLimit := some (s.now + BitVec.ofNat 32 (s.spin.limitS * 1000))
          blanking := if s.spin.blankingMs = 0 then none
            else some (s.now + BitVec.ofNat 32 s.spin.blankingMs) })

/-- No more slots hold a permit than the permit limit allows: every step keeps it (R10). -/
def Obligations.StepKeepsPermitLimit : Prop :=
  ∀ s t : State, s.permitsWithinLimit → step s = .next t → t.permitsWithinLimit

/-- SLOT SUSPEND of a slot in PAUSED, or in RUNNING with its drive on its link (R26): REVIEW with its notice and HALT
asked for; from PAUSED the zone-paused flag is set. SLOT CONTINUE in REVIEW (R26, R50): into PAUSED with the
zone-paused flag set while the zone is TRIPPED; otherwise into RUNNING with the flag clear, where an EXERCISE step
asks for its PHASE START again, a CYCLE step in HALTING asks for its HALT again, a step not yet entered is entered,
and any other step goes on as it stood. -/
def Obligations.SuspendAndContinue : Prop :=
  (∀ (s : State) (tag slot : Byte) (i : SlotNo), s.ready → ofNum 40 slot.toNat = some i →
    ((s.slot i).state = .paused ∨ ((s.slot i).state = .running ∧ (s.slot i).cycleOffLink = false)) →
    exec (.slotSuspend tag [slot]) s = .next
      ((((s.setSlot i { s.slot i with
          state := .review, hold := none
          run := { (s.slot i).run with
            zonePaused := if (s.slot i).state = .paused then true else (s.slot i).run.zonePaused } }).notify
        (.slotState i .review (s.slot i).state (s.slot i).run.endCause none)).askLink i .halt .plain).answered tag
          .slotSuspend (Answer.accept [9]))) ∧
  (∀ (s : State) (tag slot : Byte) (i : SlotNo), s.ready → ofNum 40 slot.toNat = some i → (s.slot i).state = .review →
    ((s.zone (shelfOf i)).state = .tripped →
      exec (.slotContinue tag [slot]) s = .next
        (((s.setSlot i { s.slot i with
            state := .paused, hold := none, run := { (s.slot i).run with zonePaused := true } }).notify
          (.slotState i .paused .review (s.slot i).run.endCause none)).answered tag .slotContinue
            (Answer.accept [8]))) ∧
    ((s.zone (shelfOf i)).state ≠ .tripped →
      let u := (s.setSlot i { s.slot i with
          state := .running, hold := none, run := { (s.slot i).run with zonePaused := false } }).notify
        (.slotState i .running .review (s.slot i).run.endCause none)
      let v :=
        if (s.slot i).stepEntered then
          match s.currentStep i with
          | some (.exercise phase _ _ _) =>
            (u.modSlot i fun r => { r with phaseArmed := false }).askLink i (.phaseStart phase)
              (.step (s.slot i).stepEntry)
          | some (.cycle _) =>
            if (s.slot i).cyclePhase = some .halting then u.askLink i .halt (.step (s.slot i).stepEntry) else u
          | _ => u
        else u.enterStep i ((s.slot i).step.getD 1)
      exec (.slotContinue tag [slot]) s = .next
        (v.answered tag .slotContinue (Answer.accept (u8 (v.slot i).state.byte)))))

/-- SLOT END (R26, R18): with the drive on its link the run ends HOST_END, the plan is counted down, and the slot goes
to ENDING with HALT and a summary read asked for. In the power-off part of a CYCLE step it goes to its verdict at
once, with power off, no permit, the summary missing, and HELD with bin 0. -/
def Obligations.SlotEndEndsRun : Prop :=
  ∀ (s : State) (tag slot : Byte) (i : SlotNo), s.ready → ofNum 40 slot.toNat = some i →
    ((s.slot i).state = .running ∨ (s.slot i).state = .paused ∨ (s.slot i).state = .review) →
    ((s.slot i).cycleOffLink = false →
      exec (.slotEnd tag [slot]) s = .next
        ((s.runEnded i .hostEnd).answered tag .slotEnd (Answer.accept [10]))) ∧
    ((s.slot i).cycleOffLink = true →
      ∃ u : State, exec (.slotEnd tag [slot]) s = .next (u.answered tag .slotEnd (Answer.accept [12])) ∧
        s.sameBeyondSlots u ∧
        u.judgedAs i s.sort { (s.slot i).run with endCause := some .hostEnd, summaryMissing := true } (s.slot i).spin
          (s.linkSlot i).total ∧
        (u.slot i).state = .held ∧ (u.slot i).hold = some .verdict ∧ (u.slot i).power = .off ∧
        (u.slot i).permit = .none ∧ (u.slot i).plan = none ∧ (u.slot i).run.endCause = some .hostEnd ∧
        (u.slot i).run.summaryMissing = true ∧
        (u.slot i).run.verdict = some { bin := 0, score := none, fault := none, bar := false })

/-- SLOT ABORT by the slot's state (R27): LOAD_WAIT with its order queued goes to VACANT, the order withdrawn; a run
ends ABORT and ENDING takes the cause ABORT, each going to HELD at bin 0 with power off, the link left and no HALT
asked for, and a run with no permit; GRADED goes to HELD with its order withdrawn and its verdict kept; every other
state refuses with STATE. That an emptied slot keeps a running debounce and its entry count is the model's (log
entries 11, 14), and so is that the slot's state alone decides in CONFIRMING (log entry 48). -/
def Obligations.SlotAbortGivesUp : Prop :=
  ∀ (s : State) (tag slot : Byte) (i : SlotNo), s.ready → ofNum 40 slot.toNat = some i →
    ((s.slot i).state = .loadWait → s.orderQueued i = true →
      ∃ u : State, exec (.slotAbort tag [slot]) s = .next (u.answered tag .slotAbort (Answer.accept [1])) ∧
        State.sameBeyondSlots { s with doses := s.doses.set i DoseRec.empty } u ∧
        u.slot i = SlotRec.empty (s.slot i).seatRaw (s.slot i).seatStable (s.slot i).debounce (s.slot i).stepEntry ∧
        u.port.queue = s.port.queue.filter (·.slot ≠ i) ∧
        (∀ p, (s.slot i).plan = some p → (u.plan p).refs = (s.plan p).refs - 1)) ∧
    (((s.slot i).state.runs = true ∨ (s.slot i).state = .ending) →
      ∃ u : State, exec (.slotAbort tag [slot]) s = .next (u.answered tag .slotAbort (Answer.accept [12])) ∧
        s.sameBeyondSlots u ∧
        (u.slot i).state = .held ∧ (u.slot i).hold = some .verdict ∧ (u.slot i).power = .off ∧
        (u.slot i).permit = (if (s.slot i).state = .ending then (s.slot i).permit else .none) ∧
        (u.slot i).run.endCause = some .abort ∧
        (u.slot i).run.verdict = some { bin := 0, score := none, fault := none, bar := false } ∧
        ((s.slot i).run.summary = none → (u.slot i).run.summaryMissing = true) ∧
        (u.link (shelfOf i)).knows i = false ∧
        (∀ l, ∀ d ∈ (u.link l).directed, d ∈ (s.link l).directed) ∧
        ((s.link (shelfOf i)).knows i = true → ∀ d ∈ (u.link (shelfOf i)).directed, d.slot ≠ i)) ∧
    ((s.slot i).state = .graded →
      exec (.slotAbort tag [slot]) s = .next
        ((((s.setPort { s.port with queue := s.port.queue.filter (·.slot ≠ i) }).setSlot i
          { s.slot i with state := .held, hold := some .aborted }).notify
            (.slotState i .held .graded (s.slot i).run.endCause (some .aborted))).answered tag .slotAbort
              (Answer.accept [12]))) ∧
    (((s.slot i).state = .unloading ∨ (s.slot i).state = .vacant ∨ (s.slot i).state = .seating ∨
        (s.slot i).state = .seated ∨ (s.slot i).state = .held ∨
        ((s.slot i).state = .loadWait ∧ s.orderQueued i = false)) →
      exec (.slotAbort tag [slot]) s = .next (s.answered tag .slotAbort (Answer.refuse .state [])))

/-- SLOT RELEASE in HELD to a bin that is not barred (R28): the verdict's bin becomes the bin named and the rest of it
stays, the slot goes to GRADED, and an EXTRACT order to that lane joins the queue; to a barred bin it is refused. That
the reply's state is read before the arbiter runs, and the order's age, are the model's (log entries 20, 15), and so is
that the slot's state alone decides, where its old order is still current in CONFIRMING, which R143 speaks against (log
entry 49). -/
def Obligations.SlotReleaseQueuesExtract : Prop :=
  ∀ (s : State) (tag slot bin : Byte) (i : SlotNo) (b : LaneNo),
    s.ready → ofNum 40 slot.toNat = some i → ofNum 12 bin.toNat = some b → (s.slot i).state = .held →
    (s.sort.barred[b] = true →
      exec (.slotRelease tag [slot, bin]) s = .next (s.answered tag .slotRelease (Answer.refuse .state []))) ∧
    (s.sort.barred[b] = false →
      exec (.slotRelease tag [slot, bin]) s = .next
        ((((s.setSlot i { s.slot i with
            state := .graded, hold := none
            run := { (s.slot i).run with
              verdict := (s.slot i).run.verdict.map fun v => { v with bin := ⟨b.val + 1, by omega⟩ } } }).notify
          (.slotState i .graded .held (s.slot i).run.endCause none)).setPort
            { s.port with
              queue := s.port.queue ++
                [{ kind := .extract b, slot := i, number := s.port.nextNumber, age := s.port.joined }]
              nextNumber := if 65535 ≤ s.port.nextNumber then 1 else s.port.nextNumber + 1
              joined := s.port.joined + 1 }).answered tag .slotRelease (Answer.accept [11])))

/-- A change of the raw seat starts the debounce anew from now (R5); a close with the stable seat OPEN moves a VACANT
slot, or one in LOAD_WAIT with its order queued, to SEATING (R6); a level the seat already has is no change. -/
def Obligations.RawSeatStartsDebounce : Prop :=
  ∀ (s : State) (i : SlotNo) (level : Seat),
    ((s.slot i).seatRaw = level → exec (.rawSeatChange i level) s = .next s.finish) ∧
    ((s.slot i).seatRaw ≠ level →
      let r : SlotRec := { s.slot i with
        seatRaw := level, debounce := some (s.now + BitVec.ofNat 32 s.spin.debounceMs) }
      (level = .closed ∧ (s.slot i).seatStable = .opened ∧
          ((s.slot i).state = .vacant ∨ ((s.slot i).state = .loadWait ∧ s.orderQueued i = true)) →
        exec (.rawSeatChange i level) s = .next
          ((s.setSlot i { r with state := .seating, hold := none }).notify
            (.slotState i .seating (s.slot i).state (s.slot i).run.endCause none)).finish) ∧
      (¬ (level = .closed ∧ (s.slot i).seatStable = .opened ∧
          ((s.slot i).state = .vacant ∨ ((s.slot i).state = .loadWait ∧ s.orderQueued i = true))) →
        exec (.rawSeatChange i level) s = .next (s.setSlot i r).finish))

/-- A stable seat open tears the slot down in every state that holds a drive (R7): power off, no permit, off its link,
no order queued, VACANT with every record empty. -/
def Obligations.StableOpenTearsDown : Prop :=
  ∀ (s : State) (i : SlotNo),
    (s.slot i).debounce.isSome = true → (s.slot i).seatRaw = .opened → (s.slot i).seatStable = .closed →
    (i ∈ s.permitQueue → (s.slot i).permit ≠ .none) →
    ((s.slot i).state.runs = true ∨ (s.slot i).state = .ending ∨ (s.slot i).state = .seated ∨
      (s.slot i).state = .graded ∨ (s.slot i).state = .held) →
    ∃ u : State, exec (.seatDebounceExpiry i) s = .next u.finish ∧
      State.sameBeyondSlots { s with doses := s.doses.set i DoseRec.empty } u ∧
      u.slot i = SlotRec.empty .opened .opened none (s.slot i).stepEntry ∧ i ∉ u.permitQueue ∧
      (u.link (shelfOf i)).knows i = false ∧ (∀ o ∈ u.port.queue, o.slot ≠ i) ∧
      u.watch i = WatchRec.empty ∧ (u.linkSlot i).last = none

/-- A debounce that ends with the raw seat CLOSED in SEATING or VACANT, or in LOAD_WAIT with the order queued,
withdraws the order and puts the slot in SEATED, with no plan, or on to its run with the assigned one (R6). One that
ends with the levels alike changes nothing but itself outside SEATING (R5), and in SEATING returns the slot to
LOAD_WAIT or VACANT. With the slot's order current, the stable change in UNLOADING or LOAD_WAIT is only stored (R23),
but in CHECKING the level that is the evidence confirms the order (R155 item 1, R157), and the handshake ends by the
mode (R156). -/
def Obligations.DebounceSeatsOrReturns : Prop :=
  ∀ (s : State) (i : SlotNo), (s.slot i).debounce.isSome = true →
    ((s.slot i).seatRaw = .closed → (s.slot i).seatStable = .opened →
      ((s.slot i).state = .seating ∨ (s.slot i).state = .vacant ∨
        ((s.slot i).state = .loadWait ∧ s.orderQueued i = true)) →
      let u := ((s.setSlot i { s.slot i with
          debounce := none, seatStable := .closed, state := .seated, hold := none }).setPort
            { s.port with queue := s.port.queue.filter (·.slot ≠ i) }).notify
          (.slotState i .seated (s.slot i).state (s.slot i).run.endCause none)
      exec (.seatDebounceExpiry i) s = .next
        (if (s.slot i).plan = none then u else u.startRun i false).finish) ∧
    ((s.slot i).seatRaw = (s.slot i).seatStable → (s.slot i).state ≠ .seating →
      exec (.seatDebounceExpiry i) s = .next (s.setSlot i { s.slot i with debounce := none }).finish) ∧
    ((s.slot i).seatRaw = .opened → (s.slot i).seatStable = .opened → (s.slot i).state = .seating →
      ((s.slot i).plan ≠ none →
        exec (.seatDebounceExpiry i) s = .next
          ((s.setSlot i { s.slot i with debounce := none, state := .loadWait, hold := none }).notify
            (.slotState i .loadWait .seating (s.slot i).run.endCause none)).finish) ∧
      ((s.slot i).plan = none → ∃ u : State, exec (.seatDebounceExpiry i) s = .next u.finish ∧
        u.slot i = SlotRec.empty .opened .opened none (s.slot i).stepEntry ∧ u.port = s.port)) ∧
    ((s.slot i).seatRaw ≠ (s.slot i).seatStable →
      ((s.slot i).state = .unloading ∨
        ((s.slot i).state = .loadWait ∧ (s.orderQueued i = false ∨ (s.slot i).seatRaw = .opened))) →
      (∀ c, s.port.current = some c → s.port.state = .checking → c.order.slot = i →
        (s.slot i).seatRaw ≠ (match c.order.kind with | .extract _ => .opened | .insert => .closed)) →
      exec (.seatDebounceExpiry i) s = .next
        (s.setSlot i { s.slot i with debounce := none, seatStable := (s.slot i).seatRaw }).finish) ∧
    (∀ c, s.port.state = .checking → s.port.current = some c → c.order.slot = i →
      let ended (u : State) : Prop :=
        (c.settings.mode = .strobed ∨ s.port.doneLine = false →
          u.port.state = .idle ∧ u.port.current = none ∧ u.port.timer = none) ∧
        (c.settings.mode = .interlocked → s.port.doneLine = true →
          u.port.state = .confirming ∧ u.port.outcome = some .done ∧
            u.port.timer = some
              { kind := .release, expiry := s.now + BitVec.ofNat 32 (c.settings.acceptS * 1000) })
      (∀ b, c.order.kind = .extract b → (s.slot i).state = .unloading → (s.slot i).seatRaw = .opened →
        (s.slot i).seatStable = .closed →
        ∃ u : State, exec (.seatDebounceExpiry i) s = .next u.finish ∧ ended u ∧
          State.sameBeyondSlots
            { s with doses := s.doses.set i DoseRec.empty, ring := u.ring, cartons := u.cartons } u ∧
          u.slot i = SlotRec.empty .opened .opened none (s.slot i).stepEntry ∧
          u.ring = (s.countIn i b).ring ∧ u.cartons = (s.countIn i b).cartons) ∧
      (c.order.kind = .insert → (s.slot i).state = .loadWait → s.orderQueued i = false →
        (s.slot i).seatRaw = .closed → (s.slot i).seatStable = .opened → s.overcurrent[i] = false →
        ∃ u : State, exec (.seatDebounceExpiry i) s = .next u.finish ∧ ended u ∧
          State.sameBeyondSlots
            { s with doses := if (s.slot i).plan = none then s.doses else s.doses.set i DoseRec.empty } u ∧
          (u.slot i).seatStable = .closed ∧ (u.slot i).debounce = none ∧
          (u.slot i).state = (if (s.slot i).plan = none then .seated else .powering) ∧
          (u.slot i).plan = (s.slot i).plan))

/-- READY ends the spin capture (R11): the spin time since the grant enters the spin record and the permit is
returned; a slot in POWERING goes to IDENTIFYING, joining its link with IDENT asked for (R16); a CYCLE step goes on to
REJOINING, and to PAUSED where the zone-paused flag is set (R49). -/
def Obligations.ReadyEndsCapture : Prop :=
  ∀ (s : State) (i : SlotNo) (g : Time), (s.slot i).grantedAt = some g → (s.slot i).permit = .held →
    s.overcurrent[i] = false → ((s.slot i).state = .powering ∨ (s.slot i).state = .running) →
    ∃ u : State, exec (.readySeen i) s = .next u.finish ∧ s.sameBeyondSlots u ∧
      (u.slot i).spin =
        { first := some ((s.slot i).spin.first.getD (min 65535 (s.now - g).toNat))
          latest := some (min 65535 (s.now - g).toNat)
          worst := some (max ((s.slot i).spin.worst.getD 0) (min 65535 (s.now - g).toNat))
          count := min 255 ((s.slot i).spin.count + 1) } ∧
      (u.slot i).permit = .none ∧ (u.slot i).grantedAt = none ∧ (u.slot i).spinLimit = none ∧
      (u.link (shelfOf i)).knows i = true ∧
      ((s.slot i).state = .powering → (u.slot i).state = .identifying ∧
        (∃ d ∈ (u.link (shelfOf i)).directed, d.slot = i ∧ d.code = .ident)) ∧
      ((s.slot i).state = .running → (u.slot i).cyclePhase = some .rejoining ∧
        (u.slot i).state = (if (s.slot i).run.zonePaused then .paused else .running))

/-- The spin limit expires before READY (R12): the permit returned, power off, the spin record as it was, the run
ended NO_SPIN in POWERING and in RUNNING, and the slot at its verdict without a summary (R19), by the fault table's
entry 11, the one of NO_SPIN (R125; the model counts the entries from 0). -/
def Obligations.SpinLimitEndsRun : Prop :=
  ∀ (s : State) (i : SlotNo), (s.slot i).spinLimit.isSome = true → (s.slot i).permit = .held →
    ((s.slot i).state = .powering ∨ (s.slot i).state = .running) →
    ∃ u : State, exec (.spinLimitExpiry i) s = .next u.finish ∧ s.sameBeyondSlots u ∧
      (u.slot i).permit = .none ∧ (u.slot i).power = .off ∧ (u.slot i).spin = (s.slot i).spin ∧
      (u.slot i).run.endCause = some .noSpin ∧ (u.slot i).run.summaryMissing = true ∧
      ((u.slot i).state = .graded ∨ (u.slot i).state = .held) ∧
      (u.slot i).run.verdict.map (·.fault) = some (some 10) ∧
      u.judgedAs i s.sort { (s.slot i).run with endCause := some .noSpin, summaryMissing := true } (s.slot i).spin
        (s.linkSlot i).total

/-- Overcurrent (R13): the line active while power is on and blanking is not running, or still active when blanking
ends, turns power off, returns the permit and ends a run OVERCURRENT; in ENDING the recorded cause stays. A line not
regarded only takes its level. -/
def Obligations.OvercurrentCutsPower : Prop :=
  ∀ (s : State) (i : SlotNo),
    let taken (u : State) : Prop :=
      State.sameBeyondSlots { s with overcurrent := s.overcurrent.set i true } u ∧ (u.slot i).power = .off ∧
      (u.slot i).permit = .none ∧
      ((s.slot i).state.runs = true → (u.slot i).run.endCause = some .overcurrent ∧
        ((u.slot i).state = .graded ∨ (u.slot i).state = .held) ∧
        u.judgedAs i s.sort { (s.slot i).run with endCause := some .overcurrent, summaryMissing := true }
          (s.slot i).spin (s.linkSlot i).total) ∧
      ((s.slot i).state = .ending → (u.slot i).run.endCause = (s.slot i).run.endCause ∧
        ((u.slot i).state = .graded ∨ (u.slot i).state = .held) ∧
        u.judgedAs i s.sort
          { (s.slot i).run with
            summaryMissing := (s.slot i).run.summaryMissing || (s.slot i).run.summary.isNone }
          (s.slot i).spin (s.linkSlot i).total)
    ((s.slot i).power = .on → (s.slot i).blanking = none →
      ∃ u : State, exec (.overcurrentLineActive i true) s = .next u.finish ∧ taken u) ∧
    ((s.slot i).power = .off ∨ (s.slot i).blanking.isSome = true →
      exec (.overcurrentLineActive i true) s = .next { s with overcurrent := s.overcurrent.set i true }) ∧
    exec (.overcurrentLineActive i false) s = .next { s with overcurrent := s.overcurrent.set i false } ∧
    ((s.slot i).blanking.isSome = true → s.overcurrent[i] = false →
      exec (.inrushBlankingEnd i) s = .next (s.setSlot i { s.slot i with blanking := none })) ∧
    ((s.slot i).blanking.isSome = true → s.overcurrent[i] = true → (s.slot i).power = .on →
      ∃ u : State, exec (.inrushBlankingEnd i) s = .next u.finish ∧ taken u)

/-! ## Steps -/

/-- STEP_TIME_LIMIT, the limit test made alone (log entry 8; the tick's own test is a claim about the tick), ends the
run STEP_LIMIT where the action is FAIL; with CONTINUE the dose still owed joins the deficit and the plan advances
(R41). CYCLE_OFF_TIME_EXPIRY (R48) brings the slot up again, or leaves it WAITING where the zone-paused flag is set.
No other slot changes at a time limit. -/
def Obligations.StepTimersEndOrAdvance : Prop :=
  ∀ (s : State) (i : SlotNo), (s.slot i).state = .running →
    (∀ x target limit act, (s.slot i).stepEntered = true → (s.slot i).cyclePhase = none →
      s.currentStep i = some x → x.limits = some (target, limit, act) → limit ≤ (s.slot i).stepClock →
      s.soakMet i x = false →
      (act = .fail → ∃ u : State, exec (.stepTimeLimit i) s = .next u.finish ∧ s.sameBeyondSlots u ∧
        (u.slot i).state = .ending ∧
        (u.slot i).run.endCause = some .stepLimit ∧ (u.slot i).plan = none ∧
        (∃ op ∈ (u.link (shelfOf i)).summary, op.slot = i) ∧ (∀ j, j ≠ i → u.slot j = s.slot j)) ∧
      (act = .continue → ∃ u : State, exec (.stepTimeLimit i) s = .next u.finish ∧ s.sameBeyondSlots u ∧
        (u.slot i).run.deficit =
          min 1048575 ((s.slot i).run.deficit + (target.getD 0 - ((s.dose i).acc - (s.slot i).doseStart))) ∧
        (∀ j, j ≠ i → u.slot j = s.slot j) ∧
        (∀ p n, (s.slot i).plan = some p → (s.slot i).step = some n →
          ((s.plan p).steps[n]? = none →
            (u.slot i).state = .ending ∧ (u.slot i).run.endCause = some .complete) ∧
          (∀ y, (s.plan p).steps[n]? = some y → (∀ a b, y ≠ .loop a b) →
            (u.slot i).state = .running ∧ (u.slot i).step = some (n + 1) ∧ (u.slot i).stepClock = 0 ∧
              (u.slot i).doseStart = (s.dose i).acc)))) ∧
    ((s.slot i).cyclePhase = some .off → (s.slot i).offTimer.isSome = true →
      ((s.slot i).run.zonePaused = true →
        exec (.cycleOffTimeExpiry i) s = .next
          (s.setSlot i { s.slot i with offTimer := none, cyclePhase := some .waiting }).finish) ∧
      ((s.slot i).run.zonePaused = false →
        exec (.cycleOffTimeExpiry i) s = .next
          ((s.setSlot i { s.slot i with offTimer := none, cyclePhase := some .spinning }).joinPermit i).finish))

/-- A step entry of PLAN LOAD reads back as the step it was written for, with nothing clamped, for every step of R31:
the twelve bytes drop nothing of it. A frame on the line reads back as the request it was written for: in HUNT, the
bytes of a frame with any tag, code and body of at most 240 bytes are that request arriving (R183, R185, R188), and
with any other CRC the frame is discarded and counted. -/
def Obligations.EncodingsReadBack : Prop :=
  (∀ (index : Nat) (x : PlanStep),
    (match x with
      | .baseline => True
      | .exercise phase target limit _ =>
        1 ≤ phase ∧ phase ≤ 15 ∧ (∀ t, target = some t → t ≤ 1048575) ∧ 1 ≤ limit ∧ limit ≤ 65535
      | .soak target limit _ => target ≤ 1048575 ∧ 1 ≤ limit ∧ limit ≤ 65535
      | .cycle off => 1 ≤ off ∧ off ≤ 600
      | .loop target count => 1 ≤ target ∧ target < index ∧ index ≤ 16 ∧ 1 ≤ count ∧ count ≤ 255) →
    x.bytes.length = 12 ∧ readStep index x.bytes = some { value := x, clamped := false }) ∧
  ∀ (s : State) (tag code : Byte) (body : List Byte), body.length ≤ 240 → s.line.receiver = .hunt →
    exec (.frameReceived (lineFrame tag code body)) s = .next
      (s.arrive { tag := tag, code := code, body := body }) ∧
    (∀ c1 c0 : Byte,
      let inner := BitVec.ofNat 8 body.length :: tag :: code :: body
      c1.toNat * 256 + c0.toNat ≠ (crc16 inner).toNat →
      exec (.frameReceived (Config.startByte :: inner ++ [c1, c0])) s = .next
        (s.setLine { s.line with
          counters := { s.line.counters with crc := min 65535 (s.line.counters.crc + 1) } }))

/-! ## Shelf links -/

/-- What a link sends (R59 to R63, R51): once the minimum frame period is over (R62), and not before, a frame start
joins the pending slots at the tail and takes the staged settings, and is what a free link does first; with nothing to
poll the phase goes on to GAP or to WAIT in the same event (log entry 13); STATUS goes to the first slot not yet
polled; the oldest eligible directed entry is sent; the next block of the head summary operation is asked for, and the
gap count rises. The poll timeout in force runs from the sending, and every request's bytes sum to 0. -/
def Obligations.LinkWorkIsSent : Prop :=
  (∀ r : LinkRequest, byteSum r.wire = 0) ∧
  ∀ (s : State) (l : ShelfNo),
    let x := s.link l
    let out (i : SlotNo) (r : LinkRequest) : Option Transaction :=
      some { slot := i, request := r, expiry := s.now + BitVec.ofNat 32 x.settings.pollTimeout, spoiled := false }
    x.outstanding = none →
    (x.phase = .wait → x.settings.minPeriod ≤ (s.now - x.frameStart).toNat →
      s.dueLink l = some (.frameStart l)) ∧
    ((s.now - x.frameStart).toNat < x.settings.minPeriod → exec (.frameStart l) s = .next s) ∧
    (x.phase = .wait → x.settings.minPeriod ≤ (s.now - x.frameStart).toNat → x.scan ++ x.joins ≠ [] →
      exec (.frameStart l) s = .next (s.setLink l
        { x with
          frameStart := s.now, scan := x.scan ++ x.joins, joins := [], settings := x.staged.getD x.settings,
          staged := none, phase := .poll, unpolled := x.scan ++ x.joins })) ∧
    (x.phase = .wait → x.settings.minPeriod ≤ (s.now - x.frameStart).toNat → x.scan = [] → x.joins = [] →
      let spent : Bool := x.summary.isEmpty || (x.staged.getD x.settings).gapBudget ≤ x.gapCount
      exec (.frameStart l) s = .next (s.setLink l
        { x with
          frameStart := s.now, settings := x.staged.getD x.settings, staged := none, unpolled := [],
          phase := if spent then .wait else .gap, gapCount := if spent then 0 else x.gapCount })) ∧
    (∀ i rest, x.phase = .poll → (∀ d ∈ x.directed, d.slot ∉ x.scan) → x.unpolled = i :: rest →
      exec (.poll l) s = .next (s.setLink l { x with unpolled := rest, outstanding := out i .status })) ∧
    (∀ before d after, x.directed = before ++ d :: after → (∀ e ∈ before, e.slot ∉ x.scan) → d.slot ∈ x.scan →
      exec (.directedTransaction l) s = .next (s.setLink l
        { x with
          directed := x.directed.filter (·.slot ≠ d.slot), outstanding := out d.slot (.directed d.code d.purpose) })) ∧
    (∀ op ops, x.phase = .gap → (∀ d ∈ x.directed, d.slot ∉ x.scan) → x.summary = op :: ops →
      x.gapCount < x.settings.gapBudget → op.slot ∉ x.joins →
      exec (.summaryTransaction l) s = .next (s.setLink l
        { x with gapCount := x.gapCount + 1, outstanding := out op.slot (.summary op.next) }))

/-- The directed queue (R63, R58): an ask for a slot the link does not know is discarded; one for a slot that has an
entry takes its place, and another joins at the tail; each slot has at most one entry. A leave takes from the link all
that is the slot's, its outstanding transaction with it, and nothing else; one for a slot the link does not know changes
nothing. -/
def Obligations.DirectedQueueHoldsOneEach : Prop :=
  (∀ (s : State) (i : SlotNo), s.leaveLink i = s.setLink (shelfOf i) ((s.link (shelfOf i)).leave i)) ∧
  ∀ (l : Link) (i : SlotNo) (c : DirectedCode) (p : Purpose),
    let e : Directed := { slot := i, code := c, purpose := p }
    (l.knows i = false → l.ask i c p = l ∧ l.leave i = l) ∧
    (l.knows i = true → (∀ d ∈ l.directed, d.slot ≠ i) → l.ask i c p = { l with directed := l.directed ++ [e] }) ∧
    (∀ before d after, l.knows i = true → l.directed = before ++ d :: after → d.slot = i →
      (∀ x ∈ before ++ after, x.slot ≠ i) → l.ask i c p = { l with directed := before ++ e :: after }) ∧
    (l.directed.Pairwise (fun a b => a.slot ≠ b.slot) →
      (l.ask i c p).directed.Pairwise (fun a b => a.slot ≠ b.slot) ∧
        (l.leave i).directed.Pairwise (fun a b => a.slot ≠ b.slot)) ∧
    (l.knows i = true →
      l.leave i =
        { l with
          scan := l.scan.filter (· ≠ i), joins := l.joins.filter (· ≠ i), unpolled := l.unpolled.filter (· ≠ i),
          directed := l.directed.filter (·.slot ≠ i), summary := l.summary.filter (·.slot ≠ i),
          outstanding := l.outstanding.filter (·.slot ≠ i) } ∧
        (l.leave i).knows i = false)

/-- A good STATUS reply, its poll timeout not passed (R52, R69, R70): the transaction over, the consecutive miss count
0, the last-status record written with its clamps, the fallback base written by the first of a run, the fault word
made the prior one in RUNNING and REVIEW, and a FAILED drive's run ended DRIVE_FAILED where no watch rule takes it
first. -/
def Obligations.StatusReplyTaken : Prop :=
  ∀ (s : State) (l : ShelfNo) (i : SlotNo) (e : Time) (d : DriveState)
    (st phase progress temp g1 g0 p1 p0 f1 f0 : Byte),
    (s.link l).outstanding = some { slot := i, request := .status, expiry := e, spoiled := false } →
    Time.passed s.now e = false → readDriveState st = some d → phase.toNat ≤ 15 →
    let x : LastStatus :=
      { state := d, phase := phase.toNat, progress := min 100 progress.toNat, temp := min 150 temp.toNat,
        grown := g1.toNat * 256 + g0.toNat, pending := p1.toNat * 256 + p0.toNat,
        fault := BitVec.ofNat 16 (f1.toNat * 256 + f0.toNat), time := s.now }
    ∃ u : State,
      exec (.statusReply l (replyFrame 0x14 st [phase, progress, temp, g1, g0, p1, p0, f1, f0])) s = .next u.finish ∧
      s.sameBeyondSlots u ∧ (u.link l).outstanding = none ∧
      u.linkSlot i = { last := some x, consecutive := 0, total := (s.linkSlot i).total } ∧
      ((s.slot i).state.polled = true →
        (u.slot i).run.fallback = some ((s.slot i).run.fallback.getD (g1.toNat * 256 + g0.toNat))) ∧
      ((s.slot i).state = .running ∨ (s.slot i).state = .review → (u.watch i).prior = x.fault) ∧
      ((s.slot i).state.polled = true → d = .failed → s.winner (s.watch i).prior x.fault = none →
        (u.slot i).run.endCause = some .driveFailed) ∧
      ((s.slot i).state.polled = false →
        u = (s.replied l i).setLinkSlot i { last := some x, consecutive := 0, total := (s.linkSlot i).total })

/-- A good reply of a directed transaction, its poll timeout not passed (R52). IDENT in IDENTIFYING stores the
identity and starts step 1, or pauses the slot before it in a TRIPPED zone (R16); PHASE START arms the phase at the
step entry that asked for it (R43); HALT takes a CYCLE step from HALTING to OFF (R48), and a ZONE_TRIP end to its
verdict (R19). Elsewhere SC acts on none of them. That SC acts at the same step entry also where a pause has come and
gone since, which R50 speaks against, is the model's choice (log entry 41), and so are the entries' numbers (log
entry 14). -/
def Obligations.DirectedRepliesTaken : Prop :=
  ∀ (s : State) (l : ShelfNo) (i : SlotNo) (e : Time) (p : Purpose) (d : DriveState) (st : Byte),
    Time.passed s.now e = false → readDriveState st = some d →
    let waits (c : DirectedCode) : Prop :=
      (s.link l).outstanding = some { slot := i, request := .directed c p, expiry := e, spoiled := false }
    let T := s.replied l i
    (∀ (serial : List Byte) (m1 m0 c f1 f0 : Byte), serial.length = 20 → waits .ident →
      let bytes := replyFrame 0x11 st (serial ++ [m1, m0, c, f1, f0])
      ((s.slot i).state ≠ .identifying → exec (.identReply l bytes) s = .next T.finish) ∧
      ((s.slot i).state = .identifying → ∃ u : State, exec (.identReply l bytes) s = .next u.finish ∧
        s.sameBeyondSlots u ∧
        (u.slot i).run.identity = some
          { serial := serial, model := m1.toNat * 256 + m0.toNat, capacity := c.toNat,
            firmware := f1.toNat * 256 + f0.toNat } ∧
        ((s.zone (shelfOf i)).state = .tripped →
          (u.slot i).state = .paused ∧ (u.slot i).step = some 1 ∧ (u.slot i).run.zonePaused = true) ∧
        ((s.zone (shelfOf i)).state ≠ .tripped → ∀ q y, (s.slot i).plan = some q → (s.plan q).steps[0]? = some y →
          (∀ a b, y ≠ .loop a b) →
          (u.slot i).state = .running ∧ (u.slot i).step = some 1 ∧ (u.slot i).stepClock = 0 ∧
            (u.slot i).doseStart = (s.dose i).acc))) ∧
    (∀ n, waits (.phaseStart n) →
      exec (.phaseStartReply l (replyFrame 0x12 st [])) s = .next
        (if p = .step (s.slot i).stepEntry ∧ (s.slot i).state = .running ∧ (s.slot i).stepEntered = true then
          T.setSlot i { s.slot i with phaseArmed := true }
        else T).finish) ∧
    (waits .halt →
      s.haltOver T i p (s.linkSlot i).total (exec (.haltReply l (replyFrame 0x13 st [])) s))

/-- A good SUMMARY reply, its poll timeout not passed (R52, R66): block 0 goes into the progress with its clamps; a
later block adds its margins, as many as there are heads; the last one completes the operation, and SC stores the
summary, turns the power off and moves the slot by its verdict. -/
def Obligations.SummaryBlocksTaken : Prop :=
  ∀ (s : State) (l : ShelfNo) (i : SlotNo) (e : Time) (op : SummaryOp) (ops : List SummaryOp) (d : DriveState)
    (st : Byte),
    Time.passed s.now e = false → readDriveState st = some d → (s.link l).summary = op :: ops →
    let waits (n : Nat) : Prop :=
      (s.link l).outstanding = some { slot := i, request := .summary n, expiry := e, spoiled := false }
    let progress (x : SummaryOp) : State :=
      (s.replied l i).setLink l { s.link l with outstanding := none, summary := x :: ops }
    (∀ g1 g0 p1 p0 t h v : Byte, waits 0 →
      exec (.summaryReply l (replyFrame 0x15 st [0, g1, g0, p1, p0, t, h, v])) s = .next
        (progress
          { op with
            next := 1
            block0 := some
              { grown := g1.toNat * 256 + g0.toNat, pending := p1.toNat * 256 + p0.toNat, maxTemp := min 150 t.toNat,
                headCount := max 1 (min 12 h.toNat), driveVerdict := v.toNat } }).finish) ∧
    (∀ (n : Nat) (z : Block0) (m1 m2 m3 m4 : Byte), 1 ≤ n → n ≤ 3 → op.next = n → op.block0 = some z → waits n →
      let bytes := replyFrame 0x15 st [BitVec.ofNat 8 n, m1, m2, m3, m4]
      let kept := op.margins ++ [m1.toNat, m2.toNat, m3.toNat, m4.toNat].take (z.headCount - 4 * (n - 1))
      (4 * n < z.headCount →
        exec (.summaryReply l bytes) s = .next (progress { op with next := n + 1, margins := kept }).finish) ∧
      (z.headCount ≤ 4 * n → ∃ u : State, exec (.summaryReply l bytes) s = .next u.finish ∧ s.sameBeyondSlots u ∧
        (u.slot i).run.summary = some
          { grown := z.grown, pending := z.pending, maxTemp := z.maxTemp, headCount := z.headCount, margins := kept,
            driveVerdict := z.driveVerdict } ∧
        (u.slot i).power = .off ∧ ((u.slot i).state = .graded ∨ (u.slot i).state = .held) ∧
        (u.slot i).run.verdict.isSome = true ∧
        u.judgedAs i s.sort
          { (s.slot i).run with
            summary := some
              { grown := z.grown, pending := z.pending, maxTemp := z.maxTemp, headCount := z.headCount,
                margins := kept, driveVerdict := z.driveVerdict } }
          (s.slot i).spin (s.linkSlot i).total))

/-- A miss (R71, R67), the poll timeout reached and not before (R52): the transaction over and both counts raised; at
the miss limit a run in IDENTIFYING, RUNNING, PAUSED or REVIEW ends SILENT. Short of that a missed poll does no more,
and a missed directed transaction does what its code asks for (R64): IDENT is asked for again in IDENTIFYING, PHASE
START at the step entry that asked for it (R43), and a HALT is taken for ended, as by a reply (R48, R19). That SC acts
at the same step entry also where a pause has come and gone since is the model's choice (log entry 41), and so are the
entries' numbers (log entry 14). A missed summary block ends the gap, also where the operation fails by it (log entry
57), and raises the operation's count, and at the limit the operation fails, with the summary missing and the slot at
its verdict. -/
def Obligations.MissCountsAndEnds : Prop :=
  (∀ (s : State) (l : ShelfNo),
    (∀ t, (s.link l).outstanding = some t → Time.reached s.now t.expiry = false) → exec (.miss l) s = .next s) ∧
  ∀ (s : State) (l : ShelfNo) (t : Transaction), (s.link l).outstanding = some t →
    Time.reached s.now t.expiry = true →
    let i := t.slot
    let counts : LinkSlot :=
      { last := (s.linkSlot i).last, consecutive := min 255 ((s.linkSlot i).consecutive + 1),
        total := min 65535 ((s.linkSlot i).total + 1) }
    let T := (s.setLink l { s.link l with outstanding := none }).setLinkSlot i counts
    (∃ u : State, exec (.miss l) s = .next u.finish ∧ s.sameBeyondSlots u ∧ (u.link l).outstanding = none ∧
      u.linkSlot i = counts) ∧
    ((∀ n, t.request ≠ .summary n) → (s.slot i).state.polled = true →
      (s.link l).settings.missLimit ≤ counts.consecutive →
      ∃ u : State, exec (.miss l) s = .next u.finish ∧ s.sameBeyondSlots u ∧ (u.slot i).run.endCause = some .silent ∧
        (u.slot i).power = .off ∧ (u.slot i).permit = .none ∧ (u.slot i).run.summaryMissing = true ∧
        ((u.slot i).state = .graded ∨ (u.slot i).state = .held) ∧
        u.judgedAs i s.sort { (s.slot i).run with endCause := some .silent, summaryMissing := true } (s.slot i).spin
          counts.total) ∧
    (t.request = .status →
      (counts.consecutive < (s.link l).settings.missLimit ∨ (s.slot i).state.polled = false) →
      exec (.miss l) s = .next T.finish) ∧
    (∀ c p, t.request = .directed c p →
      (counts.consecutive < (s.link l).settings.missLimit ∨ (s.slot i).state.polled = false) →
      (c = .ident → exec (.miss l) s = .next
        (if (s.slot i).state = .identifying then T.askLink i .ident .plain else T).finish) ∧
      (∀ n, c = .phaseStart n → exec (.miss l) s = .next
        (if p = .step (s.slot i).stepEntry ∧ (s.slot i).state = .running ∧ (s.slot i).stepEntered = true then
          (T.setSlot i { s.slot i with phaseArmed := false }).askLink i (.phaseStart n) p
        else T).finish) ∧
      (c = .halt → s.haltOver T i p counts.total (exec (.miss l) s))) ∧
    (∀ n op ops, t.request = .summary n → (s.slot i).state = .ending → (s.link l).summary = op :: ops →
      ((s.link l).settings.missLimit ≤ min 15 (op.misses + 1) →
        ∃ u : State, exec (.miss l) s = .next u.finish ∧ s.sameBeyondSlots u ∧ (u.slot i).run.summaryMissing = true ∧
          (u.slot i).power = .off ∧ ((u.slot i).state = .graded ∨ (u.slot i).state = .held) ∧
          u.judgedAs i s.sort { (s.slot i).run with summaryMissing := true } (s.slot i).spin counts.total ∧
          (u.link l).phase = .wait ∧ (u.link l).gapCount = 0) ∧
      (min 15 (op.misses + 1) < (s.link l).settings.missLimit →
        exec (.miss l) s = .next (T.setLink l
          { s.link l with
            outstanding := none, gapCount := 0, phase := .wait
            summary := { op with misses := min 15 (op.misses + 1) } :: ops }).finish))

/-- A reply that fails a test of R52 does not end the transaction: bytes with no sync are discarded, and from a sync
on the link discards whatever comes until the poll timeout; what comes after it is discarded too. With no transaction
waiting for a reply the bytes are discarded. A wrong code, status, length or sum fails, and so do a STATUS with a phase
above 15 (R54), a SUMMARY of a block other than the one asked for (R55), and a reply of a kind other than the one asked
for. That what follows a failed reply is discarded until the timeout, and that a reply command of another kind is judged
as bytes that fail, is the model's reading (log entry 10). -/
def Obligations.BadRepliesEndNothing : Prop :=
  (∀ (s : State) (l : ShelfNo) (bytes : List Byte) (c : Instr),
    c ∈ [Instr.statusReply l bytes, .identReply l bytes, .phaseStartReply l bytes, .haltReply l bytes,
      .summaryReply l bytes] →
    ((s.link l).outstanding = none → exec c s = .next s) ∧
    (∀ t, (s.link l).outstanding = some t → t.spoiled = true → exec c s = .next s) ∧
    (∀ t, (s.link l).outstanding = some t → Time.passed s.now t.expiry = true → exec c s = .next s) ∧
    (∀ t, (s.link l).outstanding = some t → t.spoiled = false → Time.passed s.now t.expiry = false →
      readReply t.request bytes = none →
      exec c s = .next
        (if Config.sync ∈ bytes then s.setLink l { s.link l with outstanding := some { t with spoiled := true } }
        else s))) ∧
  (∀ (r : LinkRequest) (code st check : Byte) (payload : List Byte), payload.length < 256 →
    let head := Config.sync :: code :: st :: BitVec.ofNat 8 payload.length :: payload
    (code ≠ r.code ∨ payload.length ≠ r.replyLength ∨ readDriveState st = none ∨ byteSum (head ++ [check]) ≠ 0 →
      readReply r (head ++ [check]) = none) ∧
    (∀ d, code = r.code → payload.length = r.replyLength → readDriveState st = some d →
      byteSum (head ++ [check]) = 0 → readReply r (head ++ [check]) = some (d, payload))) ∧
  (∀ (s : State) (l : ShelfNo) (i : SlotNo) (e : Time) (st : Byte), Time.passed s.now e = false →
    let waits (r : LinkRequest) : Prop :=
      (s.link l).outstanding = some { slot := i, request := r, expiry := e, spoiled := false }
    let failed (r : LinkRequest) : State :=
      s.setLink l { s.link l with outstanding := some { slot := i, request := r, expiry := e, spoiled := true } }
    (∀ phase progress temp g1 g0 p1 p0 f1 f0 : Byte, waits .status → 15 < phase.toNat →
      exec (.statusReply l (replyFrame 0x14 st [phase, progress, temp, g1, g0, p1, p0, f1, f0])) s =
        .next (failed .status)) ∧
    (∀ b g1 g0 p1 p0 t h v : Byte, waits (.summary 0) → b ≠ 0 →
      exec (.summaryReply l (replyFrame 0x15 st [b, g1, g0, p1, p0, t, h, v])) s = .next (failed (.summary 0))) ∧
    (∀ (n : Nat) (b m1 m2 m3 m4 : Byte), waits (.summary n) → 1 ≤ n → b.toNat ≠ n →
      exec (.summaryReply l (replyFrame 0x15 st [b, m1, m2, m3, m4])) s = .next (failed (.summary n))) ∧
    (∀ (r : LinkRequest) (bytes : List Byte), waits r →
      let bad := Host.Outcome.next (if Config.sync ∈ bytes then failed r else s)
      (r ≠ .status → exec (.statusReply l bytes) s = bad) ∧
      ((∀ p, r ≠ .directed .ident p) → exec (.identReply l bytes) s = bad) ∧
      ((∀ n p, r ≠ .directed (.phaseStart n) p) → exec (.phaseStartReply l bytes) s = bad) ∧
      ((∀ p, r ≠ .directed .halt p) → exec (.haltReply l bytes) s = bad) ∧
      ((∀ n, r ≠ .summary n) → exec (.summaryReply l bytes) s = bad)))

/-! ## Zones -/

/-- A read of an air sensor (R76, R77): a value in 0 to 1500 becomes the air temperature, clears SENSOR, sets OVER_LIMIT
above the trip limit and clears it at the limit less 50 or below; any other value, or none, is a faulted read, which
keeps the temperature and makes SENSOR present. No other zone changes. -/
def Obligations.SensorReadingsTaken : Prop :=
  ∀ (s : State) (z : ShelfNo),
    let x := s.zone z
    (∀ v : Nat, v ≤ 1500 → ∃ u : State, exec (.airSensorRead z (v : Int)) s = .next u.finish ∧
      State.sameBeyondSlots { s with zones := u.zones } u ∧
      (u.zone z).air = some v ∧ (u.zone z).sensor = .good ∧ (u.zone z).reading = false ∧
      (u.zone z).causes =
        { x.causes with
          sensor := false
          overLimit :=
            if x.settings.tripLimit < v then true
            else if v + 50 ≤ x.settings.tripLimit then false else x.causes.overLimit } ∧
      (∀ y, y ≠ z → u.zone y = s.zone y)) ∧
    (∀ c, (∃ v : Int, (v < 0 ∨ 1500 < v) ∧ c = Instr.airSensorRead z v) ∨ c = .sensorNoResponse z →
      ∃ u : State, exec c s = .next u.finish ∧ State.sameBeyondSlots { s with zones := u.zones } u ∧
        (u.zone z).air = x.air ∧ (u.zone z).sensor = .fault ∧
        (u.zone z).reading = false ∧ (u.zone z).causes = { x.causes with sensor := true } ∧
        (∀ y, y ≠ z → u.zone y = s.zone y))

/-- CUTOFF follows the cutoff input in every zone state, each change taken as it comes (R78). -/
def Obligations.CutoffFollowsInput : Prop :=
  ∀ (s : State) (z : ShelfNo) (active : Bool),
    (∃ u : State, exec (.cutoffChange z active) s = .next u.finish ∧
      State.sameBeyondSlots { s with zones := u.zones } u ∧
      (u.zone z).causes = { (s.zone z).causes with cutoff := active } ∧ (∀ y, y ≠ z → u.zone y = s.zone y)) ∧
    ((s.zone z).state = .run → active = true → (s.zone z).causes.cutoff = false →
      ∃ u : State, exec (.cutoffChange z active) s = .next u.finish ∧ (u.zone z).state = .tripped ∧
        (u.zone z).trip.map (·.first) = some .cutoff) ∧
    ((s.zone z).state ≠ .run ∨ active = false →
      ∃ u : State, exec (.cutoffChange z active) s = .next u.finish ∧ (u.zone z).state = (s.zone z).state) ∧
    ((s.zone z).state = .tripped → active = true → (s.zone z).causes.cutoff = false →
      ∃ u : State, exec (.cutoffChange z active) s = .next u.finish ∧
        (u.zone z).trip = (s.zone z).trip.map fun t => { t with seen := { t.seen with cutoff := true } })

/-- A cause that becomes present (R89, R90, R92, R22), be it CUTOFF, SENSOR, OVER_LIMIT or FAN_LOW, and causes that
leave (R91). A zone in RUN trips: the heater off, the PWM and control timers stopped, the duties 0, the trip recorded
with its first cause, its time and the causes seen, the grace running, or expired at once for a setting of 0, and a
ZONE_TRIP notice after the slots' ones; setpoint, player and A stay. With a grace, a slot of the shelf in RUNNING with
its drive on the link pauses with HALT asked for, one in a CYCLE step's power-off part or in REVIEW gets the
zone-paused flag, and every other slot of the rack stays as it is. With none, and every overcurrent line inactive, the
runs of the shelf end ZONE_TRIP, and every other slot keeps its state, plan and run. A TRIPPED zone takes the cause
into its trip record with a ZONE_TRIP notice, and the last cause to leave it queues ZONE_CLEAR. In OFF there is no more
to it. -/
def Obligations.TripPausesShelf : Prop :=
  (∀ (s : State) (z : ShelfNo) (e : Instr) (c : Cause) (y : Zone), s.causeComes z e c y →
    ((s.zone z).state = .off → exec e s = .next (s.setZone z y).finish) ∧
    ((s.zone z).state = .run →
      let tripped : Zone :=
        { y with
          state := .tripped, heater := .off, control := none, periodEnd := none, onEnd := none
          duty := 0, prevDuty := 0, pendingDuty := none
          trip := some { first := c, time := s.line.rackTime, seen := y.causes }
          grace := some
            (if y.settings.graceMin = 0 then .expired
            else .running (s.now + BitVec.ofNat 32 (y.settings.graceMin * 60000))) }
      ∃ u v : State, exec e s = .next u.finish ∧ State.sameBeyondSlots { s with zones := s.zones.set z tripped } u ∧
        u = v.notify (.zoneTrip z c y.causes y.causes s.line.rackTime) ∧
        v.line.mask = s.line.mask ∧ v.line.rackTime = s.line.rackTime ∧
        v.line.notices.filter (·.body.kind = .zoneTrip) = s.line.notices.filter (·.body.kind = .zoneTrip) ∧
        (y.settings.graceMin ≠ 0 →
          (∀ i, shelfOf i ≠ z → u.slot i = s.slot i) ∧
          (∀ i, shelfOf i = z →
            ((s.slot i).state = .running → (s.slot i).cycleOffLink = false →
              u.slot i = { s.slot i with state := .paused, hold := none } ∧
                ((s.link z).knows i = true → ∃ d ∈ (u.link z).directed, d.slot = i ∧ d.code = .halt)) ∧
            ((s.slot i).state = .running ∧ (s.slot i).cycleOffLink = true ∨ (s.slot i).state = .review →
              u.slot i = { s.slot i with run := { (s.slot i).run with zonePaused := true } }) ∧
            ((s.slot i).state ≠ .running → (s.slot i).state ≠ .review → u.slot i = s.slot i))) ∧
        (y.settings.graceMin = 0 → (∀ i : SlotNo, s.overcurrent[i] = false) →
          ∀ i,
            (shelfOf i = z → (s.slot i).state.runs = true →
              (u.slot i).run.endCause = some .zoneTrip ∧ (u.slot i).plan = none ∧
                ((u.slot i).state = .ending ∨ (u.slot i).state = .graded ∨ (u.slot i).state = .held)) ∧
            (shelfOf i ≠ z ∨ (s.slot i).state.runs = false →
              (u.slot i).state = (s.slot i).state ∧ (u.slot i).plan = (s.slot i).plan ∧
                (u.slot i).run = (s.slot i).run))) ∧
    (∀ r, (s.zone z).state = .tripped → (s.zone z).trip = some r →
      let seen : Causes :=
        { overLimit := r.seen.overLimit || c = .overLimit, cutoff := r.seen.cutoff || c = .cutoff
          fanLow := r.seen.fanLow || c = .fanLow, sensor := r.seen.sensor || c = .sensor }
      let t : State :=
        if c = .overLimit ∧
            (s.zone z).causes = { overLimit := false, cutoff := false, fanLow := false, sensor := true } then
          s.notify (.zoneClear z r.first r.seen s.line.rackTime)
        else s
      exec e s = .next
        ((t.setZone z { y with trip := some { r with seen := seen } }).notify
          (.zoneTrip z r.first y.causes seen r.time)).finish)) ∧
  (∀ (s : State) (z : ShelfNo) (e : Instr) (y : Zone), s.causesLeave z e y →
    ((s.zone z).state ≠ .tripped → exec e s = .next (s.setZone z y).finish) ∧
    (∀ r, (s.zone z).state = .tripped → (s.zone z).trip = some r →
      exec e s = .next
        (if (s.zone z).causes.isEmpty = false ∧ y.causes.isEmpty = true then
          (s.setZone z y).notify (.zoneClear z r.first r.seen s.line.rackTime)
        else s.setZone z y).finish))

/-- TRIP_GRACE_EXPIRY and ZONE RESUME reach the slots of the shelf (R92, R93, R22), with every overcurrent line
inactive: the expiry ends the runs that wait for the zone with ZONE_TRIP, and leaves the zone's record but for its
grace; the resume puts the zone in RUN with a fresh control state, returns PAUSED slots to RUNNING, clears the flag of
those in REVIEW and starts a WAITING spin-up. A slot back in RUNNING goes on at its step as it stood (R50): an EXERCISE
step asks for its phase again, a CYCLE step in HALTING for its HALT, and a step not yet entered is entered. In every
state ZONE RESUME is refused with RANGE, STATE or CAUSE in that order. -/
def Obligations.ShelfToldOfGraceAndResume : Prop :=
  (∀ (s : State) (z : ShelfNo), (s.zone z).state = .tripped → (∀ i : SlotNo, s.overcurrent[i] = false) →
    (∀ e, (s.zone z).grace = some (.running e) →
      ∃ u : State, exec (.tripGraceExpiry z) s = .next u.finish ∧
        State.sameBeyondSlots { s with zones := s.zones.set z (u.zone z) } u ∧
        u.zone z = { s.zone z with grace := some .expired } ∧
        (∀ i, shelfOf i = z →
          ((s.slot i).state = .powering ∨ (s.slot i).state = .identifying ∨ (s.slot i).state = .paused ∨
            (s.slot i).state = .review ∨ ((s.slot i).state = .running ∧ (s.slot i).run.zonePaused = true)) →
          (u.slot i).run.endCause = some .zoneTrip ∧ (u.slot i).plan = none ∧
            ((u.slot i).state = .ending ∨ (u.slot i).state = .graded ∨ (u.slot i).state = .held))) ∧
    (∀ tag zone, s.ready → ofNum 4 zone.toNat = some z → (s.zone z).causes.isEmpty = true →
      ∃ u : State, exec (.zoneResume tag [zone]) s = .next (u.answered tag .zoneResume (Answer.accept [])) ∧
        State.sameBeyondSlots { s with zones := s.zones.set z (u.zone z) } u ∧
        u.zone z =
          { s.zone z with
            state := .run, grace := none, trip := none, acc := 0, prevDuty := 0, duty := 0, pendingDuty := none,
            heater := .off, onEnd := none
            control := some (s.now + 2000#32)
            periodEnd := some (s.now + BitVec.ofNat 32 (s.zone z).settings.pwmMs) } ∧
        (∀ i, shelfOf i = z →
          let asked (code : DirectedCode) : Prop := (s.link z).knows i = true →
            ∃ d ∈ (u.link z).directed, d.slot = i ∧ d.code = code ∧ d.purpose = .step (s.slot i).stepEntry
          ((s.slot i).state = .paused → (s.slot i).stepEntered = true →
            (u.slot i).state = .running ∧ (u.slot i).run.zonePaused = false ∧ (u.slot i).plan = (s.slot i).plan ∧
              (u.slot i).step = (s.slot i).step ∧ (u.slot i).stepClock = (s.slot i).stepClock ∧
              (u.slot i).doseStart = (s.slot i).doseStart ∧ (u.slot i).loops = (s.slot i).loops ∧
              (u.slot i).cyclePhase = (s.slot i).cyclePhase ∧ (u.slot i).stepEntry = (s.slot i).stepEntry ∧
              (match s.currentStep i with
                | some (.exercise phase ..) => (u.slot i).phaseArmed = false ∧ asked (.phaseStart phase)
                | some (.cycle _) => (u.slot i).phaseArmed = (s.slot i).phaseArmed ∧
                  ((s.slot i).cyclePhase = some .halting → asked .halt)
                | _ => (u.slot i).phaseArmed = (s.slot i).phaseArmed)) ∧
          (∀ n, (s.slot i).state = .paused → (s.slot i).stepEntered = false → (s.slot i).cycleOffLink = false →
            (s.slot i).step = some n →
            s.stepEnteredAt u i n (s.dose i).acc ∧ (u.slot i).run.zonePaused = false) ∧
          ((s.slot i).state = .review →
            (u.slot i).state = .review ∧ (u.slot i).run.zonePaused = false) ∧
          ((s.slot i).state = .running → (s.slot i).cyclePhase = some .waiting →
            (u.slot i).cyclePhase = some .spinning ∧ (u.slot i).run.zonePaused = false)))) ∧
  ∀ (s : State) (tag zone : Byte), s.ready →
    (ofNum 4 zone.toNat = none →
      exec (.zoneResume tag [zone]) s = .next (s.answered tag .zoneResume (Answer.refuse .range []))) ∧
    (∀ z, ofNum 4 zone.toNat = some z →
      ((s.zone z).state ≠ .tripped →
        exec (.zoneResume tag [zone]) s = .next (s.answered tag .zoneResume (Answer.refuse .state []))) ∧
      ((s.zone z).state = .tripped → (s.zone z).causes.isEmpty = false →
        exec (.zoneResume tag [zone]) s = .next
          (s.answered tag .zoneResume (Answer.refuse .cause (u8 (s.zone z).causes.bits)))))

/-- The fan of a zone (R79): every tach edge raises the window's count, up to 1000; at a window's end the speed is the
count times 30, a speed below the minimum in force raises the low-window count, up to 3, at which FAN_LOW becomes
present, and any other speed clears both; the count begins again. The control law (R86) and the PWM (R87) of a zone in
RUN. At a control interval the error is clamped to 500, the proportional term and A / 256 are truncated toward zero, A
is held at a full duty with the air below the setpoint and at a duty of 0 with it above, and the duty is clamped to 0
to 1000. At a period start the pending duty comes into force and the heater is on for its share of the period; it goes
off at the end of its on-time. -/
def Obligations.FanAndHeaterDriven : Prop :=
  ∀ (s : State) (z : ShelfNo),
    let x := s.zone z
    exec (.tachEdge z) s = .next (s.setZone z { x with fanCount := min 1000 (x.fanCount + 1) }) ∧
    (∃ u : State, exec (.fanWindowEnd z) s = .next u.finish ∧
      State.sameBeyondSlots { s with zones := s.zones.set z (u.zone z) } u ∧
      (u.zone z).fanSpeed = some (x.fanCount * 30) ∧ (u.zone z).fanCount = 0 ∧ (u.zone z).windowOver = false ∧
      (x.fanCount * 30 < x.settings.fanMin →
        (u.zone z).lowWindows = min 3 (x.lowWindows + 1) ∧
          (u.zone z).causes =
            { x.causes with fanLow := if 3 ≤ x.lowWindows + 1 then true else x.causes.fanLow }) ∧
      (x.settings.fanMin ≤ x.fanCount * 30 →
        (u.zone z).lowWindows = 0 ∧ (u.zone z).causes = { x.causes with fanLow := false })) ∧
    (x.state = .run →
      let e : Int := max (-500) (min 500 ((x.setpoint.getD 0 : Int) - (x.air.getD 0 : Int)))
      let acc : Int :=
        if (x.prevDuty = 1000 ∧ 0 < e) ∨ (x.prevDuty = 0 ∧ e < 0) then x.acc
        else max (-100000) (min 100000 (x.acc + e * (x.settings.ki : Int)))
      let duty : Int := max 0 (min 1000 (Int.tdiv (e * (x.settings.kp : Int)) 4 + Int.tdiv acc 256))
      exec (.controlInterval z) s = .next (s.setZone z
        { x with
          acc := acc, prevDuty := duty.toNat, pendingDuty := some duty.toNat, control := some (s.now + 2000#32) })) ∧
    (x.state = .run →
      let duty := x.pendingDuty.getD x.duty
      let on := duty * x.settings.pwmMs / 1000
      exec (.pwmPeriodStart z) s = .next (s.setZone z
        { x with
          duty := duty, pendingDuty := none, heater := if on = 0 then .off else .on
          periodEnd := some (s.now + BitVec.ofNat 32 x.settings.pwmMs)
          onEnd := if on = 0 ∨ on = x.settings.pwmMs then none else some (s.now + BitVec.ofNat 32 on) })) ∧
    (x.onEnd.isSome = true →
      exec (.pwmOnTimeEnd z) s = .next (s.setZone z { x with heater := .off, onEnd := none }))

/-- The end of a segment (R83, R81): a hold that has been counted up to its time gives way to segment 1 of a staged
profile, to the next segment, to segment 1 of a looping profile, or to FINISHED, at SEGMENT_END and at every other
segment boundary. That SEGMENT_END makes the end test alone, for a hold already counted, is the model's (log entry 8).
Entering a segment with rate 0, or one whose target the setpoint already has, sets the setpoint and holds; any other
ramps (R82). -/
def Obligations.SegmentsFollowOn : Prop :=
  ∀ (s : State) (z : ShelfNo) (p : Profile) (w : Player) (g : Segment),
    let x := s.zone z
    (x.state = .run → x.active = some p → x.player = some w → w.sub = .hold → 1 ≤ w.hold →
      p.segments[w.segment - 1]? = some g → g.hold ≤ w.hold →
      (∀ q, x.staged = some q →
        exec (.segmentEnd z) s = .next (s.setZone z ({ x with active := some q, staged := none }.enterSegment 1))) ∧
      (x.staged = none → w.segment < p.segments.length →
        exec (.segmentEnd z) s = .next (s.setZone z (x.enterSegment (w.segment + 1)))) ∧
      (x.staged = none → p.segments.length ≤ w.segment → p.loop = true →
        exec (.segmentEnd z) s = .next (s.setZone z (x.enterSegment 1))) ∧
      (x.staged = none → p.segments.length ≤ w.segment → p.loop = false →
        exec (.segmentEnd z) s = .next (s.setZone z { x with player := some { w with sub := .finished } }))) ∧
    (x.active = some p → x.player = some w →
      (∀ q, x.staged = some q → x.boundary = { x with active := some q, staged := none }.enterSegment 1) ∧
      (x.staged = none → w.segment < p.segments.length → x.boundary = x.enterSegment (w.segment + 1)) ∧
      (x.staged = none → p.segments.length ≤ w.segment → p.loop = true → x.boundary = x.enterSegment 1) ∧
      (x.staged = none → p.segments.length ≤ w.segment → p.loop = false →
        x.boundary = { x with player := some { w with sub := .finished } })) ∧
    (∀ n, x.active = some p → p.segments[n - 1]? = some g →
      (g.rate = 0 ∨ x.setpoint = some g.target →
        x.enterSegment n =
          { x with setpoint := some g.target, player := some { segment := n, sub := .hold, hold := 0 } }) ∧
      (g.rate ≠ 0 → x.setpoint ≠ some g.target →
        x.enterSegment n = { x with player := some { segment := n, sub := .ramp, hold := 0 } }))

/-- ZONE START and ZONE STOP, with their checks in order and all they change (R84, R85). -/
def Obligations.ZoneStartsAndStops : Prop :=
  ∀ (s : State) (tag zone : Byte), s.ready →
    (ofNum 4 zone.toNat = none →
      exec (.zoneStart tag [zone]) s = .next (s.answered tag .zoneStart (Answer.refuse .range [])) ∧
      exec (.zoneStop tag [zone]) s = .next (s.answered tag .zoneStop (Answer.refuse .range []))) ∧
    (∀ z, ofNum 4 zone.toNat = some z →
      let x := s.zone z
      (x.state ≠ .off →
        exec (.zoneStart tag [zone]) s = .next (s.answered tag .zoneStart (Answer.refuse .state []))) ∧
      (x.state = .off → x.active = none →
        exec (.zoneStart tag [zone]) s = .next (s.answered tag .zoneStart (Answer.refuse .range []))) ∧
      (x.state = .off → x.active ≠ none → x.causes.isEmpty = false →
        exec (.zoneStart tag [zone]) s = .next
          (s.answered tag .zoneStart (Answer.refuse .cause (u8 x.causes.bits)))) ∧
      (∀ p g gs, x.state = .off → x.active = some p → p.segments = g :: gs → x.causes.isEmpty = true →
        exec (.zoneStart tag [zone]) s = .next
          ((s.setZone z
            { x with
              state := .run
              setpoint := if g.rate = 0 then some g.target else x.air
              player := some
                { segment := 1, sub := if g.rate = 0 ∨ x.air = some g.target then .hold else .ramp, hold := 0 }
              acc := 0, prevDuty := 0, duty := 0, pendingDuty := none, heater := .off, onEnd := none
              control := some (s.now + 2000#32)
              periodEnd := some (s.now + BitVec.ofNat 32 x.settings.pwmMs) }).answered tag .zoneStart
            (Answer.accept []))) ∧
      (x.state ≠ .run →
        exec (.zoneStop tag [zone]) s = .next (s.answered tag .zoneStop (Answer.refuse .state []))) ∧
      (x.state = .run →
        exec (.zoneStop tag [zone]) s = .next
          ((s.setZone z
            { x with
              state := .off, heater := .off, control := none, periodEnd := none, onEnd := none, duty := 0,
              prevDuty := 0, acc := 0, pendingDuty := none, player := none, setpoint := none,
              active := x.staged.or x.active, staged := none, trip := none, grace := none }).answered tag .zoneStop
            (Answer.accept []))))

/-- ZONE settings (R88) and PROFILE LOAD (R80, R81), with their replies: each setting clamped to its range and in
force at once; a profile active in OFF, entered at segment 1 where the player is FINISHED, and staged otherwise. A
reply is ACCEPTED, or ACCEPTED_CLAMPED with the request as taken (R190, R203). A zone outside 1 to 4, and a count
outside 1 to 16, is refused with RANGE. -/
def Obligations.ZoneTablesTaken : Prop :=
  ∀ (s : State) (tag zone : Byte), s.ready →
    (∀ kp ki w1 w0 f1 f0 t1 t0 g : Byte,
      let body := [zone, kp, ki, w1, w0, f1, f0, t1, t0, g]
      let w := w1.toNat * 256 + w0.toNat
      let f := f1.toNat * 256 + f0.toNat
      let t := t1.toNat * 256 + t0.toNat
      let x : ZoneSettings :=
        { kp := kp.toNat, ki := ki.toNat, pwmMs := max 250 (min 4000 w), fanMin := max 0 (min 9000 f),
          tripLimit := max 300 (min 1200 t), graceMin := max 0 (min 60 g.toNat) }
      (ofNum 4 zone.toNat = none →
        exec (.zoneSettings tag body) s = .next (s.answered tag .zoneSettings (Answer.refuse .range []))) ∧
      (∀ z, ofNum 4 zone.toNat = some z → exec (.zoneSettings tag body) s = .next
        ((s.setZone z { s.zone z with settings := x }).answered tag .zoneSettings
          (if 250 ≤ w ∧ w ≤ 4000 ∧ f ≤ 9000 ∧ 300 ≤ t ∧ t ≤ 1200 ∧ g.toNat ≤ 60 then Answer.accept []
          else
            { body := [2, zone, kp, ki] ++ u16 x.pwmMs ++ u16 x.fanMin ++ u16 x.tripLimit ++ u8 x.graceMin
              after := .nothing })))) ∧
    (∀ (sent : List Segment) (loop : Byte),
      (∀ g ∈ sent, g.target ≤ 65535 ∧ g.rate ≤ 65535 ∧ g.hold ≤ 65535) → sent.length < 256 →
      let count : Byte := BitVec.ofNat 8 sent.length
      let body := zone :: count :: loop :: (sent.map Segment.bytes).flatten
      let taken := sent.map fun g => ({ target := min 1500 g.target, rate := min 500 g.rate, hold := g.hold } : Segment)
      (ofNum 4 zone.toNat = none ∨ sent.length = 0 ∨ 16 < sent.length →
        exec (.profileLoad tag body) s = .next (s.answered tag .profileLoad (Answer.refuse .range []))) ∧
      (∀ z, ofNum 4 zone.toNat = some z → 1 ≤ sent.length → sent.length ≤ 16 →
        let p : Profile := { segments := taken, loop := loop != 0 }
        let x := s.zone z
        let y : Zone :=
          if x.state = .off then { x with active := some p }
          else if x.player.map (·.sub) = some .finished then { x with active := some p }.enterSegment 1
          else { x with staged := some p }
        exec (.profileLoad tag body) s = .next ((s.setZone z y).answered tag .profileLoad
          (if taken = sent then Answer.accept []
          else
            { body := [2, zone, count, if loop = 0 then 0 else 1] ++ (taken.map Segment.bytes).flatten
              after := .nothing })))) ∧
    (∀ (count loop : Byte) (rest : List Byte), rest.length ≠ 6 * count.toNat →
      exec (.profileLoad tag (zone :: count :: loop :: rest)) s = .next
        (s.answered tag .profileLoad (Answer.refuse .length [])))

/-! ## Dose -/

/-- The dose minute tick (R97, R99 to R102, R39 to R41, R45, R83), where every slot off its link for a CYCLE step is
at one: a slot in RUNNING with its power on is credited by the table in force from its drive's temperature while that
is fresh, else from the air; every other slot keeps its record. After the credit the step clock rises in RUNNING, with
power on at a step that has been entered or in the OFF phase of a CYCLE step, and a SOAK step that has its target, or
else a step at its time limit, ends; every other slot stays as it is. Every zone in RUN steps its player: a ramp lands
on its target, and a hold that has its time comes to the segment boundary. The tick's clock less 60 seconds is the
model's (log entry 4). -/
def Obligations.MinuteTickCredits : Prop :=
  ∀ s : State, (∀ i, (s.slot i).cycleOffLink = true → ∃ off, s.currentStep i = some (.cycle off)) →
    ∃ u : State, exec .doseMinuteTick s = .next u.finish ∧
      State.sameBeyondSlots { s with clock := u.clock, zones := u.zones, doses := u.doses } u ∧
      u.clock = { s.clock with ofMinute := s.clock.ofMinute - 60 } ∧
      (∀ i, ¬ ((s.slot i).state = .running ∧ (s.slot i).power = .on) → u.dose i = s.dose i) ∧
      (∀ i, (s.slot i).state = .running → (s.slot i).power = .on →
        let d := s.dose i
        let zone := s.zone (shelfOf i)
        let found : DoseSource × Option Nat :=
          match (s.linkSlot i).last with
          | some x =>
            if (s.now - x.time).toNat ≤ 120000 then (.drive, some (x.temp * 10))
            else if zone.sensor = .good then (.air, zone.air) else (.none, none)
          | none => if zone.sensor = .good then (.air, zone.air) else (.none, none)
        let band : Option Nat :=
          found.2.bind fun t =>
            if t < s.doseTable.base then none else some (min 15 ((t - s.doseTable.base) / 20))
        let weight := match band with | some b => s.doseTable.weights.toList.getD b 0 | none => 0
        let acc := min 1048575 (d.acc + weight)
        u.dose i =
          { acc := acc, source := some found.1, temp := found.2, band := band, credit := acc - d.acc
            airMinutes := if found.1 = .air then min 65535 (d.airMinutes + 1) else d.airMinutes
            uncredited := if acc - d.acc = 0 then min 65535 (d.uncredited + 1) else d.uncredited
            saturated := d.saturated || decide (1048575 < d.acc + weight) }) ∧
      (∀ i,
        let r := s.slot i
        let acc := (u.dose i).acc
        let clock := min 65535 (r.stepClock + 1)
        let clocked : SlotRec := { r with stepClock := clock }
        (¬ (r.state = .running ∧ ((r.power = .on ∧ r.stepEntered = true) ∨ r.cyclePhase = some .off)) →
          u.slot i = r) ∧
        (r.state = .running → ((r.power = .on ∧ r.stepEntered = true) ∨ r.cyclePhase = some .off) →
          ((s.currentStep i).bind PlanStep.limits = none → u.slot i = clocked) ∧
          (∀ y target limit act, s.currentStep i = some y → y.limits = some (target, limit, act) →
            let met : Prop := y.isExercise = false ∧ target.getD 0 ≤ acc - r.doseStart
            (met → s.advancedFrom u i acc) ∧
            (¬ met → clock < limit → u.slot i = clocked) ∧
            (¬ met → limit ≤ clock → act = .fail →
              (u.slot i).state = .ending ∧ (u.slot i).run.endCause = some .stepLimit ∧ (u.slot i).plan = none ∧
                ∃ op ∈ (u.link (shelfOf i)).summary, op.slot = i) ∧
            (¬ met → limit ≤ clock → act = .continue →
              (u.slot i).run.deficit = min 1048575 (r.run.deficit + (target.getD 0 - (acc - r.doseStart))) ∧
                s.advancedFrom u i acc)))) ∧
      (∀ z, (s.zone z).state ≠ .run → u.zone z = s.zone z) ∧
      (∀ z p w g c, (s.zone z).state = .run → (s.zone z).active = some p → (s.zone z).player = some w →
        p.segments[w.segment - 1]? = some g → (s.zone z).setpoint = some c →
        (w.sub = .ramp → c + g.rate < g.target → u.zone z = { s.zone z with setpoint := some (c + g.rate) }) ∧
        (w.sub = .ramp → g.target + g.rate < c → u.zone z = { s.zone z with setpoint := some (c - g.rate) }) ∧
        (w.sub = .ramp → g.target ≤ c + g.rate → c ≤ g.target + g.rate →
          let landed : Zone :=
            { s.zone z with setpoint := some g.target, player := some { w with sub := .hold, hold := 0 } }
          u.zone z = if g.hold = 0 then landed.boundary else landed) ∧
        (w.sub = .hold →
          let held : Zone := { s.zone z with player := some { w with hold := min 65535 (w.hold + 1) } }
          u.zone z = if g.hold ≤ min 65535 (w.hold + 1) then held.boundary else held) ∧
        (w.sub = .finished → u.zone z = s.zone z))

/-! ## Watch rules -/

/-- When a rule matches (R108, R109), and which rule wins, the one with the lowest number (R112). -/
def Obligations.WatchRuleMatches : Prop :=
  (∀ (r : WatchRule) (prior current : FaultWord),
    let holds (n : Fin 16) : Prop :=
      match r.specs[n] with
      | .ignore => False
      | .set => current.getLsbD n.val = true
      | .clear => current.getLsbD n.val = false
      | .changed => prior.getLsbD n.val ≠ current.getLsbD n.val
      | .rose => prior.getLsbD n.val = false ∧ current.getLsbD n.val = true
      | .fell => prior.getLsbD n.val = true ∧ current.getLsbD n.val = false
    r.isMatch prior current = true ↔
      r.enabled = true ∧ (∃ n : Fin 16, r.specs[n] ≠ .ignore) ∧
        (match r.mode with
          | .all => ∀ n : Fin 16, r.specs[n] ≠ .ignore → holds n
          | .any => ∃ n : Fin 16, r.specs[n] ≠ .ignore ∧ holds n)) ∧
  (∀ (s : State) (prior current : FaultWord) (n : RuleNo),
    s.winner prior current = some n ↔
      (s.rules[n]).isMatch prior current = true ∧ ∀ m : RuleNo, m < n → (s.rules[m]).isMatch prior current = false)

/-- What a winning rule does at a good STATUS reply in RUNNING or REVIEW, of a drive on its link (R112, R114 to R117,
R21, R113). An EMPTY latch takes the rule, its action and class, the rack time and the fault word, a WATCH notice
FILLED is queued, and SC acts: NOTE does no more, SUSPEND takes RUNNING to REVIEW with HALT asked for and leaves
REVIEW, REJECT ends the run WATCH_REJECT with the rule's class. A FULL latch is overwritten by a REJECT alone, with the
repeat flag set, an OVERWRITTEN notice and the run's end; by another action it gets its repeat flag and a REPEAT notice
once, and is left alone after that. The word becomes the prior one. A drive that is FAILED in the same reply ends its
run DRIVE_FAILED after that, out of the REVIEW of a SUSPEND too, but for a REJECT, which stands (R70, R116); with any
other drive state a slot still in RUNNING goes on to its step's test. -/
def Obligations.WatchActionsTaken : Prop :=
  ∀ (s : State) (l : ShelfNo) (i : SlotNo) (e : Time) (d : DriveState) (n : RuleNo)
    (st phase progress temp g1 g0 p1 p0 f1 f0 : Byte),
    (s.link l).outstanding = some { slot := i, request := .status, expiry := e, spoiled := false } →
    Time.passed s.now e = false → readDriveState st = some d → phase.toNat ≤ 15 →
    ((s.slot i).state = .running ∨ (s.slot i).state = .review) → (s.slot i).cycleOffLink = false →
    let x : LastStatus :=
      { state := d, phase := phase.toNat, progress := min 100 progress.toNat, temp := min 150 temp.toNat,
        grown := g1.toNat * 256 + g0.toNat, pending := p1.toNat * 256 + p0.toNat,
        fault := BitVec.ofNat 16 (f1.toNat * 256 + f0.toNat), time := s.now }
    s.winner (s.watch i).prior x.fault = some n →
    let c := Instr.statusReply l (replyFrame 0x14 st [phase, progress, temp, g1, g0, p1, p0, f1, f0])
    let r := s.rules[n]
    let taken (again : Bool) : WatchLatch :=
      { rule := n, action := r.action, cls := r.cls, stamp := s.line.rackTime, snapshot := x.fault, again := again }
    let latched (w : WatchLatch) : State := (s.statusStored l i x).setWatch i { prior := x.fault, latch := some w }
    let noted (w : WatchLatch) (event : WatchEvent) (hit : Option (RuleNo × WatchAction × FaultWord)) : State :=
      (latched w).notify (.watch i event (s.slot i).run.runCount w hit)
    let checked (u : State) : State := if d = .failed then u.runEnded i .driveFailed else u
    let tested (u : State) : State :=
      if d ≠ .failed ∧ (s.slot i).state = .running then u.testReply i x else checked u
    ((s.watch i).latch = none →
      let u := noted (taken false) .filled none
      (r.action = .note → exec c s = .next (tested u).finish) ∧
      (r.action = .suspend →
        ((s.slot i).state = .review → exec c s = .next (checked u).finish) ∧
        ((s.slot i).state = .running →
          exec c s = .next
            (checked (((u.setSlot i { u.slot i with state := .review, hold := none }).notify
              (.slotState i .review .running (s.slot i).run.endCause none)).askLink i .halt .plain)).finish)) ∧
      (∀ k, r.action = .reject → r.cls = some k → exec c s = .next (u.runEnded i (.watchReject k)).finish)) ∧
    (∀ old, (s.watch i).latch = some old →
      (∀ k, r.action = .reject → r.cls = some k →
        exec c s = .next ((noted (taken true) .overwritten none).runEnded i (.watchReject k)).finish) ∧
      (r.action ≠ .reject → old.again = false →
        exec c s = .next
          (tested (noted { old with again := true } .again (some (n, r.action, x.fault)))).finish) ∧
      (r.action ≠ .reject → old.again = true → exec c s = .next (tested (latched old)).finish))

/-- The current step's test at a good STATUS reply in RUNNING of a drive that has not failed, where no watch rule wins
(R40, R42, R44, R45, R49). BASELINE writes the base and is done. EXERCISE, its phase armed and the drive DONE with
that phase, is done with its dose target met, or without one, and else asks for PHASE START again. SOAK is done once
it has its target, CYCLE in REJOINING at once. A step that is done lets the plan advance (R38, R46), and one that is
not leaves the slot where it is. -/
def Obligations.StepProgressAtReply : Prop :=
  ∀ (s : State) (l : ShelfNo) (i : SlotNo) (e : Time) (d : DriveState) (y : PlanStep)
    (st phase progress temp g1 g0 p1 p0 f1 f0 : Byte),
    (s.link l).outstanding = some { slot := i, request := .status, expiry := e, spoiled := false } →
    Time.passed s.now e = false → readDriveState st = some d → d ≠ .failed → phase.toNat ≤ 15 →
    (s.slot i).state = .running → (s.slot i).cycleOffLink = false → s.currentStep i = some y →
    let x : LastStatus :=
      { state := d, phase := phase.toNat, progress := min 100 progress.toNat, temp := min 150 temp.toNat,
        grown := g1.toNat * 256 + g0.toNat, pending := p1.toNat * 256 + p0.toNat,
        fault := BitVec.ofNat 16 (f1.toNat * 256 + f0.toNat), time := s.now }
    s.winner (s.watch i).prior x.fault = none →
    let c := Instr.statusReply l (replyFrame 0x14 st [phase, progress, temp, g1, g0, p1, p0, f1, f0])
    let u := (s.statusStored l i x).setWatch i { prior := x.fault, latch := (s.watch i).latch }
    let got := (s.dose i).acc - (s.slot i).doseStart
    let done (v : State) : Prop :=
      s.sameBeyondSlots v ∧ v.watch i = u.watch i ∧ v.linkSlot i = u.linkSlot i ∧
        (∀ j, j ≠ i → v.slot j = s.slot j) ∧ s.advancedFrom v i (s.dose i).acc
    (y = .baseline → ∃ v : State, exec c s = .next v.finish ∧ done v ∧ (v.slot i).run.base = some x.grown) ∧
    (∀ k target limit act, y = .exercise k target limit act →
      ((s.slot i).phaseArmed = true → d = .done → x.phase = k →
        ((∀ t, target = some t → t ≤ got) → ∃ v : State, exec c s = .next v.finish ∧ done v) ∧
        (∀ t, target = some t → got < t →
          exec c s = .next
            ((u.setSlot i { u.slot i with phaseArmed := false }).askLink i (.phaseStart k)
              (.step (s.slot i).stepEntry)).finish)) ∧
      (¬ ((s.slot i).phaseArmed = true ∧ d = .done ∧ x.phase = k) → exec c s = .next u.finish)) ∧
    (∀ target limit act, y = .soak target limit act →
      (target ≤ got → ∃ v : State, exec c s = .next v.finish ∧ done v) ∧
      (got < target → exec c s = .next u.finish)) ∧
    (∀ off, y = .cycle off →
      ((s.slot i).cyclePhase = some .rejoining → ∃ v : State, exec c s = .next v.finish ∧ done v) ∧
      ((s.slot i).cyclePhase ≠ some .rejoining → exec c s = .next u.finish))

/-! ## Grading and sorting -/

/-- The verdict (R124 to R130): a fault cause sorts by its fault table entry and is never scored; a completed run with
its summary gets the score 1000 less its penalty, or 0, and the bin of the first band at or below it; every other end
gets bin 0 with neither. A barred bin becomes 0. With a score SU reports the band, the inputs and the terms, with a
barred bin the bin it replaced, and the count regressed flag where the final defects are below the base (R126, R131).
SC queues RUN_END with all of it, keeps the verdict, and takes the slot to GRADED with an EXTRACT order to the bin's
lane, or to HELD for the bar or for the verdict (R20, R123). The order's age is the model's (log entry 15), and so is
that the order is queued also where the slot's old one is still current in CONFIRMING (log entry 49). -/
def Obligations.VerdictByFaultOrScore : Prop :=
  ∀ (t : SortTables) (run : RunRec) (spin : SpinRec) (misses : Nat),
    let j := judge t run spin misses
    let v := j.verdict
    let bar (b : Bin) : Bin × Bool :=
      match ofNum 12 b.val with
      | some n => if t.barred[n] then (0, true) else (b, false)
      | none => (b, false)
    let replaced (b : Bin) : Option Bin := if (bar b).2 then some b else none
    (∀ k : WatchClass, run.endCause = some (.watchReject k) →
      v = { bin := (bar t.faults[k.val]).1, score := none, fault := some ⟨k.val, by omega⟩,
            bar := (bar t.faults[k.val]).2 } ∧
        j.replaced = replaced t.faults[k.val] ∧ j.detail = none ∧ j.regressed = false) ∧
    (∀ (c : EndCause) (e : FaultEntry),
      (c, e) ∈ [(.driveFailed, 7), (.stepLimit, 8), (.silent, 9), (.noSpin, 10), (.overcurrent, 11)] →
      run.endCause = some c →
      v = { bin := (bar t.faults[e]).1, score := none, fault := some e, bar := (bar t.faults[e]).2 } ∧
        j.replaced = replaced t.faults[e] ∧ j.detail = none ∧ j.regressed = false) ∧
    (∀ x, (run.endCause = some .complete ∨ run.endCause = some .hostEnd) → run.summaryMissing = false →
      run.summary = some x →
      let w := t.weights
      let g := match run.base.or run.fallback with | some b => (x.grown - b) + x.pending | none => x.pending
      let drift := if 2 ≤ spin.count then spin.worst.getD 0 - spin.first.getD 0 else 0
      let penalty := g * w.wd + drift * w.ws / 16 + run.deficit * w.wu / 64 + misses * w.wm / 8 +
        (w.floor - weakest x.margins) * w.wh
      v.score = some (1000 - penalty) ∧ v.fault = none ∧
        j.regressed = (match run.base.or run.fallback with | some b => decide (x.grown < b) | none => false) ∧
        (∀ before b after, t.map = before ++ b :: after → (∀ y ∈ before, 1000 - penalty < y.lower) →
          b.lower ≤ 1000 - penalty → v.bin = (bar b.bin).1 ∧ v.bar = (bar b.bin).2 ∧ j.replaced = replaced b.bin ∧
            j.detail = some
              { band := before.length + 1, g := g, s := drift, u := run.deficit, m := misses, h := weakest x.margins,
                pd := g * w.wd, ps := drift * w.ws / 16, pu := run.deficit * w.wu / 64, pm := misses * w.wm / 8,
                ph := (w.floor - weakest x.margins) * w.wh, penalty := penalty, score := 1000 - penalty })) ∧
    (run.endCause = none ∨ run.endCause = some .zoneTrip ∨ run.endCause = some .abort ∨ run.endCause = some .removed ∨
        ((run.endCause = some .complete ∨ run.endCause = some .hostEnd) ∧
          (run.summaryMissing = true ∨ run.summary = none)) →
      v = { bin := 0, score := none, fault := none, bar := false } ∧ j.replaced = none ∧ j.detail = none ∧
        j.regressed = false) ∧
    (∀ n, v.score = some n → n ≤ 1000 ∧ v.fault = none) ∧
    ∀ (s : State) (i : SlotNo), s.sort = t → (s.slot i).run = run → (s.slot i).spin = spin →
      (s.linkSlot i).total = misses →
      let told : RunRec := { run with countRegressed := run.countRegressed || j.regressed }
      let u := (s.setSlot i { s.slot i with run := told }).notify (.runEnd i told v j.replaced j.detail)
      let kept : RunRec := { told with verdict := some v }
      (∀ b : LaneNo, v.bin.val = b.val + 1 →
        s.verdict i =
          ((u.setSlot i { s.slot i with state := .graded, hold := none, run := kept }).notify
            (.slotState i .graded (s.slot i).state run.endCause none)).setPort
              { s.port with
                queue := s.port.queue ++
                  [{ kind := .extract b, slot := i, number := s.port.nextNumber, age := s.port.joined }]
                nextNumber := if 65535 ≤ s.port.nextNumber then 1 else s.port.nextNumber + 1
                joined := s.port.joined + 1 }) ∧
      (v.bin.val = 0 →
        let why : HoldReason := if v.bar then .barred else .verdict
        s.verdict i =
          (u.setSlot i { s.slot i with state := .held, hold := some why, run := kept }).notify
            (.slotState i .held (s.slot i).state run.endCause (some why)))

/-- The table loads (R105, R118, R132, R133, R134) replace their table whole, at once, or are refused, and WATCH CLEAR
(R120) empties the latch, reports it as it stood, and keeps the prior fault word. The class byte of a rule in the WATCH
LOAD reply, and the layout of the latch in the WATCH CLEAR reply, are the model's choices (log entries 42, 43). -/
def Obligations.TableLoadsReplaceWhole : Prop :=
  ∀ (s : State) (tag : Byte), s.ready →
    (∀ d p u m h f : Byte,
      exec (.weightsLoad tag [d, p, u, m, h, f]) s = .next
        (({ s with
          sort := { s.sort with
            weights :=
              { wd := d.toNat, ws := p.toNat, wu := u.toNat, wm := m.toNat, wh := h.toNat, floor := f.toNat } } } :
          State).answered tag .weightsLoad (Answer.accept [d, p, u, m, h, f]))) ∧
    (∀ body : List Byte, body.length ≠ 6 →
      exec (.weightsLoad tag body) s = .next (s.answered tag .weightsLoad (Answer.refuse .length []))) ∧
    (∀ t : Vector Bin 12,
      exec (.faultTableLoad tag (t.toList.map fun b => BitVec.ofNat 8 b.val)) s = .next
        (({ s with sort := { s.sort with faults := t } } : State).answered tag .faultTableLoad
          (Answer.accept (t.toList.map fun b => BitVec.ofNat 8 b.val)))) ∧
    (∀ body : List Byte, body.length ≠ 12 →
      exec (.faultTableLoad tag body) s = .next (s.answered tag .faultTableLoad (Answer.refuse .length []))) ∧
    (∀ (body : List Byte) (b : Byte), body.length = 12 → b ∈ body → 12 < b.toNat →
      exec (.faultTableLoad tag body) s = .next (s.answered tag .faultTableLoad (Answer.refuse .range []))) ∧
    (∀ m : List Band, 1 ≤ m.length → m.length ≤ 8 → (∀ b ∈ m, b.lower ≤ 65535) →
      (((∀ b ∈ m, b.lower ≤ 1000) ∧ m.Pairwise (fun a b => b.lower < a.lower) ∧ m.getLast?.map (·.lower) = some 0) →
        exec (.gradeMapLoad tag (bandsBytes m)) s = .next
          (({ s with sort := { s.sort with map := m } } : State).answered tag .gradeMapLoad
            (Answer.accept (bandsBytes m)))) ∧
      (¬ ((∀ b ∈ m, b.lower ≤ 1000) ∧ m.Pairwise (fun a b => b.lower < a.lower) ∧
          m.getLast?.map (·.lower) = some 0) →
        exec (.gradeMapLoad tag (bandsBytes m)) s = .next
          (s.answered tag .gradeMapLoad (Answer.refuse .range [])))) ∧
    (∀ (ws : List Byte) (b1 b0 : Byte), ws.length = 16 → ∃ a,
      exec (.doseTableLoad tag (ws ++ [b1, b0])) s = .next
        (({ s with
          doseTable :=
            { weights := Vector.ofFn fun n => (ws.getD n.val 0).toNat,
              base := max 200 (min 800 (b1.toNat * 256 + b0.toNat)) } } : State).answered tag .doseTableLoad a) ∧
      (a.body.head? = some 1 ↔ 200 ≤ b1.toNat * 256 + b0.toNat ∧ b1.toNat * 256 + b0.toNat ≤ 800)) ∧
    (∀ body : List Byte, body.length ≠ 18 →
      exec (.doseTableLoad tag body) s = .next (s.answered tag .doseTableLoad (Answer.refuse .length []))) ∧
    (∀ body : List Byte, body.length ≠ 160 →
      exec (.watchLoad tag body) s = .next (s.answered tag .watchLoad (Answer.refuse .length []))) ∧
    (∀ rules : Vector WatchRule 8, (∀ n : Fin 8, ((rules[n]).action = .reject ↔ (rules[n]).cls ≠ none)) →
      exec (.watchLoad tag (rules.toList.map WatchRule.bytes).flatten) s = .next
        (({ s with rules := rules } : State).answered tag .watchLoad
          (Answer.accept (rules.toList.map WatchRule.bytes).flatten))) ∧
    (∀ slot : Byte, ofNum 40 slot.toNat = none →
      exec (.watchClear tag [slot]) s = .next (s.answered tag .watchClear (Answer.refuse .range []))) ∧
    (∀ (slot : Byte) (i : SlotNo), ofNum 40 slot.toNat = some i →
      exec (.watchClear tag [slot]) s = .next
        ((s.setWatch i { prior := (s.watch i).prior, latch := none }).answered tag .watchClear
          (Answer.accept (latchBytes (s.watch i).latch))))

/-- BIN BAR (R136, R137) and BIN UNBAR (R138): the bar flag set, the bin's queued EXTRACT orders withdrawn and their
slots taken to HELD with their verdicts kept, every other slot left alone; the bar flag cleared, and no slot moved. That
a bar of a bin already BARRED lists the current order's slot, which R136's last sentence speaks against, is the model's
choice (log entry 46). -/
def Obligations.BinBarsSetAndCleared : Prop :=
  ∀ (s : State) (tag bin : Byte), s.ready →
    (ofNum 12 bin.toNat = none →
      exec (.binBar tag [bin]) s = .next (s.answered tag .binBar (Answer.refuse .range [])) ∧
      exec (.binUnbar tag [bin]) s = .next (s.answered tag .binUnbar (Answer.refuse .range []))) ∧
    (∀ b : LaneNo, ofNum 12 bin.toNat = some b →
      let slots := (s.port.queue.filter fun o => o.kind = .extract b).map (·.slot)
      (∃ u : State,
        exec (.binBar tag [bin]) s = .next (u.answered tag .binBar
          (Answer.accept ([bin] ++ counted (slots.map fun i => [BitVec.ofNat 8 (i.val + 1)]) ++
            opt8 ((s.currentTo b).map fun i => i.val + 1)))) ∧
        State.sameBeyondSlots { s with sort := { s.sort with barred := s.sort.barred.set b true } } u ∧
        u.port.queue = s.port.queue.filter (fun o => o.slot ∉ slots) ∧
        (∀ i ∈ slots, u.slot i = { s.slot i with state := .held, hold := some .withdrawn }) ∧
        (∀ i, i ∉ slots → u.slot i = s.slot i)) ∧
      exec (.binUnbar tag [bin]) s = .next
        (({ s with sort := { s.sort with barred := s.sort.barred.set b false } } : State).answered tag .binUnbar
          (Answer.accept [bin])))

/-! ## The handler port -/

/-- Which orders are eligible (R147, R148), and what ORDER_DISPATCH and a rise of READY do in IDLE (R149 to R151): the
oldest eligible EXTRACT goes first, until four have gone before a waiting INSERT. A dispatch makes the order current
and starts the deskew; with a deskew of 0 OFFER rises in the same event, and an ACCEPT still high is taken. An EXTRACT
reserves its manifest entries and unlatches its slot. ORDER_DISPATCH as one more run of the arbiter, with nothing
eligible too, and the rise of READY as the same, are the model's reading (log entry 7). The oldest eligible order of a
kind is the first one of that kind in the queue that is eligible. -/
def Obligations.ArbiterDispatches : Prop :=
  ∀ s : State,
    (∀ o : Order, s.eligible o = true ↔
      s.port.readyLine = true ∧ s.port.state ≠ .fault ∧
        (match o.kind with
          | .extract b =>
            (s.carton b).state = .opened ∧
              (if (s.carton b).fill + 1 = (s.carton b).capacity then 2 else 1) ≤ s.ring.free
          | .insert =>
            (s.slot o.slot).state = .loadWait ∧ (s.slot o.slot).seatStable = .opened ∧
              (s.slot o.slot).debounce = none)) ∧
    exec .handlerReadyRise s = exec .orderDispatch (s.setPort { s.port with readyLine := true }) ∧
    (∃ t : State, exec .handlerReadyRise s = .next t ∧ t.port.readyLine = true) ∧
    (s.port.state = .idle →
      let oldest (insert : Bool) (o : Order) : Prop :=
        (o.kind = .insert ↔ insert = true) ∧ s.eligible o = true ∧
          ∃ before after, s.port.queue = before ++ o :: after ∧
            ∀ x ∈ before, (x.kind = .insert ↔ insert = true) → s.eligible x = false
      let noneOf (insert : Bool) : Prop :=
        ∀ x ∈ s.port.queue, (x.kind = .insert ↔ insert = true) → s.eligible x = false
      (s.port.settings.deskew ≠ 0 ∨ s.port.acceptLine = false ∨ s.port.settings.mode = .strobed ∨
        (s.port.doneLine = false ∧ s.port.failLine = false)) →
      let dispatched (o : Order) (streak : Nat) : Port :=
        let p : Port :=
          { s.port with
            queue := s.port.queue.filter (·.slot ≠ o.slot)
            current := some { order := o, settings := s.port.settings }, streak := streak }
        if s.port.settings.deskew ≠ 0 then
          { p with
            state := .deskew
            timer := some { kind := .deskew, expiry := s.now + BitVec.ofNat 32 s.port.settings.deskew } }
        else if s.port.acceptLine then
          { p with
            state := .inFlight, acceptTimeouts := 0
            timer := some
              { kind := .completion, expiry := s.now + BitVec.ofNat 32 (s.port.settings.completionS * 1000) } }
        else
          { p with
            state := .offered
            timer := some { kind := .accept, expiry := s.now + BitVec.ofNat 32 (s.port.settings.acceptS * 1000) } }
      (noneOf true → noneOf false →
        ∃ t : State, exec .orderDispatch s = .next t ∧ s.sameBeyondSlots t ∧
          t.port = { s.port with streak := 0 } ∧ t.slots = s.slots) ∧
      (∀ o, oldest true o → (noneOf false ∨ 4 ≤ s.port.streak) →
        ∃ t : State, exec .orderDispatch s = .next t ∧ s.sameBeyondSlots t ∧
          t.port = dispatched o 0 ∧ t.slots = s.slots) ∧
      (∀ o b streak, oldest false o → o.kind = .extract b →
        ((noneOf true ∧ streak = 0) ∨ (¬ noneOf true ∧ s.port.streak < 4 ∧ streak = s.port.streak + 1)) →
        ∃ t : State, exec .orderDispatch s = .next t ∧ State.sameBeyondSlots { s with ring := t.ring } t ∧
          t.port = dispatched o streak ∧
          t.slots = s.slots.set o.slot { s.slot o.slot with latch := .released, state := .unloading, hold := none } ∧
          t.ring =
            { s.ring with
              reservation := some
                { slot := o.slot, lane := b
                  entries := if (s.carton b).fill + 1 = (s.carton b).capacity then 2 else 1 } }))

/-- OFFER and ACCEPT (R151, R152). At the deskew's end OFFER rises and the accept timer runs; ACCEPT, high then or
later in OFFERED, takes the order in flight, with the accept timeout count 0 and the completion timer running. In any
other state ACCEPT only has its level. The outcome lines are low, or the mode STROBED (a line already high in
INTERLOCKED mode is log entry 23's). The end of an interlocked handshake (R156, R161): the drop of the outcome's line
takes the port from CONFIRMING to IDLE, the release timeout to FAULT with its notice; any other drop only has its
level. That the outcome's line alone ends it, with the other one high too, is the model's choice (log entry 60). With
the handshake the extraction ends too, and a close held for it since its outcome is taken up (R142, R170; log entry
22), with its notices before the port's own one at the release timeout (log entry 62). -/
def Obligations.HandshakeFollowsLines : Prop :=
  ∀ s : State,
    let low (line : HandlerLine) : Port :=
      match line with
      | .ready => { s.port with readyLine := false }
      | .accept => { s.port with acceptLine := false }
      | .done => { s.port with doneLine := false }
      | .fail => { s.port with failLine := false }
    (s.port.state ≠ .offered →
      exec .handlerAccept s = .next (s.setPort { s.port with acceptLine := true })) ∧
    (∀ c, s.port.current = some c →
      (c.settings.mode = .strobed ∨ (s.port.doneLine = false ∧ s.port.failLine = false)) →
      (s.port.state = .offered →
        exec .handlerAccept s = .next
          (s.setPort { s.port with
            acceptLine := true, state := .inFlight, acceptTimeouts := 0
            timer := some
              { kind := .completion
                expiry := s.now + BitVec.ofNat 32 (c.settings.completionS * 1000) } }).finish) ∧
      (s.port.state = .deskew → s.port.acceptLine = false →
        exec .deskewExpiry s = .next
          (s.setPort { s.port with
            state := .offered
            timer := some
              { kind := .accept, expiry := s.now + BitVec.ofNat 32 (c.settings.acceptS * 1000) } }).finish) ∧
      (s.port.state = .deskew → s.port.acceptLine = true →
        exec .deskewExpiry s = .next
          (s.setPort { s.port with
            state := .inFlight, acceptTimeouts := 0
            timer := some
              { kind := .completion
                expiry := s.now + BitVec.ofNat 32 (c.settings.completionS * 1000) } }).finish)) ∧
    (∀ line, s.port.state ≠ .confirming → exec (.handlerLineDrop line) s = .next (s.setPort (low line))) ∧
    (s.port.state = .confirming → ∀ c, s.port.current = some c →
      let ended (u : State) : State :=
        match c.order.kind with
        | .extract b =>
          if (s.carton b).state = .closing ∧ (s.carton b).pendingClose = true then u.takeUpClose b else u
        | .insert => u
      (∀ o : PortOutcome, s.port.outcome = some o →
        let line : HandlerLine := match o with | .done => .done | .fail => .fail
        exec (.handlerLineDrop line) s = .next
          (ended (s.setPort { low line with state := .idle, current := none, timer := none, outcome := none })).finish ∧
        (∀ other, other ≠ line → exec (.handlerLineDrop other) s = .next (s.setPort (low other)))) ∧
      exec .releaseTimeout s = .next
        (((ended s).setPort { s.port with
          state := .fault, current := none, timer := none, outcome := none, fault := some .releaseTimeout }).notify
          (.handlerPort .releaseTimeout c.order.slot c.order.number)).finish)

/-- DONE in IN_FLIGHT (R154, R155, R157): without the seat evidence the port waits for it in CHECKING, twice the
debounce time; with it an extraction is shipped, written to the manifest with the slot as it stood and the slot
emptied, and an insertion is SEATED and its run started. The handshake then ends by the mode (R156). That the emptied
slot keeps a running debounce is the model's (log entry 11). -/
def Obligations.DoneJudgedBySeat : Prop :=
  ∀ (s : State) (c : CurrentOrder), s.port.state = .inFlight → s.port.current = some c →
    ((c.settings.mode = .interlocked ∧ s.port.failLine = false) ∨
      (c.settings.mode = .strobed ∧ s.port.doneLine = false)) →
    let i := c.order.slot
    let ended (u : State) : Prop :=
      (c.settings.mode = .strobed → u.port.state = .idle ∧ u.port.current = none ∧ u.port.timer = none) ∧
        (c.settings.mode = .interlocked → u.port.state = .confirming ∧ u.port.outcome = some .done ∧
          u.port.timer = some
            { kind := .release, expiry := s.now + BitVec.ofNat 32 (c.settings.acceptS * 1000) })
    (s.evidence c.order = false →
      exec .handlerDone s = .next
        (s.setPort { s.port with
          doneLine := true, state := .checking, outcome := some .done
          timer := some
            { kind := .evidence, expiry := s.now + BitVec.ofNat 32 (2 * s.spin.debounceMs) } }).finish) ∧
    (∀ b, c.order.kind = .extract b → (s.slot i).seatStable = .opened →
      ∃ u : State, exec .handlerDone s = .next u.finish ∧ ended u ∧
        State.sameBeyondSlots
          { s with doses := s.doses.set i DoseRec.empty, ring := u.ring, cartons := u.cartons } u ∧
        u.slot i = SlotRec.empty (s.slot i).seatRaw .opened (s.slot i).debounce (s.slot i).stepEntry ∧
        u.ring.reservation = none ∧
        (∃ r ∈ u.ring.records, r.number = s.ring.next ∧ r.time = s.line.rackTime ∧
          r.body = (s.setCarton b { s.carton b with fill := (s.carton b).fill + 1 }).shipped i b) ∧
        u.ring = (s.countIn i b).ring ∧ u.cartons = (s.countIn i b).cartons) ∧
    (c.order.kind = .insert → (s.slot i).seatStable = .closed → s.overcurrent[i] = false →
      ∃ u : State, exec .handlerDone s = .next u.finish ∧ ended u ∧
        State.sameBeyondSlots
          { s with doses := if (s.slot i).plan = none then s.doses else s.doses.set i DoseRec.empty } u ∧
        (u.slot i).state = (if (s.slot i).plan = none then .seated else .powering) ∧
        (u.slot i).plan = (s.slot i).plan)

/-- FAIL, the end of the evidence time and the completion timeout (R154, R155, R158, R160): an extraction's latch is
engaged and its slot HELD for the reason, its verdict kept, or torn down where the drive has gone; an insertion's plan
is dropped, and its slot VACANT or SEATED by its seat. The completion timeout also puts the port in FAULT; the end of
the evidence time leaves CONFIRMING to an interlocked DONE that is still high, and IDLE otherwise (R156). That an
emptied slot keeps a running debounce is the model's (log entry 11). -/
def Obligations.OrdersEndUnconfirmed : Prop :=
  ∀ (s : State) (c : CurrentOrder) (e : Instr) (why : HoldReason), s.port.current = some c →
    ((e = .handlerFail ∧ why = .handlerFail ∧ s.port.state = .inFlight ∧
        (c.settings.mode = .interlocked ∨ s.port.failLine = false)) ∨
      (e = .evidenceTimeout ∧ why = .extractUnconfirmed ∧ s.port.state = .checking) ∨
      (e = .completionTimeout ∧ why = .handlerTimeout ∧ s.port.state = .inFlight)) →
    let i := c.order.slot
    ∃ u : State, exec e s = .next u.finish ∧
      State.sameBeyondSlots { s with doses := u.doses, ring := u.ring, cartons := u.cartons } u ∧
      (∀ j, j ≠ i → u.dose j = s.dose j ∧ ((s.slot i).permit = .none → u.slot j = s.slot j)) ∧
      (e = .completionTimeout → u.port.state = .fault ∧ u.port.fault = some .completionTimeout ∧
        u.port.current = none ∧ u.port.timer = none) ∧
      (e ≠ .completionTimeout → c.settings.mode = .strobed → u.port.state = .idle ∧ u.port.current = none) ∧
      (e = .handlerFail → c.settings.mode = .interlocked →
        u.port.state = .confirming ∧ u.port.outcome = some .fail) ∧
      (e = .evidenceTimeout → c.settings.mode = .interlocked →
        (s.port.doneLine = true → u.port.state = .confirming ∧ u.port.outcome = some .done ∧
          u.port.timer = some
            { kind := .release, expiry := s.now + BitVec.ofNat 32 (c.settings.acceptS * 1000) }) ∧
        (s.port.doneLine = false → u.port.state = .idle ∧ u.port.current = none ∧ u.port.timer = none)) ∧
      (∀ b, c.order.kind = .extract b → u.ring.reservation = none ∧
        u.ring = (s.endExtraction b).ring ∧ u.cartons = (s.endExtraction b).cartons ∧
        ((s.slot i).seatStable = .closed →
          u.slot i = { s.slot i with latch := .engaged, state := .held, hold := some why }) ∧
        ((s.slot i).seatStable = .opened →
          u.slot i = SlotRec.empty (s.slot i).seatRaw .opened (s.slot i).debounce (s.slot i).stepEntry)) ∧
      (c.order.kind = .insert → u.ring = s.ring ∧ u.cartons = s.cartons ∧
        (∀ p, (s.slot i).plan = some p → (u.plan p).refs = (s.plan p).refs - 1) ∧
        ((s.slot i).seatStable = .closed →
          u.slot i = { s.slot i with plan := none, state := .seated, hold := none }) ∧
        ((s.slot i).seatStable = .opened →
          u.slot i = SlotRec.empty (s.slot i).seatRaw .opened (s.slot i).debounce (s.slot i).stepEntry))

/-- The accept timeout (R153, R144, R23): the order returns to its place in the queue, an extraction's reservation is
released and its slot latched and GRADED again, or HELD where its bin is barred, or torn down to VACANT where the stable
seat is OPEN (R7). An INSERT whose slot's stable seat is CLOSED is withdrawn, and the slot goes to SEATED and starts its
run (R6). The third timeout in a row puts the port in FAULT. That the emptied slot keeps a running debounce is the
model's (log entry 11), and so are the ages of orders (log entry 15). -/
def Obligations.AcceptTimeoutReturnsOrder : Prop :=
  ∀ (s : State) (c : CurrentOrder), s.port.state = .offered → s.port.current = some c →
    let i := c.order.slot
    ∃ u : State, exec .acceptTimeout s = .next u.finish ∧
      u.port.acceptTimeouts = min 3 (s.port.acceptTimeouts + 1) ∧ u.port.current = none ∧ u.port.timer = none ∧
      u.port.state = (if 3 ≤ s.port.acceptTimeouts + 1 then .fault else .idle) ∧
      (3 ≤ s.port.acceptTimeouts + 1 → u.port.fault = some .acceptTimeouts) ∧
      State.sameBeyondSlots
        { s with
          ring := u.ring, cartons := u.cartons
          doses :=
            if (c.order.kind = .insert ∧ ((s.slot i).seatStable = .opened ∨ (s.slot i).plan = none)) ∨
                (c.order.kind ≠ .insert ∧ (s.slot i).seatStable = .closed) then s.doses
            else s.doses.set i DoseRec.empty } u ∧
      (c.order.kind = .insert → u.ring = s.ring ∧ u.cartons = s.cartons) ∧
      (∀ b, c.order.kind = .extract b →
        u.ring = (s.endExtraction b).ring ∧ u.cartons = (s.endExtraction b).cartons ∧ u.ring.reservation = none ∧
        ((s.slot i).seatStable = .closed → s.sort.barred[b] = true →
          u.slot i = { s.slot i with latch := .engaged, state := .held, hold := some .withdrawn } ∧
            (∀ o ∈ u.port.queue, o.slot ≠ i)) ∧
        ((s.slot i).seatStable = .closed → s.sort.barred[b] = false →
          u.slot i = { s.slot i with latch := .engaged, state := .graded, hold := none }) ∧
        ((s.slot i).seatStable = .opened →
          u.slot i = SlotRec.empty (s.slot i).seatRaw .opened (s.slot i).debounce (s.slot i).stepEntry ∧
            (u.link (shelfOf i)).knows i = false ∧ u.watch i = WatchRec.empty ∧ (u.linkSlot i).last = none ∧
            (∀ o ∈ u.port.queue, o.slot ≠ i) ∧
            ((s.slot i).permit = .none → u.port.queue = s.port.queue.filter (·.slot ≠ i)))) ∧
      (c.order.kind = .insert → (s.slot i).seatStable = .closed → s.overcurrent[i] = false →
        (u.slot i).state = (if (s.slot i).plan = none then .seated else .powering) ∧
          (u.slot i).plan = (s.slot i).plan ∧ (u.slot i).seatStable = .closed ∧
          (u.slot i).seatRaw = (s.slot i).seatRaw ∧ (u.slot i).debounce = (s.slot i).debounce ∧
          (∀ o ∈ u.port.queue, o.slot ≠ i) ∧
          ((s.slot i).plan = none ∨ (∀ j : SlotNo, s.overcurrent[j] = false) →
            u.port.queue = s.port.queue.filter (·.slot ≠ i))) ∧
      ((c.order.kind = .insert ∧ (s.slot i).seatStable = .opened) ∨
          (∃ b, c.order.kind = .extract b ∧ (s.slot i).seatStable = .closed ∧ s.sort.barred[b] = false) →
        ∃ before after, s.port.queue = before ++ after ∧ u.port.queue = before ++ c.order :: after ∧
          (∀ x ∈ before, x.age ≤ c.order.age) ∧ (∀ x, after.head? = some x → c.order.age < x.age))

/-- HANDLER RESET (R162): accepted in FAULT, where it clears the fault reason and the accept timeout count and takes
the port to IDLE, and refused with STATE elsewhere. HANDLER settings (R163): each time clamped to its range, and the
order that is current left with its own; the reply is ACCEPTED, or ACCEPTED_CLAMPED with the values taken (R190). -/
def Obligations.HandlerControlTaken : Prop :=
  ∀ (s : State) (tag : Byte), s.ready →
    (s.port.state ≠ .fault →
      exec (.handlerReset tag []) s = .next (s.answered tag .handlerReset (Answer.refuse .state []))) ∧
    (∀ why, s.port.state = .fault → s.port.fault = some why →
      exec (.handlerReset tag []) s = .next
        ((s.setPort { s.port with state := .idle, fault := none, acceptTimeouts := 0 }).answered tag .handlerReset
          (Answer.accept (u8 why.byte)))) ∧
    (∀ mode d a c1 c0 : Byte,
      (mode ≠ 1 → mode ≠ 2 →
        exec (.handlerSettings tag [mode, d, a, c1, c0]) s = .next
          (s.answered tag .handlerSettings (Answer.refuse .range []))) ∧
      (mode = 1 ∨ mode = 2 →
        let c := c1.toNat * 256 + c0.toNat
        let x : PortSettings :=
          { mode := if mode = 1 then .interlocked else .strobed, deskew := min 15 d.toNat,
            acceptS := max 1 (min 60 a.toNat), completionS := max 5 (min 300 c) }
        exec (.handlerSettings tag [mode, d, a, c1, c0]) s = .next
          ((s.setPort { s.port with settings := x }).answered tag .handlerSettings
            (if d.toNat ≤ 15 ∧ 1 ≤ a.toNat ∧ a.toNat ≤ 60 ∧ 5 ≤ c ∧ c ≤ 300 then Answer.accept []
            else { body := [2, mode] ++ u8 x.deskew ++ u8 x.acceptS ++ u16 x.completionS, after := .nothing }))))

/-! ## Cartons and the manifest -/

/-- The carton-present inputs (R167, R169): a rise in ABSENT, or in CHANGING after a drop, opens a new carton; a drop in
OPEN removes an empty carton, closes one that holds drives short into a free entry or waits for one, and is held while
the bin's extraction is current. Elsewhere the input only has its level. -/
def Obligations.CartonInputsTaken : Prop :=
  ∀ (s : State) (b : LaneNo),
    let c := s.carton b
    let opened (sequence : Nat) : Carton :=
      { c with
        sequence := sequence, fill := 0, capacity := c.staged.getD c.capacity, staged := none, state := .opened,
        present := true }
    let noted (x : Carton) (e : CartonEvent) : State := (s.setCarton b x).notify (.carton b e x none)
    (c.state = .absent → exec (.cartonPresentRise b) s = .next (noted (opened c.sequence) .opened).finish) ∧
    (c.state = .changing → c.present = false →
      exec (.cartonPresentRise b) s = .next
        (noted (opened (if 65535 ≤ c.sequence then 1 else c.sequence + 1)) .opened).finish) ∧
    (c.state = .opened ∨ c.state = .closing ∨ (c.state = .changing ∧ c.present = true) →
      exec (.cartonPresentRise b) s = .next (s.setCarton b { c with present := true }).finish) ∧
    (c.state ≠ .opened → exec (.cartonPresentDrop b) s = .next (s.setCarton b { c with present := false }).finish) ∧
    (c.state = .opened → s.extracting b = true →
      exec (.cartonPresentDrop b) s = .next
        (noted { c with present := false, state := .closing, pendingClose := true } .held).finish) ∧
    (c.state = .opened → s.extracting b = false → c.fill = 0 →
      exec (.cartonPresentDrop b) s = .next
        (noted { c with present := false, state := .absent, pendingClose := false } .removedEmpty).finish) ∧
    (c.state = .opened → s.extracting b = false → c.fill ≠ 0 → s.ring.free = 0 →
      exec (.cartonPresentDrop b) s = .next
        (noted { c with present := false, state := .closing, pendingClose := false } .awaitingSpace).finish) ∧
    (c.state = .opened → s.extracting b = false → c.fill ≠ 0 → s.ring.free ≠ 0 →
      ∃ u : State, exec (.cartonPresentDrop b) s = .next u.finish ∧
        u.carton b =
          { c with
            present := false, state := .absent, pendingClose := false, fill := 0
            sequence := if 65535 ≤ c.sequence then 1 else c.sequence + 1 } ∧
        u.ring.records = s.ring.records ++
          [{ number := s.ring.next, time := s.line.rackTime
             body := .carton { lane := b, sequence := c.sequence, count := c.fill, short := true } }] ∧
        u.ring.next = (if 4294967295 ≤ s.ring.next then 1 else s.ring.next + 1))

/-- BIN CONFIG (R172) and MANIFEST RELEASE (R180), with their replies (R190, R203): the capacity staged and the next
carton's number set in ABSENT; the record named and every older one removed, the threshold changed, the high-water state
judged (R181), and the freed entries served (R178), which does nothing with no bin waiting for space; each refused whole
otherwise. Nothing else changes. That the MANIFEST RELEASE reply carries the ring values with a count byte of 0, and
the sizes of its fields, are the model's choices (log entries 30, 16). -/
def Obligations.BinsAndRingConfigured : Prop :=
  ∀ (s : State) (tag : Byte), s.ready →
    (∀ bin cap has n1 n0 : Byte,
      (ofNum 12 bin.toNat = none ∨ 2 ≤ has.toNat →
        exec (.binConfig tag [bin, cap, has, n1, n0]) s = .next
          (s.answered tag .binConfig (Answer.refuse .range []))) ∧
      (∀ b, ofNum 12 bin.toNat = some b →
        let staged := max 1 (min 60 cap.toNat)
        let n := n1.toNat * 256 + n0.toNat
        let reply (number : List Byte) : Answer :=
          if 1 ≤ cap.toNat ∧ cap.toNat ≤ 60 then Answer.accept []
          else { body := [2, bin] ++ u8 staged ++ number, after := .nothing }
        (has = 0 → exec (.binConfig tag [bin, cap, has, n1, n0]) s = .next
          ((s.setCarton b { s.carton b with staged := some staged }).answered tag .binConfig (reply [0, 0, 0]))) ∧
        (has = 1 → n = 0 →
          exec (.binConfig tag [bin, cap, has, n1, n0]) s = .next
            (s.answered tag .binConfig (Answer.refuse .range []))) ∧
        (has = 1 → n ≠ 0 → (s.carton b).state ≠ .absent →
          exec (.binConfig tag [bin, cap, has, n1, n0]) s = .next
            (s.answered tag .binConfig (Answer.refuse .state []))) ∧
        (has = 1 → n ≠ 0 → (s.carton b).state = .absent →
          exec (.binConfig tag [bin, cap, has, n1, n0]) s = .next
            ((s.setCarton b { s.carton b with staged := some staged, sequence := n }).answered tag .binConfig
              (reply [1, n1, n0]))))) ∧
    (∀ n3 n2 n1 n0 h1 h2 t1 t0 : Byte, (h1 = 0 ∨ h1 = 1) → (h2 = 0 ∨ h2 = 1) →
      let n := ((n3.toNat * 256 + n2.toNat) * 256 + n1.toNat) * 256 + n0.toNat
      let t := t1.toNat * 256 + t0.toNat
      let threshold := if h2 = 1 then max 1 (min 512 t) else s.ring.threshold
      let released (kept : List ManifestRec) : Prop :=
        let above := decide (threshold ≤ kept.length)
        let ring : Ring := { s.ring with records := kept, threshold := threshold, above := above }
        let judged := s.setRing ring
        let u := if above = true ∧ s.ring.above = false then
            judged.notify (.manifestHigh kept.length threshold ring.oldest ring.newest ring.reserved s.closingBins)
          else judged
        let removed := s.ring.records.length - kept.length
        exec (.manifestRelease tag [h1, n3, n2, n1, n0, h2, t1, t0]) s = .next
          (u.serveFreed.answered tag .manifestRelease
            { body :=
                (if h2 = 1 ∧ (t < 1 ∨ 512 < t) then
                  [2] ++ (if h1 = 1 then [1, n3, n2, n1, n0] else [0, 0, 0, 0, 0]) ++ [1] ++ u16 threshold
                else [1]) ++ u16 removed ++ u.serveFreed.ring.values 0
              after := .nothing }) ∧
        ((∀ b, (s.carton b).state = .closing → (s.carton b).pendingClose = true) → u.serveFreed = u)
      (h1 = 1 → (∀ r ∈ s.ring.records, r.number ≠ n) →
        exec (.manifestRelease tag [h1, n3, n2, n1, n0, h2, t1, t0]) s = .next
          (s.answered tag .manifestRelease (Answer.refuse .range []))) ∧
      (∀ before r after, h1 = 1 → s.ring.records = before ++ r :: after → r.number = n →
        (∀ x ∈ before, x.number ≠ n) → released after) ∧
      (h1 = 0 → released s.ring.records)) ∧
    (∀ n3 n2 n1 n0 h1 h2 t1 t0 : Byte, 2 ≤ h1.toNat ∨ 2 ≤ h2.toNat →
      exec (.manifestRelease tag [h1, n3, n2, n1, n0, h2, t1, t0]) s = .next
        (s.answered tag .manifestRelease (Answer.refuse .range [])))

/-- The bookkeeping of cartons and records. A record written takes the next number and the rack time, and the
high-water state is judged (R174, R181). An extraction counted in (R168, R175, R176): the fill rises, SHIPPED is
written, a full carton gets its CARTON record and its bin is CHANGING, or done with where its close was held, and the
reservation is gone (R177). Any other end of an extraction releases the reservation, and takes up a close held for it
(R170): an empty carton leaves its bin, another waits for space. Each time the freed entries go to the bins waiting
for space, lowest first, as far as they go, each closed short (R178). -/
def Obligations.CartonsCountedAndClosed : Prop :=
  ∀ s : State,
    (∀ body : ManifestBody,
      let ring : Ring :=
        { s.ring with
          records := s.ring.records ++ [{ number := s.ring.next, time := s.line.rackTime, body := body }]
          next := if 4294967295 ≤ s.ring.next then 1 else s.ring.next + 1
          above := decide (s.ring.threshold ≤ s.ring.records.length + 1) }
      s.writeRecord body =
        if s.ring.threshold ≤ s.ring.records.length + 1 ∧ s.ring.above = false then
          (s.setRing ring).notify
            (.manifestHigh ring.records.length ring.threshold ring.oldest ring.newest ring.reserved s.closingBins)
        else s.setRing ring) ∧
    (let waiting := (List.finRange 12).filter fun b =>
        (s.carton b).state = .closing ∧ (s.carton b).pendingClose = false
      let served := waiting.take s.ring.free
      let u := s.serveFreed
      u = { s with ring := u.ring, cartons := u.cartons, line := { s.line with notices := u.line.notices } } ∧
      u.ring.reservation = s.ring.reservation ∧ u.ring.threshold = s.ring.threshold ∧
      (∃ records, u.ring.records = s.ring.records ++ records ∧
        records.map (·.body) = served.map (fun b =>
          .carton { lane := b, sequence := (s.carton b).sequence, count := (s.carton b).fill, short := true }) ∧
        (∀ r ∈ records, r.time = s.line.rackTime) ∧
        (∀ r, records.head? = some r → r.number = s.ring.next)) ∧
      (∀ b, u.carton b =
        if b ∈ served then (s.carton b).gone (if 65535 ≤ (s.carton b).sequence then 1 else (s.carton b).sequence + 1)
        else s.carton b)) ∧
    (∀ (i : SlotNo) (b : LaneNo),
      let c := s.carton b
      c.state = .opened ∨ (c.state = .closing ∧ c.pendingClose = true) →
      let filled : Carton := { c with fill := c.fill + 1 }
      let full : Bool := filled.fill = c.capacity
      let after (n : Nat) : Nat := if 4294967295 ≤ n then 1 else n + 1
      let shipped : ManifestRec :=
        { number := s.ring.next, time := s.line.rackTime, body := (s.setCarton b filled).shipped i b }
      let closed : ManifestRec :=
        { number := after s.ring.next, time := s.line.rackTime
          body := .carton { lane := b, sequence := c.sequence, count := filled.fill, short := false } }
      let records := s.ring.records ++ (if full then [shipped, closed] else [shipped])
      let ring : Ring :=
        { s.ring with
          records := records, reservation := none, above := decide (s.ring.threshold ≤ records.length)
          next := if full then after (after s.ring.next) else after s.ring.next }
      let carton : Carton :=
        if full then
          if c.state = .closing then filled.gone (if 65535 ≤ c.sequence then 1 else c.sequence + 1)
          else { filled with state := .changing }
        else if c.state = .closing then { filled with pendingClose := false }
        else filled
      let freed := State.serveFreed { s with ring := ring, cartons := s.cartons.set b carton }
      (s.countIn i b).ring = freed.ring ∧ (s.countIn i b).cartons = freed.cartons) ∧
    (∀ b : LaneNo,
      let c := s.carton b
      let held : Bool := c.state = .closing && c.pendingClose
      let carton : Carton :=
        if held then (if c.fill = 0 then c.gone c.sequence else { c with pendingClose := false }) else c
      let freed := State.serveFreed
        { s with ring := { s.ring with reservation := none }, cartons := s.cartons.set b carton }
      (s.endExtraction b).ring = freed.ring ∧ (s.endExtraction b).cartons = freed.cartons) ∧
    (∀ b : LaneNo,
      let c := s.carton b
      (c.fill = 0 →
        let gone : Carton := { c with state := .absent, pendingClose := false }
        let t := (s.setCarton b gone).notify (.carton b .removedEmpty gone none)
        let opened := gone.gone c.sequence
        s.takeUpClose b =
          (if c.present then (t.setCarton b opened).notify (.carton b .opened opened none) else t).serveFreed) ∧
      (c.fill ≠ 0 →
        let waits : Carton := { c with pendingClose := false }
        let u := (s.setCarton b waits).serveFreed
        s.takeUpClose b =
          if (u.carton b).state = .closing then u.notify (.carton b .awaitingSpace (u.carton b) none) else u))

/-! ## Requests of every block -/

/-- The queries and reads (R35, R96, R135, R140, R164, R173, R179, R198, R204) report and change nothing. The layout of
SORT PROBE's reply and the sizes of fields the spec gives none are the model's (log entries 16 to 18), and so are the
form of an end cause and its presence byte (19, 45), the numbers of drive states and codes (32), the fixed sizes and
places (33), the latch (43), which order a slot with two shows (53), the fields that share a presence byte (54), the
standing of a slot on its link (55), the loop counters of a slot with no plan (56), an absent profile (58), a yes or no
sent as a flag (59), and the BUSY refusals RACK QUERY counts (61). -/
def Obligations.QueriesChangeNothing : Prop :=
  (∀ (c : RequestCode) (body : List Byte) (s : State),
    c ∈ [.slotQuery, .planRead, .zoneQuery, .gradeMapRead, .sortProbe, .queueQuery, .binQuery, .manifestRead,
      .rackQuery] → (c.serve body s).1 = s) ∧
  ∀ (s : State) (tag : Byte), s.ready →
    (∀ (slot : Byte) (i : SlotNo), ofNum 40 slot.toNat = some i →
      exec (.slotQuery tag [slot]) s = .next (s.answered tag .slotQuery (Answer.accept (s.slotQueryBytes i)))) ∧
    (∀ (plan : Byte) (p : PlanNo), ofNum 8 plan.toNat = some p →
      exec (.planRead tag [plan]) s = .next (s.answered tag .planRead
        (Answer.accept (counted ((s.plan p).steps.map PlanStep.bytes) ++ u8 (s.plan p).refs)))) ∧
    (∀ (zone : Byte) (z : ShelfNo), ofNum 4 zone.toNat = some z →
      exec (.zoneQuery tag [zone, 1]) s = .next
        (s.answered tag .zoneQuery (Answer.accept ((s.zone z).bytes s.now))) ∧
      exec (.zoneQuery tag [zone, 2]) s = .next
        (s.answered tag .zoneQuery (Answer.accept (profileBytes (s.zone z).active))) ∧
      exec (.zoneQuery tag [zone, 3]) s = .next
        (s.answered tag .zoneQuery (Answer.accept (profileBytes (s.zone z).staged)))) ∧
    exec (.gradeMapRead tag []) s = .next (s.answered tag .gradeMapRead
      (Answer.accept (s.sort.weights.bytes ++ bandsBytes s.sort.map ++
        (s.sort.faults.toList.map fun b => u8 b.val).flatten ++ (s.sort.barred.toList.map flag).flatten))) ∧
    (∀ (h l e : Byte), h.toNat * 256 + l.toNat ≤ 1000 → e.toNat ≤ 12 →
      let judged (band : List Byte) (b : Bin) : Prop :=
        exec (.sortProbe tag [h, l, e]) s = .next (s.answered tag .sortProbe
          (Answer.accept ([e] ++ u8 b.val ++ band ++
            (match ofNum 12 b.val with
              | some n => if s.sort.barred[n] then [1, 1] ++ u8 0 else [1, 0] ++ u8 b.val
              | none => [0, 0] ++ u8 b.val))))
      (∀ n, ofNum 12 e.toNat = some n → judged [0, 0] s.sort.faults[n]) ∧
      (e = 0 → ∀ before b after, s.sort.map = before ++ b :: after →
        (∀ y ∈ before, h.toNat * 256 + l.toNat < y.lower) → b.lower ≤ h.toNat * 256 + l.toNat →
        judged ([1] ++ u8 (before.length + 1)) b.bin)) ∧
    (∀ (part start : Byte) (l : ShelfNo), ofNum 4 part.toNat = some l →
      exec (.queueQuery tag [part, start]) s = .next
        (s.answered tag .queueQuery (Answer.accept (s.link l).bytes))) ∧
    (∀ start : Byte, exec (.queueQuery tag [5, start]) s = .next
      (s.answered tag .queueQuery (Answer.accept (s.portBytes start.toNat)))) ∧
    (∀ (bin : Byte) (b : LaneNo), ofNum 12 bin.toNat = some b →
      let current : List Byte :=
        match s.port.current with
        | some c =>
          if c.order.kind = .extract b then
            [1] ++ u8 (c.order.slot.val + 1) ++
              [if s.port.state = .deskew ∨ s.port.state = .offered then 2 else 3]
          else [0, 0, 0]
        | none => [0, 0, 0]
      exec (.binQuery tag [bin]) s = .next (s.answered tag .binQuery
        (Answer.accept ((s.carton b).bytes ++ flag s.sort.barred[b] ++ current ++
          u8 (s.port.queue.countP fun o => o.kind = .extract b))))) ∧
    (∀ n3 n2 n1 n0 c : Byte, 1 ≤ c.toNat → c.toNat ≤ 4 →
      let n := ((n3.toNat * 256 + n2.toNat) * 256 + n1.toNat) * 256 + n0.toNat
      exec (.manifestRead tag [n3, n2, n1, n0, c]) s = .next (s.answered tag .manifestRead
        (Answer.accept (s.ring.values c.toNat ++
          (((s.ring.readFrom n).take c.toNat).map ManifestRec.bytes).flatten)))) ∧
    (exec (.rackQuery tag []) s = .next (s.answered tag .rackQuery
      (Answer.accept ([1, s.line.rackId] ++ u32 s.line.rackTime.toNat ++ u32 s.line.uptime.toNat ++
        u16 s.line.restarts ++ u8 s.line.rate.byte ++ u8 s.line.mask.bits ++ u8 s.line.notices.length ++
        opt16 s.line.overflowCount ++ [0] ++ u8 (s.line.replies.countP fun f => f.served = false) ++
        u16 s.line.counters.gap ++ u16 s.line.counters.length ++ u16 s.line.counters.crc ++
        u16 s.line.counters.framing ++ u16 s.line.counters.breaks ++ u16 s.line.counters.busy ++
        u16 s.line.counters.unanswered ++ (s.doseTable.weights.toList.map u8).flatten ++ u16 s.doseTable.base))))

/-- SPIN settings (R14), PLAN LOAD (R33, R34), LINK CONFIG (R72), LINE CONFIG (R184), NOTICE MASK (R194) and RESTART
(R199) taken: each value clamped, and the spin-up values in force unless a permit in use forbids it; the plan's steps
replaced while no slot names it; the link's settings staged for its next frame start; the rate and the restart left to
the end of their replies; the mask in force at once. -/
def Obligations.SettingsRequestsTaken : Prop :=
  ∀ (s : State) (tag : Byte), s.ready →
    (∀ (plan : Byte) (p : PlanNo) (xs : List PlanStep), ofNum 8 plan.toNat = some p → xs.length ≤ 16 →
      (∀ x ∈ xs, x.bytes.length = 12) →
      (∀ k x, xs[k]? = some x → readStep (k + 1) x.bytes = some { value := x, clamped := false }) →
      let body := plan :: BitVec.ofNat 8 xs.length :: (xs.map PlanStep.bytes).flatten
      ((s.plan p).refs ≠ 0 →
        exec (.planLoad tag body) s = .next (s.answered tag .planLoad (Answer.refuse .inUse []))) ∧
      ((s.plan p).refs = 0 →
        exec (.planLoad tag body) s = .next
          ((s.setPlan p { steps := xs, refs := 0 }).answered tag .planLoad (Answer.accept [])))) ∧
    (∀ link t m g p1 p0 : Byte,
      (ofNum 4 link.toNat = none →
        exec (.linkConfig tag [link, t, m, g, p1, p0]) s = .next
          (s.answered tag .linkConfig (Answer.refuse .range []))) ∧
      (∀ l, ofNum 4 link.toNat = some l →
        let p := p1.toNat * 256 + p0.toNat
        let x : LinkSettings :=
          { pollTimeout := max 5 (min 100 t.toNat), missLimit := max 1 (min 15 m.toNat), gapBudget := min 16 g.toNat,
            minPeriod := max 500 (min 10000 p) }
        exec (.linkConfig tag [link, t, m, g, p1, p0]) s = .next
          ((s.setLink l { s.link l with staged := some x }).answered tag .linkConfig
            (if 5 ≤ t.toNat ∧ t.toNat ≤ 100 ∧ 1 ≤ m.toNat ∧ m.toNat ≤ 15 ∧ g.toNat ≤ 16 ∧ 500 ≤ p ∧ p ≤ 10000 then
              Answer.accept []
            else
              { body := [2, link] ++ u8 x.pollTimeout ++ u8 x.missLimit ++ u8 x.gapBudget ++ u16 x.minPeriod
                after := .nothing })))) ∧
    (∀ r : LineRate, exec (.lineConfig tag (u8 r.byte)) s = .next
      (s.answered tag .lineConfig { body := [1] ++ u8 r.byte, after := .newRate r })) ∧
    (∀ code : Byte, code = 0 ∨ 7 < code.toNat →
      exec (.lineConfig tag [code]) s = .next (s.answered tag .lineConfig (Answer.refuse .range []))) ∧
    (∀ m : Byte,
      (7 < m.toNat → exec (.noticeMask tag [m]) s = .next (s.answered tag .noticeMask (Answer.refuse .range []))) ∧
      (m.toNat ≤ 7 → exec (.noticeMask tag [m]) s = .next
        ((s.setLine { s.line with
          mask := { slot := m.getLsbD 0, climate := m.getLsbD 1, ship := m.getLsbD 2 } }).answered tag .noticeMask
            (Answer.accept [m, BitVec.ofNat 8 s.line.notices.length])))) ∧
    exec (.restart tag []) s = .next (s.answered tag .restart { body := [1], after := .restart }) ∧
    (∀ b bs, exec (.restart tag (b :: bs)) s = .next (s.answered tag .restart (Answer.refuse .length []))) ∧
    (∀ k l b1 b0 d1 d0 : Byte,
      let x : SpinSettings :=
        { permits := max 1 (min 10 k.toNat), limitS := max 1 (min 60 l.toNat),
          blankingMs := min 1000 (b1.toNat * 256 + b0.toNat)
          debounceMs := max 50 (min 1000 (d1.toNat * 256 + d0.toNat)) }
      ((0 < s.holders ∧ x.limitS ≠ s.spin.limitS) ∨ x.permits < s.holders →
        exec (.spinSettings tag [k, l, b1, b0, d1, d0]) s = .next
          (s.answered tag .spinSettings (Answer.refuse .state []))) ∧
      ((s.holders = 0 ∨ x.limitS = s.spin.limitS) → s.holders ≤ x.permits →
        ∃ a, exec (.spinSettings tag [k, l, b1, b0, d1, d0]) s = .next
          (({ s with spin := x }.testGrants).answered tag .spinSettings a) ∧
          (a.body = [1] ∨ a.body = [2] ++ u8 x.permits ++ u8 x.limitS ++ u16 x.blankingMs ++ u16 x.debounceMs) ∧
          (a.body = [1] ↔ x.permits = k.toNat ∧ x.limitS = l.toNat ∧ x.blankingMs = b1.toNat * 256 + b0.toNat ∧
            x.debounceMs = d1.toNat * 256 + d0.toNat)))

/-- A refused request changes nothing but the reply list (R190), every reply has one of the three outcomes, each
request code reads back as the request it is, and a code that is none is refused with UNKNOWN (R189). A slot number
outside 1 to 40, or a plan without steps, is refused with RANGE, and a slot in a state that does not accept the
request with STATE (R24 to R28). -/
def Obligations.RefusalsChangeNothing : Prop :=
  (∀ (c : RequestCode) (body : List Byte) (s : State),
    ((c.serve body s).2.body.head? = some 3 → (c.serve body s).1 = s) ∧
    ((c.serve body s).2.body.head? = some 1 ∨ (c.serve body s).2.body.head? = some 2 ∨
      (c.serve body s).2.body.head? = some 3)) ∧
  (∀ c : RequestCode, RequestCode.ofByte c.byte = some c) ∧
  (∀ (s : State) (tag code : Byte) (body : List Byte), s.ready → RequestCode.ofByte code = none →
    exec (.unknown tag code body) s = .next
      (s.addReply { tag := tag, code := code, body := [3, 1], served := true, after := .nothing }).finish) ∧
  (∀ (s : State) (tag slot x : Byte), s.ready →
    let range (c : RequestCode) : Host.Outcome State Fault Refusal := .next (s.answered tag c (Answer.refuse .range []))
    let state (c : RequestCode) : Host.Outcome State Fault Refusal := .next (s.answered tag c (Answer.refuse .state []))
    (ofNum 40 slot.toNat = none →
      exec (.slotOpen tag [slot, x]) s = range .slotOpen ∧ exec (.slotStart tag [slot, x]) s = range .slotStart ∧
      exec (.slotSuspend tag [slot]) s = range .slotSuspend ∧ exec (.slotContinue tag [slot]) s = range .slotContinue ∧
      exec (.slotEnd tag [slot]) s = range .slotEnd ∧ exec (.slotAbort tag [slot]) s = range .slotAbort ∧
      exec (.slotRelease tag [slot, x]) s = range .slotRelease ∧ exec (.slotRerun tag [slot, x]) s = range .slotRerun) ∧
    (∀ p, ofNum 8 x.toNat = some p → (s.plan p).steps = [] →
      exec (.slotOpen tag [slot, x]) s = range .slotOpen ∧ exec (.slotStart tag [slot, x]) s = range .slotStart ∧
      exec (.slotRerun tag [slot, x]) s = range .slotRerun) ∧
    (∀ i p b, ofNum 40 slot.toNat = some i → ofNum 8 x.toNat = some p → (s.plan p).steps ≠ [] →
      ofNum 12 x.toNat = some b →
      ((s.slot i).state ≠ .vacant → exec (.slotOpen tag [slot, x]) s = state .slotOpen) ∧
      ((s.slot i).state ≠ .seated → exec (.slotStart tag [slot, x]) s = state .slotStart) ∧
      ((s.slot i).state ≠ .held ∨ (s.slot i).run.identity = none →
        exec (.slotRerun tag [slot, x]) s = state .slotRerun) ∧
      ((s.slot i).state ≠ .held → exec (.slotRelease tag [slot, x]) s = state .slotRelease) ∧
      ((s.slot i).state ≠ .review → exec (.slotContinue tag [slot]) s = state .slotContinue) ∧
      ((s.slot i).state ≠ .paused → ((s.slot i).state ≠ .running ∨ (s.slot i).cycleOffLink = true) →
        exec (.slotSuspend tag [slot]) s = state .slotSuspend) ∧
      ((s.slot i).state ≠ .running → (s.slot i).state ≠ .paused → (s.slot i).state ≠ .review →
        exec (.slotEnd tag [slot]) s = state .slotEnd)))

/-! ## The line port and the rack clock -/

/-- The receiver's discards (R185, R187): a gap, a low stop bit and a length above 240 each discard the frame being
collected and count it, and a break counts in any state; a start byte begins a frame in HUNT, where the others change
nothing. A byte, or a break, that comes more than 20 ms after the last byte finds the frame discarded as GAP and the
receiver in HUNT; LINE_GAP acts whenever it comes (log entry 3). A request that arrives while a served reply waits
joins the request queue, is refused BUSY with a full queue, or goes unanswered with four BUSY refusals waiting (R188);
that one being sent no longer counts among the four is the model's choice (log entry 61).
A notice of a MASKED group is not queued (R194); in an OPEN group it takes the place of the waiting one of its kind
and source, or joins, or is dropped with 63 ordinary ones waiting (R195), and OVERFLOW counts the drops (R196). -/
def Obligations.LineDiscardsJoinsAndDrops : Prop :=
  ∀ s : State,
    let hunting (c : LineCounters) : Host.Outcome State Fault Refusal :=
      .next (s.setLine { s.line with receiver := .hunt, counters := c })
    let n := s.line.counters
    (s.line.receiver = .hunt →
      exec .lineGap s = .next s ∧ exec .framingDiscard s = .next s ∧
      (∀ len : Byte, 240 < len.toNat → exec (.lengthDiscard len) s = .next s) ∧
      exec .startByte s = .next (s.setLine { s.line with receiver := .collect [] s.now })) ∧
    (∀ bytes last, s.line.receiver = .collect bytes last →
      let gone : LineCounters := { n with gap := min 65535 (n.gap + 1) }
      exec .lineGap s = hunting gone ∧
      ((s.now - last).toNat ≤ 20 →
        exec .framingDiscard s = hunting { n with framing := min 65535 (n.framing + 1) } ∧
        (bytes = [] → ∀ len : Byte, 240 < len.toNat →
          exec (.lengthDiscard len) s = hunting { n with length := min 65535 (n.length + 1) }) ∧
        exec .lineBreak s = hunting { n with breaks := min 65535 (n.breaks + 1) } ∧
        (bytes = [] →
          exec .startByte s = .next (s.setLine { s.line with receiver := .collect [Config.startByte] s.now }))) ∧
      (20 < (s.now - last).toNat →
        exec .framingDiscard s = hunting gone ∧
        (∀ len : Byte, 240 < len.toNat → exec (.lengthDiscard len) s = hunting gone) ∧
        exec .lineBreak s = hunting { gone with breaks := min 65535 (n.breaks + 1) } ∧
        exec .startByte s =
          .next (s.setLine { s.line with receiver := .collect [] s.now, counters := gone }) ∧
        (∀ bs : List Byte, exec (.frameReceived bs) s =
          exec (.frameReceived bs)
            (if bs = [] then s else s.setLine { s.line with receiver := .hunt, counters := gone })))) ∧
    (s.line.receiver = .hunt → exec .lineBreak s = hunting { n with breaks := min 65535 (n.breaks + 1) }) ∧
    (∀ (tag code : Byte) (body : List Byte), body.length ≤ 240 → s.line.receiver = .hunt →
      (s.line.replies.any (·.served) = true ∨ s.line.sending.any (·.served) = true) →
      let busy := s.line.replies.countP fun f => f.served = false
      let arrives (l : Line) : Prop :=
        exec (.frameReceived (lineFrame tag code body)) s = .next (s.setLine l).finish
      (s.line.requests.length < 4 →
        arrives { s.line with requests := s.line.requests ++ [{ tag := tag, code := code, body := body }] }) ∧
      (4 ≤ s.line.requests.length → busy < 4 →
        arrives { s.line with
          replies := s.line.replies ++
            [{ tag := tag, code := code, body := [3, 7] ++ u8 s.line.requests.length, served := false
               after := .nothing }]
          counters := { n with busy := min 65535 (n.busy + 1) } }) ∧
      (4 ≤ s.line.requests.length → 4 ≤ busy →
        arrives { s.line with counters := { n with unanswered := min 65535 (n.unanswered + 1) } })) ∧
    ∀ b : NoticeBody,
      let masked : Bool :=
        match b with
        | .slotState .. | .runEnd .. | .watch .. => s.line.mask.slot
        | .zoneTrip .. | .zoneClear .. => s.line.mask.climate
        | .carton .. | .handlerSlot .. | .handlerPort .. | .manifestHigh .. => s.line.mask.ship
        | .overflow .. => false
      let same (x : Notice) : Prop := x.body.kind = b.kind ∧ x.source = b.source
      let waits (ns : List Notice) : State := s.setLine { s.line with notices := ns }
      let ordinary := s.line.notices.countP fun x => x.body.kind ≠ .overflow
      (masked = true → s.notify b = s) ∧
      (masked = false →
        (∀ before x after, s.line.notices = before ++ x :: after → same x → (∀ y ∈ before, ¬ same y) →
          s.notify b =
            waits
              (before ++ { x with body := b, time := s.line.rackTime, merges := min 255 (x.merges + 1) } :: after)) ∧
        ((∀ y ∈ s.line.notices, ¬ same y) →
          (ordinary < 63 →
            s.notify b =
              waits (s.line.notices ++ [{ source := b.source, body := b, time := s.line.rackTime, merges := 0 }])) ∧
          (63 ≤ ordinary → (∀ y ∈ s.line.notices, y.body.kind ≠ .overflow) →
            s.notify b =
              waits (s.line.notices ++
                [{ source := 0, body := .overflow 1 b.kind b.source s.line.rackTime, time := s.line.rackTime
                   merges := 0 }])) ∧
          (∀ before x after count k source time, 63 ≤ ordinary → s.line.notices = before ++ x :: after →
            x.body = .overflow count k source time → (∀ y ∈ before ++ after, y.body.kind ≠ .overflow) →
            s.notify b =
              waits (before ++ { x with body := .overflow (min 65535 (count + 1)) k source time } :: after))))

/-- The transmitter (R192, R189, R184, R200). The last byte of a frame sets it free, lets the next request be served,
and brings with it the new rate or the restart. A reply goes before every notice, and a notice takes the next sequence
number. RESTART samples the slots anew, keeps the plans' steps, and takes zones, doses, orders and links back; it
samples the straps at the levels they have come to (R198), and leaves no notice but those of the closes it takes up
(R181; log entry 51). -/
def Obligations.FramesLeaveInOrder : Prop :=
  ∀ s : State,
    (s.line.sending = none →
      exec .frameSent s = .next s ∧ (∀ x, exec (.restartEffect x) s = .next s) ∧ exec .lineRateChange s = .next s) ∧
    (∀ f, s.line.sending = some f →
      let free := s.setLine { s.line with sending := none }
      (f.after = .nothing → exec .frameSent s = .next free.serveHead.finish) ∧
      (∀ r, f.after = .newRate r → exec .lineRateChange s = exec .frameSent s ∧
        (r = s.line.rate → exec .lineRateChange s = .next free.serveHead.finish) ∧
        (r ≠ s.line.rate → exec .lineRateChange s = .next
          (s.setLine { s.line with sending := none, rate := r, receiver := .hunt }).serveHead.finish)) ∧
      (f.after = .restart → exec (.restartEffect none) s = exec .frameSent s ∧
        ∀ x : Option Byte, ∃ u : State, exec (.restartEffect x) s = .next u.serveHead.finish ∧
          (∀ i, u.slot i = SlotRec.sampled (s.slot i).seatRaw) ∧
          (∀ p, u.plan p = { steps := (s.plan p).steps, refs := 0 }) ∧ u.permitQueue = [] ∧ u.spin = s.spin ∧
          (∀ z, (u.zone z).state = .off ∧ (u.zone z).heater = .off ∧ (u.zone z).settings = (s.zone z).settings ∧
            (u.zone z).causes = (s.zone z).causes) ∧
          (∀ i, u.dose i = DoseRec.empty ∧ u.watch i = WatchRec.empty ∧ u.linkSlot i = LinkSlot.empty) ∧
          (∀ l, (u.link l).scan = [] ∧ (u.link l).outstanding = none ∧ (u.link l).frameStart = s.now) ∧
          u.port.state = .idle ∧ u.port.queue = [] ∧ u.port.current = none ∧ u.ring.reservation = none ∧
          (∀ m ∈ u.line.notices, m.body.kind = .carton) ∧ u.straps = x.getD s.straps ∧
          u.line.rackId = x.getD s.straps ∧ u.line.restarts = min 65535 (s.line.restarts + 1) ∧
          u.line.rackTime = s.line.rackTime ∧ u.sort = s.sort ∧ u.rules = s.rules ∧ u.doseTable = s.doseTable)) ∧
    (∀ l : Line, l.sending = none →
      (∀ f rest, l.replies = f :: rest → l.transmit = { l with replies := rest, sending := some f }) ∧
      (∀ n rest, l.replies = [] → l.notices = n :: rest →
        l.transmit =
          { l with notices := rest, sending := some (n.frame l.sequence), sequence := l.sequence + 1#16 })) ∧
    (∀ l : Line, l.sending ≠ none → l.transmit = l)

/-- The second tick raises rack time and uptime, starts a read of every air sensor and ends every fan window, the one
from power-on too (log entry 52); a frame whose next byte is by then more than 20 ms overdue is discarded as GAP (R185;
log entry 4). SET TIME sets rack time alone and reports it before and after (R197, R76, R79). -/
def Obligations.RackTimeTicksAndSets : Prop :=
  ∀ s : State,
    (∃ t : State, exec .secondTick s = .next t ∧ t.line.rackTime = s.line.rackTime + 1#32 ∧
      t.line.uptime = s.line.uptime + 1#32 ∧
      (let ticked : Line := { s.line with rackTime := t.line.rackTime, uptime := t.line.uptime };
        (s.line.receiver = .hunt → t.line = ticked) ∧
        ∀ bytes last, s.line.receiver = .collect bytes last →
          t.line =
            if 20 < (t.now - last).toNat then
              { ticked with
                receiver := .hunt
                counters := { s.line.counters with gap := min 65535 (s.line.counters.gap + 1) } }
            else ticked) ∧
      (∀ z, t.zone z = { s.zone z with reading := true, windowOver := true }) ∧
      t = { s with clock := t.clock, line := t.line, zones := t.zones }) ∧
    (∀ tag t3 t2 t1 t0 : Byte, s.ready →
      exec (.setTime tag [t3, t2, t1, t0]) s = .next
        ((s.setLine { s.line with rackTime := t3 ++ t2 ++ t1 ++ t0 }).answered tag .setTime
          (Answer.accept (u32 s.line.rackTime.toNat ++ [t3, t2, t1, t0])))) ∧
    (∀ (tag : Byte) (body : List Byte), s.ready → body.length ≠ 4 →
      exec (.setTime tag body) s = .next (s.answered tag .setTime (Answer.refuse .length [])))

/-! ## Invariants -/

/-- Every step keeps every zone as its state says: heater driven in RUN alone, no duty, timer or pending duty outside
it, no player in OFF, a trip record and a grace in TRIPPED alone (R75, R89). -/
def Obligations.StepKeepsZonesAsState : Prop :=
  ∀ s t : State, s.zonesAsState → step s = .next t → t.zonesAsState

/-- Every step keeps every dose accumulator at or below 1,048,575 (R103), and every carton within its capacity, the ring
within its 512 records and what is reserved of it (R166, R174, R177). -/
def Obligations.StepKeepsDosesAndCartons : Prop :=
  (∀ s t : State, s.dosesCapped → step s = .next t → t.dosesCapped) ∧
  ∀ s t : State, s.cartonsWithinSizes → step s = .next t → t.cartonsWithinSizes

/-- Every step keeps slots, plans, permits, links, transactions and orders in order: a plan's reference count is the
number of slots that name it (R32), power is on in six states alone (R9), a latch is released for the current EXTRACT
alone (R8), no transaction is outstanding for a slot without power (R52), and no slot has two orders (R143, but for
the one log entry 49 names), with what these rest on. -/
def Obligations.StepKeepsRackInOrder : Prop :=
  ∀ s t : State, s.InOrder → step s = .next t → t.InOrder

/-- Every step keeps the line port's queues within their sizes: four requests, four BUSY refusals, one served reply, 63
ordinary notices, and no two notices of one kind and source (R182, R188, R189, R195). A BUSY refusal being sent is not
among the four (log entry 61). -/
def Obligations.StepKeepsLineSizes : Prop :=
  ∀ s t : State, s.lineWithinSizes → step s = .next t → t.lineWithinSizes
end

