-- ==== Sys2Proof/Laws/State.lean ====
section
/-! SUPPORT. The small lemmas of the state: one per field per update, and reading a record after writing it. -/

namespace Sys2Proof.Machine

/-- A member of a bank after a function of every member. -/
@[simp] theorem getElem_mapEach {α β : Type} {n : Nat} (f : α → β) (v : Vector α n) (i : Nat) (h : i < n) :
    (mapEach f v)[i] = f v[i] := by
  simp [mapEach]

variable (s : State)

/-! ## setSlot -/
@[simp] theorem State.setSlot_pending (i : SlotNo) (r : SlotRec) : (s.setSlot i r).pending = s.pending := rfl
@[simp] theorem State.setSlot_clock (i : SlotNo) (r : SlotRec) : (s.setSlot i r).clock = s.clock := rfl
@[simp] theorem State.setSlot_slots (i : SlotNo) (r : SlotRec) : (s.setSlot i r).slots = s.slots.set i r := rfl
@[simp] theorem State.setSlot_plans (i : SlotNo) (r : SlotRec) : (s.setSlot i r).plans = s.plans := rfl
@[simp] theorem State.setSlot_permitQueue (i : SlotNo) (r : SlotRec) : (s.setSlot i r).permitQueue = s.permitQueue := rfl
@[simp] theorem State.setSlot_spin (i : SlotNo) (r : SlotRec) : (s.setSlot i r).spin = s.spin := rfl
@[simp] theorem State.setSlot_overcurrent (i : SlotNo) (r : SlotRec) : (s.setSlot i r).overcurrent = s.overcurrent := rfl
@[simp] theorem State.setSlot_links (i : SlotNo) (r : SlotRec) : (s.setSlot i r).links = s.links := rfl
@[simp] theorem State.setSlot_linkSlots (i : SlotNo) (r : SlotRec) : (s.setSlot i r).linkSlots = s.linkSlots := rfl
@[simp] theorem State.setSlot_zones (i : SlotNo) (r : SlotRec) : (s.setSlot i r).zones = s.zones := rfl
@[simp] theorem State.setSlot_doses (i : SlotNo) (r : SlotRec) : (s.setSlot i r).doses = s.doses := rfl
@[simp] theorem State.setSlot_doseTable (i : SlotNo) (r : SlotRec) : (s.setSlot i r).doseTable = s.doseTable := rfl
@[simp] theorem State.setSlot_rules (i : SlotNo) (r : SlotRec) : (s.setSlot i r).rules = s.rules := rfl
@[simp] theorem State.setSlot_watches (i : SlotNo) (r : SlotRec) : (s.setSlot i r).watches = s.watches := rfl
@[simp] theorem State.setSlot_sort (i : SlotNo) (r : SlotRec) : (s.setSlot i r).sort = s.sort := rfl
@[simp] theorem State.setSlot_port (i : SlotNo) (r : SlotRec) : (s.setSlot i r).port = s.port := rfl
@[simp] theorem State.setSlot_cartons (i : SlotNo) (r : SlotRec) : (s.setSlot i r).cartons = s.cartons := rfl
@[simp] theorem State.setSlot_ring (i : SlotNo) (r : SlotRec) : (s.setSlot i r).ring = s.ring := rfl
@[simp] theorem State.setSlot_line (i : SlotNo) (r : SlotRec) : (s.setSlot i r).line = s.line := rfl
@[simp] theorem State.setSlot_straps (i : SlotNo) (r : SlotRec) : (s.setSlot i r).straps = s.straps := rfl

/-! ## setPlan -/
@[simp] theorem State.setPlan_pending (p : PlanNo) (x : Plan) : (s.setPlan p x).pending = s.pending := rfl
@[simp] theorem State.setPlan_clock (p : PlanNo) (x : Plan) : (s.setPlan p x).clock = s.clock := rfl
@[simp] theorem State.setPlan_slots (p : PlanNo) (x : Plan) : (s.setPlan p x).slots = s.slots := rfl
@[simp] theorem State.setPlan_plans (p : PlanNo) (x : Plan) : (s.setPlan p x).plans = s.plans.set p x := rfl
@[simp] theorem State.setPlan_permitQueue (p : PlanNo) (x : Plan) : (s.setPlan p x).permitQueue = s.permitQueue := rfl
@[simp] theorem State.setPlan_spin (p : PlanNo) (x : Plan) : (s.setPlan p x).spin = s.spin := rfl
@[simp] theorem State.setPlan_overcurrent (p : PlanNo) (x : Plan) : (s.setPlan p x).overcurrent = s.overcurrent := rfl
@[simp] theorem State.setPlan_links (p : PlanNo) (x : Plan) : (s.setPlan p x).links = s.links := rfl
@[simp] theorem State.setPlan_linkSlots (p : PlanNo) (x : Plan) : (s.setPlan p x).linkSlots = s.linkSlots := rfl
@[simp] theorem State.setPlan_zones (p : PlanNo) (x : Plan) : (s.setPlan p x).zones = s.zones := rfl
@[simp] theorem State.setPlan_doses (p : PlanNo) (x : Plan) : (s.setPlan p x).doses = s.doses := rfl
@[simp] theorem State.setPlan_doseTable (p : PlanNo) (x : Plan) : (s.setPlan p x).doseTable = s.doseTable := rfl
@[simp] theorem State.setPlan_rules (p : PlanNo) (x : Plan) : (s.setPlan p x).rules = s.rules := rfl
@[simp] theorem State.setPlan_watches (p : PlanNo) (x : Plan) : (s.setPlan p x).watches = s.watches := rfl
@[simp] theorem State.setPlan_sort (p : PlanNo) (x : Plan) : (s.setPlan p x).sort = s.sort := rfl
@[simp] theorem State.setPlan_port (p : PlanNo) (x : Plan) : (s.setPlan p x).port = s.port := rfl
@[simp] theorem State.setPlan_cartons (p : PlanNo) (x : Plan) : (s.setPlan p x).cartons = s.cartons := rfl
@[simp] theorem State.setPlan_ring (p : PlanNo) (x : Plan) : (s.setPlan p x).ring = s.ring := rfl
@[simp] theorem State.setPlan_line (p : PlanNo) (x : Plan) : (s.setPlan p x).line = s.line := rfl
@[simp] theorem State.setPlan_straps (p : PlanNo) (x : Plan) : (s.setPlan p x).straps = s.straps := rfl

/-! ## setLink -/
@[simp] theorem State.setLink_pending (l : ShelfNo) (x : Link) : (s.setLink l x).pending = s.pending := rfl
@[simp] theorem State.setLink_clock (l : ShelfNo) (x : Link) : (s.setLink l x).clock = s.clock := rfl
@[simp] theorem State.setLink_slots (l : ShelfNo) (x : Link) : (s.setLink l x).slots = s.slots := rfl
@[simp] theorem State.setLink_plans (l : ShelfNo) (x : Link) : (s.setLink l x).plans = s.plans := rfl
@[simp] theorem State.setLink_permitQueue (l : ShelfNo) (x : Link) : (s.setLink l x).permitQueue = s.permitQueue := rfl
@[simp] theorem State.setLink_spin (l : ShelfNo) (x : Link) : (s.setLink l x).spin = s.spin := rfl
@[simp] theorem State.setLink_overcurrent (l : ShelfNo) (x : Link) : (s.setLink l x).overcurrent = s.overcurrent := rfl
@[simp] theorem State.setLink_links (l : ShelfNo) (x : Link) : (s.setLink l x).links = s.links.set l x := rfl
@[simp] theorem State.setLink_linkSlots (l : ShelfNo) (x : Link) : (s.setLink l x).linkSlots = s.linkSlots := rfl
@[simp] theorem State.setLink_zones (l : ShelfNo) (x : Link) : (s.setLink l x).zones = s.zones := rfl
@[simp] theorem State.setLink_doses (l : ShelfNo) (x : Link) : (s.setLink l x).doses = s.doses := rfl
@[simp] theorem State.setLink_doseTable (l : ShelfNo) (x : Link) : (s.setLink l x).doseTable = s.doseTable := rfl
@[simp] theorem State.setLink_rules (l : ShelfNo) (x : Link) : (s.setLink l x).rules = s.rules := rfl
@[simp] theorem State.setLink_watches (l : ShelfNo) (x : Link) : (s.setLink l x).watches = s.watches := rfl
@[simp] theorem State.setLink_sort (l : ShelfNo) (x : Link) : (s.setLink l x).sort = s.sort := rfl
@[simp] theorem State.setLink_port (l : ShelfNo) (x : Link) : (s.setLink l x).port = s.port := rfl
@[simp] theorem State.setLink_cartons (l : ShelfNo) (x : Link) : (s.setLink l x).cartons = s.cartons := rfl
@[simp] theorem State.setLink_ring (l : ShelfNo) (x : Link) : (s.setLink l x).ring = s.ring := rfl
@[simp] theorem State.setLink_line (l : ShelfNo) (x : Link) : (s.setLink l x).line = s.line := rfl
@[simp] theorem State.setLink_straps (l : ShelfNo) (x : Link) : (s.setLink l x).straps = s.straps := rfl

/-! ## setLinkSlot -/
@[simp] theorem State.setLinkSlot_pending (i : SlotNo) (x : LinkSlot) : (s.setLinkSlot i x).pending = s.pending := rfl
@[simp] theorem State.setLinkSlot_clock (i : SlotNo) (x : LinkSlot) : (s.setLinkSlot i x).clock = s.clock := rfl
@[simp] theorem State.setLinkSlot_slots (i : SlotNo) (x : LinkSlot) : (s.setLinkSlot i x).slots = s.slots := rfl
@[simp] theorem State.setLinkSlot_plans (i : SlotNo) (x : LinkSlot) : (s.setLinkSlot i x).plans = s.plans := rfl
@[simp] theorem State.setLinkSlot_permitQueue (i : SlotNo) (x : LinkSlot) : (s.setLinkSlot i x).permitQueue = s.permitQueue := rfl
@[simp] theorem State.setLinkSlot_spin (i : SlotNo) (x : LinkSlot) : (s.setLinkSlot i x).spin = s.spin := rfl
@[simp] theorem State.setLinkSlot_overcurrent (i : SlotNo) (x : LinkSlot) : (s.setLinkSlot i x).overcurrent = s.overcurrent := rfl
@[simp] theorem State.setLinkSlot_links (i : SlotNo) (x : LinkSlot) : (s.setLinkSlot i x).links = s.links := rfl
@[simp] theorem State.setLinkSlot_linkSlots (i : SlotNo) (x : LinkSlot) : (s.setLinkSlot i x).linkSlots = s.linkSlots.set i x := rfl
@[simp] theorem State.setLinkSlot_zones (i : SlotNo) (x : LinkSlot) : (s.setLinkSlot i x).zones = s.zones := rfl
@[simp] theorem State.setLinkSlot_doses (i : SlotNo) (x : LinkSlot) : (s.setLinkSlot i x).doses = s.doses := rfl
@[simp] theorem State.setLinkSlot_doseTable (i : SlotNo) (x : LinkSlot) : (s.setLinkSlot i x).doseTable = s.doseTable := rfl
@[simp] theorem State.setLinkSlot_rules (i : SlotNo) (x : LinkSlot) : (s.setLinkSlot i x).rules = s.rules := rfl
@[simp] theorem State.setLinkSlot_watches (i : SlotNo) (x : LinkSlot) : (s.setLinkSlot i x).watches = s.watches := rfl
@[simp] theorem State.setLinkSlot_sort (i : SlotNo) (x : LinkSlot) : (s.setLinkSlot i x).sort = s.sort := rfl
@[simp] theorem State.setLinkSlot_port (i : SlotNo) (x : LinkSlot) : (s.setLinkSlot i x).port = s.port := rfl
@[simp] theorem State.setLinkSlot_cartons (i : SlotNo) (x : LinkSlot) : (s.setLinkSlot i x).cartons = s.cartons := rfl
@[simp] theorem State.setLinkSlot_ring (i : SlotNo) (x : LinkSlot) : (s.setLinkSlot i x).ring = s.ring := rfl
@[simp] theorem State.setLinkSlot_line (i : SlotNo) (x : LinkSlot) : (s.setLinkSlot i x).line = s.line := rfl
@[simp] theorem State.setLinkSlot_straps (i : SlotNo) (x : LinkSlot) : (s.setLinkSlot i x).straps = s.straps := rfl

/-! ## setZone -/
@[simp] theorem State.setZone_pending (z : ShelfNo) (x : Zone) : (s.setZone z x).pending = s.pending := rfl
@[simp] theorem State.setZone_clock (z : ShelfNo) (x : Zone) : (s.setZone z x).clock = s.clock := rfl
@[simp] theorem State.setZone_slots (z : ShelfNo) (x : Zone) : (s.setZone z x).slots = s.slots := rfl
@[simp] theorem State.setZone_plans (z : ShelfNo) (x : Zone) : (s.setZone z x).plans = s.plans := rfl
@[simp] theorem State.setZone_permitQueue (z : ShelfNo) (x : Zone) : (s.setZone z x).permitQueue = s.permitQueue := rfl
@[simp] theorem State.setZone_spin (z : ShelfNo) (x : Zone) : (s.setZone z x).spin = s.spin := rfl
@[simp] theorem State.setZone_overcurrent (z : ShelfNo) (x : Zone) : (s.setZone z x).overcurrent = s.overcurrent := rfl
@[simp] theorem State.setZone_links (z : ShelfNo) (x : Zone) : (s.setZone z x).links = s.links := rfl
@[simp] theorem State.setZone_linkSlots (z : ShelfNo) (x : Zone) : (s.setZone z x).linkSlots = s.linkSlots := rfl
@[simp] theorem State.setZone_zones (z : ShelfNo) (x : Zone) : (s.setZone z x).zones = s.zones.set z x := rfl
@[simp] theorem State.setZone_doses (z : ShelfNo) (x : Zone) : (s.setZone z x).doses = s.doses := rfl
@[simp] theorem State.setZone_doseTable (z : ShelfNo) (x : Zone) : (s.setZone z x).doseTable = s.doseTable := rfl
@[simp] theorem State.setZone_rules (z : ShelfNo) (x : Zone) : (s.setZone z x).rules = s.rules := rfl
@[simp] theorem State.setZone_watches (z : ShelfNo) (x : Zone) : (s.setZone z x).watches = s.watches := rfl
@[simp] theorem State.setZone_sort (z : ShelfNo) (x : Zone) : (s.setZone z x).sort = s.sort := rfl
@[simp] theorem State.setZone_port (z : ShelfNo) (x : Zone) : (s.setZone z x).port = s.port := rfl
@[simp] theorem State.setZone_cartons (z : ShelfNo) (x : Zone) : (s.setZone z x).cartons = s.cartons := rfl
@[simp] theorem State.setZone_ring (z : ShelfNo) (x : Zone) : (s.setZone z x).ring = s.ring := rfl
@[simp] theorem State.setZone_line (z : ShelfNo) (x : Zone) : (s.setZone z x).line = s.line := rfl
@[simp] theorem State.setZone_straps (z : ShelfNo) (x : Zone) : (s.setZone z x).straps = s.straps := rfl

/-! ## setDose -/
@[simp] theorem State.setDose_pending (i : SlotNo) (x : DoseRec) : (s.setDose i x).pending = s.pending := rfl
@[simp] theorem State.setDose_clock (i : SlotNo) (x : DoseRec) : (s.setDose i x).clock = s.clock := rfl
@[simp] theorem State.setDose_slots (i : SlotNo) (x : DoseRec) : (s.setDose i x).slots = s.slots := rfl
@[simp] theorem State.setDose_plans (i : SlotNo) (x : DoseRec) : (s.setDose i x).plans = s.plans := rfl
@[simp] theorem State.setDose_permitQueue (i : SlotNo) (x : DoseRec) : (s.setDose i x).permitQueue = s.permitQueue := rfl
@[simp] theorem State.setDose_spin (i : SlotNo) (x : DoseRec) : (s.setDose i x).spin = s.spin := rfl
@[simp] theorem State.setDose_overcurrent (i : SlotNo) (x : DoseRec) : (s.setDose i x).overcurrent = s.overcurrent := rfl
@[simp] theorem State.setDose_links (i : SlotNo) (x : DoseRec) : (s.setDose i x).links = s.links := rfl
@[simp] theorem State.setDose_linkSlots (i : SlotNo) (x : DoseRec) : (s.setDose i x).linkSlots = s.linkSlots := rfl
@[simp] theorem State.setDose_zones (i : SlotNo) (x : DoseRec) : (s.setDose i x).zones = s.zones := rfl
@[simp] theorem State.setDose_doses (i : SlotNo) (x : DoseRec) : (s.setDose i x).doses = s.doses.set i x := rfl
@[simp] theorem State.setDose_doseTable (i : SlotNo) (x : DoseRec) : (s.setDose i x).doseTable = s.doseTable := rfl
@[simp] theorem State.setDose_rules (i : SlotNo) (x : DoseRec) : (s.setDose i x).rules = s.rules := rfl
@[simp] theorem State.setDose_watches (i : SlotNo) (x : DoseRec) : (s.setDose i x).watches = s.watches := rfl
@[simp] theorem State.setDose_sort (i : SlotNo) (x : DoseRec) : (s.setDose i x).sort = s.sort := rfl
@[simp] theorem State.setDose_port (i : SlotNo) (x : DoseRec) : (s.setDose i x).port = s.port := rfl
@[simp] theorem State.setDose_cartons (i : SlotNo) (x : DoseRec) : (s.setDose i x).cartons = s.cartons := rfl
@[simp] theorem State.setDose_ring (i : SlotNo) (x : DoseRec) : (s.setDose i x).ring = s.ring := rfl
@[simp] theorem State.setDose_line (i : SlotNo) (x : DoseRec) : (s.setDose i x).line = s.line := rfl
@[simp] theorem State.setDose_straps (i : SlotNo) (x : DoseRec) : (s.setDose i x).straps = s.straps := rfl

/-! ## setWatch -/
@[simp] theorem State.setWatch_pending (i : SlotNo) (x : WatchRec) : (s.setWatch i x).pending = s.pending := rfl
@[simp] theorem State.setWatch_clock (i : SlotNo) (x : WatchRec) : (s.setWatch i x).clock = s.clock := rfl
@[simp] theorem State.setWatch_slots (i : SlotNo) (x : WatchRec) : (s.setWatch i x).slots = s.slots := rfl
@[simp] theorem State.setWatch_plans (i : SlotNo) (x : WatchRec) : (s.setWatch i x).plans = s.plans := rfl
@[simp] theorem State.setWatch_permitQueue (i : SlotNo) (x : WatchRec) : (s.setWatch i x).permitQueue = s.permitQueue := rfl
@[simp] theorem State.setWatch_spin (i : SlotNo) (x : WatchRec) : (s.setWatch i x).spin = s.spin := rfl
@[simp] theorem State.setWatch_overcurrent (i : SlotNo) (x : WatchRec) : (s.setWatch i x).overcurrent = s.overcurrent := rfl
@[simp] theorem State.setWatch_links (i : SlotNo) (x : WatchRec) : (s.setWatch i x).links = s.links := rfl
@[simp] theorem State.setWatch_linkSlots (i : SlotNo) (x : WatchRec) : (s.setWatch i x).linkSlots = s.linkSlots := rfl
@[simp] theorem State.setWatch_zones (i : SlotNo) (x : WatchRec) : (s.setWatch i x).zones = s.zones := rfl
@[simp] theorem State.setWatch_doses (i : SlotNo) (x : WatchRec) : (s.setWatch i x).doses = s.doses := rfl
@[simp] theorem State.setWatch_doseTable (i : SlotNo) (x : WatchRec) : (s.setWatch i x).doseTable = s.doseTable := rfl
@[simp] theorem State.setWatch_rules (i : SlotNo) (x : WatchRec) : (s.setWatch i x).rules = s.rules := rfl
@[simp] theorem State.setWatch_watches (i : SlotNo) (x : WatchRec) : (s.setWatch i x).watches = s.watches.set i x := rfl
@[simp] theorem State.setWatch_sort (i : SlotNo) (x : WatchRec) : (s.setWatch i x).sort = s.sort := rfl
@[simp] theorem State.setWatch_port (i : SlotNo) (x : WatchRec) : (s.setWatch i x).port = s.port := rfl
@[simp] theorem State.setWatch_cartons (i : SlotNo) (x : WatchRec) : (s.setWatch i x).cartons = s.cartons := rfl
@[simp] theorem State.setWatch_ring (i : SlotNo) (x : WatchRec) : (s.setWatch i x).ring = s.ring := rfl
@[simp] theorem State.setWatch_line (i : SlotNo) (x : WatchRec) : (s.setWatch i x).line = s.line := rfl
@[simp] theorem State.setWatch_straps (i : SlotNo) (x : WatchRec) : (s.setWatch i x).straps = s.straps := rfl

/-! ## setCarton -/
@[simp] theorem State.setCarton_pending (b : LaneNo) (x : Carton) : (s.setCarton b x).pending = s.pending := rfl
@[simp] theorem State.setCarton_clock (b : LaneNo) (x : Carton) : (s.setCarton b x).clock = s.clock := rfl
@[simp] theorem State.setCarton_slots (b : LaneNo) (x : Carton) : (s.setCarton b x).slots = s.slots := rfl
@[simp] theorem State.setCarton_plans (b : LaneNo) (x : Carton) : (s.setCarton b x).plans = s.plans := rfl
@[simp] theorem State.setCarton_permitQueue (b : LaneNo) (x : Carton) : (s.setCarton b x).permitQueue = s.permitQueue := rfl
@[simp] theorem State.setCarton_spin (b : LaneNo) (x : Carton) : (s.setCarton b x).spin = s.spin := rfl
@[simp] theorem State.setCarton_overcurrent (b : LaneNo) (x : Carton) : (s.setCarton b x).overcurrent = s.overcurrent := rfl
@[simp] theorem State.setCarton_links (b : LaneNo) (x : Carton) : (s.setCarton b x).links = s.links := rfl
@[simp] theorem State.setCarton_linkSlots (b : LaneNo) (x : Carton) : (s.setCarton b x).linkSlots = s.linkSlots := rfl
@[simp] theorem State.setCarton_zones (b : LaneNo) (x : Carton) : (s.setCarton b x).zones = s.zones := rfl
@[simp] theorem State.setCarton_doses (b : LaneNo) (x : Carton) : (s.setCarton b x).doses = s.doses := rfl
@[simp] theorem State.setCarton_doseTable (b : LaneNo) (x : Carton) : (s.setCarton b x).doseTable = s.doseTable := rfl
@[simp] theorem State.setCarton_rules (b : LaneNo) (x : Carton) : (s.setCarton b x).rules = s.rules := rfl
@[simp] theorem State.setCarton_watches (b : LaneNo) (x : Carton) : (s.setCarton b x).watches = s.watches := rfl
@[simp] theorem State.setCarton_sort (b : LaneNo) (x : Carton) : (s.setCarton b x).sort = s.sort := rfl
@[simp] theorem State.setCarton_port (b : LaneNo) (x : Carton) : (s.setCarton b x).port = s.port := rfl
@[simp] theorem State.setCarton_cartons (b : LaneNo) (x : Carton) : (s.setCarton b x).cartons = s.cartons.set b x := rfl
@[simp] theorem State.setCarton_ring (b : LaneNo) (x : Carton) : (s.setCarton b x).ring = s.ring := rfl
@[simp] theorem State.setCarton_line (b : LaneNo) (x : Carton) : (s.setCarton b x).line = s.line := rfl
@[simp] theorem State.setCarton_straps (b : LaneNo) (x : Carton) : (s.setCarton b x).straps = s.straps := rfl

/-! ## setPort -/
@[simp] theorem State.setPort_pending (x : Port) : (s.setPort x).pending = s.pending := rfl
@[simp] theorem State.setPort_clock (x : Port) : (s.setPort x).clock = s.clock := rfl
@[simp] theorem State.setPort_slots (x : Port) : (s.setPort x).slots = s.slots := rfl
@[simp] theorem State.setPort_plans (x : Port) : (s.setPort x).plans = s.plans := rfl
@[simp] theorem State.setPort_permitQueue (x : Port) : (s.setPort x).permitQueue = s.permitQueue := rfl
@[simp] theorem State.setPort_spin (x : Port) : (s.setPort x).spin = s.spin := rfl
@[simp] theorem State.setPort_overcurrent (x : Port) : (s.setPort x).overcurrent = s.overcurrent := rfl
@[simp] theorem State.setPort_links (x : Port) : (s.setPort x).links = s.links := rfl
@[simp] theorem State.setPort_linkSlots (x : Port) : (s.setPort x).linkSlots = s.linkSlots := rfl
@[simp] theorem State.setPort_zones (x : Port) : (s.setPort x).zones = s.zones := rfl
@[simp] theorem State.setPort_doses (x : Port) : (s.setPort x).doses = s.doses := rfl
@[simp] theorem State.setPort_doseTable (x : Port) : (s.setPort x).doseTable = s.doseTable := rfl
@[simp] theorem State.setPort_rules (x : Port) : (s.setPort x).rules = s.rules := rfl
@[simp] theorem State.setPort_watches (x : Port) : (s.setPort x).watches = s.watches := rfl
@[simp] theorem State.setPort_sort (x : Port) : (s.setPort x).sort = s.sort := rfl
@[simp] theorem State.setPort_port (x : Port) : (s.setPort x).port = x := rfl
@[simp] theorem State.setPort_cartons (x : Port) : (s.setPort x).cartons = s.cartons := rfl
@[simp] theorem State.setPort_ring (x : Port) : (s.setPort x).ring = s.ring := rfl
@[simp] theorem State.setPort_line (x : Port) : (s.setPort x).line = s.line := rfl
@[simp] theorem State.setPort_straps (x : Port) : (s.setPort x).straps = s.straps := rfl

/-! ## setRing -/
@[simp] theorem State.setRing_pending (x : Ring) : (s.setRing x).pending = s.pending := rfl
@[simp] theorem State.setRing_clock (x : Ring) : (s.setRing x).clock = s.clock := rfl
@[simp] theorem State.setRing_slots (x : Ring) : (s.setRing x).slots = s.slots := rfl
@[simp] theorem State.setRing_plans (x : Ring) : (s.setRing x).plans = s.plans := rfl
@[simp] theorem State.setRing_permitQueue (x : Ring) : (s.setRing x).permitQueue = s.permitQueue := rfl
@[simp] theorem State.setRing_spin (x : Ring) : (s.setRing x).spin = s.spin := rfl
@[simp] theorem State.setRing_overcurrent (x : Ring) : (s.setRing x).overcurrent = s.overcurrent := rfl
@[simp] theorem State.setRing_links (x : Ring) : (s.setRing x).links = s.links := rfl
@[simp] theorem State.setRing_linkSlots (x : Ring) : (s.setRing x).linkSlots = s.linkSlots := rfl
@[simp] theorem State.setRing_zones (x : Ring) : (s.setRing x).zones = s.zones := rfl
@[simp] theorem State.setRing_doses (x : Ring) : (s.setRing x).doses = s.doses := rfl
@[simp] theorem State.setRing_doseTable (x : Ring) : (s.setRing x).doseTable = s.doseTable := rfl
@[simp] theorem State.setRing_rules (x : Ring) : (s.setRing x).rules = s.rules := rfl
@[simp] theorem State.setRing_watches (x : Ring) : (s.setRing x).watches = s.watches := rfl
@[simp] theorem State.setRing_sort (x : Ring) : (s.setRing x).sort = s.sort := rfl
@[simp] theorem State.setRing_port (x : Ring) : (s.setRing x).port = s.port := rfl
@[simp] theorem State.setRing_cartons (x : Ring) : (s.setRing x).cartons = s.cartons := rfl
@[simp] theorem State.setRing_ring (x : Ring) : (s.setRing x).ring = x := rfl
@[simp] theorem State.setRing_line (x : Ring) : (s.setRing x).line = s.line := rfl
@[simp] theorem State.setRing_straps (x : Ring) : (s.setRing x).straps = s.straps := rfl

/-! ## setLine -/
@[simp] theorem State.setLine_pending (x : Line) : (s.setLine x).pending = s.pending := rfl
@[simp] theorem State.setLine_clock (x : Line) : (s.setLine x).clock = s.clock := rfl
@[simp] theorem State.setLine_slots (x : Line) : (s.setLine x).slots = s.slots := rfl
@[simp] theorem State.setLine_plans (x : Line) : (s.setLine x).plans = s.plans := rfl
@[simp] theorem State.setLine_permitQueue (x : Line) : (s.setLine x).permitQueue = s.permitQueue := rfl
@[simp] theorem State.setLine_spin (x : Line) : (s.setLine x).spin = s.spin := rfl
@[simp] theorem State.setLine_overcurrent (x : Line) : (s.setLine x).overcurrent = s.overcurrent := rfl
@[simp] theorem State.setLine_links (x : Line) : (s.setLine x).links = s.links := rfl
@[simp] theorem State.setLine_linkSlots (x : Line) : (s.setLine x).linkSlots = s.linkSlots := rfl
@[simp] theorem State.setLine_zones (x : Line) : (s.setLine x).zones = s.zones := rfl
@[simp] theorem State.setLine_doses (x : Line) : (s.setLine x).doses = s.doses := rfl
@[simp] theorem State.setLine_doseTable (x : Line) : (s.setLine x).doseTable = s.doseTable := rfl
@[simp] theorem State.setLine_rules (x : Line) : (s.setLine x).rules = s.rules := rfl
@[simp] theorem State.setLine_watches (x : Line) : (s.setLine x).watches = s.watches := rfl
@[simp] theorem State.setLine_sort (x : Line) : (s.setLine x).sort = s.sort := rfl
@[simp] theorem State.setLine_port (x : Line) : (s.setLine x).port = s.port := rfl
@[simp] theorem State.setLine_cartons (x : Line) : (s.setLine x).cartons = s.cartons := rfl
@[simp] theorem State.setLine_ring (x : Line) : (s.setLine x).ring = s.ring := rfl
@[simp] theorem State.setLine_line (x : Line) : (s.setLine x).line = x := rfl
@[simp] theorem State.setLine_straps (x : Line) : (s.setLine x).straps = s.straps := rfl

/-! ## setOvercurrent -/
@[simp] theorem State.setOvercurrent_pending (i : SlotNo) (v : Bool) : (s.setOvercurrent i v).pending = s.pending := rfl
@[simp] theorem State.setOvercurrent_clock (i : SlotNo) (v : Bool) : (s.setOvercurrent i v).clock = s.clock := rfl
@[simp] theorem State.setOvercurrent_slots (i : SlotNo) (v : Bool) : (s.setOvercurrent i v).slots = s.slots := rfl
@[simp] theorem State.setOvercurrent_plans (i : SlotNo) (v : Bool) : (s.setOvercurrent i v).plans = s.plans := rfl
@[simp] theorem State.setOvercurrent_permitQueue (i : SlotNo) (v : Bool) : (s.setOvercurrent i v).permitQueue = s.permitQueue := rfl
@[simp] theorem State.setOvercurrent_spin (i : SlotNo) (v : Bool) : (s.setOvercurrent i v).spin = s.spin := rfl
@[simp] theorem State.setOvercurrent_overcurrent (i : SlotNo) (v : Bool) : (s.setOvercurrent i v).overcurrent = s.overcurrent.set i v := rfl
@[simp] theorem State.setOvercurrent_links (i : SlotNo) (v : Bool) : (s.setOvercurrent i v).links = s.links := rfl
@[simp] theorem State.setOvercurrent_linkSlots (i : SlotNo) (v : Bool) : (s.setOvercurrent i v).linkSlots = s.linkSlots := rfl
@[simp] theorem State.setOvercurrent_zones (i : SlotNo) (v : Bool) : (s.setOvercurrent i v).zones = s.zones := rfl
@[simp] theorem State.setOvercurrent_doses (i : SlotNo) (v : Bool) : (s.setOvercurrent i v).doses = s.doses := rfl
@[simp] theorem State.setOvercurrent_doseTable (i : SlotNo) (v : Bool) : (s.setOvercurrent i v).doseTable = s.doseTable := rfl
@[simp] theorem State.setOvercurrent_rules (i : SlotNo) (v : Bool) : (s.setOvercurrent i v).rules = s.rules := rfl
@[simp] theorem State.setOvercurrent_watches (i : SlotNo) (v : Bool) : (s.setOvercurrent i v).watches = s.watches := rfl
@[simp] theorem State.setOvercurrent_sort (i : SlotNo) (v : Bool) : (s.setOvercurrent i v).sort = s.sort := rfl
@[simp] theorem State.setOvercurrent_port (i : SlotNo) (v : Bool) : (s.setOvercurrent i v).port = s.port := rfl
@[simp] theorem State.setOvercurrent_cartons (i : SlotNo) (v : Bool) : (s.setOvercurrent i v).cartons = s.cartons := rfl
@[simp] theorem State.setOvercurrent_ring (i : SlotNo) (v : Bool) : (s.setOvercurrent i v).ring = s.ring := rfl
@[simp] theorem State.setOvercurrent_line (i : SlotNo) (v : Bool) : (s.setOvercurrent i v).line = s.line := rfl
@[simp] theorem State.setOvercurrent_straps (i : SlotNo) (v : Bool) : (s.setOvercurrent i v).straps = s.straps := rfl

/-! ## setStraps -/
@[simp] theorem State.setStraps_pending (x : Option Byte) : (s.setStraps x).pending = s.pending := rfl
@[simp] theorem State.setStraps_clock (x : Option Byte) : (s.setStraps x).clock = s.clock := rfl
@[simp] theorem State.setStraps_slots (x : Option Byte) : (s.setStraps x).slots = s.slots := rfl
@[simp] theorem State.setStraps_plans (x : Option Byte) : (s.setStraps x).plans = s.plans := rfl
@[simp] theorem State.setStraps_permitQueue (x : Option Byte) : (s.setStraps x).permitQueue = s.permitQueue := rfl
@[simp] theorem State.setStraps_spin (x : Option Byte) : (s.setStraps x).spin = s.spin := rfl
@[simp] theorem State.setStraps_overcurrent (x : Option Byte) : (s.setStraps x).overcurrent = s.overcurrent := rfl
@[simp] theorem State.setStraps_links (x : Option Byte) : (s.setStraps x).links = s.links := rfl
@[simp] theorem State.setStraps_linkSlots (x : Option Byte) : (s.setStraps x).linkSlots = s.linkSlots := rfl
@[simp] theorem State.setStraps_zones (x : Option Byte) : (s.setStraps x).zones = s.zones := rfl
@[simp] theorem State.setStraps_doses (x : Option Byte) : (s.setStraps x).doses = s.doses := rfl
@[simp] theorem State.setStraps_doseTable (x : Option Byte) : (s.setStraps x).doseTable = s.doseTable := rfl
@[simp] theorem State.setStraps_rules (x : Option Byte) : (s.setStraps x).rules = s.rules := rfl
@[simp] theorem State.setStraps_watches (x : Option Byte) : (s.setStraps x).watches = s.watches := rfl
@[simp] theorem State.setStraps_sort (x : Option Byte) : (s.setStraps x).sort = s.sort := rfl
@[simp] theorem State.setStraps_port (x : Option Byte) : (s.setStraps x).port = s.port := rfl
@[simp] theorem State.setStraps_cartons (x : Option Byte) : (s.setStraps x).cartons = s.cartons := rfl
@[simp] theorem State.setStraps_ring (x : Option Byte) : (s.setStraps x).ring = s.ring := rfl
@[simp] theorem State.setStraps_line (x : Option Byte) : (s.setStraps x).line = s.line := rfl
@[simp] theorem State.setStraps_straps (x : Option Byte) : (s.setStraps x).straps = x.getD s.straps := rfl

/-! ## setBar -/
@[simp] theorem State.setBar_pending (b : LaneNo) (v : Bool) : (s.setBar b v).pending = s.pending := rfl
@[simp] theorem State.setBar_clock (b : LaneNo) (v : Bool) : (s.setBar b v).clock = s.clock := rfl
@[simp] theorem State.setBar_slots (b : LaneNo) (v : Bool) : (s.setBar b v).slots = s.slots := rfl
@[simp] theorem State.setBar_plans (b : LaneNo) (v : Bool) : (s.setBar b v).plans = s.plans := rfl
@[simp] theorem State.setBar_permitQueue (b : LaneNo) (v : Bool) : (s.setBar b v).permitQueue = s.permitQueue := rfl
@[simp] theorem State.setBar_spin (b : LaneNo) (v : Bool) : (s.setBar b v).spin = s.spin := rfl
@[simp] theorem State.setBar_overcurrent (b : LaneNo) (v : Bool) : (s.setBar b v).overcurrent = s.overcurrent := rfl
@[simp] theorem State.setBar_links (b : LaneNo) (v : Bool) : (s.setBar b v).links = s.links := rfl
@[simp] theorem State.setBar_linkSlots (b : LaneNo) (v : Bool) : (s.setBar b v).linkSlots = s.linkSlots := rfl
@[simp] theorem State.setBar_zones (b : LaneNo) (v : Bool) : (s.setBar b v).zones = s.zones := rfl
@[simp] theorem State.setBar_doses (b : LaneNo) (v : Bool) : (s.setBar b v).doses = s.doses := rfl
@[simp] theorem State.setBar_doseTable (b : LaneNo) (v : Bool) : (s.setBar b v).doseTable = s.doseTable := rfl
@[simp] theorem State.setBar_rules (b : LaneNo) (v : Bool) : (s.setBar b v).rules = s.rules := rfl
@[simp] theorem State.setBar_watches (b : LaneNo) (v : Bool) : (s.setBar b v).watches = s.watches := rfl
@[simp] theorem State.setBar_sort (b : LaneNo) (v : Bool) : (s.setBar b v).sort = { s.sort with barred := s.sort.barred.set b v } := rfl
@[simp] theorem State.setBar_port (b : LaneNo) (v : Bool) : (s.setBar b v).port = s.port := rfl
@[simp] theorem State.setBar_cartons (b : LaneNo) (v : Bool) : (s.setBar b v).cartons = s.cartons := rfl
@[simp] theorem State.setBar_ring (b : LaneNo) (v : Bool) : (s.setBar b v).ring = s.ring := rfl
@[simp] theorem State.setBar_line (b : LaneNo) (v : Bool) : (s.setBar b v).line = s.line := rfl
@[simp] theorem State.setBar_straps (b : LaneNo) (v : Bool) : (s.setBar b v).straps = s.straps := rfl

/-! ## addReply -/
@[simp] theorem State.addReply_pending (f : OutFrame) : (s.addReply f).pending = s.pending := rfl
@[simp] theorem State.addReply_clock (f : OutFrame) : (s.addReply f).clock = s.clock := rfl
@[simp] theorem State.addReply_slots (f : OutFrame) : (s.addReply f).slots = s.slots := rfl
@[simp] theorem State.addReply_plans (f : OutFrame) : (s.addReply f).plans = s.plans := rfl
@[simp] theorem State.addReply_permitQueue (f : OutFrame) : (s.addReply f).permitQueue = s.permitQueue := rfl
@[simp] theorem State.addReply_spin (f : OutFrame) : (s.addReply f).spin = s.spin := rfl
@[simp] theorem State.addReply_overcurrent (f : OutFrame) : (s.addReply f).overcurrent = s.overcurrent := rfl
@[simp] theorem State.addReply_links (f : OutFrame) : (s.addReply f).links = s.links := rfl
@[simp] theorem State.addReply_linkSlots (f : OutFrame) : (s.addReply f).linkSlots = s.linkSlots := rfl
@[simp] theorem State.addReply_zones (f : OutFrame) : (s.addReply f).zones = s.zones := rfl
@[simp] theorem State.addReply_doses (f : OutFrame) : (s.addReply f).doses = s.doses := rfl
@[simp] theorem State.addReply_doseTable (f : OutFrame) : (s.addReply f).doseTable = s.doseTable := rfl
@[simp] theorem State.addReply_rules (f : OutFrame) : (s.addReply f).rules = s.rules := rfl
@[simp] theorem State.addReply_watches (f : OutFrame) : (s.addReply f).watches = s.watches := rfl
@[simp] theorem State.addReply_sort (f : OutFrame) : (s.addReply f).sort = s.sort := rfl
@[simp] theorem State.addReply_port (f : OutFrame) : (s.addReply f).port = s.port := rfl
@[simp] theorem State.addReply_cartons (f : OutFrame) : (s.addReply f).cartons = s.cartons := rfl
@[simp] theorem State.addReply_ring (f : OutFrame) : (s.addReply f).ring = s.ring := rfl
@[simp] theorem State.addReply_line (f : OutFrame) : (s.addReply f).line = { s.line with replies := s.line.replies ++ [f] } := rfl
@[simp] theorem State.addReply_straps (f : OutFrame) : (s.addReply f).straps = s.straps := rfl

/-! ## modSlot -/
@[simp] theorem State.modSlot_pending (i : SlotNo) (f : SlotRec → SlotRec) : (s.modSlot i f).pending = s.pending := rfl
@[simp] theorem State.modSlot_clock (i : SlotNo) (f : SlotRec → SlotRec) : (s.modSlot i f).clock = s.clock := rfl
@[simp] theorem State.modSlot_slots (i : SlotNo) (f : SlotRec → SlotRec) : (s.modSlot i f).slots = s.slots.set i (f (s.slot i)) := rfl
@[simp] theorem State.modSlot_plans (i : SlotNo) (f : SlotRec → SlotRec) : (s.modSlot i f).plans = s.plans := rfl
@[simp] theorem State.modSlot_permitQueue (i : SlotNo) (f : SlotRec → SlotRec) : (s.modSlot i f).permitQueue = s.permitQueue := rfl
@[simp] theorem State.modSlot_spin (i : SlotNo) (f : SlotRec → SlotRec) : (s.modSlot i f).spin = s.spin := rfl
@[simp] theorem State.modSlot_overcurrent (i : SlotNo) (f : SlotRec → SlotRec) : (s.modSlot i f).overcurrent = s.overcurrent := rfl
@[simp] theorem State.modSlot_links (i : SlotNo) (f : SlotRec → SlotRec) : (s.modSlot i f).links = s.links := rfl
@[simp] theorem State.modSlot_linkSlots (i : SlotNo) (f : SlotRec → SlotRec) : (s.modSlot i f).linkSlots = s.linkSlots := rfl
@[simp] theorem State.modSlot_zones (i : SlotNo) (f : SlotRec → SlotRec) : (s.modSlot i f).zones = s.zones := rfl
@[simp] theorem State.modSlot_doses (i : SlotNo) (f : SlotRec → SlotRec) : (s.modSlot i f).doses = s.doses := rfl
@[simp] theorem State.modSlot_doseTable (i : SlotNo) (f : SlotRec → SlotRec) : (s.modSlot i f).doseTable = s.doseTable := rfl
@[simp] theorem State.modSlot_rules (i : SlotNo) (f : SlotRec → SlotRec) : (s.modSlot i f).rules = s.rules := rfl
@[simp] theorem State.modSlot_watches (i : SlotNo) (f : SlotRec → SlotRec) : (s.modSlot i f).watches = s.watches := rfl
@[simp] theorem State.modSlot_sort (i : SlotNo) (f : SlotRec → SlotRec) : (s.modSlot i f).sort = s.sort := rfl
@[simp] theorem State.modSlot_port (i : SlotNo) (f : SlotRec → SlotRec) : (s.modSlot i f).port = s.port := rfl
@[simp] theorem State.modSlot_cartons (i : SlotNo) (f : SlotRec → SlotRec) : (s.modSlot i f).cartons = s.cartons := rfl
@[simp] theorem State.modSlot_ring (i : SlotNo) (f : SlotRec → SlotRec) : (s.modSlot i f).ring = s.ring := rfl
@[simp] theorem State.modSlot_line (i : SlotNo) (f : SlotRec → SlotRec) : (s.modSlot i f).line = s.line := rfl
@[simp] theorem State.modSlot_straps (i : SlotNo) (f : SlotRec → SlotRec) : (s.modSlot i f).straps = s.straps := rfl

/-! ## modRun -/
@[simp] theorem State.modRun_pending (i : SlotNo) (f : RunRec → RunRec) : (s.modRun i f).pending = s.pending := rfl
@[simp] theorem State.modRun_clock (i : SlotNo) (f : RunRec → RunRec) : (s.modRun i f).clock = s.clock := rfl
@[simp] theorem State.modRun_slots (i : SlotNo) (f : RunRec → RunRec) : (s.modRun i f).slots = s.slots.set i { s.slot i with run := f (s.slot i).run } := rfl
@[simp] theorem State.modRun_plans (i : SlotNo) (f : RunRec → RunRec) : (s.modRun i f).plans = s.plans := rfl
@[simp] theorem State.modRun_permitQueue (i : SlotNo) (f : RunRec → RunRec) : (s.modRun i f).permitQueue = s.permitQueue := rfl
@[simp] theorem State.modRun_spin (i : SlotNo) (f : RunRec → RunRec) : (s.modRun i f).spin = s.spin := rfl
@[simp] theorem State.modRun_overcurrent (i : SlotNo) (f : RunRec → RunRec) : (s.modRun i f).overcurrent = s.overcurrent := rfl
@[simp] theorem State.modRun_links (i : SlotNo) (f : RunRec → RunRec) : (s.modRun i f).links = s.links := rfl
@[simp] theorem State.modRun_linkSlots (i : SlotNo) (f : RunRec → RunRec) : (s.modRun i f).linkSlots = s.linkSlots := rfl
@[simp] theorem State.modRun_zones (i : SlotNo) (f : RunRec → RunRec) : (s.modRun i f).zones = s.zones := rfl
@[simp] theorem State.modRun_doses (i : SlotNo) (f : RunRec → RunRec) : (s.modRun i f).doses = s.doses := rfl
@[simp] theorem State.modRun_doseTable (i : SlotNo) (f : RunRec → RunRec) : (s.modRun i f).doseTable = s.doseTable := rfl
@[simp] theorem State.modRun_rules (i : SlotNo) (f : RunRec → RunRec) : (s.modRun i f).rules = s.rules := rfl
@[simp] theorem State.modRun_watches (i : SlotNo) (f : RunRec → RunRec) : (s.modRun i f).watches = s.watches := rfl
@[simp] theorem State.modRun_sort (i : SlotNo) (f : RunRec → RunRec) : (s.modRun i f).sort = s.sort := rfl
@[simp] theorem State.modRun_port (i : SlotNo) (f : RunRec → RunRec) : (s.modRun i f).port = s.port := rfl
@[simp] theorem State.modRun_cartons (i : SlotNo) (f : RunRec → RunRec) : (s.modRun i f).cartons = s.cartons := rfl
@[simp] theorem State.modRun_ring (i : SlotNo) (f : RunRec → RunRec) : (s.modRun i f).ring = s.ring := rfl
@[simp] theorem State.modRun_line (i : SlotNo) (f : RunRec → RunRec) : (s.modRun i f).line = s.line := rfl
@[simp] theorem State.modRun_straps (i : SlotNo) (f : RunRec → RunRec) : (s.modRun i f).straps = s.straps := rfl

/-! ## modLink -/
@[simp] theorem State.modLink_pending (l : ShelfNo) (f : Link → Link) : (s.modLink l f).pending = s.pending := rfl
@[simp] theorem State.modLink_clock (l : ShelfNo) (f : Link → Link) : (s.modLink l f).clock = s.clock := rfl
@[simp] theorem State.modLink_slots (l : ShelfNo) (f : Link → Link) : (s.modLink l f).slots = s.slots := rfl
@[simp] theorem State.modLink_plans (l : ShelfNo) (f : Link → Link) : (s.modLink l f).plans = s.plans := rfl
@[simp] theorem State.modLink_permitQueue (l : ShelfNo) (f : Link → Link) : (s.modLink l f).permitQueue = s.permitQueue := rfl
@[simp] theorem State.modLink_spin (l : ShelfNo) (f : Link → Link) : (s.modLink l f).spin = s.spin := rfl
@[simp] theorem State.modLink_overcurrent (l : ShelfNo) (f : Link → Link) : (s.modLink l f).overcurrent = s.overcurrent := rfl
@[simp] theorem State.modLink_links (l : ShelfNo) (f : Link → Link) : (s.modLink l f).links = s.links.set l (f (s.link l)) := rfl
@[simp] theorem State.modLink_linkSlots (l : ShelfNo) (f : Link → Link) : (s.modLink l f).linkSlots = s.linkSlots := rfl
@[simp] theorem State.modLink_zones (l : ShelfNo) (f : Link → Link) : (s.modLink l f).zones = s.zones := rfl
@[simp] theorem State.modLink_doses (l : ShelfNo) (f : Link → Link) : (s.modLink l f).doses = s.doses := rfl
@[simp] theorem State.modLink_doseTable (l : ShelfNo) (f : Link → Link) : (s.modLink l f).doseTable = s.doseTable := rfl
@[simp] theorem State.modLink_rules (l : ShelfNo) (f : Link → Link) : (s.modLink l f).rules = s.rules := rfl
@[simp] theorem State.modLink_watches (l : ShelfNo) (f : Link → Link) : (s.modLink l f).watches = s.watches := rfl
@[simp] theorem State.modLink_sort (l : ShelfNo) (f : Link → Link) : (s.modLink l f).sort = s.sort := rfl
@[simp] theorem State.modLink_port (l : ShelfNo) (f : Link → Link) : (s.modLink l f).port = s.port := rfl
@[simp] theorem State.modLink_cartons (l : ShelfNo) (f : Link → Link) : (s.modLink l f).cartons = s.cartons := rfl
@[simp] theorem State.modLink_ring (l : ShelfNo) (f : Link → Link) : (s.modLink l f).ring = s.ring := rfl
@[simp] theorem State.modLink_line (l : ShelfNo) (f : Link → Link) : (s.modLink l f).line = s.line := rfl
@[simp] theorem State.modLink_straps (l : ShelfNo) (f : Link → Link) : (s.modLink l f).straps = s.straps := rfl

/-! ## modZone -/
@[simp] theorem State.modZone_pending (z : ShelfNo) (f : Zone → Zone) : (s.modZone z f).pending = s.pending := rfl
@[simp] theorem State.modZone_clock (z : ShelfNo) (f : Zone → Zone) : (s.modZone z f).clock = s.clock := rfl
@[simp] theorem State.modZone_slots (z : ShelfNo) (f : Zone → Zone) : (s.modZone z f).slots = s.slots := rfl
@[simp] theorem State.modZone_plans (z : ShelfNo) (f : Zone → Zone) : (s.modZone z f).plans = s.plans := rfl
@[simp] theorem State.modZone_permitQueue (z : ShelfNo) (f : Zone → Zone) : (s.modZone z f).permitQueue = s.permitQueue := rfl
@[simp] theorem State.modZone_spin (z : ShelfNo) (f : Zone → Zone) : (s.modZone z f).spin = s.spin := rfl
@[simp] theorem State.modZone_overcurrent (z : ShelfNo) (f : Zone → Zone) : (s.modZone z f).overcurrent = s.overcurrent := rfl
@[simp] theorem State.modZone_links (z : ShelfNo) (f : Zone → Zone) : (s.modZone z f).links = s.links := rfl
@[simp] theorem State.modZone_linkSlots (z : ShelfNo) (f : Zone → Zone) : (s.modZone z f).linkSlots = s.linkSlots := rfl
@[simp] theorem State.modZone_zones (z : ShelfNo) (f : Zone → Zone) : (s.modZone z f).zones = s.zones.set z (f (s.zone z)) := rfl
@[simp] theorem State.modZone_doses (z : ShelfNo) (f : Zone → Zone) : (s.modZone z f).doses = s.doses := rfl
@[simp] theorem State.modZone_doseTable (z : ShelfNo) (f : Zone → Zone) : (s.modZone z f).doseTable = s.doseTable := rfl
@[simp] theorem State.modZone_rules (z : ShelfNo) (f : Zone → Zone) : (s.modZone z f).rules = s.rules := rfl
@[simp] theorem State.modZone_watches (z : ShelfNo) (f : Zone → Zone) : (s.modZone z f).watches = s.watches := rfl
@[simp] theorem State.modZone_sort (z : ShelfNo) (f : Zone → Zone) : (s.modZone z f).sort = s.sort := rfl
@[simp] theorem State.modZone_port (z : ShelfNo) (f : Zone → Zone) : (s.modZone z f).port = s.port := rfl
@[simp] theorem State.modZone_cartons (z : ShelfNo) (f : Zone → Zone) : (s.modZone z f).cartons = s.cartons := rfl
@[simp] theorem State.modZone_ring (z : ShelfNo) (f : Zone → Zone) : (s.modZone z f).ring = s.ring := rfl
@[simp] theorem State.modZone_line (z : ShelfNo) (f : Zone → Zone) : (s.modZone z f).line = s.line := rfl
@[simp] theorem State.modZone_straps (z : ShelfNo) (f : Zone → Zone) : (s.modZone z f).straps = s.straps := rfl

/-! ## modCarton -/
@[simp] theorem State.modCarton_pending (b : LaneNo) (f : Carton → Carton) : (s.modCarton b f).pending = s.pending := rfl
@[simp] theorem State.modCarton_clock (b : LaneNo) (f : Carton → Carton) : (s.modCarton b f).clock = s.clock := rfl
@[simp] theorem State.modCarton_slots (b : LaneNo) (f : Carton → Carton) : (s.modCarton b f).slots = s.slots := rfl
@[simp] theorem State.modCarton_plans (b : LaneNo) (f : Carton → Carton) : (s.modCarton b f).plans = s.plans := rfl
@[simp] theorem State.modCarton_permitQueue (b : LaneNo) (f : Carton → Carton) : (s.modCarton b f).permitQueue = s.permitQueue := rfl
@[simp] theorem State.modCarton_spin (b : LaneNo) (f : Carton → Carton) : (s.modCarton b f).spin = s.spin := rfl
@[simp] theorem State.modCarton_overcurrent (b : LaneNo) (f : Carton → Carton) : (s.modCarton b f).overcurrent = s.overcurrent := rfl
@[simp] theorem State.modCarton_links (b : LaneNo) (f : Carton → Carton) : (s.modCarton b f).links = s.links := rfl
@[simp] theorem State.modCarton_linkSlots (b : LaneNo) (f : Carton → Carton) : (s.modCarton b f).linkSlots = s.linkSlots := rfl
@[simp] theorem State.modCarton_zones (b : LaneNo) (f : Carton → Carton) : (s.modCarton b f).zones = s.zones := rfl
@[simp] theorem State.modCarton_doses (b : LaneNo) (f : Carton → Carton) : (s.modCarton b f).doses = s.doses := rfl
@[simp] theorem State.modCarton_doseTable (b : LaneNo) (f : Carton → Carton) : (s.modCarton b f).doseTable = s.doseTable := rfl
@[simp] theorem State.modCarton_rules (b : LaneNo) (f : Carton → Carton) : (s.modCarton b f).rules = s.rules := rfl
@[simp] theorem State.modCarton_watches (b : LaneNo) (f : Carton → Carton) : (s.modCarton b f).watches = s.watches := rfl
@[simp] theorem State.modCarton_sort (b : LaneNo) (f : Carton → Carton) : (s.modCarton b f).sort = s.sort := rfl
@[simp] theorem State.modCarton_port (b : LaneNo) (f : Carton → Carton) : (s.modCarton b f).port = s.port := rfl
@[simp] theorem State.modCarton_cartons (b : LaneNo) (f : Carton → Carton) : (s.modCarton b f).cartons = s.cartons.set b (f (s.carton b)) := rfl
@[simp] theorem State.modCarton_ring (b : LaneNo) (f : Carton → Carton) : (s.modCarton b f).ring = s.ring := rfl
@[simp] theorem State.modCarton_line (b : LaneNo) (f : Carton → Carton) : (s.modCarton b f).line = s.line := rfl
@[simp] theorem State.modCarton_straps (b : LaneNo) (f : Carton → Carton) : (s.modCarton b f).straps = s.straps := rfl

/-! ## Reading after writing -/

@[simp] theorem State.slot_setSlot_same (i : SlotNo) (r : _) : (s.setSlot i r).slot i = r := by
  simp [State.slot, State.setSlot]
theorem State.slot_setSlot_ne {i j : SlotNo} (r : _) (h : j ≠ i) : (s.setSlot i r).slot j = s.slot j := by
  have : (i : Nat) ≠ (j : Nat) := fun e => h (Fin.ext e.symm)
  simp [State.slot, State.setSlot, this]
@[simp] theorem State.plan_setSlot (i : SlotNo) (r : SlotRec) (j : PlanNo) : (s.setSlot i r).plan j = s.plan j := rfl
@[simp] theorem State.link_setSlot (i : SlotNo) (r : SlotRec) (j : ShelfNo) : (s.setSlot i r).link j = s.link j := rfl
@[simp] theorem State.linkSlot_setSlot (i : SlotNo) (r : SlotRec) (j : SlotNo) : (s.setSlot i r).linkSlot j = s.linkSlot j := rfl
@[simp] theorem State.zone_setSlot (i : SlotNo) (r : SlotRec) (j : ShelfNo) : (s.setSlot i r).zone j = s.zone j := rfl
@[simp] theorem State.dose_setSlot (i : SlotNo) (r : SlotRec) (j : SlotNo) : (s.setSlot i r).dose j = s.dose j := rfl
@[simp] theorem State.watch_setSlot (i : SlotNo) (r : SlotRec) (j : SlotNo) : (s.setSlot i r).watch j = s.watch j := rfl
@[simp] theorem State.carton_setSlot (i : SlotNo) (r : SlotRec) (j : LaneNo) : (s.setSlot i r).carton j = s.carton j := rfl
@[simp] theorem State.slot_setPlan (p : PlanNo) (x : Plan) (j : SlotNo) : (s.setPlan p x).slot j = s.slot j := rfl
@[simp] theorem State.plan_setPlan_same (p : PlanNo) (x : _) : (s.setPlan p x).plan p = x := by
  simp [State.plan, State.setPlan]
theorem State.plan_setPlan_ne {p j : PlanNo} (x : _) (h : j ≠ p) : (s.setPlan p x).plan j = s.plan j := by
  have : (p : Nat) ≠ (j : Nat) := fun e => h (Fin.ext e.symm)
  simp [State.plan, State.setPlan, this]
@[simp] theorem State.link_setPlan (p : PlanNo) (x : Plan) (j : ShelfNo) : (s.setPlan p x).link j = s.link j := rfl
@[simp] theorem State.linkSlot_setPlan (p : PlanNo) (x : Plan) (j : SlotNo) : (s.setPlan p x).linkSlot j = s.linkSlot j := rfl
@[simp] theorem State.zone_setPlan (p : PlanNo) (x : Plan) (j : ShelfNo) : (s.setPlan p x).zone j = s.zone j := rfl
@[simp] theorem State.dose_setPlan (p : PlanNo) (x : Plan) (j : SlotNo) : (s.setPlan p x).dose j = s.dose j := rfl
@[simp] theorem State.watch_setPlan (p : PlanNo) (x : Plan) (j : SlotNo) : (s.setPlan p x).watch j = s.watch j := rfl
@[simp] theorem State.carton_setPlan (p : PlanNo) (x : Plan) (j : LaneNo) : (s.setPlan p x).carton j = s.carton j := rfl
@[simp] theorem State.slot_setLink (l : ShelfNo) (x : Link) (j : SlotNo) : (s.setLink l x).slot j = s.slot j := rfl
@[simp] theorem State.plan_setLink (l : ShelfNo) (x : Link) (j : PlanNo) : (s.setLink l x).plan j = s.plan j := rfl
@[simp] theorem State.link_setLink_same (l : ShelfNo) (x : _) : (s.setLink l x).link l = x := by
  simp [State.link, State.setLink]
theorem State.link_setLink_ne {l j : ShelfNo} (x : _) (h : j ≠ l) : (s.setLink l x).link j = s.link j := by
  have : (l : Nat) ≠ (j : Nat) := fun e => h (Fin.ext e.symm)
  simp [State.link, State.setLink, this]
@[simp] theorem State.linkSlot_setLink (l : ShelfNo) (x : Link) (j : SlotNo) : (s.setLink l x).linkSlot j = s.linkSlot j := rfl
@[simp] theorem State.zone_setLink (l : ShelfNo) (x : Link) (j : ShelfNo) : (s.setLink l x).zone j = s.zone j := rfl
@[simp] theorem State.dose_setLink (l : ShelfNo) (x : Link) (j : SlotNo) : (s.setLink l x).dose j = s.dose j := rfl
@[simp] theorem State.watch_setLink (l : ShelfNo) (x : Link) (j : SlotNo) : (s.setLink l x).watch j = s.watch j := rfl
@[simp] theorem State.carton_setLink (l : ShelfNo) (x : Link) (j : LaneNo) : (s.setLink l x).carton j = s.carton j := rfl
@[simp] theorem State.slot_setLinkSlot (i : SlotNo) (x : LinkSlot) (j : SlotNo) : (s.setLinkSlot i x).slot j = s.slot j := rfl
@[simp] theorem State.plan_setLinkSlot (i : SlotNo) (x : LinkSlot) (j : PlanNo) : (s.setLinkSlot i x).plan j = s.plan j := rfl
@[simp] theorem State.link_setLinkSlot (i : SlotNo) (x : LinkSlot) (j : ShelfNo) : (s.setLinkSlot i x).link j = s.link j := rfl
@[simp] theorem State.linkSlot_setLinkSlot_same (i : SlotNo) (x : _) : (s.setLinkSlot i x).linkSlot i = x := by
  simp [State.linkSlot, State.setLinkSlot]
theorem State.linkSlot_setLinkSlot_ne {i j : SlotNo} (x : _) (h : j ≠ i) : (s.setLinkSlot i x).linkSlot j = s.linkSlot j := by
  have : (i : Nat) ≠ (j : Nat) := fun e => h (Fin.ext e.symm)
  simp [State.linkSlot, State.setLinkSlot, this]
@[simp] theorem State.zone_setLinkSlot (i : SlotNo) (x : LinkSlot) (j : ShelfNo) : (s.setLinkSlot i x).zone j = s.zone j := rfl
@[simp] theorem State.dose_setLinkSlot (i : SlotNo) (x : LinkSlot) (j : SlotNo) : (s.setLinkSlot i x).dose j = s.dose j := rfl
@[simp] theorem State.watch_setLinkSlot (i : SlotNo) (x : LinkSlot) (j : SlotNo) : (s.setLinkSlot i x).watch j = s.watch j := rfl
@[simp] theorem State.carton_setLinkSlot (i : SlotNo) (x : LinkSlot) (j : LaneNo) : (s.setLinkSlot i x).carton j = s.carton j := rfl
@[simp] theorem State.slot_setZone (z : ShelfNo) (x : Zone) (j : SlotNo) : (s.setZone z x).slot j = s.slot j := rfl
@[simp] theorem State.plan_setZone (z : ShelfNo) (x : Zone) (j : PlanNo) : (s.setZone z x).plan j = s.plan j := rfl
@[simp] theorem State.link_setZone (z : ShelfNo) (x : Zone) (j : ShelfNo) : (s.setZone z x).link j = s.link j := rfl
@[simp] theorem State.linkSlot_setZone (z : ShelfNo) (x : Zone) (j : SlotNo) : (s.setZone z x).linkSlot j = s.linkSlot j := rfl
@[simp] theorem State.zone_setZone_same (z : ShelfNo) (x : _) : (s.setZone z x).zone z = x := by
  simp [State.zone, State.setZone]
theorem State.zone_setZone_ne {z j : ShelfNo} (x : _) (h : j ≠ z) : (s.setZone z x).zone j = s.zone j := by
  have : (z : Nat) ≠ (j : Nat) := fun e => h (Fin.ext e.symm)
  simp [State.zone, State.setZone, this]
@[simp] theorem State.dose_setZone (z : ShelfNo) (x : Zone) (j : SlotNo) : (s.setZone z x).dose j = s.dose j := rfl
@[simp] theorem State.watch_setZone (z : ShelfNo) (x : Zone) (j : SlotNo) : (s.setZone z x).watch j = s.watch j := rfl
@[simp] theorem State.carton_setZone (z : ShelfNo) (x : Zone) (j : LaneNo) : (s.setZone z x).carton j = s.carton j := rfl
@[simp] theorem State.slot_setDose (i : SlotNo) (x : DoseRec) (j : SlotNo) : (s.setDose i x).slot j = s.slot j := rfl
@[simp] theorem State.plan_setDose (i : SlotNo) (x : DoseRec) (j : PlanNo) : (s.setDose i x).plan j = s.plan j := rfl
@[simp] theorem State.link_setDose (i : SlotNo) (x : DoseRec) (j : ShelfNo) : (s.setDose i x).link j = s.link j := rfl
@[simp] theorem State.linkSlot_setDose (i : SlotNo) (x : DoseRec) (j : SlotNo) : (s.setDose i x).linkSlot j = s.linkSlot j := rfl
@[simp] theorem State.zone_setDose (i : SlotNo) (x : DoseRec) (j : ShelfNo) : (s.setDose i x).zone j = s.zone j := rfl
@[simp] theorem State.dose_setDose_same (i : SlotNo) (x : _) : (s.setDose i x).dose i = x := by
  simp [State.dose, State.setDose]
theorem State.dose_setDose_ne {i j : SlotNo} (x : _) (h : j ≠ i) : (s.setDose i x).dose j = s.dose j := by
  have : (i : Nat) ≠ (j : Nat) := fun e => h (Fin.ext e.symm)
  simp [State.dose, State.setDose, this]
@[simp] theorem State.watch_setDose (i : SlotNo) (x : DoseRec) (j : SlotNo) : (s.setDose i x).watch j = s.watch j := rfl
@[simp] theorem State.carton_setDose (i : SlotNo) (x : DoseRec) (j : LaneNo) : (s.setDose i x).carton j = s.carton j := rfl
@[simp] theorem State.slot_setWatch (i : SlotNo) (x : WatchRec) (j : SlotNo) : (s.setWatch i x).slot j = s.slot j := rfl
@[simp] theorem State.plan_setWatch (i : SlotNo) (x : WatchRec) (j : PlanNo) : (s.setWatch i x).plan j = s.plan j := rfl
@[simp] theorem State.link_setWatch (i : SlotNo) (x : WatchRec) (j : ShelfNo) : (s.setWatch i x).link j = s.link j := rfl
@[simp] theorem State.linkSlot_setWatch (i : SlotNo) (x : WatchRec) (j : SlotNo) : (s.setWatch i x).linkSlot j = s.linkSlot j := rfl
@[simp] theorem State.zone_setWatch (i : SlotNo) (x : WatchRec) (j : ShelfNo) : (s.setWatch i x).zone j = s.zone j := rfl
@[simp] theorem State.dose_setWatch (i : SlotNo) (x : WatchRec) (j : SlotNo) : (s.setWatch i x).dose j = s.dose j := rfl
@[simp] theorem State.watch_setWatch_same (i : SlotNo) (x : _) : (s.setWatch i x).watch i = x := by
  simp [State.watch, State.setWatch]
theorem State.watch_setWatch_ne {i j : SlotNo} (x : _) (h : j ≠ i) : (s.setWatch i x).watch j = s.watch j := by
  have : (i : Nat) ≠ (j : Nat) := fun e => h (Fin.ext e.symm)
  simp [State.watch, State.setWatch, this]
@[simp] theorem State.carton_setWatch (i : SlotNo) (x : WatchRec) (j : LaneNo) : (s.setWatch i x).carton j = s.carton j := rfl
@[simp] theorem State.slot_setCarton (b : LaneNo) (x : Carton) (j : SlotNo) : (s.setCarton b x).slot j = s.slot j := rfl
@[simp] theorem State.plan_setCarton (b : LaneNo) (x : Carton) (j : PlanNo) : (s.setCarton b x).plan j = s.plan j := rfl
@[simp] theorem State.link_setCarton (b : LaneNo) (x : Carton) (j : ShelfNo) : (s.setCarton b x).link j = s.link j := rfl
@[simp] theorem State.linkSlot_setCarton (b : LaneNo) (x : Carton) (j : SlotNo) : (s.setCarton b x).linkSlot j = s.linkSlot j := rfl
@[simp] theorem State.zone_setCarton (b : LaneNo) (x : Carton) (j : ShelfNo) : (s.setCarton b x).zone j = s.zone j := rfl
@[simp] theorem State.dose_setCarton (b : LaneNo) (x : Carton) (j : SlotNo) : (s.setCarton b x).dose j = s.dose j := rfl
@[simp] theorem State.watch_setCarton (b : LaneNo) (x : Carton) (j : SlotNo) : (s.setCarton b x).watch j = s.watch j := rfl
@[simp] theorem State.carton_setCarton_same (b : LaneNo) (x : _) : (s.setCarton b x).carton b = x := by
  simp [State.carton, State.setCarton]
theorem State.carton_setCarton_ne {b j : LaneNo} (x : _) (h : j ≠ b) : (s.setCarton b x).carton j = s.carton j := by
  have : (b : Nat) ≠ (j : Nat) := fun e => h (Fin.ext e.symm)
  simp [State.carton, State.setCarton, this]
@[simp] theorem State.slot_setPort (x : Port) (j : SlotNo) : (s.setPort x).slot j = s.slot j := rfl
@[simp] theorem State.plan_setPort (x : Port) (j : PlanNo) : (s.setPort x).plan j = s.plan j := rfl
@[simp] theorem State.link_setPort (x : Port) (j : ShelfNo) : (s.setPort x).link j = s.link j := rfl
@[simp] theorem State.linkSlot_setPort (x : Port) (j : SlotNo) : (s.setPort x).linkSlot j = s.linkSlot j := rfl
@[simp] theorem State.zone_setPort (x : Port) (j : ShelfNo) : (s.setPort x).zone j = s.zone j := rfl
@[simp] theorem State.dose_setPort (x : Port) (j : SlotNo) : (s.setPort x).dose j = s.dose j := rfl
@[simp] theorem State.watch_setPort (x : Port) (j : SlotNo) : (s.setPort x).watch j = s.watch j := rfl
@[simp] theorem State.carton_setPort (x : Port) (j : LaneNo) : (s.setPort x).carton j = s.carton j := rfl
@[simp] theorem State.slot_setRing (x : Ring) (j : SlotNo) : (s.setRing x).slot j = s.slot j := rfl
@[simp] theorem State.plan_setRing (x : Ring) (j : PlanNo) : (s.setRing x).plan j = s.plan j := rfl
@[simp] theorem State.link_setRing (x : Ring) (j : ShelfNo) : (s.setRing x).link j = s.link j := rfl
@[simp] theorem State.linkSlot_setRing (x : Ring) (j : SlotNo) : (s.setRing x).linkSlot j = s.linkSlot j := rfl
@[simp] theorem State.zone_setRing (x : Ring) (j : ShelfNo) : (s.setRing x).zone j = s.zone j := rfl
@[simp] theorem State.dose_setRing (x : Ring) (j : SlotNo) : (s.setRing x).dose j = s.dose j := rfl
@[simp] theorem State.watch_setRing (x : Ring) (j : SlotNo) : (s.setRing x).watch j = s.watch j := rfl
@[simp] theorem State.carton_setRing (x : Ring) (j : LaneNo) : (s.setRing x).carton j = s.carton j := rfl
@[simp] theorem State.slot_setLine (x : Line) (j : SlotNo) : (s.setLine x).slot j = s.slot j := rfl
@[simp] theorem State.plan_setLine (x : Line) (j : PlanNo) : (s.setLine x).plan j = s.plan j := rfl
@[simp] theorem State.link_setLine (x : Line) (j : ShelfNo) : (s.setLine x).link j = s.link j := rfl
@[simp] theorem State.linkSlot_setLine (x : Line) (j : SlotNo) : (s.setLine x).linkSlot j = s.linkSlot j := rfl
@[simp] theorem State.zone_setLine (x : Line) (j : ShelfNo) : (s.setLine x).zone j = s.zone j := rfl
@[simp] theorem State.dose_setLine (x : Line) (j : SlotNo) : (s.setLine x).dose j = s.dose j := rfl
@[simp] theorem State.watch_setLine (x : Line) (j : SlotNo) : (s.setLine x).watch j = s.watch j := rfl
@[simp] theorem State.carton_setLine (x : Line) (j : LaneNo) : (s.setLine x).carton j = s.carton j := rfl
@[simp] theorem State.slot_setOvercurrent (i : SlotNo) (v : Bool) (j : SlotNo) : (s.setOvercurrent i v).slot j = s.slot j := rfl
@[simp] theorem State.plan_setOvercurrent (i : SlotNo) (v : Bool) (j : PlanNo) : (s.setOvercurrent i v).plan j = s.plan j := rfl
@[simp] theorem State.link_setOvercurrent (i : SlotNo) (v : Bool) (j : ShelfNo) : (s.setOvercurrent i v).link j = s.link j := rfl
@[simp] theorem State.linkSlot_setOvercurrent (i : SlotNo) (v : Bool) (j : SlotNo) : (s.setOvercurrent i v).linkSlot j = s.linkSlot j := rfl
@[simp] theorem State.zone_setOvercurrent (i : SlotNo) (v : Bool) (j : ShelfNo) : (s.setOvercurrent i v).zone j = s.zone j := rfl
@[simp] theorem State.dose_setOvercurrent (i : SlotNo) (v : Bool) (j : SlotNo) : (s.setOvercurrent i v).dose j = s.dose j := rfl
@[simp] theorem State.watch_setOvercurrent (i : SlotNo) (v : Bool) (j : SlotNo) : (s.setOvercurrent i v).watch j = s.watch j := rfl
@[simp] theorem State.carton_setOvercurrent (i : SlotNo) (v : Bool) (j : LaneNo) : (s.setOvercurrent i v).carton j = s.carton j := rfl
@[simp] theorem State.slot_setStraps (x : Option Byte) (j : SlotNo) : (s.setStraps x).slot j = s.slot j := rfl
@[simp] theorem State.plan_setStraps (x : Option Byte) (j : PlanNo) : (s.setStraps x).plan j = s.plan j := rfl
@[simp] theorem State.link_setStraps (x : Option Byte) (j : ShelfNo) : (s.setStraps x).link j = s.link j := rfl
@[simp] theorem State.linkSlot_setStraps (x : Option Byte) (j : SlotNo) : (s.setStraps x).linkSlot j = s.linkSlot j := rfl
@[simp] theorem State.zone_setStraps (x : Option Byte) (j : ShelfNo) : (s.setStraps x).zone j = s.zone j := rfl
@[simp] theorem State.dose_setStraps (x : Option Byte) (j : SlotNo) : (s.setStraps x).dose j = s.dose j := rfl
@[simp] theorem State.watch_setStraps (x : Option Byte) (j : SlotNo) : (s.setStraps x).watch j = s.watch j := rfl
@[simp] theorem State.carton_setStraps (x : Option Byte) (j : LaneNo) : (s.setStraps x).carton j = s.carton j := rfl
@[simp] theorem State.slot_setBar (b : LaneNo) (v : Bool) (j : SlotNo) : (s.setBar b v).slot j = s.slot j := rfl
@[simp] theorem State.plan_setBar (b : LaneNo) (v : Bool) (j : PlanNo) : (s.setBar b v).plan j = s.plan j := rfl
@[simp] theorem State.link_setBar (b : LaneNo) (v : Bool) (j : ShelfNo) : (s.setBar b v).link j = s.link j := rfl
@[simp] theorem State.linkSlot_setBar (b : LaneNo) (v : Bool) (j : SlotNo) : (s.setBar b v).linkSlot j = s.linkSlot j := rfl
@[simp] theorem State.zone_setBar (b : LaneNo) (v : Bool) (j : ShelfNo) : (s.setBar b v).zone j = s.zone j := rfl
@[simp] theorem State.dose_setBar (b : LaneNo) (v : Bool) (j : SlotNo) : (s.setBar b v).dose j = s.dose j := rfl
@[simp] theorem State.watch_setBar (b : LaneNo) (v : Bool) (j : SlotNo) : (s.setBar b v).watch j = s.watch j := rfl
@[simp] theorem State.carton_setBar (b : LaneNo) (v : Bool) (j : LaneNo) : (s.setBar b v).carton j = s.carton j := rfl
@[simp] theorem State.slot_addReply (f : OutFrame) (j : SlotNo) : (s.addReply f).slot j = s.slot j := rfl
@[simp] theorem State.plan_addReply (f : OutFrame) (j : PlanNo) : (s.addReply f).plan j = s.plan j := rfl
@[simp] theorem State.link_addReply (f : OutFrame) (j : ShelfNo) : (s.addReply f).link j = s.link j := rfl
@[simp] theorem State.linkSlot_addReply (f : OutFrame) (j : SlotNo) : (s.addReply f).linkSlot j = s.linkSlot j := rfl
@[simp] theorem State.zone_addReply (f : OutFrame) (j : ShelfNo) : (s.addReply f).zone j = s.zone j := rfl
@[simp] theorem State.dose_addReply (f : OutFrame) (j : SlotNo) : (s.addReply f).dose j = s.dose j := rfl
@[simp] theorem State.watch_addReply (f : OutFrame) (j : SlotNo) : (s.addReply f).watch j = s.watch j := rfl
@[simp] theorem State.carton_addReply (f : OutFrame) (j : LaneNo) : (s.addReply f).carton j = s.carton j := rfl
@[simp] theorem State.slot_modSlot_same (i : SlotNo) (f : SlotRec → SlotRec) : (s.modSlot i f).slot i = f (s.slot i) := by
  simp [State.slot, State.modSlot, State.setSlot]
theorem State.slot_modSlot_ne {i j : SlotNo} (f : _) (h : j ≠ i) : (s.modSlot i f).slot j = s.slot j := by
  have : (i : Nat) ≠ (j : Nat) := fun e => h (Fin.ext e.symm)
  simp [State.slot, State.modSlot, State.setSlot, this]
@[simp] theorem State.plan_modSlot (i : SlotNo) (f : SlotRec → SlotRec) (j : PlanNo) : (s.modSlot i f).plan j = s.plan j := rfl
@[simp] theorem State.link_modSlot (i : SlotNo) (f : SlotRec → SlotRec) (j : ShelfNo) : (s.modSlot i f).link j = s.link j := rfl
@[simp] theorem State.linkSlot_modSlot (i : SlotNo) (f : SlotRec → SlotRec) (j : SlotNo) : (s.modSlot i f).linkSlot j = s.linkSlot j := rfl
@[simp] theorem State.zone_modSlot (i : SlotNo) (f : SlotRec → SlotRec) (j : ShelfNo) : (s.modSlot i f).zone j = s.zone j := rfl
@[simp] theorem State.dose_modSlot (i : SlotNo) (f : SlotRec → SlotRec) (j : SlotNo) : (s.modSlot i f).dose j = s.dose j := rfl
@[simp] theorem State.watch_modSlot (i : SlotNo) (f : SlotRec → SlotRec) (j : SlotNo) : (s.modSlot i f).watch j = s.watch j := rfl
@[simp] theorem State.carton_modSlot (i : SlotNo) (f : SlotRec → SlotRec) (j : LaneNo) : (s.modSlot i f).carton j = s.carton j := rfl
@[simp] theorem State.slot_modRun_same (i : SlotNo) (f : RunRec → RunRec) : (s.modRun i f).slot i = { s.slot i with run := f (s.slot i).run } := by
  simp [State.slot, State.modRun, State.modSlot, State.setSlot]
theorem State.slot_modRun_ne {i j : SlotNo} (f : _) (h : j ≠ i) : (s.modRun i f).slot j = s.slot j := by
  have : (i : Nat) ≠ (j : Nat) := fun e => h (Fin.ext e.symm)
  simp [State.slot, State.modRun, State.modSlot, State.setSlot, this]
@[simp] theorem State.plan_modRun (i : SlotNo) (f : RunRec → RunRec) (j : PlanNo) : (s.modRun i f).plan j = s.plan j := rfl
@[simp] theorem State.link_modRun (i : SlotNo) (f : RunRec → RunRec) (j : ShelfNo) : (s.modRun i f).link j = s.link j := rfl
@[simp] theorem State.linkSlot_modRun (i : SlotNo) (f : RunRec → RunRec) (j : SlotNo) : (s.modRun i f).linkSlot j = s.linkSlot j := rfl
@[simp] theorem State.zone_modRun (i : SlotNo) (f : RunRec → RunRec) (j : ShelfNo) : (s.modRun i f).zone j = s.zone j := rfl
@[simp] theorem State.dose_modRun (i : SlotNo) (f : RunRec → RunRec) (j : SlotNo) : (s.modRun i f).dose j = s.dose j := rfl
@[simp] theorem State.watch_modRun (i : SlotNo) (f : RunRec → RunRec) (j : SlotNo) : (s.modRun i f).watch j = s.watch j := rfl
@[simp] theorem State.carton_modRun (i : SlotNo) (f : RunRec → RunRec) (j : LaneNo) : (s.modRun i f).carton j = s.carton j := rfl
@[simp] theorem State.slot_modLink (l : ShelfNo) (f : Link → Link) (j : SlotNo) : (s.modLink l f).slot j = s.slot j := rfl
@[simp] theorem State.plan_modLink (l : ShelfNo) (f : Link → Link) (j : PlanNo) : (s.modLink l f).plan j = s.plan j := rfl
@[simp] theorem State.link_modLink_same (l : ShelfNo) (f : Link → Link) : (s.modLink l f).link l = f (s.link l) := by
  simp [State.link, State.modLink, State.setLink]
theorem State.link_modLink_ne {l j : ShelfNo} (f : _) (h : j ≠ l) : (s.modLink l f).link j = s.link j := by
  have : (l : Nat) ≠ (j : Nat) := fun e => h (Fin.ext e.symm)
  simp [State.link, State.modLink, State.setLink, this]
@[simp] theorem State.linkSlot_modLink (l : ShelfNo) (f : Link → Link) (j : SlotNo) : (s.modLink l f).linkSlot j = s.linkSlot j := rfl
@[simp] theorem State.zone_modLink (l : ShelfNo) (f : Link → Link) (j : ShelfNo) : (s.modLink l f).zone j = s.zone j := rfl
@[simp] theorem State.dose_modLink (l : ShelfNo) (f : Link → Link) (j : SlotNo) : (s.modLink l f).dose j = s.dose j := rfl
@[simp] theorem State.watch_modLink (l : ShelfNo) (f : Link → Link) (j : SlotNo) : (s.modLink l f).watch j = s.watch j := rfl
@[simp] theorem State.carton_modLink (l : ShelfNo) (f : Link → Link) (j : LaneNo) : (s.modLink l f).carton j = s.carton j := rfl
@[simp] theorem State.slot_modZone (z : ShelfNo) (f : Zone → Zone) (j : SlotNo) : (s.modZone z f).slot j = s.slot j := rfl
@[simp] theorem State.plan_modZone (z : ShelfNo) (f : Zone → Zone) (j : PlanNo) : (s.modZone z f).plan j = s.plan j := rfl
@[simp] theorem State.link_modZone (z : ShelfNo) (f : Zone → Zone) (j : ShelfNo) : (s.modZone z f).link j = s.link j := rfl
@[simp] theorem State.linkSlot_modZone (z : ShelfNo) (f : Zone → Zone) (j : SlotNo) : (s.modZone z f).linkSlot j = s.linkSlot j := rfl
@[simp] theorem State.zone_modZone_same (z : ShelfNo) (f : Zone → Zone) : (s.modZone z f).zone z = f (s.zone z) := by
  simp [State.zone, State.modZone, State.setZone]
theorem State.zone_modZone_ne {z j : ShelfNo} (f : _) (h : j ≠ z) : (s.modZone z f).zone j = s.zone j := by
  have : (z : Nat) ≠ (j : Nat) := fun e => h (Fin.ext e.symm)
  simp [State.zone, State.modZone, State.setZone, this]
@[simp] theorem State.dose_modZone (z : ShelfNo) (f : Zone → Zone) (j : SlotNo) : (s.modZone z f).dose j = s.dose j := rfl
@[simp] theorem State.watch_modZone (z : ShelfNo) (f : Zone → Zone) (j : SlotNo) : (s.modZone z f).watch j = s.watch j := rfl
@[simp] theorem State.carton_modZone (z : ShelfNo) (f : Zone → Zone) (j : LaneNo) : (s.modZone z f).carton j = s.carton j := rfl
@[simp] theorem State.slot_modCarton (b : LaneNo) (f : Carton → Carton) (j : SlotNo) : (s.modCarton b f).slot j = s.slot j := rfl
@[simp] theorem State.plan_modCarton (b : LaneNo) (f : Carton → Carton) (j : PlanNo) : (s.modCarton b f).plan j = s.plan j := rfl
@[simp] theorem State.link_modCarton (b : LaneNo) (f : Carton → Carton) (j : ShelfNo) : (s.modCarton b f).link j = s.link j := rfl
@[simp] theorem State.linkSlot_modCarton (b : LaneNo) (f : Carton → Carton) (j : SlotNo) : (s.modCarton b f).linkSlot j = s.linkSlot j := rfl
@[simp] theorem State.zone_modCarton (b : LaneNo) (f : Carton → Carton) (j : ShelfNo) : (s.modCarton b f).zone j = s.zone j := rfl
@[simp] theorem State.dose_modCarton (b : LaneNo) (f : Carton → Carton) (j : SlotNo) : (s.modCarton b f).dose j = s.dose j := rfl
@[simp] theorem State.watch_modCarton (b : LaneNo) (f : Carton → Carton) (j : SlotNo) : (s.modCarton b f).watch j = s.watch j := rfl
@[simp] theorem State.carton_modCarton_same (b : LaneNo) (f : Carton → Carton) : (s.modCarton b f).carton b = f (s.carton b) := by
  simp [State.carton, State.modCarton, State.setCarton]
theorem State.carton_modCarton_ne {b j : LaneNo} (f : _) (h : j ≠ b) : (s.modCarton b f).carton j = s.carton j := by
  have : (b : Nat) ≠ (j : Nat) := fun e => h (Fin.ext e.symm)
  simp [State.carton, State.modCarton, State.setCarton, this]

end Sys2Proof.Machine
end

