-- ==== Sys2Proof/Laws/Updates.lean ====
section
/-! SUPPORT. Updates in one normal form: a second write of a record replaces the first, writes of different records stand
in a fixed order, and a queued notice changes the line port alone. -/

namespace Sys2Proof.Machine

variable (s : State)

/-! ## The last write stands -/

@[simp] theorem State.setSlot_setSlot (i : SlotNo) (x y : SlotRec) : (s.setSlot i x).setSlot i y = s.setSlot i y := by
  simp [State.setSlot]
@[simp] theorem State.setPlan_setPlan (p : PlanNo) (x y : Plan) : (s.setPlan p x).setPlan p y = s.setPlan p y := by
  simp [State.setPlan]
@[simp] theorem State.setLink_setLink (l : ShelfNo) (x y : Link) : (s.setLink l x).setLink l y = s.setLink l y := by
  simp [State.setLink]
@[simp] theorem State.setLinkSlot_setLinkSlot (k : SlotNo) (x y : LinkSlot) : (s.setLinkSlot k x).setLinkSlot k y = s.setLinkSlot k y := by
  simp [State.setLinkSlot]
@[simp] theorem State.setZone_setZone (z : ShelfNo) (x y : Zone) : (s.setZone z x).setZone z y = s.setZone z y := by
  simp [State.setZone]
@[simp] theorem State.setDose_setDose (j : SlotNo) (x y : DoseRec) : (s.setDose j x).setDose j y = s.setDose j y := by
  simp [State.setDose]
@[simp] theorem State.setWatch_setWatch (w : SlotNo) (x y : WatchRec) : (s.setWatch w x).setWatch w y = s.setWatch w y := by
  simp [State.setWatch]
@[simp] theorem State.setCarton_setCarton (b : LaneNo) (x y : Carton) : (s.setCarton b x).setCarton b y = s.setCarton b y := by
  simp [State.setCarton]
@[simp] theorem State.setPort_setPort (x y : Port) : (s.setPort x).setPort y = s.setPort y := rfl
@[simp] theorem State.setRing_setRing (x y : Ring) : (s.setRing x).setRing y = s.setRing y := rfl
@[simp] theorem State.setLine_setLine (x y : Line) : (s.setLine x).setLine y = s.setLine y := rfl

/-! ## A record written as it stands -/

@[simp] theorem State.setSlot_slot (i : SlotNo) : s.setSlot i (s.slot i) = s := by
  simp [State.setSlot, State.slot]
@[simp] theorem State.setPlan_plan (p : PlanNo) : s.setPlan p (s.plan p) = s := by
  simp [State.setPlan, State.plan]
@[simp] theorem State.setLink_link (l : ShelfNo) : s.setLink l (s.link l) = s := by
  simp [State.setLink, State.link]
@[simp] theorem State.setLinkSlot_linkSlot (k : SlotNo) : s.setLinkSlot k (s.linkSlot k) = s := by
  simp [State.setLinkSlot, State.linkSlot]
@[simp] theorem State.setZone_zone (z : ShelfNo) : s.setZone z (s.zone z) = s := by
  simp [State.setZone, State.zone]
@[simp] theorem State.setDose_dose (j : SlotNo) : s.setDose j (s.dose j) = s := by
  simp [State.setDose, State.dose]
@[simp] theorem State.setWatch_watch (w : SlotNo) : s.setWatch w (s.watch w) = s := by
  simp [State.setWatch, State.watch]
@[simp] theorem State.setCarton_carton (b : LaneNo) : s.setCarton b (s.carton b) = s := by
  simp [State.setCarton, State.carton]
@[simp] theorem State.setPort_self : s.setPort s.port = s := rfl
@[simp] theorem State.setRing_self : s.setRing s.ring = s := rfl
@[simp] theorem State.setLine_self : s.setLine s.line = s := rfl

/-! ## Writes of different records -/

@[simp] theorem State.setPlan_setSlot (i : SlotNo) (p : PlanNo) (x : SlotRec) (y : Plan) :
    (s.setPlan p y).setSlot i x = (s.setSlot i x).setPlan p y := rfl
@[simp] theorem State.setLink_setSlot (i : SlotNo) (l : ShelfNo) (x : SlotRec) (y : Link) :
    (s.setLink l y).setSlot i x = (s.setSlot i x).setLink l y := rfl
@[simp] theorem State.setLinkSlot_setSlot (i : SlotNo) (k : SlotNo) (x : SlotRec) (y : LinkSlot) :
    (s.setLinkSlot k y).setSlot i x = (s.setSlot i x).setLinkSlot k y := rfl
@[simp] theorem State.setZone_setSlot (i : SlotNo) (z : ShelfNo) (x : SlotRec) (y : Zone) :
    (s.setZone z y).setSlot i x = (s.setSlot i x).setZone z y := rfl
@[simp] theorem State.setDose_setSlot (i : SlotNo) (j : SlotNo) (x : SlotRec) (y : DoseRec) :
    (s.setDose j y).setSlot i x = (s.setSlot i x).setDose j y := rfl
@[simp] theorem State.setWatch_setSlot (i : SlotNo) (w : SlotNo) (x : SlotRec) (y : WatchRec) :
    (s.setWatch w y).setSlot i x = (s.setSlot i x).setWatch w y := rfl
@[simp] theorem State.setCarton_setSlot (i : SlotNo) (b : LaneNo) (x : SlotRec) (y : Carton) :
    (s.setCarton b y).setSlot i x = (s.setSlot i x).setCarton b y := rfl
@[simp] theorem State.setPort_setSlot (i : SlotNo) (x : SlotRec) (y : Port) :
    (s.setPort y).setSlot i x = (s.setSlot i x).setPort y := rfl
@[simp] theorem State.setRing_setSlot (i : SlotNo) (x : SlotRec) (y : Ring) :
    (s.setRing y).setSlot i x = (s.setSlot i x).setRing y := rfl
@[simp] theorem State.setLine_setSlot (i : SlotNo) (x : SlotRec) (y : Line) :
    (s.setLine y).setSlot i x = (s.setSlot i x).setLine y := rfl
@[simp] theorem State.setLink_setPlan (p : PlanNo) (l : ShelfNo) (x : Plan) (y : Link) :
    (s.setLink l y).setPlan p x = (s.setPlan p x).setLink l y := rfl
@[simp] theorem State.setLinkSlot_setPlan (p : PlanNo) (k : SlotNo) (x : Plan) (y : LinkSlot) :
    (s.setLinkSlot k y).setPlan p x = (s.setPlan p x).setLinkSlot k y := rfl
@[simp] theorem State.setZone_setPlan (p : PlanNo) (z : ShelfNo) (x : Plan) (y : Zone) :
    (s.setZone z y).setPlan p x = (s.setPlan p x).setZone z y := rfl
@[simp] theorem State.setDose_setPlan (p : PlanNo) (j : SlotNo) (x : Plan) (y : DoseRec) :
    (s.setDose j y).setPlan p x = (s.setPlan p x).setDose j y := rfl
@[simp] theorem State.setWatch_setPlan (p : PlanNo) (w : SlotNo) (x : Plan) (y : WatchRec) :
    (s.setWatch w y).setPlan p x = (s.setPlan p x).setWatch w y := rfl
@[simp] theorem State.setCarton_setPlan (p : PlanNo) (b : LaneNo) (x : Plan) (y : Carton) :
    (s.setCarton b y).setPlan p x = (s.setPlan p x).setCarton b y := rfl
@[simp] theorem State.setPort_setPlan (p : PlanNo) (x : Plan) (y : Port) :
    (s.setPort y).setPlan p x = (s.setPlan p x).setPort y := rfl
@[simp] theorem State.setRing_setPlan (p : PlanNo) (x : Plan) (y : Ring) :
    (s.setRing y).setPlan p x = (s.setPlan p x).setRing y := rfl
@[simp] theorem State.setLine_setPlan (p : PlanNo) (x : Plan) (y : Line) :
    (s.setLine y).setPlan p x = (s.setPlan p x).setLine y := rfl
@[simp] theorem State.setLinkSlot_setLink (l : ShelfNo) (k : SlotNo) (x : Link) (y : LinkSlot) :
    (s.setLinkSlot k y).setLink l x = (s.setLink l x).setLinkSlot k y := rfl
@[simp] theorem State.setZone_setLink (l : ShelfNo) (z : ShelfNo) (x : Link) (y : Zone) :
    (s.setZone z y).setLink l x = (s.setLink l x).setZone z y := rfl
@[simp] theorem State.setDose_setLink (l : ShelfNo) (j : SlotNo) (x : Link) (y : DoseRec) :
    (s.setDose j y).setLink l x = (s.setLink l x).setDose j y := rfl
@[simp] theorem State.setWatch_setLink (l : ShelfNo) (w : SlotNo) (x : Link) (y : WatchRec) :
    (s.setWatch w y).setLink l x = (s.setLink l x).setWatch w y := rfl
@[simp] theorem State.setCarton_setLink (l : ShelfNo) (b : LaneNo) (x : Link) (y : Carton) :
    (s.setCarton b y).setLink l x = (s.setLink l x).setCarton b y := rfl
@[simp] theorem State.setPort_setLink (l : ShelfNo) (x : Link) (y : Port) :
    (s.setPort y).setLink l x = (s.setLink l x).setPort y := rfl
@[simp] theorem State.setRing_setLink (l : ShelfNo) (x : Link) (y : Ring) :
    (s.setRing y).setLink l x = (s.setLink l x).setRing y := rfl
@[simp] theorem State.setLine_setLink (l : ShelfNo) (x : Link) (y : Line) :
    (s.setLine y).setLink l x = (s.setLink l x).setLine y := rfl
@[simp] theorem State.setZone_setLinkSlot (k : SlotNo) (z : ShelfNo) (x : LinkSlot) (y : Zone) :
    (s.setZone z y).setLinkSlot k x = (s.setLinkSlot k x).setZone z y := rfl
@[simp] theorem State.setDose_setLinkSlot (k : SlotNo) (j : SlotNo) (x : LinkSlot) (y : DoseRec) :
    (s.setDose j y).setLinkSlot k x = (s.setLinkSlot k x).setDose j y := rfl
@[simp] theorem State.setWatch_setLinkSlot (k : SlotNo) (w : SlotNo) (x : LinkSlot) (y : WatchRec) :
    (s.setWatch w y).setLinkSlot k x = (s.setLinkSlot k x).setWatch w y := rfl
@[simp] theorem State.setCarton_setLinkSlot (k : SlotNo) (b : LaneNo) (x : LinkSlot) (y : Carton) :
    (s.setCarton b y).setLinkSlot k x = (s.setLinkSlot k x).setCarton b y := rfl
@[simp] theorem State.setPort_setLinkSlot (k : SlotNo) (x : LinkSlot) (y : Port) :
    (s.setPort y).setLinkSlot k x = (s.setLinkSlot k x).setPort y := rfl
@[simp] theorem State.setRing_setLinkSlot (k : SlotNo) (x : LinkSlot) (y : Ring) :
    (s.setRing y).setLinkSlot k x = (s.setLinkSlot k x).setRing y := rfl
@[simp] theorem State.setLine_setLinkSlot (k : SlotNo) (x : LinkSlot) (y : Line) :
    (s.setLine y).setLinkSlot k x = (s.setLinkSlot k x).setLine y := rfl
@[simp] theorem State.setDose_setZone (z : ShelfNo) (j : SlotNo) (x : Zone) (y : DoseRec) :
    (s.setDose j y).setZone z x = (s.setZone z x).setDose j y := rfl
@[simp] theorem State.setWatch_setZone (z : ShelfNo) (w : SlotNo) (x : Zone) (y : WatchRec) :
    (s.setWatch w y).setZone z x = (s.setZone z x).setWatch w y := rfl
@[simp] theorem State.setCarton_setZone (z : ShelfNo) (b : LaneNo) (x : Zone) (y : Carton) :
    (s.setCarton b y).setZone z x = (s.setZone z x).setCarton b y := rfl
@[simp] theorem State.setPort_setZone (z : ShelfNo) (x : Zone) (y : Port) :
    (s.setPort y).setZone z x = (s.setZone z x).setPort y := rfl
@[simp] theorem State.setRing_setZone (z : ShelfNo) (x : Zone) (y : Ring) :
    (s.setRing y).setZone z x = (s.setZone z x).setRing y := rfl
@[simp] theorem State.setLine_setZone (z : ShelfNo) (x : Zone) (y : Line) :
    (s.setLine y).setZone z x = (s.setZone z x).setLine y := rfl
@[simp] theorem State.setWatch_setDose (j : SlotNo) (w : SlotNo) (x : DoseRec) (y : WatchRec) :
    (s.setWatch w y).setDose j x = (s.setDose j x).setWatch w y := rfl
@[simp] theorem State.setCarton_setDose (j : SlotNo) (b : LaneNo) (x : DoseRec) (y : Carton) :
    (s.setCarton b y).setDose j x = (s.setDose j x).setCarton b y := rfl
@[simp] theorem State.setPort_setDose (j : SlotNo) (x : DoseRec) (y : Port) :
    (s.setPort y).setDose j x = (s.setDose j x).setPort y := rfl
@[simp] theorem State.setRing_setDose (j : SlotNo) (x : DoseRec) (y : Ring) :
    (s.setRing y).setDose j x = (s.setDose j x).setRing y := rfl
@[simp] theorem State.setLine_setDose (j : SlotNo) (x : DoseRec) (y : Line) :
    (s.setLine y).setDose j x = (s.setDose j x).setLine y := rfl
@[simp] theorem State.setCarton_setWatch (w : SlotNo) (b : LaneNo) (x : WatchRec) (y : Carton) :
    (s.setCarton b y).setWatch w x = (s.setWatch w x).setCarton b y := rfl
@[simp] theorem State.setPort_setWatch (w : SlotNo) (x : WatchRec) (y : Port) :
    (s.setPort y).setWatch w x = (s.setWatch w x).setPort y := rfl
@[simp] theorem State.setRing_setWatch (w : SlotNo) (x : WatchRec) (y : Ring) :
    (s.setRing y).setWatch w x = (s.setWatch w x).setRing y := rfl
@[simp] theorem State.setLine_setWatch (w : SlotNo) (x : WatchRec) (y : Line) :
    (s.setLine y).setWatch w x = (s.setWatch w x).setLine y := rfl
@[simp] theorem State.setPort_setCarton (b : LaneNo) (x : Carton) (y : Port) :
    (s.setPort y).setCarton b x = (s.setCarton b x).setPort y := rfl
@[simp] theorem State.setRing_setCarton (b : LaneNo) (x : Carton) (y : Ring) :
    (s.setRing y).setCarton b x = (s.setCarton b x).setRing y := rfl
@[simp] theorem State.setLine_setCarton (b : LaneNo) (x : Carton) (y : Line) :
    (s.setLine y).setCarton b x = (s.setCarton b x).setLine y := rfl
@[simp] theorem State.setRing_setPort (x : Port) (y : Ring) :
    (s.setRing y).setPort x = (s.setPort x).setRing y := rfl
@[simp] theorem State.setLine_setPort (x : Port) (y : Line) :
    (s.setLine y).setPort x = (s.setPort x).setLine y := rfl
@[simp] theorem State.setLine_setRing (x : Ring) (y : Line) :
    (s.setLine y).setRing x = (s.setRing x).setLine y := rfl

/-! ## A queued notice (R194, R195) -/

@[simp] theorem State.notify_pending (b : NoticeBody) : (s.notify b).pending = s.pending := by
  unfold State.notify; split <;> rfl
@[simp] theorem State.notify_clock (b : NoticeBody) : (s.notify b).clock = s.clock := by
  unfold State.notify; split <;> rfl
@[simp] theorem State.notify_slots (b : NoticeBody) : (s.notify b).slots = s.slots := by
  unfold State.notify; split <;> rfl
@[simp] theorem State.notify_plans (b : NoticeBody) : (s.notify b).plans = s.plans := by
  unfold State.notify; split <;> rfl
@[simp] theorem State.notify_permitQueue (b : NoticeBody) : (s.notify b).permitQueue = s.permitQueue := by
  unfold State.notify; split <;> rfl
@[simp] theorem State.notify_spin (b : NoticeBody) : (s.notify b).spin = s.spin := by
  unfold State.notify; split <;> rfl
@[simp] theorem State.notify_overcurrent (b : NoticeBody) : (s.notify b).overcurrent = s.overcurrent := by
  unfold State.notify; split <;> rfl
@[simp] theorem State.notify_links (b : NoticeBody) : (s.notify b).links = s.links := by
  unfold State.notify; split <;> rfl
@[simp] theorem State.notify_linkSlots (b : NoticeBody) : (s.notify b).linkSlots = s.linkSlots := by
  unfold State.notify; split <;> rfl
@[simp] theorem State.notify_zones (b : NoticeBody) : (s.notify b).zones = s.zones := by
  unfold State.notify; split <;> rfl
@[simp] theorem State.notify_doses (b : NoticeBody) : (s.notify b).doses = s.doses := by
  unfold State.notify; split <;> rfl
@[simp] theorem State.notify_doseTable (b : NoticeBody) : (s.notify b).doseTable = s.doseTable := by
  unfold State.notify; split <;> rfl
@[simp] theorem State.notify_rules (b : NoticeBody) : (s.notify b).rules = s.rules := by
  unfold State.notify; split <;> rfl
@[simp] theorem State.notify_watches (b : NoticeBody) : (s.notify b).watches = s.watches := by
  unfold State.notify; split <;> rfl
@[simp] theorem State.notify_sort (b : NoticeBody) : (s.notify b).sort = s.sort := by
  unfold State.notify; split <;> rfl
@[simp] theorem State.notify_port (b : NoticeBody) : (s.notify b).port = s.port := by
  unfold State.notify; split <;> rfl
@[simp] theorem State.notify_cartons (b : NoticeBody) : (s.notify b).cartons = s.cartons := by
  unfold State.notify; split <;> rfl
@[simp] theorem State.notify_ring (b : NoticeBody) : (s.notify b).ring = s.ring := by
  unfold State.notify; split <;> rfl
@[simp] theorem State.notify_straps (b : NoticeBody) : (s.notify b).straps = s.straps := by
  unfold State.notify; split <;> rfl
@[simp] theorem State.notify_slot (b : NoticeBody) (i : SlotNo) : (s.notify b).slot i = s.slot i := by
  unfold State.notify; split <;> rfl
@[simp] theorem State.notify_plan (b : NoticeBody) (p : PlanNo) : (s.notify b).plan p = s.plan p := by
  unfold State.notify; split <;> rfl
@[simp] theorem State.notify_link (b : NoticeBody) (l : ShelfNo) : (s.notify b).link l = s.link l := by
  unfold State.notify; split <;> rfl
@[simp] theorem State.notify_linkSlot (b : NoticeBody) (k : SlotNo) : (s.notify b).linkSlot k = s.linkSlot k := by
  unfold State.notify; split <;> rfl
@[simp] theorem State.notify_zone (b : NoticeBody) (z : ShelfNo) : (s.notify b).zone z = s.zone z := by
  unfold State.notify; split <;> rfl
@[simp] theorem State.notify_dose (b : NoticeBody) (j : SlotNo) : (s.notify b).dose j = s.dose j := by
  unfold State.notify; split <;> rfl
@[simp] theorem State.notify_watch (b : NoticeBody) (w : SlotNo) : (s.notify b).watch w = s.watch w := by
  unfold State.notify; split <;> rfl
@[simp] theorem State.notify_carton (n : NoticeBody) (b : LaneNo) : (s.notify n).carton b = s.carton b := by
  unfold State.notify; split <;> rfl
@[simp] theorem State.notify_now (b : NoticeBody) : (s.notify b).now = s.now := by
  unfold State.notify; split <;> rfl
@[simp] theorem State.notify_setSlot (b : NoticeBody) (i : SlotNo) (x : SlotRec) :
    (s.notify b).setSlot i x = (s.setSlot i x).notify b := by
  unfold State.notify State.setSlot; split <;> simp_all [State.setLine]
@[simp] theorem State.notify_setPlan (b : NoticeBody) (p : PlanNo) (x : Plan) :
    (s.notify b).setPlan p x = (s.setPlan p x).notify b := by
  unfold State.notify State.setPlan; split <;> simp_all [State.setLine]
@[simp] theorem State.notify_setLink (b : NoticeBody) (l : ShelfNo) (x : Link) :
    (s.notify b).setLink l x = (s.setLink l x).notify b := by
  unfold State.notify State.setLink; split <;> simp_all [State.setLine]
@[simp] theorem State.notify_setLinkSlot (b : NoticeBody) (k : SlotNo) (x : LinkSlot) :
    (s.notify b).setLinkSlot k x = (s.setLinkSlot k x).notify b := by
  unfold State.notify State.setLinkSlot; split <;> simp_all [State.setLine]
@[simp] theorem State.notify_setZone (b : NoticeBody) (z : ShelfNo) (x : Zone) :
    (s.notify b).setZone z x = (s.setZone z x).notify b := by
  unfold State.notify State.setZone; split <;> simp_all [State.setLine]
@[simp] theorem State.notify_setDose (b : NoticeBody) (j : SlotNo) (x : DoseRec) :
    (s.notify b).setDose j x = (s.setDose j x).notify b := by
  unfold State.notify State.setDose; split <;> simp_all [State.setLine]
@[simp] theorem State.notify_setWatch (b : NoticeBody) (w : SlotNo) (x : WatchRec) :
    (s.notify b).setWatch w x = (s.setWatch w x).notify b := by
  unfold State.notify State.setWatch; split <;> simp_all [State.setLine]
@[simp] theorem State.notify_setCarton (b : NoticeBody) (c : LaneNo) (x : Carton) :
    (s.notify b).setCarton c x = (s.setCarton c x).notify b := by
  unfold State.notify State.setCarton; split <;> simp_all [State.setLine]
@[simp] theorem State.notify_setPort (b : NoticeBody) (x : Port) :
    (s.notify b).setPort x = (s.setPort x).notify b := by
  unfold State.notify State.setPort; split <;> simp_all [State.setLine]
@[simp] theorem State.notify_setRing (b : NoticeBody) (x : Ring) :
    (s.notify b).setRing x = (s.setRing x).notify b := by
  unfold State.notify State.setRing; split <;> simp_all [State.setLine]

end Sys2Proof.Machine
end

