-- ==== Sys2Proof/Laws/Cartons.lean ====
section
/-! SUPPORT. The frames of the carton and manifest unit's operations: each leaves everything but the cartons, the ring
and the line port as it is (chapter 9). -/

namespace Sys2Proof.Machine

variable (s t : State)

/-- The frame of a rule of CM: the two states differ in the cartons, the ring and the line port at most. -/
def State.sameBeyondCartons (s t : State) : Prop :=
  t.pending = s.pending ∧ t.clock = s.clock ∧ t.slots = s.slots ∧ t.plans = s.plans ∧
    t.permitQueue = s.permitQueue ∧ t.spin = s.spin ∧ t.overcurrent = s.overcurrent ∧ t.links = s.links ∧
    t.linkSlots = s.linkSlots ∧ t.zones = s.zones ∧ t.doses = s.doses ∧ t.doseTable = s.doseTable ∧
    t.rules = s.rules ∧ t.watches = s.watches ∧ t.sort = s.sort ∧ t.port = s.port ∧ t.straps = s.straps

theorem State.sameBeyondCartons_refl : s.sameBeyondCartons s := by simp [State.sameBeyondCartons]

/-- The frame as one equation. -/
theorem State.sameBeyondCartons_eq (h : s.sameBeyondCartons t) :
    t = { s with cartons := t.cartons, ring := t.ring, line := t.line } := by
  obtain ⟨h1, h2, h3, h4, h5, h6, h7, h8, h9, h10, h11, h12, h13, h14, h15, h16, h17⟩ := h
  rw [← h1, ← h2, ← h3, ← h4, ← h5, ← h6, ← h7, ← h8, ← h9, ← h10, ← h11, ← h12, ← h13, ← h14, ← h15, ← h16, ← h17]

@[simp] theorem State.cartons_setCarton_iff (b : LaneNo) (x : Carton) :
    s.sameBeyondCartons (t.setCarton b x) ↔ s.sameBeyondCartons t := Iff.rfl
@[simp] theorem State.cartons_modCarton_iff (b : LaneNo) (f : Carton → Carton) :
    s.sameBeyondCartons (t.modCarton b f) ↔ s.sameBeyondCartons t := Iff.rfl
@[simp] theorem State.cartons_setRing_iff (x : Ring) :
    s.sameBeyondCartons (t.setRing x) ↔ s.sameBeyondCartons t := Iff.rfl
@[simp] theorem State.cartons_setLine_iff (x : Line) :
    s.sameBeyondCartons (t.setLine x) ↔ s.sameBeyondCartons t := Iff.rfl

@[simp] theorem State.cartons_notify_iff (b : NoticeBody) :
    s.sameBeyondCartons (t.notify b) ↔ s.sameBeyondCartons t := by
  unfold State.notify; split <;> simp
@[simp] theorem State.cartons_notifyCarton_iff (b : LaneNo) (e : CartonEvent) (c : Option (Nat × Nat × Nat)) :
    s.sameBeyondCartons (t.notifyCarton b e c) ↔ s.sameBeyondCartons t := by simp [State.notifyCarton]
@[simp] theorem State.cartons_judgeHighWater_iff :
    s.sameBeyondCartons t.judgeHighWater ↔ s.sameBeyondCartons t := by
  simp only [State.judgeHighWater]; (repeat' split) <;> simp
@[simp] theorem State.cartons_writeRecord_iff (b : ManifestBody) :
    s.sameBeyondCartons (t.writeRecord b) ↔ s.sameBeyondCartons t := by simp [State.writeRecord]
@[simp] theorem State.cartons_writePaid_iff (b : ManifestBody) :
    s.sameBeyondCartons (t.writePaid b) ↔ s.sameBeyondCartons t := by simp [State.writePaid]
@[simp] theorem State.cartons_release_iff : s.sameBeyondCartons t.release ↔ s.sameBeyondCartons t := by
  simp [State.release]
@[simp] theorem State.cartons_openCarton_iff (b : LaneNo) :
    s.sameBeyondCartons (t.openCarton b) ↔ s.sameBeyondCartons t := by simp [State.openCarton]
@[simp] theorem State.cartons_enterAbsent_iff (b : LaneNo) (e : CartonEvent) (c : Option (Nat × Nat × Nat)) :
    s.sameBeyondCartons (t.enterAbsent b e c) ↔ s.sameBeyondCartons t := by
  simp only [State.enterAbsent]; split <;> simp
@[simp] theorem State.cartons_closeShort_iff (b : LaneNo) :
    s.sameBeyondCartons (t.closeShort b) ↔ s.sameBeyondCartons t := by simp [State.closeShort]
@[simp] theorem State.cartons_serveBin_iff (b : LaneNo) :
    s.sameBeyondCartons (t.serveBin b) ↔ s.sameBeyondCartons t := by
  unfold State.serveBin; split <;> simp

@[simp] theorem State.cartons_serveFreed_iff : s.sameBeyondCartons t.serveFreed ↔ s.sameBeyondCartons t := by
  unfold State.serveFreed
  induction allLanes generalizing t with
  | nil => rfl
  | cons b l ih => rw [List.foldl_cons, ih, State.cartons_serveBin_iff]

@[simp] theorem State.cartons_takeUpClose_iff (b : LaneNo) :
    s.sameBeyondCartons (t.takeUpClose b) ↔ s.sameBeyondCartons t := by
  simp only [State.takeUpClose]; (repeat' split) <;> simp
@[simp] theorem State.cartons_endExtraction_iff (b : LaneNo) :
    s.sameBeyondCartons (t.endExtraction b) ↔ s.sameBeyondCartons t := by
  unfold State.endExtraction; split <;> simp
@[simp] theorem State.cartons_endHeld_iff (b : LaneNo) :
    s.sameBeyondCartons (t.endHeld b) ↔ s.sameBeyondCartons t := by
  unfold State.endHeld; split <;> simp
@[simp] theorem State.cartons_endAtCarton_iff (o : Order) :
    s.sameBeyondCartons (t.endAtCarton o) ↔ s.sameBeyondCartons t := by
  unfold State.endAtCarton; split <;> simp
@[simp] theorem State.cartons_handshakeOver_iff (o : Order) :
    s.sameBeyondCartons (t.handshakeOver o) ↔ s.sameBeyondCartons t := by
  unfold State.handshakeOver; split <;> simp
@[simp] theorem State.cartons_fullCarton_iff (b : LaneNo) :
    s.sameBeyondCartons (t.fullCarton b) ↔ s.sameBeyondCartons t := by
  simp only [State.fullCarton]; split <;> simp
@[simp] theorem State.cartons_countIn_iff (i : SlotNo) (b : LaneNo) :
    s.sameBeyondCartons (t.countIn i b) ↔ s.sameBeyondCartons t := by
  simp only [State.countIn]; split <;> simp
@[simp] theorem State.cartons_cartonTaken_iff (b : LaneNo) :
    s.sameBeyondCartons (t.cartonTaken b) ↔ s.sameBeyondCartons t := by
  unfold State.cartonTaken; (repeat' split) <;> simp
@[simp] theorem State.cartons_presentRise_iff (b : LaneNo) :
    s.sameBeyondCartons (t.presentRise b) ↔ s.sameBeyondCartons t := by
  simp only [State.presentRise]; (repeat' split) <;> simp

end Sys2Proof.Machine
end

