-- ==== Sys2Proof/Laws/Frames.lean ====
section
/-! SUPPORT. The frames of the slot controller's operations: each leaves the clock, the settings, the zones, the dose
records, the tables, the cartons, the ring and the pins as they are. -/

namespace Sys2Proof.Machine

variable (s t : State)

theorem State.sameBeyondSlots_refl : s.sameBeyondSlots s := by simp [State.sameBeyondSlots]

theorem State.sameBeyondSlots_trans {s t u : State} (h : s.sameBeyondSlots t) (g : t.sameBeyondSlots u) :
    s.sameBeyondSlots u := by
  obtain ⟨h1, h2, h3, h4, h5, h6, h7, h8, h9, h10, h11, h12⟩ := h
  obtain ⟨g1, g2, g3, g4, g5, g6, g7, g8, g9, g10, g11, g12⟩ := g
  exact ⟨g1.trans h1, g2.trans h2, g3.trans h3, g4.trans h4, g5.trans h5, g6.trans h6, g7.trans h7, g8.trans h8,
    g9.trans h9, g10.trans h10, g11.trans h11, g12.trans h12⟩

/-! ## The writes of records -/

@[simp] theorem State.same_setSlot (i : SlotNo) (x : SlotRec) :
    s.sameBeyondSlots (t.setSlot i x) ↔ s.sameBeyondSlots t := Iff.rfl
@[simp] theorem State.same_modSlot (i : SlotNo) (f : SlotRec → SlotRec) :
    s.sameBeyondSlots (t.modSlot i f) ↔ s.sameBeyondSlots t := Iff.rfl
@[simp] theorem State.same_modRun (i : SlotNo) (f : RunRec → RunRec) :
    s.sameBeyondSlots (t.modRun i f) ↔ s.sameBeyondSlots t := Iff.rfl
@[simp] theorem State.same_setPlan (p : PlanNo) (x : Plan) :
    s.sameBeyondSlots (t.setPlan p x) ↔ s.sameBeyondSlots t := Iff.rfl
@[simp] theorem State.same_setLink (l : ShelfNo) (x : Link) :
    s.sameBeyondSlots (t.setLink l x) ↔ s.sameBeyondSlots t := Iff.rfl
@[simp] theorem State.same_modLink (l : ShelfNo) (f : Link → Link) :
    s.sameBeyondSlots (t.modLink l f) ↔ s.sameBeyondSlots t := Iff.rfl
@[simp] theorem State.same_setLinkSlot (i : SlotNo) (x : LinkSlot) :
    s.sameBeyondSlots (t.setLinkSlot i x) ↔ s.sameBeyondSlots t := Iff.rfl
@[simp] theorem State.same_setWatch (i : SlotNo) (x : WatchRec) :
    s.sameBeyondSlots (t.setWatch i x) ↔ s.sameBeyondSlots t := Iff.rfl
@[simp] theorem State.same_setPort (x : Port) : s.sameBeyondSlots (t.setPort x) ↔ s.sameBeyondSlots t := Iff.rfl
@[simp] theorem State.same_setLine (x : Line) : s.sameBeyondSlots (t.setLine x) ↔ s.sameBeyondSlots t := Iff.rfl
@[simp] theorem State.same_permitQueue (q : List SlotNo) :
    s.sameBeyondSlots { t with permitQueue := q } ↔ s.sameBeyondSlots t := Iff.rfl

/-- A function that keeps the frame at every slot keeps it over a list of slots. -/
theorem State.same_foldl (f : State → SlotNo → State)
    (h : ∀ (u : State) (i : SlotNo), s.sameBeyondSlots (f u i) ↔ s.sameBeyondSlots u) (l : List SlotNo) :
    s.sameBeyondSlots (l.foldl f t) ↔ s.sameBeyondSlots t := by
  induction l generalizing t with
  | nil => rfl
  | cons i l ih => rw [List.foldl_cons, ih, h]

/-! ## Slots (chapter 1) -/

@[simp] theorem State.same_notify (b : NoticeBody) : s.sameBeyondSlots (t.notify b) ↔ s.sameBeyondSlots t := by
  unfold State.notify; split <;> simp
@[simp] theorem State.same_enter (i : SlotNo) (st : SlotState) (h : Option HoldReason) :
    s.sameBeyondSlots (t.enter i st h) ↔ s.sameBeyondSlots t := by simp [State.enter]
@[simp] theorem State.same_enterHeld (i : SlotNo) (why : HoldReason) :
    s.sameBeyondSlots (t.enterHeld i why) ↔ s.sameBeyondSlots t := by simp [State.enterHeld]
@[simp] theorem State.same_dropPlan (i : SlotNo) : s.sameBeyondSlots (t.dropPlan i) ↔ s.sameBeyondSlots t := by
  unfold State.dropPlan; split <;> simp [State.uncountPlan]
@[simp] theorem State.same_joinOrder (k : OrderKind) (i : SlotNo) :
    s.sameBeyondSlots (t.joinOrder k i) ↔ s.sameBeyondSlots t := by simp [State.joinOrder]
@[simp] theorem State.same_withdrawOrder (i : SlotNo) :
    s.sameBeyondSlots (t.withdrawOrder i) ↔ s.sameBeyondSlots t := by simp [State.withdrawOrder]
@[simp] theorem State.same_joinLink (i : SlotNo) : s.sameBeyondSlots (t.joinLink i) ↔ s.sameBeyondSlots t := Iff.rfl
@[simp] theorem State.same_leaveLink (i : SlotNo) : s.sameBeyondSlots (t.leaveLink i) ↔ s.sameBeyondSlots t := Iff.rfl
@[simp] theorem State.same_askLink (i : SlotNo) (c : DirectedCode) (p : Purpose) :
    s.sameBeyondSlots (t.askLink i c p) ↔ s.sameBeyondSlots t := Iff.rfl
@[simp] theorem State.same_askSummary (i : SlotNo) : s.sameBeyondSlots (t.askSummary i) ↔ s.sameBeyondSlots t := Iff.rfl
@[simp] theorem State.same_forgetStatus (i : SlotNo) :
    s.sameBeyondSlots (t.forgetStatus i) ↔ s.sameBeyondSlots t := Iff.rfl
@[simp] theorem State.same_powerOff (i : SlotNo) : s.sameBeyondSlots (t.powerOff i) ↔ s.sameBeyondSlots t := by
  simp [State.powerOff]
@[simp] theorem State.same_clearPermit (i : SlotNo) :
    s.sameBeyondSlots (t.clearPermit i) ↔ s.sameBeyondSlots t := Iff.rfl
@[simp] theorem State.same_recordEnd (i : SlotNo) (c : EndCause) :
    s.sameBeyondSlots (t.recordEnd i c) ↔ s.sameBeyondSlots t := by simp [State.recordEnd]
@[simp] theorem State.same_verdict (i : SlotNo) : s.sameBeyondSlots (t.verdict i) ↔ s.sameBeyondSlots t := by
  simp only [State.verdict]; split <;> simp
@[simp] theorem State.same_toVerdict (i : SlotNo) : s.sameBeyondSlots (t.toVerdict i) ↔ s.sameBeyondSlots t := by
  simp [State.toVerdict]
@[simp] theorem State.same_overcurrentEnd (i : SlotNo) :
    s.sameBeyondSlots (t.overcurrentEnd i) ↔ s.sameBeyondSlots t := by
  unfold State.overcurrentEnd; (repeat' split) <;> simp
@[simp] theorem State.same_grant (i : SlotNo) : s.sameBeyondSlots (t.grant i) ↔ s.sameBeyondSlots t := Iff.rfl
@[simp] theorem State.same_checkOvercurrent (i : SlotNo) :
    s.sameBeyondSlots (t.checkOvercurrent i) ↔ s.sameBeyondSlots t := by
  unfold State.checkOvercurrent; split <;> simp
@[simp] theorem State.same_grants (n : Nat) : s.sameBeyondSlots (grants n t) ↔ s.sameBeyondSlots t := by
  induction n generalizing t with
  | zero => rfl
  | succ n ih => unfold grants; (repeat' split) <;> simp [ih]
@[simp] theorem State.same_testGrants : s.sameBeyondSlots t.testGrants ↔ s.sameBeyondSlots t := by
  simp [State.testGrants]
@[simp] theorem State.same_joinPermit (i : SlotNo) : s.sameBeyondSlots (t.joinPermit i) ↔ s.sameBeyondSlots t := by
  rw [State.joinPermit, State.same_testGrants]; rfl
@[simp] theorem State.same_dropPermit (i : SlotNo) : s.sameBeyondSlots (t.dropPermit i) ↔ s.sameBeyondSlots t := by
  unfold State.dropPermit; split <;> simp
@[simp] theorem State.same_takeOvercurrent (i : SlotNo) :
    s.sameBeyondSlots (t.takeOvercurrent i) ↔ s.sameBeyondSlots t := by simp [State.takeOvercurrent]
@[simp] theorem State.same_endAtOnce (i : SlotNo) (c : EndCause) :
    s.sameBeyondSlots (t.endAtOnce i c) ↔ s.sameBeyondSlots t := by simp [State.endAtOnce]
@[simp] theorem State.same_endWithSummary (i : SlotNo) (c : EndCause) :
    s.sameBeyondSlots (t.endWithSummary i c) ↔ s.sameBeyondSlots t := by
  unfold State.endWithSummary; split <;> simp
@[simp] theorem State.same_endByZone (i : SlotNo) : s.sameBeyondSlots (t.endByZone i) ↔ s.sameBeyondSlots t := by
  unfold State.endByZone; split <;> simp
@[simp] theorem State.same_assignPlan (i : SlotNo) (p : PlanNo) :
    s.sameBeyondSlots (t.assignPlan i p) ↔ s.sameBeyondSlots t := by simp [State.assignPlan, State.countPlan]

/-! ## The two operations that empty a slot's dose record -/

/-- VACANT empties the slot's dose record, and keeps the frame otherwise. -/
theorem State.same_enterVacant (i : SlotNo) (c : Option EndCause) :
    State.sameBeyondSlots { s with doses := s.doses.set i DoseRec.empty } (s.enterVacant i c) := by
  simp only [State.enterVacant, State.same_notify, State.same_setWatch]
  simp [State.sameBeyondSlots, State.setDose, State.forgetStatus, State.setLinkSlot, State.setSlot]

/-- A run start empties the slot's dose record, and keeps the frame otherwise. -/
theorem State.same_startRun (i : SlotNo) (rerun : Bool) :
    State.sameBeyondSlots { s with doses := s.doses.set i DoseRec.empty } (s.startRun i rerun) := by
  simp only [State.startRun, State.same_joinPermit, State.same_enter, State.same_setLinkSlot, State.same_setWatch]
  simp [State.sameBeyondSlots, State.setDose, State.modSlot, State.setSlot]

/-- The seat teardown empties the slot's dose record, and keeps the frame otherwise. -/
theorem State.same_teardown (i : SlotNo) :
    State.sameBeyondSlots { s with doses := s.doses.set i DoseRec.empty } (s.teardown i) := by
  have h (t : State) (c : Option EndCause) (e : s.sameBeyondSlots t) :
      State.sameBeyondSlots { s with doses := s.doses.set i DoseRec.empty } (t.enterVacant i c) := by
    refine State.sameBeyondSlots_trans ?_ (State.same_enterVacant t i c)
    obtain ⟨h1, h2, h3, h4, h5, h6, h7, h8, h9, h10, h11, h12⟩ := e
    exact ⟨h1, h2, h3, h4, by rw [h5], h6, h7, h8, h9, h10, h11, h12⟩
  simp only [State.teardown]
  split <;> exact h _ _ (by simp [State.sameBeyondSlots_refl])

/-! ## Steps (chapter 2) -/

@[simp] theorem State.same_beginStep (i : SlotNo) (n : Nat) :
    s.sameBeyondSlots (t.beginStep i n) ↔ s.sameBeyondSlots t := by simp [State.beginStep]
@[simp] theorem State.same_askPhase (i : SlotNo) (n : Nat) :
    s.sameBeyondSlots (t.askPhase i n) ↔ s.sameBeyondSlots t := by simp [State.askPhase]
@[simp] theorem State.same_askCycleHalt (i : SlotNo) :
    s.sameBeyondSlots (t.askCycleHalt i) ↔ s.sameBeyondSlots t := by simp [State.askCycleHalt]
@[simp] theorem State.same_beginCycle (i : SlotNo) : s.sameBeyondSlots (t.beginCycle i) ↔ s.sameBeyondSlots t := by
  simp [State.beginCycle]
@[simp] theorem State.same_enterOnce (i : SlotNo) (n : Nat) :
    s.sameBeyondSlots (t.enterOnce i n).1 ↔ s.sameBeyondSlots t := by
  unfold State.enterOnce; (repeat' split) <;> simp
@[simp] theorem State.same_enterChain (i : SlotNo) (k : Nat) (x : State × Option Nat) :
    s.sameBeyondSlots (enterChain i k x).1 ↔ s.sameBeyondSlots x.1 := by
  induction k generalizing x with
  | zero => obtain ⟨u, _ | n⟩ := x <;> simp [enterChain]
  | succ k ih => obtain ⟨u, _ | n⟩ := x <;> simp [enterChain, ih]
@[simp] theorem State.same_enterStep (i : SlotNo) (n : Nat) :
    s.sameBeyondSlots (t.enterStep i n) ↔ s.sameBeyondSlots t := by simp [State.enterStep]
@[simp] theorem State.same_advance (i : SlotNo) : s.sameBeyondSlots (t.advance i) ↔ s.sameBeyondSlots t := by
  simp [State.advance]
@[simp] theorem State.same_haltLeftPhase (i : SlotNo) (x : PlanStep) :
    s.sameBeyondSlots (t.haltLeftPhase i x) ↔ s.sameBeyondSlots t := by
  unfold State.haltLeftPhase; split <;> simp
@[simp] theorem State.same_takeLimit (i : SlotNo) (x : PlanStep) (target : Option Nat) (act : LimitAction) :
    s.sameBeyondSlots (t.takeLimit i x target act) ↔ s.sameBeyondSlots t := by
  unfold State.takeLimit; split <;> simp
@[simp] theorem State.same_testLimit (i : SlotNo) (x : PlanStep) :
    s.sameBeyondSlots (t.testLimit i x) ↔ s.sameBeyondSlots t := by
  unfold State.testLimit; (repeat' split) <;> simp
@[simp] theorem State.same_testStep (i : SlotNo) : s.sameBeyondSlots (t.testStep i) ↔ s.sameBeyondSlots t := by
  unfold State.testStep; (repeat' split) <;> simp
@[simp] theorem State.same_tickStep (i : SlotNo) : s.sameBeyondSlots (t.tickStep i) ↔ s.sameBeyondSlots t := by
  unfold State.tickStep; split <;> simp
@[simp] theorem State.same_testReply (i : SlotNo) (x : LastStatus) :
    s.sameBeyondSlots (t.testReply i x) ↔ s.sameBeyondSlots t := by
  unfold State.testReply; (repeat' split) <;> simp
@[simp] theorem State.same_cycleOff (i : SlotNo) : s.sameBeyondSlots (t.cycleOff i) ↔ s.sameBeyondSlots t := by
  simp [State.cycleOff]
@[simp] theorem State.same_haltEnded (i : SlotNo) (p : Purpose) :
    s.sameBeyondSlots (t.haltEnded i p) ↔ s.sameBeyondSlots t := by
  unfold State.haltEnded; (repeat' split) <;> simp
@[simp] theorem State.same_spinAgain (i : SlotNo) : s.sameBeyondSlots (t.spinAgain i) ↔ s.sameBeyondSlots t := by
  simp [State.spinAgain]
@[simp] theorem State.same_offTimeOver (i : SlotNo) : s.sameBeyondSlots (t.offTimeOver i) ↔ s.sameBeyondSlots t := by
  simp only [State.offTimeOver]; (repeat' split) <;> simp
@[simp] theorem State.same_resumeStep (i : SlotNo) : s.sameBeyondSlots (t.resumeStep i) ↔ s.sameBeyondSlots t := by
  unfold State.resumeStep; (repeat' split) <;> simp
@[simp] theorem State.same_returnToRun (i : SlotNo) : s.sameBeyondSlots (t.returnToRun i) ↔ s.sameBeyondSlots t := by
  simp [State.returnToRun]
@[simp] theorem State.same_identified (i : SlotNo) (x : Identity) :
    s.sameBeyondSlots (t.identified i x) ↔ s.sameBeyondSlots t := by
  simp only [State.identified]; split <;> simp
@[simp] theorem State.same_startIdent (i : SlotNo) : s.sameBeyondSlots (t.startIdent i) ↔ s.sameBeyondSlots t := by
  simp [State.startIdent]
@[simp] theorem State.same_rejoin (i : SlotNo) : s.sameBeyondSlots (t.rejoin i) ↔ s.sameBeyondSlots t := by
  simp only [State.rejoin]; split <;> simp
@[simp] theorem State.same_readyHigh (i : SlotNo) : s.sameBeyondSlots (t.readyHigh i) ↔ s.sameBeyondSlots t := by
  simp only [State.readyHigh]; (repeat' split) <;> simp
@[simp] theorem State.same_slotTrip (i : SlotNo) : s.sameBeyondSlots (t.slotTrip i) ↔ s.sameBeyondSlots t := by
  unfold State.slotTrip; (repeat' split) <;> simp
@[simp] theorem State.same_slotResume (i : SlotNo) : s.sameBeyondSlots (t.slotResume i) ↔ s.sameBeyondSlots t := by
  simp only [State.slotResume]; (repeat' split) <;> simp
@[simp] theorem State.same_slotGrace (i : SlotNo) : s.sameBeyondSlots (t.slotGrace i) ↔ s.sameBeyondSlots t := by
  unfold State.slotGrace; (repeat' split) <;> simp
theorem State.same_onShelf (z : ShelfNo) (f : State → SlotNo → State)
    (h : ∀ (u : State) (i : SlotNo), s.sameBeyondSlots (f u i) ↔ s.sameBeyondSlots u) :
    s.sameBeyondSlots (t.onShelf z f) ↔ s.sameBeyondSlots t := State.same_foldl s t f h _

/-! ## Watch rules and replies (chapters 3 and 6) -/

@[simp] theorem State.same_watchAct (i : SlotNo) (r : WatchRule) :
    s.sameBeyondSlots (t.watchAct i r) ↔ s.sameBeyondSlots t := by
  unfold State.watchAct State.watchSuspend State.watchReject; (repeat' split) <;> simp
@[simp] theorem State.same_takeMatch (i : SlotNo) (w : FaultWord) :
    s.sameBeyondSlots (t.takeMatch i w) ↔ s.sameBeyondSlots t := by
  unfold State.takeMatch
  split
  · simp
  · simp [State.fillLatch, State.setLatch]
  · simp only [State.hitLatch]; (repeat' split) <;> simp [State.setLatch]
@[simp] theorem State.same_evaluate (i : SlotNo) (w : FaultWord) :
    s.sameBeyondSlots (t.evaluate i w) ↔ s.sameBeyondSlots t := by simp [State.evaluate]
@[simp] theorem State.same_endTransaction (l : ShelfNo) :
    s.sameBeyondSlots (t.endTransaction l) ↔ s.sameBeyondSlots t := Iff.rfl
@[simp] theorem State.same_goodReply (l : ShelfNo) (i : SlotNo) :
    s.sameBeyondSlots (t.goodReply l i) ↔ s.sameBeyondSlots t := Iff.rfl
@[simp] theorem State.same_identTaken (l : ShelfNo) (i : SlotNo) (x : Identity) :
    s.sameBeyondSlots (t.identTaken l i x) ↔ s.sameBeyondSlots t := by
  simp only [State.identTaken]; split <;> simp
@[simp] theorem State.same_phaseTaken (l : ShelfNo) (i : SlotNo) (p : Purpose) :
    s.sameBeyondSlots (t.phaseTaken l i p) ↔ s.sameBeyondSlots t := by
  simp only [State.phaseTaken]; (repeat' split) <;> simp
@[simp] theorem State.same_statusTaken (l : ShelfNo) (i : SlotNo) (x : LastStatus) :
    s.sameBeyondSlots (t.statusTaken l i x) ↔ s.sameBeyondSlots t := by
  have f (u : State) : s.sameBeyondSlots (u.writeFallback i x.grown) ↔ s.sameBeyondSlots u := by
    unfold State.writeFallback; split <;> simp
  have w (u : State) : s.sameBeyondSlots (u.watchStep i x.fault) ↔ s.sameBeyondSlots u := by
    unfold State.watchStep; split <;> simp
  have d (u : State) : s.sameBeyondSlots (u.failedStep i x.state) ↔ s.sameBeyondSlots u := by
    unfold State.failedStep; split <;> simp
  have p (u : State) : s.sameBeyondSlots (u.planStep i x) ↔ s.sameBeyondSlots u := by
    unfold State.planStep; split <;> simp
  simp [State.statusTaken, f, w, d, p]
@[simp] theorem State.same_summaryComplete (l : ShelfNo) (i : SlotNo) (x : Summary) :
    s.sameBeyondSlots (t.summaryComplete l i x) ↔ s.sameBeyondSlots t := by simp [State.summaryComplete]
@[simp] theorem State.same_blockTaken (l : ShelfNo) (i : SlotNo) (op : SummaryOp) (b : SummaryBlock) :
    s.sameBeyondSlots (t.blockTaken l i op b) ↔ s.sameBeyondSlots t := by
  simp only [State.blockTaken]; (repeat' split) <;> simp
@[simp] theorem State.same_missed (l : ShelfNo) (x : Transaction) :
    s.sameBeyondSlots (t.missed l x) ↔ s.sameBeyondSlots t := by
  have j (u : State) : s.sameBeyondSlots (u.judgeSilent l x.slot) ↔ s.sameBeyondSlots u := by
    unfold State.judgeSilent; split <;> simp
  have d (u : State) (c : DirectedCode) (p : Purpose) :
      s.sameBeyondSlots (u.directedMiss x.slot c p) ↔ s.sameBeyondSlots u := by
    unfold State.directedMiss; (repeat' split) <;> simp
  have m (u : State) : s.sameBeyondSlots (u.summaryMiss l x.slot) ↔ s.sameBeyondSlots u := by
    simp only [State.summaryMiss]; (repeat' split) <;> simp [State.summaryFails]
  unfold State.missed State.codeMiss
  split <;> simp [j, d, m]

end Sys2Proof.Machine
end

