-- ==== Sys2Proof/Laws/Line.lean ====
section
/-! SUPPORT. The receiver's gap (R185): what the lapse of a frame partly taken does, case by case. -/

namespace Sys2Proof.Machine

variable {l : Line} {now : Time}

/-- In HUNT no gap passes. -/
theorem Line.lapse_hunt (h : l.receiver = .hunt) : l.lapse now = l := by
  simp [Line.lapse, Line.gapPassed, h]

/-- A frame whose last byte is at most 20 ms old stays as it is. -/
theorem Line.lapse_inTime {bytes : List Byte} {last : Time} (h : l.receiver = .collect bytes last)
    (g : Time.since now last ≤ Config.gapMs) : l.lapse now = l := by
  simp [Line.lapse, Line.gapPassed, h, Nat.not_lt.mpr g]

/-- A frame whose last byte is more than 20 ms old is discarded, counted as GAP. -/
theorem Line.lapse_late {bytes : List Byte} {last : Time} (h : l.receiver = .collect bytes last)
    (g : Config.gapMs < Time.since now last) : l.lapse now = l.hunt.countGap := by
  simp [Line.lapse, Line.gapPassed, h, g]

/-- What the gap has taken it does not take again. -/
@[simp] theorem Line.lapse_lapse : (l.lapse now).lapse now = l.lapse now := by
  by_cases g : l.gapPassed now
  · rw [Line.lapse_hunt]
    simp [Line.lapse, g, Line.countGap, Line.hunt]
  · have e : l.lapse now = l := by simp [Line.lapse, g]
    rw [e, e]

/-- The gap touches the receiver and its counters alone. -/
theorem Line.lapse_eq :
    l.lapse now = { l with receiver := (l.lapse now).receiver, counters := (l.lapse now).counters } := by
  unfold Line.lapse
  split <;> rfl

/-- In HUNT, a byte is met as the gap left it. -/
theorem State.lapse_hunt {s : State} (h : s.line.receiver = .hunt) : s.lapse = s := by
  simp [State.lapse, Line.lapse_hunt h, State.setLine]

end Sys2Proof.Machine
end

