-- ==== Sys2Proof/Laws/Notices.lean ====
section
/-! SUPPORT. What offering a notice does to the notice queue (R195, R196): a waiting notice of its kind and source takes
its content, else it joins the tail, else a drop is counted; the queue keeps its order and its sizes. -/

namespace Sys2Proof.Machine

/-- The kind and source of each waiting notice, which is what R195 tells notices apart by. -/
def keys (ns : List Notice) : List (NoticeKind × Nat) := ns.map fun n => (n.body.kind, n.source)

/-- Merging keeps the place, the kind and the source of every notice. -/
theorem keys_mergeNotice (b : NoticeBody) (time : Count32) (ns : List Notice) :
    keys (mergeNotice b time ns) = keys ns := by
  induction ns with
  | nil => rfl
  | cons n ns ih =>
    unfold mergeNotice
    split
    · rename_i h
      simp only [Notice.sameAs, Bool.and_eq_true, decide_eq_true_eq] at h
      simp [keys, Notice.replacedBy, h.1]
    · simp only [keys, List.map_cons] at ih ⊢
      rw [ih]

/-- Counting a drop keeps the kind and the source of every notice. -/
theorem keys_countDrop (ns : List Notice) : keys (ns.map Notice.countDrop) = keys ns := by
  simp only [keys, List.map_map]
  apply List.map_congr_left
  intro n _
  simp only [Function.comp_apply, Notice.countDrop]
  split <;> simp_all [NoticeBody.kind]

/-- The number of ordinary notices and the distinctness of R195 depend on the kinds and sources alone. -/
theorem noticesInOrder_iff_keys (ns : List Notice) :
    noticesInOrder ns ↔ (keys ns).countP (fun k => !decide (k.1 = NoticeKind.overflow)) ≤ Config.ordinaryNotices ∧
      (keys ns).Pairwise (· ≠ ·) := by
  simp only [noticesInOrder, keys, List.countP_map, List.pairwise_map, ne_eq, Prod.mk.injEq]
  rfl

/-- A queue with the same kinds and sources is in order too. -/
theorem noticesInOrder_of_keys {ms ns : List Notice} (h : keys ms = keys ns) (g : noticesInOrder ns) :
    noticesInOrder ms := by
  rw [noticesInOrder_iff_keys] at g ⊢
  rwa [h]

/-- Offering a notice keeps the queue in order (R195, R196). -/
theorem noticesInOrder_place (b : NoticeBody) (time : Count32) (ns : List Notice) (h : noticesInOrder ns) :
    noticesInOrder (placeNotice b time ns) := by
  unfold placeNotice
  split
  · exact noticesInOrder_of_keys (keys_mergeNotice b time ns) h
  · rename_i fresh
    obtain ⟨hc, hp⟩ := h
    split
    · rename_i room
      refine ⟨?_, ?_⟩
      · rw [List.countP_append, List.countP_singleton]
        split <;> omega
      · rw [List.pairwise_append]
        refine ⟨hp, by simp, ?_⟩
        intro a ha c hcmem hac
        rw [List.mem_singleton] at hcmem
        subst hcmem
        exact fresh (List.any_eq_true.mpr ⟨a, ha, by simp [Notice.sameAs, hac.1, hac.2]⟩)
    · unfold dropNotice
      split
      · exact noticesInOrder_of_keys (keys_countDrop ns) ⟨hc, hp⟩
      · rename_i no
        refine ⟨by simpa [List.countP_append, Notice.isOverflow, NoticeBody.kind] using hc, ?_⟩
        rw [List.pairwise_append]
        refine ⟨hp, by simp, ?_⟩
        intro a ha c hcmem hac
        rw [List.mem_singleton] at hcmem
        subst hcmem
        exact no (List.any_eq_true.mpr ⟨a, ha, decide_eq_true hac.1⟩)

/-- A rule that queues a notice keeps the notice queue in order. -/
theorem State.noticesInOrder_notify (s : State) (b : NoticeBody) (h : noticesInOrder s.line.notices) :
    noticesInOrder (s.notify b).line.notices := by
  unfold State.notify
  split
  · exact h
  · exact noticesInOrder_place b _ _ h

/-- Taking notices from the queue keeps it in order. -/
theorem noticesInOrder_filter (p : Notice → Bool) (ns : List Notice) (h : noticesInOrder ns) :
    noticesInOrder (ns.filter p) :=
  ⟨Nat.le_trans (List.filter_sublist.countP_le) h.1, h.2.sublist List.filter_sublist⟩

/-- Taking the high-water notices away changes the notice queue alone (R181, log entry 51). -/
theorem State.withoutHighWater_eq (s : State) :
    s.withoutHighWater =
      s.setLine { s.line with notices := s.line.notices.filter fun n => n.body.kind ≠ .manifestHigh } := rfl

/-- Taking the high-water notices away keeps the notice queue in order. -/
theorem State.noticesInOrder_withoutHighWater (s : State) (h : noticesInOrder s.line.notices) :
    noticesInOrder s.withoutHighWater.line.notices := noticesInOrder_filter _ _ h

end Sys2Proof.Machine
end

