-- ==== Sys2Proof/Laws/Requests.lean ====
section
/-! SUPPORT. What a request does while the part is ready for it: its code reads back, and its effect and answer are those
of the block that owns it. -/

namespace Sys2Proof.Machine

/-- A request code is the one its byte reads back as (R203). -/
@[simp] theorem RequestCode.ofByte_byte (c : RequestCode) : RequestCode.ofByte c.byte = some c := by
  cases c <;> decide

/-- A frame placed in an empty queue joins it (R188). -/
theorem Line.place_of_empty (l : Line) (r : Request) (h : l.requests = []) :
    l.place r = { l with requests := [r] } := by
  simp [Line.place, h, Config.requestQueueSize]

/-- A request that arrives while the part is ready is served at once (R188, R189). -/
theorem State.arrive_of_ready (s : State) (r : Request) (h : s.ready) : s.arrive r = (s.serve r).finish := by
  obtain ⟨h1, h2⟩ := h
  have e : s.setLine { s.line with requests := [] } = s := by
    simp [State.setLine, ← h1]
  have w : (({ s.line with requests := [r] } : Line)).servedWaits = false := h2
  unfold State.arrive State.serveHead
  rw [Line.place_of_empty _ _ h1]
  simp only [State.setLine_line, w]
  exact congrArg (fun t : State => (t.serve r).finish) e

/-- A request command that arrives while the part is ready has the effect and the answer of its block (R189). -/
theorem State.request_of_ready (s : State) (c : RequestCode) (tag : Byte) (body : List Byte) (h : s.ready) :
    s.request c tag body = (c.serve body s).1.answered tag c (c.serve body s).2 := by
  simp [State.request, s.arrive_of_ready _ h, State.serve, State.answered, Request.answer, Request.reply]

end Sys2Proof.Machine
end

