-- ==== Sys2Proof/Tests/Slice0.lean ====
section
/-! SUPPORT. The model's own tests: the well-formedness check, what the manual's worked examples and tables say of single
commands, and, for each statement with hypotheses, a concrete state and operands that meet them. -/

namespace Sys2Proof.Tests

open Sys2Proof Sys2Proof.Machine

/-! ## Small states -/

/-- A plan of every step kind, within the ranges of R31. -/
def steps : List PlanStep :=
  [.baseline, .exercise 3 (some 40) 5 .fail, .soak 16 1 .continue, .cycle 1, .loop 2 255]

/-- Reset with plan 1 loaded. -/
def planned : State := State.reset.setPlan 0 { steps := steps, refs := 1 }

/-- A slot in a state, under plan 1 at a step that has been entered. -/
def at_ (i : SlotNo) (st : SlotState) (step : Nat) : State :=
  planned.modSlot i fun r => { r with state := st, plan := some 0, step := some step, stepEntered := true }

/-- The slot is in a phase of its CYCLE step, step 4 of the plan. -/
def cycling (i : SlotNo) (c : CyclePhase) : State :=
  (at_ i .running 4).modSlot i fun r => { r with cyclePhase := some c }

/-- A transaction outstanding on a link. -/
def asked (s : State) (l : ShelfNo) (i : SlotNo) (r : LinkRequest) : State :=
  s.modLink l fun x => { x with scan := [i], outstanding := some { slot := i, request := r, expiry := 25, spoiled := false } }

/-- The same state at a moment of the rack clock. -/
def atTime (ms : Nat) (s : State) : State := { s with clock := { s.clock with ms := BitVec.ofNat 32 ms } }

/-- What a command leads to. -/
def after (c : Instr) (s : State) : State :=
  match exec c s with
  | .next t => t
  | _ => s

/-- The answer the port is sending, after its tag and code. -/
def answer (c : Instr) (s : State) : Option (List Byte) := (after c s).line.sending.map (·.body)

/-! ## Well-formedness -/

theorem test_wf_body_240 : (Instr.slotOpen 1 (List.replicate 240 0)).wellFormed = true := by decide +kernel

theorem test_wf_body_241 : (Instr.slotOpen 1 (List.replicate 241 0)).wellFormed = false := by decide +kernel

theorem test_wf_unknown_with_request_code :
    (Instr.unknown 1 0x7F []).wellFormed = true ∧ (Instr.unknown 1 (RequestCode.slotOpen).byte []).wellFormed = false := by
  decide

theorem test_wf_unknown_body_241 : (Instr.unknown 1 0x7F (List.replicate 241 0)).wellFormed = false := by
  decide +kernel

theorem test_wf_frame :
    (Instr.frameReceived [0x7E, 1, 2, 3, 4, 5, 6]).wellFormed = true ∧
      (Instr.frameReceived [0x7D, 1, 2, 3, 4, 5, 6]).wellFormed = false ∧
      (Instr.frameReceived [0x7E, 1, 2, 3, 4, 5]).wellFormed = false ∧
      (Instr.frameReceived (0x7E :: 241 :: List.replicate 245 0)).wellFormed = false := by decide +kernel

theorem test_wf_length_discard :
    (Instr.lengthDiscard 241).wellFormed = true ∧ (Instr.lengthDiscard 240).wellFormed = false := by decide

/-! ## The manual's worked examples and tables -/

/-- R183: the CRC of the characters 1 to 9 is 29B1 hexadecimal. -/
theorem test_crc_of_the_nine_characters :
    crc16 [0x31, 0x32, 0x33, 0x34, 0x35, 0x36, 0x37, 0x38, 0x39] = 0x29B1 := by decide +kernel

/-- Chapter 11, the worked frame: the four bytes of a STATUS poll. -/
theorem test_status_poll_bytes : LinkRequest.wire .status = [0xA5, 0x14, 0x00, 0x47] := by decide

/-- Chapter 11, the worked frame: DONE, phase 1, 100 per cent, 47 degrees, 12 grown defects, 0 pending, TEMP_WARN. -/
theorem test_status_reply_bytes :
    ((after (.statusReply 1 [0xA5, 0x14, 0x02, 0x09, 0x01, 0x64, 0x2F, 0x00, 0x0C, 0x00, 0x00, 0x00, 0x80, 0x1C])
      (asked planned 1 13 .status)).linkSlot 13).last =
      some { state := .done, phase := 1, progress := 100, temp := 47, grown := 12, pending := 0, fault := 0x0080,
             time := 0 } := by decide

/-- Section 1.4, the example of three starts: with a limit of two, blanking ends at slot 7 with its line still active;
slot 7's run ends OVERCURRENT, and slot 12, which waited, is granted at once. -/
theorem test_overcurrent_at_blanking_end_grants_the_next :
    let wait (s : State) (i : SlotNo) : State := s.modSlot i fun r =>
      { r with state := .powering, permit := .held, power := .on, grantedAt := some 0, spinLimit := some 20000,
               blanking := some 400 }
    let s : State :=
      { (wait (wait planned 2) 6).modSlot 11 fun r => { r with state := .powering, permit := .queued } with
        permitQueue := [11], spin := { SpinSettings.powerOn with permits := 2 },
        overcurrent := (Vector.replicate 40 false).set 6 true }
    let t := after (.inrushBlankingEnd 6) s
    (t.slot 6).run.endCause = some .overcurrent ∧ (t.slot 6).power = .off ∧ (t.slot 11).permit = .held ∧
      (t.slot 11).power = .on ∧ t.permitQueue = [] := by decide

/-- The same example: slot 3's READY at 2,180 ms. -/
theorem test_spin_time_of_slot_3 :
    let s := (planned.modSlot 2 fun r =>
      { r with state := .powering, permit := .held, power := .on, grantedAt := some 0, spinLimit := some 20000 })
    ((after (.readySeen 2) { s with clock := { s.clock with ms := 2180 } }).slot 2).spin =
      { first := some 2180, latest := some 2180, worst := some 2180, count := 1 } := by decide

/-- Section 2.6: the second entry of LOOP step 5 with count 1 finds its counter at 1, clears it and goes on. -/
theorem test_loop_step_jumps_once :
    let s := ((at_ 13 .running 4).setPlan 0
      { steps := [.baseline, .exercise 2 (some 960) 90 .continue, .soak 1920 150 .continue, .cycle 30, .loop 2 1,
                  .exercise 7 none 240 .fail], refs := 1 })
    let once := s.enterStep 13 5
    let twice := once.enterStep 13 5
    (once.slot 13).step = some 2 ∧ (once.slot 13).loops[4] = 1 ∧ (twice.slot 13).step = some 6 ∧
      (twice.slot 13).loops[4] = 0 := by decide

/-- R77: with the limit of 900, 901 sets OVER_LIMIT, 851 keeps it and 850 removes it; 899 does not set it. -/
theorem test_over_limit_band :
    let s : State := planned.modZone 3 fun z => { z with causes := { z.causes with sensor := false } }
    let hot := after (.airSensorRead 3 901) s
    (hot.zone 3).causes.overLimit = true ∧ ((after (.airSensorRead 3 851) hot).zone 3).causes.overLimit = true ∧
      ((after (.airSensorRead 3 850) hot).zone 3).causes.overLimit = false ∧
      ((after (.airSensorRead 3 899) s).zone 3).causes.overLimit = false := by decide

/-- R86: e = −7 with Kp 18 and Ki 0 gives −31 beside A / 256 = 40, a duty of 9. -/
theorem test_proportional_term_truncates_toward_zero :
    let s : State := planned.modZone 1 fun z =>
      { z with state := .run, setpoint := some 593, air := some 600, acc := 10240, prevDuty := 330,
               settings := { z.settings with kp := 18, ki := 0 } }
    ((after (.controlInterval 1) s).zone 1).pendingDuty = some 9 := by decide

/-- Section 4.7, interval 1: setpoint 600, air 572, A 51,200 gives A 51,480 and duty 341. -/
theorem test_pi_trace_interval_1 :
    let s : State := planned.modZone 1 fun z =>
      { z with state := .run, setpoint := some 600, air := some 572, acc := 51200, prevDuty := 330 }
    let t := (after (.controlInterval 1) s).zone 1
    t.acc = 51480 ∧ t.prevDuty = 341 ∧ t.pendingDuty = some 341 := by decide

/-- Section 4.7, interval 6: at a duty of 1000 with the air below the setpoint A is held. -/
theorem test_pi_trace_interval_6 :
    let s : State := planned.modZone 1 fun z =>
      { z with state := .run, setpoint := some 900, air := some 611, acc := 54780, prevDuty := 1000 }
    let t := (after (.controlInterval 1) s).zone 1
    t.acc = 54780 ∧ t.pendingDuty = some 1000 := by decide

/-- Section 4.8, the fan: counts of 20, 6 and 0 are three low windows, and 1,920 rpm removes FAN_LOW. -/
theorem test_third_low_window_sets_fan_low :
    let s : State := planned.modZone 2 fun z => { z with fanCount := 0, lowWindows := 2 }
    let t := after (.fanWindowEnd 2) s
    (t.zone 2).causes.fanLow = true ∧
      ((after (.fanWindowEnd 2) (t.modZone 2 fun z => { z with fanCount := 64 })).zone 2).causes.fanLow = false ∧
      ((after (.fanWindowEnd 2) (t.modZone 2 fun z => { z with fanCount := 64 })).zone 2).fanSpeed = some 1920 := by decide

/-- R101, the band examples with base 400. -/
theorem test_dose_bands :
    [390, 400, 487, 699, 750].map (fun t => (DoseTable.powerOn.band t).map Fin.val) =
      [none, some 0, some 4, some 14, some 15] := by decide

/-- Section 6.7: rule 3, SHOCK ROSE or VIB_HIGH ROSE. Reply b matches it, reply c does not, reply d does. -/
theorem test_any_mode_with_rose_specs :
    let r : WatchRule :=
      { enabled := true, mode := .any, action := .suspend, cls := none,
        specs := ((Vector.replicate 16 Spec.ignore).set 5 .rose).set 8 .rose }
    r.isMatch 0x0080 0x0180 = true ∧ r.isMatch 0x0180 0x0180 = false ∧ r.isMatch 0x0180 0x01A0 = true := by decide

/-- The weights, map and bins of the score of slot 26 (section 7.3). -/
def slot26Tables (barred : Bool) : SortTables :=
  { weights := { wd := 40, ws := 12, wu := 8, wm := 10, wh := 3, floor := 120 }
    map := [{ lower := 900, bin := 1 }, { lower := 750, bin := 2 }, { lower := 600, bin := 3 }, { lower := 0, bin := 12 }]
    faults := Vector.replicate 12 7
    barred := (Vector.replicate 12 false).set 2 barred }

/-- The run of slot 26, with final grown defects and final pending as given. -/
def slot26Run (grown pending : Nat) : RunRec :=
  { RunRec.empty with
    endCause := some .complete, base := some 12, deficit := 480
    summary := some
      { grown := grown, pending := pending, maxTemp := 50, headCount := 4, margins := [131, 118, 140, 127],
        driveVerdict := 0 } }

def slot26Spin (count : Nat) : SpinRec := { first := some 2180, latest := some 2300, worst := some 2410, count := count }

/-- Section 7.3: score 636 in bin 3, and the lines of the table of other conditions. -/
theorem test_score_of_slot_26 :
    (judge (slot26Tables false) (slot26Run 14 1) (slot26Spin 3) 5).verdict =
        { bin := 3, score := some 636, fault := none, bar := false } ∧
      (judge (slot26Tables true) (slot26Run 14 1) (slot26Spin 3) 5).verdict =
        { bin := 0, score := some 636, fault := none, bar := true } ∧
      (judge (slot26Tables false) (slot26Run 9 1) (slot26Spin 3) 5).verdict.score = some 716 ∧
      (judge (slot26Tables false) (slot26Run 14 1) (slot26Spin 1) 5).verdict =
        { bin := 2, score := some 808, fault := none, bar := false } ∧
      (judge (slot26Tables false) (slot26Run 14 25) (slot26Spin 3) 5).verdict =
        { bin := 12, score := some 0, fault := none, bar := false } := by decide

/-- The same table: a failed summary read gives bin 0 and no score, and WATCH_REJECT class 2 the bin of entry 2. -/
theorem test_unscored_ends_of_slot_26 :
    (judge (slot26Tables false) { slot26Run 14 1 with summaryMissing := true, summary := none } (slot26Spin 3) 5).verdict =
        { bin := 0, score := none, fault := none, bar := false } ∧
      (judge (slot26Tables false) { slot26Run 14 1 with endCause := some (.watchReject 1) } (slot26Spin 3) 5).verdict =
        { bin := 7, score := none, fault := some 1, bar := false } := by decide

/-- Section 7.6, the example of a bar: BIN BAR 5 withdraws slots 4 and 36 and leaves 33 and 18. -/
theorem test_bin_bar_example :
    let o (k : OrderKind) (i : SlotNo) (n : Nat) : Order := { kind := k, slot := i, number := n, age := n }
    let graded (s : State) (i : SlotNo) : State := s.modSlot i fun r => { r with state := .graded }
    let s := (graded (graded (graded planned 3) 17) 35).setPort { planned.port with
      queue := [o (.extract 4) 3 1, o .insert 32 2, o (.extract 1) 17 3, o (.extract 4) 35 4],
      current := some { order := o (.extract 4) 10 0, settings := PortSettings.powerOn }, state := .inFlight }
    let t := after (.binBar 1 [5]) s
    t.port.queue = [o .insert 32 2, o (.extract 1) 17 3] ∧ (t.slot 3).state = .held ∧
      (t.slot 35).hold = some .withdrawn ∧ (t.slot 17).state = .graded ∧
      answer (.binBar 1 [5]) s = some [1, 5, 2, 4, 36, 1, 11] := by decide

/-- The fifth request in a row is refused with BUSY (section 10.8), and the four before it wait. -/
theorem test_fifth_waiting_request_is_busy :
    let sending : OutFrame := { tag := 20, code := 0, body := [1], served := true, after := .nothing }
    let four : List Request := List.replicate 4 { tag := 21, code := 10, body := [12] }
    let s := planned.setLine { planned.line with sending := some sending, requests := four }
    let t := after (.zoneQuery 25 [2, 1]) s
    t.line.requests = four ∧ t.line.replies.map (·.tag) = [25] ∧ t.line.counters.busy = 1 := by decide

/-! ## Witnesses: the hypotheses of the statements about slots and runs -/

theorem witness_ready : planned.ready ∧ (at_ 39 .paused 2).ready := ⟨⟨rfl, rfl⟩, ⟨rfl, rfl⟩⟩

theorem witness_SlotOpenAssignsPlan :
    planned.ready ∧ ofNum 40 (40 : Byte).toNat = some 39 ∧ ofNum 40 (1 : Byte).toNat = some 0 ∧
      ofNum 8 (1 : Byte).toNat = some 0 ∧ (planned.plan 0).steps ≠ [] ∧ (planned.slot 39).state = .vacant ∧
      (planned.slot 0).state = .vacant := ⟨⟨rfl, rfl⟩, by decide⟩

theorem witness_RunStartClears :
    (at_ 39 .seated 1).ready ∧ ((at_ 39 .seated 1).plan 0).steps ≠ [] ∧ ((at_ 39 .seated 1).slot 39).state = .seated ∧
      ∃ s : State, ∃ x : Identity, s.ready ∧ (s.plan 0).steps ≠ [] ∧ (s.slot 0).state = .held ∧
        (s.slot 0).run.identity = some x :=
  ⟨⟨rfl, rfl⟩, by decide, by decide,
    planned.modSlot 0 fun r =>
      { r with state := .held,
               run := { r.run with identity := some { serial := [], model := 0, capacity := 0, firmware := 0 } } },
    { serial := [], model := 0, capacity := 0, firmware := 0 }, ⟨rfl, rfl⟩, by decide, by decide, by decide⟩

theorem witness_PermitGrantedOrQueued :
    ((39 : SlotNo) ∉ planned.permitQueue ∧ (planned.slot 39).permit = .none ∧ planned.permitQueue = [] ∧
      planned.holders < planned.spin.permits ∧ planned.overcurrent[39] = false) ∧
    ∃ s : State, (39 : SlotNo) ∉ s.permitQueue ∧ (s.slot 39).permit = .none ∧ s.spin.permits = s.holders :=
  ⟨by decide,
    { planned.modSlot 0 fun r => { r with permit := .held } with
      spin := { permits := 1, limitS := 20, blankingMs := 300, debounceMs := 200 } }, by decide⟩

theorem witness_StepKeepsPermitLimit :
    ∃ s : State, ∃ t : State, s.permitsWithinLimit ∧ s.holders = s.spin.permits ∧ step s = .next t :=
  ⟨{ planned.modSlot 0 fun r => { r with permit := .held } with
      spin := { permits := 1, limitS := 20, blankingMs := 300, debounceMs := 200 }, pending := [.readySeen 0] },
    _, by unfold State.permitsWithinLimit; decide, by decide, rfl⟩

theorem witness_SuspendAndContinue :
    ((at_ 39 .paused 2).slot 39).state = .paused ∧
      (((at_ 39 .running 2).slot 39).state = .running ∧ ((at_ 39 .running 2).slot 39).cycleOffLink = false) ∧
      (((at_ 39 .review 2).slot 39).state = .review ∧ ((at_ 39 .review 2).zone (shelfOf 39)).state ≠ .tripped) ∧
      ∃ s : State, s.ready ∧ (s.slot 39).state = .review ∧ (s.zone (shelfOf 39)).state = .tripped :=
  ⟨by decide, by decide, by decide, (at_ 39 .review 2).modZone 3 fun z => { z with state := .tripped }, ⟨rfl, rfl⟩,
    by decide⟩

theorem witness_SlotEndEndsRun :
    ((at_ 0 .running 2).slot 0).state = .running ∧ ((at_ 0 .running 2).slot 0).cycleOffLink = false ∧
      ((cycling 0 .off).slot 0).state = .running ∧ ((cycling 0 .off).slot 0).cycleOffLink = true ∧ (cycling 0 .off).ready :=
  ⟨by decide, by decide, by decide, by decide, rfl, rfl⟩

/-- A slot in LOAD_WAIT with its order queued. -/
def loading : State := after .frameSent (after (.slotOpen 1 [40, 1]) planned)

theorem witness_SlotAbortGivesUp :
    loading.ready ∧ ((loading.slot 39).state = .loadWait ∧ loading.orderQueued 39 = true) ∧
      ((at_ 39 .review 2).slot 39).state.runs = true ∧ ((at_ 39 .ending 2).slot 39).state = .ending ∧
      ((at_ 39 .graded 2).slot 39).state = .graded ∧ (planned.slot 39).state = .vacant ∧
      (((at_ 39 .loadWait 2).slot 39).state = .loadWait ∧ (at_ 39 .loadWait 2).orderQueued 39 = false) :=
  ⟨⟨rfl, rfl⟩, by decide⟩

theorem witness_SlotReleaseQueuesExtract :
    ∃ s : State, s.ready ∧ ofNum 12 (1 : Byte).toNat = some 0 ∧ ofNum 12 (12 : Byte).toNat = some 11 ∧
      (s.slot 39).state = .held ∧ s.sort.barred[(0 : LaneNo)] = true ∧ s.sort.barred[(11 : LaneNo)] = false :=
  ⟨{ at_ 39 .held 2 with sort := { SortTables.powerOn with barred := (Vector.replicate 12 false).set 0 true } },
    ⟨rfl, rfl⟩, by decide⟩

theorem witness_RawSeatStartsDebounce :
    (planned.slot 0).seatRaw = .opened ∧ (planned.slot 0).seatStable = .opened ∧ (planned.slot 0).state = .vacant ∧
      (loading.slot 39).seatRaw ≠ .closed ∧ (loading.slot 39).state = .loadWait ∧ loading.orderQueued 39 = true := by
  decide

theorem witness_StableOpenTearsDown :
    ∃ s : State, (s.slot 39).debounce.isSome = true ∧ (s.slot 39).seatRaw = .opened ∧ (s.slot 39).seatStable = .closed ∧
      (39 ∈ s.permitQueue → (s.slot 39).permit ≠ .none) ∧ 39 ∈ s.permitQueue ∧ (s.slot 39).state.runs = true :=
  ⟨{ (at_ 39 .powering 1).modSlot 39 fun r =>
      { r with debounce := some 0, seatStable := .closed, permit := .queued } with permitQueue := [39] }, by decide⟩

theorem witness_StableOpenTearsDown_held :
    ∃ s : State, (s.slot 39).debounce.isSome = true ∧ (s.slot 39).seatRaw = .opened ∧ (s.slot 39).seatStable = .closed ∧
      (39 ∈ s.permitQueue → (s.slot 39).permit ≠ .none) ∧ (s.slot 39).state = .held :=
  ⟨(at_ 39 .held 1).modSlot 39 fun r => { r with debounce := some 0, seatStable := .closed }, by decide⟩

theorem witness_DebounceSeatsOrReturns :
    (∃ s : State, (s.slot 0).debounce.isSome = true ∧ (s.slot 0).seatRaw = .closed ∧ (s.slot 0).seatStable = .opened ∧
      (s.slot 0).state = .seating ∧ (s.slot 0).plan ≠ none) ∧
    (∃ s : State, (s.slot 0).debounce.isSome = true ∧ (s.slot 0).seatRaw = (s.slot 0).seatStable ∧
      (s.slot 0).state ≠ .seating) ∧
    (∃ s : State, (s.slot 0).debounce.isSome = true ∧ (s.slot 0).seatRaw = .opened ∧ (s.slot 0).seatStable = .opened ∧
      (s.slot 0).state = .seating ∧ (s.slot 0).plan ≠ none) ∧
    (∃ s : State, (s.slot 0).debounce.isSome = true ∧ (s.slot 0).seatRaw = .opened ∧ (s.slot 0).seatStable = .opened ∧
      (s.slot 0).state = .seating ∧ (s.slot 0).plan = none) ∧
    (∃ s : State, (s.slot 0).debounce.isSome = true ∧ (s.slot 0).seatRaw ≠ (s.slot 0).seatStable ∧
      (s.slot 0).state = .unloading ∧ s.port.current = none) :=
  ⟨⟨(at_ 0 .seating 1).modSlot 0 fun r => { r with debounce := some 0, seatRaw := .closed }, by decide⟩,
    ⟨(at_ 0 .seated 1).modSlot 0 fun r => { r with debounce := some 0 }, by decide⟩,
    ⟨(at_ 0 .seating 1).modSlot 0 fun r => { r with debounce := some 0 }, by decide⟩,
    ⟨(at_ 0 .seating 1).modSlot 0 fun r => { r with debounce := some 0, plan := none }, by decide⟩,
    ⟨(at_ 0 .unloading 1).modSlot 0 fun r => { r with debounce := some 0, seatStable := .closed }, by decide⟩⟩

/-- A slot that waits for READY with its permit HELD. -/
def spinning (s : State) (i : SlotNo) : State :=
  s.modSlot i fun r => { r with permit := .held, power := .on, grantedAt := some 0, spinLimit := some 20000 }

theorem witness_ReadyEndsCapture :
    (((spinning (at_ 39 .powering 1) 39).slot 39).grantedAt = some 0 ∧
        ((spinning (at_ 39 .powering 1) 39).slot 39).permit = .held ∧
        (spinning (at_ 39 .powering 1) 39).overcurrent[39] = false ∧
        ((spinning (at_ 39 .powering 1) 39).slot 39).state = .powering) ∧
      ((spinning (cycling 0 .spinning) 0).slot 0).grantedAt = some 0 ∧
        ((spinning (cycling 0 .spinning) 0).slot 0).permit = .held ∧
        ((spinning (cycling 0 .spinning) 0).slot 0).state = .running := by decide

theorem witness_SpinLimitEndsRun :
    (((spinning (at_ 39 .powering 1) 39).slot 39).spinLimit.isSome = true ∧
        ((spinning (at_ 39 .powering 1) 39).slot 39).permit = .held ∧
        ((spinning (at_ 39 .powering 1) 39).slot 39).state = .powering) ∧
      ((spinning (cycling 0 .spinning) 0).slot 0).spinLimit.isSome = true ∧
        ((spinning (cycling 0 .spinning) 0).slot 0).state = .running := by decide

theorem witness_OvercurrentCutsPower :
    (((spinning (at_ 39 .powering 1) 39).slot 39).power = .on ∧
        ((spinning (at_ 39 .powering 1) 39).slot 39).blanking = none) ∧
      (planned.slot 39).power = .off ∧
      ∃ s : State, (s.slot 0).blanking.isSome = true ∧ (s.slot 0).power = .on ∧ s.overcurrent[0] = true ∧
        (s.slot 1).blanking.isSome = true ∧ s.overcurrent[1] = false :=
  ⟨by decide, by decide,
    { ((spinning (at_ 0 .powering 1) 0).modSlot 0 fun r => { r with blanking := some 300 }).modSlot 1 fun r =>
        { r with blanking := some 300 } with overcurrent := (Vector.replicate 40 false).set 0 true }, by decide⟩

/-! ## Witnesses: steps -/

/-- A slot in RUNNING whose step clock has just come to its limit. -/
def limited (step clock : Nat) : State := (at_ 39 .running step).modSlot 39 fun r => { r with stepClock := clock }

theorem witness_StepTimersEndOrAdvance :
    (((limited 2 5).slot 39).stepEntered = true ∧ ((limited 2 5).slot 39).cyclePhase = none ∧
      (limited 2 5).currentStep 39 = some (.exercise 3 (some 40) 5 .fail) ∧
      (PlanStep.exercise 3 (some 40) 5 .fail).limits = some (some 40, 5, .fail) ∧
      5 ≤ ((limited 2 5).slot 39).stepClock ∧ (limited 2 5).soakMet 39 (.exercise 3 (some 40) 5 .fail) = false) ∧
    ((limited 3 1).currentStep 39 = some (.soak 16 1 .continue) ∧
      (PlanStep.soak 16 1 .continue).limits = some (some 16, 1, .continue) ∧
      (limited 3 1).soakMet 39 (.soak 16 1 .continue) = false ∧
      ((limited 3 1).plan 0).steps[3]? = some (.cycle 1)) ∧
    (∃ s : State, (s.slot 39).cyclePhase = some .off ∧ (s.slot 39).offTimer.isSome = true ∧
      (s.slot 39).run.zonePaused = true) ∧
    (∃ s : State, (s.slot 39).cyclePhase = some .off ∧ (s.slot 39).offTimer.isSome = true ∧
      (s.slot 39).run.zonePaused = false) :=
  ⟨by decide, by decide,
    ⟨(cycling 39 .off).modSlot 39 fun r => { r with offTimer := some 0, run := { r.run with zonePaused := true } },
      by decide⟩,
    ⟨(cycling 39 .off).modSlot 39 fun r => { r with offTimer := some 0 }, by decide⟩⟩

/-- The last step of a plan: CONTINUE with no step after it completes the run. -/
theorem witness_StepTimersEndOrAdvance_last :
    ∃ s : State, (s.slot 39).state = .running ∧ s.currentStep 39 = some (.soak 16 1 .continue) ∧
      1 ≤ (s.slot 39).stepClock ∧ (s.plan 0).steps[1]? = none :=
  ⟨((limited 1 1).setPlan 0 { steps := [.soak 16 1 .continue], refs := 1 }), by decide⟩

/-- The ends of the ranges of R31: each step reads back. -/
theorem witness_EncodingsReadBack :
    readStep 1 (PlanStep.exercise 15 (some 1048575) 65535 .continue).bytes =
        some { value := .exercise 15 (some 1048575) 65535 .continue, clamped := false } ∧
      readStep 1 (PlanStep.exercise 1 none 1 .fail).bytes =
        some { value := .exercise 1 none 1 .fail, clamped := false } ∧
      readStep 16 (PlanStep.cycle 600).bytes = some { value := .cycle 600, clamped := false } ∧
      readStep 16 (PlanStep.loop 15 255).bytes = some { value := .loop 15 255, clamped := false } ∧
      readStep 2 (PlanStep.loop 1 1).bytes = some { value := .loop 1 1, clamped := false } := by
  decide +kernel

/-! ## Witnesses: shelf links -/

/-- A link in a phase with slots on its scan list. -/
def linked (f : Link → Link) : State := planned.modLink 3 fun x => f { x with scan := [38, 39] }

def identAsk (i : SlotNo) : Directed := { slot := i, code := .ident, purpose := .plain }

theorem witness_LinkWorkIsSent :
    (∃ s : State, (s.link 3).outstanding = none ∧ (s.link 3).phase = .wait ∧
      (s.link 3).settings.minPeriod = (s.now - (s.link 3).frameStart).toNat ∧ (s.link 3).scan ++ (s.link 3).joins ≠ []) ∧
    (∃ s : State, (s.link 3).outstanding = none ∧ (s.link 3).phase = .wait ∧
      (s.link 3).settings.minPeriod = (s.now - (s.link 3).frameStart).toNat ∧ (s.link 3).scan = [] ∧
      (s.link 3).joins = [] ∧ (s.link 3).summary = []) ∧
    (∃ s : State, (s.link 3).outstanding = none ∧ (s.link 3).phase = .wait ∧
      (s.link 3).settings.minPeriod = (s.now - (s.link 3).frameStart).toNat ∧ (s.link 3).scan = [] ∧
      (s.link 3).joins = [] ∧ (s.link 3).summary = [SummaryOp.begin 39]) ∧
    (∃ s : State, (s.link 3).outstanding = none ∧
      (s.now - (s.link 3).frameStart).toNat + 1 = (s.link 3).settings.minPeriod) ∧
    (∃ s : State, (s.link 3).outstanding = none ∧ (s.link 3).phase = .poll ∧
      (∀ d ∈ (s.link 3).directed, d.slot ∉ (s.link 3).scan) ∧ (s.link 3).unpolled = [39]) ∧
    (∃ s : State, (s.link 3).outstanding = none ∧ (s.link 3).directed = [identAsk 37] ++ identAsk 39 :: [] ∧
      (∀ e ∈ [identAsk 37], e.slot ∉ (s.link 3).scan) ∧ (identAsk 39).slot ∈ (s.link 3).scan) ∧
    (∃ s : State, (s.link 3).outstanding = none ∧ (s.link 3).phase = .gap ∧
      (∀ d ∈ (s.link 3).directed, d.slot ∉ (s.link 3).scan) ∧ (s.link 3).summary = [SummaryOp.begin 39] ∧
      (s.link 3).gapCount = 3 ∧ (s.link 3).settings.gapBudget = 4 ∧ (SummaryOp.begin 39).slot ∉ (s.link 3).joins) :=
  ⟨⟨atTime 2000 (linked fun x => x), by decide⟩, ⟨atTime 2000 planned, by decide⟩,
    ⟨atTime 2000 (planned.modLink 3 fun x => { x with summary := [SummaryOp.begin 39] }), by decide⟩,
    ⟨atTime 1999 (linked fun x => x), by decide⟩, ⟨linked fun x => { x with phase := .poll, unpolled := [39] }, by decide⟩,
    ⟨linked fun x => { x with phase := .poll, directed := [identAsk 37, identAsk 39] }, by decide⟩,
    ⟨linked fun x => { x with phase := .gap, summary := [SummaryOp.begin 39], gapCount := 3 }, by decide⟩⟩

theorem witness_DirectedQueueHoldsOneEach :
    (∃ l : Link, l.knows 39 = false) ∧ (∃ l : Link, l.knows 39 = true ∧ (∀ d ∈ l.directed, d.slot ≠ 39)) ∧
    (∃ l : Link, l.knows 39 = true ∧ l.directed = [identAsk 38] ++ identAsk 39 :: [] ∧ (identAsk 39).slot = 39 ∧
      (∀ x ∈ [identAsk 38] ++ [], x.slot ≠ 39) ∧ l.directed.Pairwise (fun a b => a.slot ≠ b.slot)) :=
  ⟨⟨planned.link 3, by decide⟩, ⟨(linked fun x => x).link 3, by decide⟩,
    ⟨(linked fun x => { x with directed := [identAsk 38, identAsk 39] }).link 3, by decide⟩⟩

theorem witness_StatusReplyTaken :
    ((asked (at_ 39 .running 3) 3 39 .status).link 3).outstanding =
        some { slot := 39, request := .status, expiry := 25, spoiled := false } ∧
      (Time.passed (asked (at_ 39 .running 3) 3 39 .status).now 25 = false ∧ Time.passed 25 25 = false) ∧
      readDriveState 3 = some .failed ∧ (15 : Byte).toNat ≤ 15 ∧
      ((asked (at_ 39 .running 3) 3 39 .status).slot 39).state.polled = true ∧
      (asked (at_ 39 .running 3) 3 39 .status).winner
        ((asked (at_ 39 .running 3) 3 39 .status).watch 39).prior 0 = none ∧
      ((asked (at_ 39 .seated 1) 3 39 .status).slot 39).state.polled = false := by decide

theorem witness_DirectedRepliesTaken :
    (∃ s : State, ((s.link 3).outstanding =
        some { slot := 39, request := .directed .ident .plain, expiry := 25, spoiled := false }) ∧
      (s.slot 39).state = .identifying ∧ (s.zone (shelfOf 39)).state ≠ .tripped ∧ (s.slot 39).plan = some 0 ∧
      (s.plan 0).steps[0]? = some .baseline) ∧
    (∃ s : State, ((s.link 3).outstanding =
        some { slot := 39, request := .directed .ident .plain, expiry := 25, spoiled := false }) ∧
      (s.slot 39).state = .identifying ∧ (s.zone (shelfOf 39)).state = .tripped) ∧
    (∃ s : State, ((s.link 3).outstanding =
        some { slot := 39, request := .directed (.phaseStart 3) (.step 0), expiry := 25, spoiled := false }) ∧
      (Purpose.step 0 = .step (s.slot 39).stepEntry ∧ (s.slot 39).state = .running ∧ (s.slot 39).stepEntered = true)) ∧
    (∃ s : State, ((s.link 3).outstanding =
        some { slot := 39, request := .directed .halt (.step 0), expiry := 25, spoiled := false }) ∧
      (s.slot 39).cyclePhase = some .halting ∧ s.currentStep 39 = some (.cycle 1) ∧ (s.slot 39).stepEntered = true ∧
      (s.slot 39).state = .running ∧ (s.slot 39).stepEntry = 0) ∧
    (∃ s : State, ((s.link 3).outstanding =
        some { slot := 39, request := .directed .halt .zoneEnd, expiry := 25, spoiled := false }) ∧
      (s.slot 39).state = .ending) ∧
    Time.passed (at_ 39 .identifying 1).now 25 = false ∧
    readDriveState 0 = some .idle ∧ (List.replicate 20 (0x41 : Byte)).length = 20 :=
  ⟨⟨asked (at_ 39 .identifying 1) 3 39 (.directed .ident .plain), by decide⟩,
    ⟨(asked (at_ 39 .identifying 1) 3 39 (.directed .ident .plain)).modZone 3 fun z => { z with state := .tripped },
      by decide⟩,
    ⟨asked (at_ 39 .running 2) 3 39 (.directed (.phaseStart 3) (.step 0)), by decide⟩,
    ⟨asked (cycling 39 .halting) 3 39 (.directed .halt (.step 0)), by decide⟩,
    ⟨asked (at_ 39 .ending 1) 3 39 (.directed .halt .zoneEnd), by decide⟩, by decide, by decide, by decide⟩

/-- Block 0 of a drive with a number of heads. -/
def heads (n : Nat) : Block0 := { grown := 3, pending := 0, maxTemp := 50, headCount := n, driveVerdict := 0 }

/-- A slot in ENDING whose summary waits for a block. -/
def reading (n head : Nat) : State :=
  let op : SummaryOp :=
    { slot := 39, next := n, block0 := if n = 0 then none else some (heads head), margins := [], misses := 0 }
  (asked (at_ 39 .ending 1) 3 39 (.summary n)).modLink 3 fun x => { x with summary := [op] }

theorem witness_SummaryBlocksTaken :
    readDriveState 2 = some .done ∧ Time.passed (reading 0 1).now 25 = false ∧
      ((reading 0 1).link 3).summary = [SummaryOp.begin 39] ∧
      (((reading 3 12).link 3).outstanding =
          some { slot := 39, request := .summary 3, expiry := 25, spoiled := false } ∧
        ((reading 3 12).link 3).summary.map (·.block0) = [some (heads 12)] ∧ (heads 12).headCount ≤ 4 * 3) ∧
      (((reading 1 5).link 3).summary.map (·.next) = [1] ∧ 4 * 1 < (heads 5).headCount) ∧
      ((reading 1 4).link 3).summary.map (·.next) = [1] ∧ (heads 4).headCount ≤ 4 * 1 := by decide

theorem witness_MissCountsAndEnds :
    (∃ s : State, ∃ t : Transaction, (s.link 3).outstanding = some t ∧ Time.reached s.now t.expiry = true ∧
      t.request = .status ∧ t.slot = 39 ∧ (s.slot 39).state.polled = true ∧
      (s.link 3).settings.missLimit = min 255 ((s.linkSlot 39).consecutive + 1)) ∧
    (∃ s : State, ∃ t : Transaction, (s.link 3).outstanding = some t ∧ Time.reached s.now t.expiry = true ∧
      t.request = .status ∧ t.slot = 39 ∧ min 255 ((s.linkSlot 39).consecutive + 1) < (s.link 3).settings.missLimit) ∧
    (∃ s : State, ∃ t : Transaction, (s.link 3).outstanding = some t ∧ Time.reached s.now t.expiry = true ∧
      t.request = .summary 0 ∧ t.slot = 39 ∧ (s.slot 39).state = .ending ∧
      (s.link 3).summary = [{ SummaryOp.begin 39 with misses := 3 }] ∧ (s.link 3).settings.missLimit = min 15 (3 + 1)) ∧
    (∃ s : State, ∃ t : Transaction, (s.link 3).outstanding = some t ∧ Time.reached s.now t.expiry = true ∧
      t.request = .summary 0 ∧ t.slot = 39 ∧ (s.slot 39).state = .ending ∧
      (s.link 3).summary = [SummaryOp.begin 39] ∧ min 15 (0 + 1) < (s.link 3).settings.missLimit) ∧
    (∃ s : State, ∃ t : Transaction, (s.link 3).outstanding = some t ∧ Time.reached s.now t.expiry = false) ∧
    (∀ r ∈ [LinkRequest.directed .ident .plain, .directed (.phaseStart 3) (.step 0), .directed .halt (.step 0),
        .directed .halt .zoneEnd],
      let s := atTime 25 (asked (cycling 39 .halting) 3 39 r)
      (s.link 3).outstanding = some { slot := 39, request := r, expiry := 25, spoiled := false } ∧
        Time.reached s.now 25 = true ∧ min 255 ((s.linkSlot 39).consecutive + 1) < (s.link 3).settings.missLimit ∧
        (s.slot 39).stepEntry = 0 ∧ (s.slot 39).state = .running ∧ (s.slot 39).stepEntered = true ∧
        (s.slot 39).cyclePhase = some .halting ∧ s.currentStep 39 = some (.cycle 1)) ∧
    ((at_ 39 .ending 1).slot 39).state.polled = false :=
  ⟨⟨(atTime 25 (asked (at_ 39 .running 3) 3 39 .status)).setLinkSlot 39 { last := none, consecutive := 3, total := 3 },
      { slot := 39, request := .status, expiry := 25, spoiled := false }, by decide⟩,
    ⟨atTime 25 (asked (at_ 39 .running 3) 3 39 .status),
      { slot := 39, request := .status, expiry := 25, spoiled := false }, by decide⟩,
    ⟨(atTime 25 (reading 0 1)).modLink 3 fun x => { x with summary := [{ SummaryOp.begin 39 with misses := 3 }] },
      { slot := 39, request := .summary 0, expiry := 25, spoiled := false }, by decide⟩,
    ⟨atTime 25 (reading 0 1), { slot := 39, request := .summary 0, expiry := 25, spoiled := false }, by decide⟩,
    ⟨atTime 24 (asked planned 3 39 .status),
      { slot := 39, request := .status, expiry := 25, spoiled := false }, by decide⟩, by decide, by decide⟩

/-- R64: IDENT missed in IDENTIFYING is asked for again, a missed HALT takes a CYCLE step to OFF, and a missed HALT of a
ZONE_TRIP end takes the slot to its verdict. -/
theorem test_missed_directed_transactions :
    let missed (s : State) (r : LinkRequest) : State := after (.miss 3) (atTime 25 (asked s 3 39 r))
    ((missed (at_ 39 .identifying 1) (.directed .ident .plain)).link 3).directed = [identAsk 39] ∧
      ((missed (cycling 39 .halting) (.directed .halt (.step 0))).slot 39).offTimer = some 1025 ∧
      ((missed (at_ 39 .ending 1) (.directed .halt .zoneEnd)).slot 39).run.summaryMissing = true := by decide +kernel

theorem witness_BadRepliesEndNothing :
    (Instr.statusReply 3 [] ∈ [Instr.statusReply 3 [], .identReply 3 [], .phaseStartReply 3 [], .haltReply 3 [],
      .summaryReply 3 []]) ∧
    (planned.link 3).outstanding = none ∧
    (∃ s : State, ∃ t : Transaction, (s.link 3).outstanding = some t ∧ Time.passed s.now t.expiry = true) ∧
    (∃ s : State, ∃ t : Transaction, (s.link 3).outstanding = some t ∧ t.spoiled = false ∧
      Time.passed s.now t.expiry = false ∧ readReply t.request [0xA5] = none ∧ readReply t.request [0x11] = none) ∧
    (∃ s : State, ∃ t : Transaction, (s.link 3).outstanding = some t ∧ t.spoiled = true) ∧
    readReply (.directed .halt .plain) (replyFrame 0x13 0 []) = some (.idle, []) ∧
    readReply (.directed .halt .plain) (replyFrame 0x12 0 []) = none ∧
    15 < (16 : Byte).toNat ∧ (∀ r ∈ [LinkRequest.status, .summary 0, .summary 3],
      ((asked planned 3 39 r).link 3).outstanding =
        some { slot := 39, request := r, expiry := 25, spoiled := false }) ∧
    Time.passed planned.now 25 = false ∧ (1 : Byte) ≠ 0 ∧ (2 : Byte).toNat ≠ 3 :=
  ⟨by decide, by decide,
    ⟨atTime 26 (asked planned 3 39 .status),
      { slot := 39, request := .status, expiry := 25, spoiled := false }, by decide⟩,
    ⟨asked planned 3 39 .status, { slot := 39, request := .status, expiry := 25, spoiled := false }, by decide⟩,
    ⟨(asked planned 3 39 .status).modLink 3 Link.spoil,
      { slot := 39, request := .status, expiry := 25, spoiled := true }, by decide⟩, by decide, by decide, by decide,
    by decide, by decide, by decide, by decide⟩

/-- R54 and R55: a STATUS with phase 16 and a SUMMARY of block 2 for block 3 asked leave the transaction outstanding, and
spoil it. -/
theorem test_replies_that_fail_by_their_payload :
    let spoils (s : State) (c : Instr) : Bool := ((after c s).link 3).outstanding.any (·.spoiled)
    spoils (asked planned 3 39 .status) (.statusReply 3 (replyFrame 0x14 0 [16, 0, 0, 0, 0, 0, 0, 0, 0])) = true ∧
      spoils (reading 3 12) (.summaryReply 3 (replyFrame 0x15 0 [2, 0, 0, 0, 0])) = true ∧
      spoils (reading 3 12) (.summaryReply 3 (replyFrame 0x15 0 [3, 0, 0, 0, 0])) = false := by decide +kernel

/-! ## Witnesses: zones -/

/-- A profile of one looping segment. -/
def oneSegment (rate hold : Nat) (loop : Bool) : Profile :=
  { segments := [{ target := 500, rate := rate, hold := hold }], loop := loop }

def twoSegments : Profile :=
  { segments := [{ target := 500, rate := 10, hold := 0 }, { target := 300, rate := 0, hold := 1 }], loop := false }

/-- Zone 4 in RUN with its air good and no cause present. -/
def heated (f : Zone → Zone) : State :=
  planned.modZone 3 fun z =>
    f { z with state := .run, sensor := .good, air := some 300, setpoint := some 300, active := some (oneSegment 10 1 false),
               causes := { overLimit := false, cutoff := false, fanLow := false, sensor := false },
               player := some { segment := 1, sub := .hold, hold := 1 } }

theorem witness_SensorReadingsTaken : (1500 : Nat) ≤ 1500 ∧ (1500 : Int) < 1501 ∧ (-1 : Int) < 0 := by decide

theorem witness_CutoffFollowsInput :
    (((heated id).zone 3).state = .run ∧ ((heated id).zone 3).causes.cutoff = false) ∧ (planned.zone 0).state ≠ .run ∧
      ∃ s : State, (s.zone 3).state = .tripped ∧ (s.zone 3).causes.cutoff = false :=
  ⟨by decide, by decide, heated fun z => { z with state := .tripped }, by decide⟩

/-- Zone 4 in RUN with slots of its shelf in every state of the run. -/
def busyShelf : State :=
  (((heated id).modSlot 39 fun r => { r with state := .running }).modSlot 38 fun r =>
    { r with state := .running, cyclePhase := some .off }).modSlot 37 fun r => { r with state := .review }

/-- Every cause comes to zone 4, in RUN or in another state, and every kind of event takes one away. -/
theorem witness_TripPausesShelf_causes :
    (∀ st ∈ [ZoneState.run, .tripped, .off], ∀ grace ∈ [0, 10],
      let s := heated fun z =>
        { z with state := st, fanCount := 59, lowWindows := 2, settings := { z.settings with graceMin := grace } }
      (s.zone 3).state = st ∧ (s.zone 3).settings.graceMin = grace ∧ (∀ i : SlotNo, s.overcurrent[i] = false) ∧
        (∃ y, s.causeComes 3 (.cutoffChange 3 true) .cutoff y) ∧ (∃ y, s.causeComes 3 (.sensorNoResponse 3) .sensor y) ∧
        (∃ y, s.causeComes 3 (.airSensorRead 3 1501) .sensor y) ∧
        (∃ y, s.causeComes 3 (.airSensorRead 3 901) .overLimit y) ∧
        (∃ y, s.causeComes 3 (.fanWindowEnd 3) .fanLow y) ∧ (∃ y, s.causesLeave 3 (.cutoffChange 3 false) y) ∧
        (∃ y, s.causesLeave 3 (.airSensorRead 3 900) y)) ∧
    (∃ s : State, (s.zone 3).trip = some { first := .cutoff, time := 0, seen := (s.zone 3).causes } ∧
      (s.zone 3).state = .tripped ∧ (∃ y, s.causesLeave 3 (.fanWindowEnd 3) y)) := by
  refine ⟨?_, heated fun z =>
    { z with state := .tripped, fanCount := 60, trip := some { first := .cutoff, time := 0, seen := z.causes } },
    by decide, by decide, _, .inr (.inr ⟨rfl, by decide, rfl⟩)⟩
  intro st hst grace hg
  simp only [List.mem_cons, List.not_mem_nil, or_false] at hst hg
  obtain rfl | rfl | rfl := hst <;> obtain rfl | rfl := hg <;>
    exact ⟨rfl, rfl, by decide, ⟨_, rfl, rfl, rfl⟩, ⟨_, .inl rfl, rfl, rfl⟩, ⟨_, .inr ⟨1501, by decide, rfl⟩, rfl, rfl⟩,
      ⟨_, rfl, 901, by decide, by decide, rfl, rfl⟩, ⟨_, rfl, rfl, by decide, by decide, rfl⟩, ⟨_, .inl ⟨rfl, rfl⟩⟩,
      ⟨_, .inr (.inl ⟨900, by decide, .inl (by decide), rfl, rfl⟩)⟩⟩

theorem witness_TripPausesShelf :
    (busyShelf.zone 3).state = .run ∧ (busyShelf.zone 3).causes.cutoff = false ∧
      (busyShelf.zone 3).settings.graceMin ≠ 0 ∧ shelfOf 39 = 3 ∧ shelfOf 30 = 3 ∧ shelfOf 29 = 2 ∧
      ((busyShelf.slot 39).state = .running ∧ (busyShelf.slot 39).cycleOffLink = false) ∧
      ((busyShelf.slot 38).state = .running ∧ (busyShelf.slot 38).cycleOffLink = true) ∧
      (busyShelf.slot 37).state = .review ∧ ((busyShelf.slot 30).state ≠ .running ∧ (busyShelf.slot 30).state ≠ .review) :=
  by decide

/-- R92 and R89: with a grace of 0 the third low fan window ends the run of slot 40 at once, and the ZONE_TRIP notice
names FAN_LOW. -/
theorem test_trip_with_no_grace :
    let s := busyShelf.modZone 3 fun z =>
      { z with fanCount := 59, lowWindows := 2, settings := { z.settings with graceMin := 0 } }
    let t := after (.fanWindowEnd 3) s
    (t.slot 39).state = .ending ∧ (t.slot 39).run.endCause = some .zoneTrip ∧ (t.zone 3).grace = some .expired ∧
      (t.zone 3).trip.map (·.first) = some .fanLow ∧
      (t.line.notices.any fun n => n.body =
        .zoneTrip 3 .fanLow { overLimit := false, cutoff := false, fanLow := true, sensor := false }
          { overLimit := false, cutoff := false, fanLow := true, sensor := false } 0) = true := by decide +kernel

/-- Zone 4 TRIPPED, its causes gone, with slots of its shelf that wait for it. -/
def trippedShelf : State :=
  ((((heated fun z => { z with state := .tripped, grace := some (.running 0) }).modSlot 39 fun r =>
    { r with state := .paused, plan := some 0, step := some 2, stepEntered := true }).modSlot 38 fun r =>
    { r with state := .running, cyclePhase := some .waiting, run := { r.run with zonePaused := true } }).modSlot 37 fun r =>
      { r with state := .review }).modSlot 36 fun r => { r with state := .paused, plan := some 0, step := some 1 }

theorem witness_ShelfToldOfGraceAndResume :
    (trippedShelf.zone 3).state = .tripped ∧ (∀ i : SlotNo, trippedShelf.overcurrent[i] = false) ∧
      (trippedShelf.zone 3).grace = some (.running 0) ∧ ofNum 4 (4 : Byte).toNat = some 3 ∧
      (trippedShelf.zone 3).causes.isEmpty = true ∧
      ((trippedShelf.slot 39).state = .paused ∧ (trippedShelf.slot 39).stepEntered = true) ∧
      ((trippedShelf.slot 38).state = .running ∧ (trippedShelf.slot 38).run.zonePaused = true ∧
        (trippedShelf.slot 38).cyclePhase = some .waiting) ∧ (trippedShelf.slot 37).state = .review ∧
      ((trippedShelf.slot 36).state = .paused ∧ (trippedShelf.slot 36).stepEntered = false ∧
        (trippedShelf.slot 36).cycleOffLink = false ∧ (trippedShelf.slot 36).step = some 1) ∧
      trippedShelf.currentStep 39 = some (.exercise 3 (some 40) 5 .fail) ∧ trippedShelf.ready ∧
      ofNum 4 (0 : Byte).toNat = none ∧ ofNum 4 (5 : Byte).toNat = none ∧ ofNum 4 (1 : Byte).toNat = some 0 ∧
      (trippedShelf.zone 0).state ≠ .tripped ∧
      (∃ s : State, s.ready ∧ (s.zone 0).state = .tripped ∧ (s.zone 0).causes.isEmpty = false) :=
  ⟨by decide, by decide, by decide, by decide, by decide, by decide, by decide, by decide, by decide, by decide,
    ⟨rfl, rfl⟩, by decide, by decide, by decide, by decide, planned.modZone 0 fun z => { z with state := .tripped },
    ⟨rfl, rfl⟩, by decide⟩

/-- R50: ZONE RESUME enters a step that had not been entered, and leaves the clock of one that had. -/
theorem test_resume_enters_the_step_not_yet_entered :
    let t := after (.zoneResume 1 [4]) (trippedShelf.modSlot 39 fun r => { r with stepClock := 3 })
    (t.slot 36).state = .running ∧ (t.slot 36).stepEntered = true ∧ (t.slot 36).stepEntry = 1 ∧
      (t.slot 39).state = .running ∧ (t.slot 39).stepClock = 3 ∧ (t.slot 39).stepEntry = 0 := by decide +kernel

theorem witness_FanAndHeaterDriven :
    (∃ s : State, (s.zone 3).fanCount * 30 = (s.zone 3).settings.fanMin) ∧
      (∃ s : State, (s.zone 3).fanCount * 30 + 30 = (s.zone 3).settings.fanMin ∧ (s.zone 3).lowWindows = 2) :=
  ⟨⟨heated fun z => { z with fanCount := 60 }, by decide⟩,
    ⟨heated fun z => { z with fanCount := 59, lowWindows := 2 }, by decide⟩⟩

theorem witness_FanAndHeaterDriven_heater :
    ((heated id).zone 3).state = .run ∧
      ∃ s : State, (s.zone 3).onEnd.isSome = true :=
  ⟨by decide, heated fun z => { z with onEnd := some 0 }, by decide⟩

theorem witness_SegmentsFollowOn :
    (((heated id).zone 3).active = some (oneSegment 10 1 false) ∧
      ((heated id).zone 3).player = some { segment := 1, sub := .hold, hold := 1 } ∧
      (oneSegment 10 1 false).segments[1 - 1]? = some { target := 500, rate := 10, hold := 1 } ∧
      ((heated id).zone 3).staged = none ∧ (oneSegment 10 1 false).segments.length ≤ 1) ∧
    (∃ s : State, (s.zone 3).staged = some (oneSegment 0 0 false) ∧ (s.zone 3).state = .run) ∧
    (∃ s : State, (s.zone 3).active = some (oneSegment 10 1 true) ∧ (oneSegment 10 1 true).loop = true ∧
      (s.zone 3).state = .run) ∧
    (∃ s : State, ∃ p : Profile, (s.zone 3).active = some p ∧ 1 < p.segments.length ∧
      p.segments[0]? = some { target := 500, rate := 10, hold := 0 }) :=
  ⟨by decide, ⟨heated fun z => { z with staged := some (oneSegment 0 0 false) }, by decide⟩,
    ⟨heated fun z => { z with active := some (oneSegment 10 1 true) }, by decide⟩,
    ⟨heated fun z => { z with active := some twoSegments }, twoSegments, by decide⟩⟩

theorem witness_ZoneStartsAndStops :
    ofNum 4 (0 : Byte).toNat = none ∧ ofNum 4 (4 : Byte).toNat = some 3 ∧ ((heated id).zone 3).state ≠ .off ∧
      ((heated id).zone 3).state = .run ∧ ((planned.zone 3).state = .off ∧ (planned.zone 3).active = none) ∧
      (∃ s : State, s.ready ∧ (s.zone 3).state = .off ∧ (s.zone 3).active ≠ none ∧ (s.zone 3).causes.isEmpty = false) ∧
      (∃ s : State, s.ready ∧ (s.zone 3).state = .off ∧ (s.zone 3).active = some (oneSegment 10 1 false) ∧
        (s.zone 3).causes.isEmpty = true) :=
  ⟨by decide, by decide, by decide, by decide, by decide,
    ⟨planned.modZone 3 fun z => { z with active := some (oneSegment 10 1 false) }, ⟨rfl, rfl⟩, by decide⟩,
    ⟨heated fun z => { z with state := .off }, ⟨rfl, rfl⟩, by decide⟩⟩

theorem witness_ZoneTablesTaken :
    ofNum 4 (4 : Byte).toNat = some 3 ∧ ofNum 4 (5 : Byte).toNat = none ∧
      (∀ g ∈ List.replicate 16 ({ target := 65535, rate := 65535, hold := 65535 } : Segment),
        g.target ≤ 65535 ∧ g.rate ≤ 65535 ∧ g.hold ≤ 65535) ∧
      (List.replicate 16 ({ target := 1500, rate := 500, hold := 0 } : Segment)).length ≤ 16 ∧
      16 < (List.replicate 17 ({ target := 1500, rate := 500, hold := 0 } : Segment)).length ∧
      (List.replicate 5 (0 : Byte)).length ≠ 6 * (1 : Byte).toNat ∧
      ((heated fun z => { z with player := some { segment := 1, sub := .finished, hold := 1 } }).zone 3).player.map (·.sub) =
        some .finished := by decide

/-! ## Witnesses: dose, watch rules and sorting -/

/-- The premise of the minute tick where no slot is in a CYCLE step off its link. -/
theorem on_link_of_no_phase {s : State} (h : ∀ i, (s.slot i).cyclePhase = none) :
    ∀ i, (s.slot i).cycleOffLink = true → ∃ off, s.currentStep i = some (.cycle off) := by
  intro i hi
  simp [SlotRec.cycleOffLink, h i] at hi

theorem witness_MinuteTickCredits :
    (∀ i, (planned.slot i).cycleOffLink = true → ∃ off, planned.currentStep i = some (.cycle off)) ∧
      (planned.slot 39).state ≠ .running ∧ (planned.zone 0).state ≠ .run ∧
      (∃ s : State, (∀ i, (s.slot i).cyclePhase = none) ∧ (s.slot 39).state = .running ∧ (s.slot 39).power = .on ∧
        (s.slot 39).stepEntered = true ∧ (s.currentStep 39).bind PlanStep.limits = none) ∧
      (∃ s : State, (∀ i, (s.slot i).cyclePhase = none) ∧ (s.slot 39).state = .running ∧ (s.slot 39).power = .on ∧
        (s.slot 39).stepEntered = true ∧ s.currentStep 39 = some (.soak 16 1 .continue) ∧
        (PlanStep.soak 16 1 .continue).limits = some (some 16, 1, .continue) ∧ 1 ≤ min 65535 ((s.slot 39).stepClock + 1)) ∧
      (∃ s : State, (∀ i, (s.slot i).cyclePhase = none) ∧ (s.slot 39).state = .running ∧ (s.slot 39).power = .on ∧
        (s.slot 39).stepEntered = true ∧ s.currentStep 39 = some (.exercise 3 (some 40) 5 .fail) ∧
        (PlanStep.exercise 3 (some 40) 5 .fail).limits = some (some 40, 5, .fail) ∧
        min 65535 ((s.slot 39).stepClock + 1) = 5) ∧
      (∃ s : State, (∀ i, (s.slot i).cyclePhase = none) ∧ (s.zone 3).state = .run ∧
        (s.zone 3).active = some (oneSegment 10 5 false) ∧
        (s.zone 3).player = some { segment := 1, sub := .ramp, hold := 0 } ∧ (s.zone 3).setpoint = some 300 ∧
        300 + 10 < 500) ∧
      (∃ s : State, (∀ i, (s.slot i).cyclePhase = none) ∧ (s.zone 3).state = .run ∧
        (s.zone 3).active = some (oneSegment 10 0 false) ∧
        (s.zone 3).player = some { segment := 1, sub := .ramp, hold := 0 } ∧ (s.zone 3).setpoint = some 490 ∧
        500 ≤ 490 + 10) ∧
      (∃ s : State, (∀ i, (s.slot i).cyclePhase = none) ∧ (s.zone 3).state = .run ∧
        (s.zone 3).active = some (oneSegment 10 4 false) ∧
        (s.zone 3).player = some { segment := 1, sub := .hold, hold := 3 } ∧ (s.zone 3).setpoint = some 300) :=
  ⟨on_link_of_no_phase (by decide +kernel), by decide, by decide,
    ⟨spinning (at_ 39 .running 1) 39, by decide +kernel⟩,
    ⟨spinning (at_ 39 .running 3) 39, by decide +kernel⟩,
    ⟨spinning (limited 2 4) 39, by decide +kernel⟩,
    ⟨heated fun z =>
      { z with active := some (oneSegment 10 5 false), player := some { segment := 1, sub := .ramp, hold := 0 } },
      by decide +kernel⟩,
    ⟨heated fun z =>
      { z with active := some (oneSegment 10 0 false), player := some { segment := 1, sub := .ramp, hold := 0 },
               setpoint := some 490 }, by decide +kernel⟩,
    ⟨heated fun z =>
      { z with active := some (oneSegment 10 4 false), player := some { segment := 1, sub := .hold, hold := 3 } },
      by decide +kernel⟩⟩

/-- The premise of the minute tick with a slot in the OFF phase of a CYCLE step. -/
theorem witness_MinuteTickCredits_cycle :
    (∀ i, ((cycling 39 .off).slot i).cycleOffLink = true → ∃ off, (cycling 39 .off).currentStep i = some (.cycle off)) ∧
      ((cycling 39 .off).slot 39).cycleOffLink = true := by
  refine ⟨fun i h => ?_, by decide⟩
  have hi : i = 39 := by revert i; decide +kernel
  subst hi
  exact ⟨1, by decide⟩

/-- A rule that matches every word with SHOCK in it. -/
def shockRule (action : WatchAction) (cls : Option WatchClass) : WatchRule :=
  { enabled := true, mode := .any, action := action, cls := cls, specs := (Vector.replicate 16 Spec.ignore).set 5 .set }

/-- A slot being polled, with the rule of a number matching SHOCK and the latch given. -/
def watched (st : SlotState) (n : RuleNo) (action : WatchAction) (cls : Option WatchClass) (latch : Option WatchLatch) :
    State :=
  let s := asked (at_ 39 st 3) 3 39 .status
  { s with rules := s.rules.set n (shockRule action cls), watches := s.watches.set 39 { prior := 0, latch := latch } }

def fullLatch (again : Bool) : WatchLatch :=
  { rule := 2, action := .note, cls := none, stamp := 5, snapshot := 0x0020, again := again }

/-- Each action, on an EMPTY and on a FULL latch, in RUNNING or REVIEW, with the first and the last rule. -/
theorem witness_WatchActionsTaken :
    (∀ a ∈ [WatchAction.note, .suspend], ∀ st ∈ [SlotState.running, .review], ∀ n ∈ [(0 : RuleNo), 7],
      ∀ latch ∈ [none, some (fullLatch false), some (fullLatch true)],
      let s := watched st n a none latch
      (s.link 3).outstanding = some { slot := 39, request := .status, expiry := 25, spoiled := false } ∧
        Time.passed s.now 25 = false ∧ (s.slot 39).state = st ∧ (s.slot 39).cycleOffLink = false ∧
        s.winner (s.watch 39).prior 0x0020 = some n ∧ (s.rules[n]).action = a ∧ (s.watch 39).latch = latch) ∧
    (∀ st ∈ [SlotState.running, .review], ∀ latch ∈ [none, some (fullLatch true)],
      let s := watched st 7 .reject (some 6) latch
      (s.link 3).outstanding = some { slot := 39, request := .status, expiry := 25, spoiled := false } ∧
        (s.slot 39).state = st ∧ s.winner (s.watch 39).prior 0x0020 = some 7 ∧ (s.rules[(7 : RuleNo)]).action = .reject ∧
        (s.rules[(7 : RuleNo)]).cls = some 6 ∧ (s.watch 39).latch = latch) ∧
    readDriveState 2 = some .done ∧ readDriveState 3 = some .failed := by decide +kernel

/-- R116: a FAILED drive ends the run out of the REVIEW of a SUSPEND in the same reply, and the latch keeps it. -/
theorem test_failed_after_suspend :
    let t := after (.statusReply 3 (replyFrame 0x14 3 [1, 100, 40, 0, 0, 0, 0, 0, 0x20]))
      (watched .running 7 .suspend none none)
    (t.slot 39).state = .ending ∧ (t.slot 39).run.endCause = some .driveFailed ∧
      (t.watch 39).latch.map (·.action) = some .suspend := by decide +kernel

/-- REPEAT of a REJECT rule (R115): the latch is overwritten with its repeat flag, and the run ends. -/
theorem test_reject_overwrites_full_latch :
    let t := after (.statusReply 3 (replyFrame 0x14 2 [1, 100, 40, 0, 0, 0, 0, 0, 0x20]))
      (watched .review 7 .reject (some 6) (some (fullLatch true)))
    (t.slot 39).state = .ending ∧ (t.slot 39).run.endCause = some (.watchReject 6) ∧
      (t.watch 39).latch = some { rule := 7, action := .reject, cls := some 6, stamp := 0, snapshot := 0x0020,
                                  again := true } ∧ (t.watch 39).prior = 0x0020 := by decide +kernel

/-- A slot being polled at a step, with no watch rule. -/
def polledAt (step : Nat) (f : SlotRec → SlotRec) : State := (asked (at_ 39 .running step) 3 39 .status).modSlot 39 f

theorem witness_StepProgressAtReply :
    (∀ step ∈ [1, 2, 3, 4],
      let s := polledAt step id
      (s.link 3).outstanding = some { slot := 39, request := .status, expiry := 25, spoiled := false } ∧
        Time.passed s.now 25 = false ∧ (s.slot 39).state = .running ∧ (s.slot 39).cycleOffLink = false ∧
        (s.currentStep 39).isSome = true ∧ s.winner (s.watch 39).prior 0 = none) ∧
    (polledAt 1 id).currentStep 39 = some .baseline ∧
    ((polledAt 2 fun r => { r with phaseArmed := true }).currentStep 39 = some (.exercise 3 (some 40) 5 .fail) ∧
      ((polledAt 2 fun r => { r with phaseArmed := true }).slot 39).phaseArmed = true ∧
      ((polledAt 2 id).dose 39).acc - ((polledAt 2 id).slot 39).doseStart < 40 ∧
      (((polledAt 2 id).setDose 39 { DoseRec.empty with acc := 40 }).dose 39).acc = 40) ∧
    ((polledAt 3 id).currentStep 39 = some (.soak 16 1 .continue) ∧
      (((polledAt 3 id).setDose 39 { DoseRec.empty with acc := 16 }).dose 39).acc = 16) ∧
    ((polledAt 4 fun r => { r with cyclePhase := some .rejoining }).currentStep 39 = some (.cycle 1) ∧
      ((polledAt 4 fun r => { r with cyclePhase := some .rejoining }).slot 39).cycleOffLink = false) ∧
    readDriveState 2 = some .done := by decide +kernel

/-- R49 and R46: a CYCLE step that has rejoined gives way to LOOP step 5, which jumps to step 2. -/
theorem test_rejoined_cycle_loops :
    let t := after (.statusReply 3 (replyFrame 0x14 0 [0, 0, 40, 0, 0, 0, 0, 0, 0]))
      (polledAt 4 fun r => { r with cyclePhase := some .rejoining })
    (t.slot 39).step = some 2 ∧ (t.slot 39).loops[4] = 1 ∧ (t.slot 39).cyclePhase = none := by decide +kernel

theorem witness_TableLoadsReplaceWhole :
    (1 ≤ [({ lower := 0, bin := 0 } : Band)].length ∧ [({ lower := 0, bin := 0 } : Band)].length ≤ 8) ∧
      ((∀ b ∈ [({ lower := 1000, bin := 12 } : Band), { lower := 0, bin := 0 }], b.lower ≤ 1000) ∧
        [({ lower := 1000, bin := 12 } : Band), { lower := 0, bin := 0 }].Pairwise (fun a b => b.lower < a.lower) ∧
        [({ lower := 1000, bin := 12 } : Band), { lower := 0, bin := 0 }].getLast?.map (·.lower) = some 0) ∧
      (¬ ∀ b ∈ [({ lower := 1001, bin := 12 } : Band), { lower := 0, bin := 0 }], b.lower ≤ 1000) ∧
      (List.replicate 16 (255 : Byte)).length = 16 ∧ (13 : Byte) ∈ List.replicate 11 (0 : Byte) ++ [13] ∧
      12 < (13 : Byte).toNat ∧
      (∀ n : Fin 8, (((Vector.replicate 8 WatchRule.powerOn)[n]).action = .reject ↔
        ((Vector.replicate 8 WatchRule.powerOn)[n]).cls ≠ none)) ∧
      ofNum 40 (41 : Byte).toNat = none ∧ ofNum 40 (40 : Byte).toNat = some 39 := by decide

theorem witness_VerdictByFaultOrScore :
    (∃ run : RunRec, run.endCause = some (.watchReject 6)) ∧
    ((EndCause.overcurrent, (11 : FaultEntry)) ∈
      [(EndCause.driveFailed, (7 : FaultEntry)), (.stepLimit, 8), (.silent, 9), (.noSpin, 10), (.overcurrent, 11)]) ∧
    (∃ run : RunRec, ∃ x : Summary, run.endCause = some .complete ∧ run.summaryMissing = false ∧ run.summary = some x) ∧
    RunRec.empty.endCause = none ∧
    ((slot26Tables true).map =
        [{ lower := 900, bin := 1 }, { lower := 750, bin := 2 }] ++ { lower := 600, bin := 3 } :: [{ lower := 0, bin := 12 }] ∧
      (∀ y ∈ [({ lower := 900, bin := 1 } : Band), { lower := 750, bin := 2 }], 636 < y.lower)) ∧
    ∃ s : State, s.sort = slot26Tables false ∧ (s.slot 39).run = slot26Run 14 1 ∧ (s.slot 39).spin = slot26Spin 3 ∧
      (s.linkSlot 39).total = 5 ∧ (judge s.sort (s.slot 39).run (s.slot 39).spin 5).verdict.bin.val = 2 + 1 :=
  ⟨⟨{ RunRec.empty with endCause := some (.watchReject 6) }, by decide⟩, by decide,
    ⟨{ RunRec.empty with
        endCause := some .complete
        summary := some { grown := 0, pending := 0, maxTemp := 0, headCount := 1, margins := [0], driveVerdict := 0 } },
      { grown := 0, pending := 0, maxTemp := 0, headCount := 1, margins := [0], driveVerdict := 0 }, by decide⟩, by decide,
    by decide,
    { ((at_ 39 .ending 1).modSlot 39 fun r => { r with run := slot26Run 14 1, spin := slot26Spin 3 }).setLinkSlot 39
        { last := none, consecutive := 0, total := 5 } with sort := slot26Tables false }, by decide +kernel⟩

theorem witness_BinBarsSetAndCleared :
    planned.ready ∧ ofNum 12 (0 : Byte).toNat = none ∧ ofNum 12 (13 : Byte).toNat = none ∧
      ofNum 12 (1 : Byte).toNat = some 0 ∧ ofNum 12 (12 : Byte).toNat = some 11 := ⟨⟨rfl, rfl⟩, by decide⟩

/-! ## Witnesses: the handler port -/

def insertOrder (age : Nat) : Order := { kind := .insert, slot := 0, number := 1, age := age }

def extractOrder (b : LaneNo) (age : Nat) : Order := { kind := .extract b, slot := 39, number := 2, age := age }

/-- The port in a state with a current order dispatched in a mode. -/
def working (st : PortState) (o : Order) (mode : PortMode) : State :=
  (at_ 39 .unloading 1).setPort { planned.port with
    state := st, current := some { order := o, settings := { PortSettings.powerOn with mode := mode } }, readyLine := true
    outcome := some .done }

/-- Both orders wait, both are eligible, and the streak is as given. -/
def queued (orders : List Order) (streak : Nat) : State :=
  (((at_ 39 .graded 1).modSlot 0 fun r => { r with state := .loadWait }).modCarton 11 fun c =>
    { c with state := .opened, fill := 19 }).setPort { planned.port with
      queue := orders, readyLine := true, streak := streak }

theorem witness_ArbiterDispatches :
    (∀ streak ∈ [3, 4],
      let s := queued [insertOrder 0, extractOrder 11 1] streak
      s.port.state = .idle ∧ s.port.settings.deskew ≠ 0 ∧ s.port.streak = streak ∧
        s.port.queue = [] ++ insertOrder 0 :: [extractOrder 11 1] ∧ s.eligible (insertOrder 0) = true ∧
        s.port.queue = [insertOrder 0] ++ extractOrder 11 1 :: [] ∧ s.eligible (extractOrder 11 1) = true ∧
        (∀ x ∈ [insertOrder 0], (x.kind = .insert ↔ false = true) → s.eligible x = false)) ∧
    (let s := queued [] 4;
      ∀ insert, ∀ x ∈ s.port.queue, (x.kind = .insert ↔ insert = true) → s.eligible x = false) ∧
    (let s := queued [extractOrder 5 0, extractOrder 11 1] 4;
      (∀ x ∈ s.port.queue, (x.kind = .insert ↔ true = true) → s.eligible x = false) ∧
        s.port.queue = [extractOrder 5 0] ++ extractOrder 11 1 :: [] ∧ s.eligible (extractOrder 11 1) = true ∧
        (∀ x ∈ [extractOrder 5 0], (x.kind = .insert ↔ false = true) → s.eligible x = false)) ∧
    (let s := (queued [extractOrder 11 1] 4).setPort
        { (queued [extractOrder 11 1] 4).port with
          settings := { PortSettings.powerOn with deskew := 0 }, acceptLine := true };
      s.port.state = .idle ∧ s.port.settings.deskew = 0 ∧ s.port.acceptLine = true ∧ s.port.doneLine = false ∧
        s.port.failLine = false ∧ s.eligible (extractOrder 11 1) = true) := by decide

/-- R149: an EXTRACT whose bin is ABSENT is passed over, and the next eligible one in the queue is dispatched. -/
theorem test_oldest_eligible_extract_is_dispatched :
    (after .orderDispatch (queued [extractOrder 5 0, extractOrder 11 1] 4)).port.current.map (·.order) =
      some (extractOrder 11 1) := by decide +kernel

theorem witness_HandshakeFollowsLines :
    planned.port.state ≠ .offered ∧
      ((working .offered (insertOrder 0) .strobed).port.state = .offered ∧
        (working .offered (insertOrder 0) .strobed).port.current.map (·.settings.mode) = some .strobed) ∧
      ((working .deskew (extractOrder 11 0) .interlocked).port.state = .deskew ∧
        (working .deskew (extractOrder 11 0) .interlocked).port.acceptLine = false ∧
        (working .deskew (extractOrder 11 0) .interlocked).port.doneLine = false ∧
        (working .deskew (extractOrder 11 0) .interlocked).port.failLine = false) ∧
      ∃ s : State, s.port.state = .deskew ∧ s.port.acceptLine = true :=
  ⟨by decide, by decide, by decide, planned.setPort { planned.port with state := .deskew, acceptLine := true }, by decide⟩

theorem witness_DoneJudgedBySeat :
    (∃ s : State, ∃ c : CurrentOrder, s.port.state = .inFlight ∧ s.port.current = some c ∧
      (c.settings.mode = .interlocked ∧ s.port.failLine = false) ∧ c.order.kind = .extract 11 ∧
      (s.slot c.order.slot).seatStable = .opened) ∧
    (∃ s : State, ∃ c : CurrentOrder, s.port.state = .inFlight ∧ s.port.current = some c ∧
      (c.settings.mode = .strobed ∧ s.port.doneLine = false) ∧ s.evidence c.order = false) ∧
    (∃ s : State, ∃ c : CurrentOrder, s.port.state = .inFlight ∧ s.port.current = some c ∧
      (c.settings.mode = .strobed ∧ s.port.doneLine = false) ∧ c.order.kind = .insert ∧
      (s.slot c.order.slot).seatStable = .closed ∧ s.overcurrent[c.order.slot] = false) :=
  ⟨⟨working .inFlight (extractOrder 11 0) .interlocked,
      { order := extractOrder 11 0, settings := PortSettings.powerOn }, by decide⟩,
    ⟨working .inFlight (insertOrder 0) .strobed,
      { order := insertOrder 0, settings := { PortSettings.powerOn with mode := .strobed } }, by decide⟩,
    ⟨(working .inFlight (insertOrder 0) .strobed).modSlot 0 fun r => { r with seatStable := .closed },
      { order := insertOrder 0, settings := { PortSettings.powerOn with mode := .strobed } }, by decide⟩⟩

/-- An order in CHECKING whose debounce ends: the extraction's seat opens, the insertion's closes. -/
theorem witness_DebounceSeatsOrReturns_evidence :
    (let s := (working .checking (extractOrder 11 0) .interlocked).modSlot 39 fun r =>
        { r with debounce := some 0, seatStable := .closed };
      (s.slot 39).debounce.isSome = true ∧ s.port.state = .checking ∧ s.port.current.map (·.order.slot) = some 39 ∧
        s.port.current.map (·.order.kind) = some (.extract 11) ∧ (s.slot 39).state = .unloading ∧
        (s.slot 39).seatRaw = .opened ∧ (s.slot 39).seatStable = .closed) ∧
    (let s := (working .checking (insertOrder 0) .strobed).modSlot 0 fun r =>
        { r with state := .loadWait, plan := some 0, debounce := some 0, seatRaw := .closed };
      (s.slot 0).debounce.isSome = true ∧ s.port.state = .checking ∧ s.port.current.map (·.order.slot) = some 0 ∧
        s.port.current.map (·.order.kind) = some .insert ∧ (s.slot 0).state = .loadWait ∧ s.orderQueued 0 = false ∧
        (s.slot 0).seatRaw = .closed ∧ (s.slot 0).seatStable = .opened ∧ s.overcurrent[0] = false) := by decide

theorem witness_OrdersEndUnconfirmed :
    (∃ s : State, ∃ c : CurrentOrder, s.port.current = some c ∧ s.port.state = .inFlight ∧
      (c.settings.mode = .interlocked ∨ s.port.failLine = false) ∧ c.order.kind = .extract 11 ∧
      (s.slot c.order.slot).seatStable = .closed) ∧
    (∃ s : State, ∃ c : CurrentOrder, s.port.current = some c ∧ s.port.state = .checking ∧ c.order.kind = .insert ∧
      (s.slot c.order.slot).seatStable = .opened ∧ c.settings.mode = .interlocked ∧ s.port.doneLine = false) ∧
    (∃ s : State, ∃ c : CurrentOrder, s.port.current = some c ∧ s.port.state = .checking ∧
      c.settings.mode = .interlocked ∧ s.port.doneLine = true) :=
  ⟨⟨(working .inFlight (extractOrder 11 0) .interlocked).modSlot 39 fun r => { r with seatStable := .closed },
      { order := extractOrder 11 0, settings := PortSettings.powerOn }, by decide⟩,
    ⟨working .checking (insertOrder 0) .interlocked,
      { order := insertOrder 0, settings := PortSettings.powerOn }, by decide⟩,
    ⟨(working .checking (insertOrder 0) .interlocked).setPort
        { (working .checking (insertOrder 0) .interlocked).port with doneLine := true },
      { order := insertOrder 0, settings := PortSettings.powerOn }, by decide⟩⟩

theorem witness_AcceptTimeoutReturnsOrder :
    (∃ s : State, ∃ c : CurrentOrder, s.port.state = .offered ∧ s.port.current = some c ∧ s.port.acceptTimeouts = 2 ∧
      c.order.kind = .extract 11 ∧ (s.slot c.order.slot).seatStable = .closed ∧ s.sort.barred[(11 : LaneNo)] = false) ∧
    (∃ s : State, ∃ c : CurrentOrder, s.port.state = .offered ∧ s.port.current = some c ∧ s.port.acceptTimeouts = 1 ∧
      c.order.kind = .insert ∧ (s.slot c.order.slot).seatStable = .opened) ∧
    (∃ s : State, ∃ c : CurrentOrder, s.port.state = .offered ∧ s.port.current = some c ∧
      c.order.kind = .extract 11 ∧ (s.slot c.order.slot).seatStable = .closed ∧ s.sort.barred[(11 : LaneNo)] = true) ∧
    (∃ s : State, ∃ c : CurrentOrder, s.port.state = .offered ∧ s.port.current = some c ∧
      c.order.kind = .extract 11 ∧ (s.slot c.order.slot).seatStable = .opened ∧ (s.slot c.order.slot).permit = .none) ∧
    (∃ s : State, ∃ c : CurrentOrder, s.port.state = .offered ∧ s.port.current = some c ∧ c.order.kind = .insert ∧
      (s.slot c.order.slot).seatStable = .closed ∧ (∀ i : SlotNo, s.overcurrent[i] = false) ∧
      (s.slot c.order.slot).plan = some 0) :=
  ⟨⟨((working .offered (extractOrder 11 0) .interlocked).modSlot 39 fun r => { r with seatStable := .closed }).setPort
        { (working .offered (extractOrder 11 0) .interlocked).port with acceptTimeouts := 2 },
      { order := extractOrder 11 0, settings := PortSettings.powerOn }, by decide⟩,
    ⟨(working .offered (insertOrder 0) .interlocked).setPort
        { (working .offered (insertOrder 0) .interlocked).port with acceptTimeouts := 1 },
      { order := insertOrder 0, settings := PortSettings.powerOn }, by decide⟩,
    ⟨{ (working .offered (extractOrder 11 0) .interlocked).modSlot 39 fun r => { r with seatStable := .closed } with
        sort := { SortTables.powerOn with barred := Vector.replicate 12 true } },
      { order := extractOrder 11 0, settings := PortSettings.powerOn }, by decide⟩,
    ⟨working .offered (extractOrder 11 0) .interlocked,
      { order := extractOrder 11 0, settings := PortSettings.powerOn }, by decide⟩,
    ⟨(working .offered (insertOrder 0) .interlocked).modSlot 0 fun r =>
        { r with state := .loadWait, plan := some 0, seatStable := .closed, seatRaw := .closed },
      { order := insertOrder 0, settings := PortSettings.powerOn }, by decide⟩⟩

/-- R153: an INSERT offered to a slot whose seat has closed is withdrawn, and its run starts. -/
theorem test_accept_timeout_of_a_seated_insert :
    let t := after .acceptTimeout ((working .offered (insertOrder 0) .interlocked).modSlot 0 fun r =>
      { r with state := .loadWait, plan := some 0, seatStable := .closed, seatRaw := .closed })
    (t.slot 0).state = .powering ∧ (t.slot 0).plan = some 0 ∧ t.port.queue = [] ∧ t.port.acceptTimeouts = 1 := by
  decide +kernel

theorem witness_HandshakeFollowsLines_release :
    (let s := (working .confirming (extractOrder 11 0) .interlocked).modCarton 11 fun c =>
        { c with state := .closing, pendingClose := true };
      s.port.state = .confirming ∧ s.port.current.map (·.order.kind) = some (.extract 11) ∧
        (s.carton 11).state = .closing ∧ (s.carton 11).pendingClose = true) ∧
    planned.port.state ≠ .confirming ∧
      (working .confirming (extractOrder 11 0) .interlocked).port.state = .confirming ∧
      (working .confirming (extractOrder 11 0) .interlocked).port.outcome = some .done ∧
      (working .confirming (extractOrder 11 0) .interlocked).port.current.isSome = true := by decide

/-- R169 and R170: a drop in CONFIRMING holds the close, and the handshake's end takes it up. -/
theorem test_close_held_in_confirming :
    let s := (working .confirming (extractOrder 11 0) .interlocked).modCarton 11 fun c =>
      { c with state := .opened, fill := 2, present := true }
    let t := after (.cartonPresentDrop 11) s
    (t.carton 11).state = .closing ∧ (t.carton 11).pendingClose = true ∧
      ((after (.handlerLineDrop .done) t).carton 11).state = .absent ∧
      ((after (.handlerLineDrop .done) t).ring.records.map (·.body)) =
        [.carton { lane := 11, sequence := 1, count := 2, short := true }] := by decide +kernel

theorem witness_HandlerControlTaken :
    planned.port.state ≠ .fault ∧ ((0 : Byte) ≠ 1 ∧ (3 : Byte) ≠ 2) ∧
      ∃ s : State, s.ready ∧ s.port.state = .fault ∧ s.port.fault = some .releaseTimeout :=
  ⟨by decide, by decide, planned.setPort { planned.port with state := .fault, fault := some .releaseTimeout }, ⟨rfl, rfl⟩,
    by decide⟩

/-! ## Witnesses: cartons and the manifest -/

/-- A CARTON record under a number. -/
def record (n : Nat) : ManifestRec :=
  { number := n, time := 0, body := .carton { lane := 0, sequence := 1, count := 1, short := false } }

theorem witness_CartonInputsTaken :
    (planned.carton 11).state = .absent ∧
    (∃ s : State, (s.carton 0).state = .changing ∧ (s.carton 0).present = false) ∧
    (∃ s : State, (s.carton 0).state = .changing ∧ (s.carton 0).present = true) ∧
    (∃ s : State, (s.carton 11).state = .opened ∧ s.extracting 11 = true) ∧
    (∃ s : State, (s.carton 11).state = .opened ∧ s.extracting 11 = false ∧ (s.carton 11).fill = 0) ∧
    (∃ s : State, (s.carton 11).state = .opened ∧ s.extracting 11 = false ∧ (s.carton 11).fill = 1 ∧ s.ring.free ≠ 0) ∧
    (∃ s : State, (s.carton 11).state = .opened ∧ s.extracting 11 = false ∧ (s.carton 11).fill = 1 ∧ s.ring.free = 0) :=
  ⟨by decide, ⟨planned.modCarton 0 fun c => { c with state := .changing }, by decide⟩,
    ⟨planned.modCarton 0 fun c => { c with state := .changing, present := true }, by decide⟩,
    ⟨(working .inFlight (extractOrder 11 0) .interlocked).modCarton 11 fun c => { c with state := .opened }, by decide⟩,
    ⟨planned.modCarton 11 fun c => { c with state := .opened }, by decide⟩,
    ⟨planned.modCarton 11 fun c => { c with state := .opened, fill := 1 }, by decide⟩,
    ⟨(planned.modCarton 11 fun c => { c with state := .opened, fill := 1 }).setRing
      { Ring.powerOn with records := List.replicate 512 (record 1) }, by decide +kernel⟩⟩

theorem witness_BinsAndRingConfigured :
    ofNum 12 (13 : Byte).toNat = none ∧ ofNum 12 (12 : Byte).toNat = some 11 ∧ 2 ≤ (2 : Byte).toNat ∧
      (planned.carton 11).state = .absent ∧
      ((queued [] 0).carton 11).state ≠ .absent ∧
      (∀ b, (planned.carton b).state = .closing → (planned.carton b).pendingClose = true) ∧
      (∃ s : State, s.ring.records = [record 1] ++ record 2 :: [record 3] ∧ (record 2).number = 2 ∧
        (∀ x ∈ [record 1], x.number ≠ 2) ∧ (∀ r ∈ s.ring.records, r.number ≠ 4) ∧ 2 ≤ (2 : Byte).toNat ∧
        (∀ b, (s.carton b).state = .closing → (s.carton b).pendingClose = true)) :=
  ⟨by decide, by decide, by decide, by decide, by decide, by decide,
    planned.setRing { Ring.powerOn with records := [record 1, record 2, record 3], next := 4 }, by decide⟩

/-- A carton the next drive fills, one it does not, and one whose close is held. -/
theorem witness_CartonsCountedAndClosed :
    (∃ s : State, (s.carton 11).state = .opened ∧ (s.carton 11).fill + 1 = (s.carton 11).capacity) ∧
    (∃ s : State, (s.carton 0).state = .opened ∧ (s.carton 0).fill + 1 ≠ (s.carton 0).capacity) ∧
    (∃ s : State, (s.carton 11).state = .closing ∧ (s.carton 11).pendingClose = true ∧ (s.carton 11).fill = 0) ∧
    (∃ s : State, (s.carton 11).state = .closing ∧ (s.carton 11).pendingClose = true ∧ (s.carton 11).fill ≠ 0) :=
  ⟨⟨queued [] 0, by decide⟩, ⟨planned.modCarton 0 fun c => { c with state := .opened }, by decide⟩,
    ⟨planned.modCarton 11 fun c => { c with state := .closing, pendingClose := true }, by decide⟩,
    ⟨planned.modCarton 11 fun c => { c with state := .closing, pendingClose := true, fill := 19 }, by decide⟩⟩

/-- R178: two bins wait for space, one entry is freed, and the lower bin gets it. -/
theorem test_freed_entry_goes_to_the_lowest_bin :
    let waits (c : Carton) : Carton := { c with state := .closing, fill := 1 }
    let s := ((planned.modCarton 3 waits).modCarton 9 waits).setRing
      { Ring.powerOn with records := List.replicate 511 (record 1), next := 9 }
    (s.serveFreed.carton 3).state = .absent ∧ (s.serveFreed.carton 9).state = .closing ∧
      s.serveFreed.ring.records.length = 512 := by decide +kernel

/-! ## Witnesses: requests, the line port and the invariants -/

theorem witness_QueriesChangeNothing :
    planned.ready ∧ RequestCode.slotQuery ∈ [RequestCode.slotQuery, .planRead, .zoneQuery, .gradeMapRead, .sortProbe,
      .queueQuery, .binQuery, .manifestRead, .rackQuery] ∧ ofNum 40 (40 : Byte).toNat = some 39 ∧
      ofNum 8 (8 : Byte).toNat = some 7 ∧ ofNum 4 (4 : Byte).toNat = some 3 ∧ ofNum 12 (12 : Byte).toNat = some 11 ∧
      (0x03 : Byte).toNat * 256 + (0xE8 : Byte).toNat ≤ 1000 ∧ (12 : Byte).toNat ≤ 12 ∧ (4 : Byte).toNat ≤ 4 ∧
      ofNum 12 (0 : Byte).toNat = none ∧ planned.sort.map = [] ++ { lower := 0, bin := 0 } :: [] :=
  ⟨⟨rfl, rfl⟩, by decide⟩

theorem witness_SettingsRequestsTaken :
    State.reset.ready ∧ ofNum 8 (8 : Byte).toNat = some 7 ∧ steps.length ≤ 16 ∧ (∀ x ∈ steps, x.bytes.length = 12) ∧
      (readStep 1 PlanStep.baseline.bytes = some { value := .baseline, clamped := false }) ∧
      (planned.plan 0).refs ≠ 0 ∧ (planned.plan 7).refs = 0 ∧ ofNum 4 (5 : Byte).toNat = none ∧
      7 < (8 : Byte).toNat ∧ (7 : Byte).toNat ≤ 7 ∧
      (∃ s : State, 0 < s.holders) ∧ planned.holders = 0 :=
  ⟨⟨rfl, rfl⟩, by decide, by decide, by decide, by decide, by decide, by decide, by decide, by decide, by decide,
    ⟨spinning planned 0, by decide⟩, by decide⟩

/-- Every step of the plan of the tests reads back at its place. -/
theorem witness_SettingsRequestsTaken_steps :
    ∀ k : Fin 5, ∀ x, steps[k.val]? = some x → readStep (k.val + 1) x.bytes = some { value := x, clamped := false } := by
  intro k x h
  match k with
  | 0 => cases h; decide +kernel
  | 1 => cases h; decide +kernel
  | 2 => cases h; decide +kernel
  | 3 => cases h; decide +kernel
  | 4 => cases h; decide +kernel

theorem witness_RefusalsChangeNothing :
    planned.ready ∧ RequestCode.ofByte 0 = none ∧ RequestCode.ofByte 0xFF = none ∧ ofNum 40 (0 : Byte).toNat = none ∧
      ofNum 40 (41 : Byte).toNat = none ∧ (ofNum 8 (8 : Byte).toNat = some 7 ∧ (planned.plan 7).steps = []) ∧
      (ofNum 40 (1 : Byte).toNat = some 0 ∧ ofNum 8 (1 : Byte).toNat = some 0 ∧ (planned.plan 0).steps ≠ [] ∧
        ofNum 12 (1 : Byte).toNat = some 0) ∧
      ((at_ 0 .held 1).slot 0).state ≠ .vacant ∧ (planned.slot 0).state ≠ .seated ∧
      ((at_ 0 .held 1).slot 0).run.identity = none ∧ ((cycling 0 .off).slot 0).cycleOffLink = true :=
  ⟨⟨rfl, rfl⟩, by decide⟩

theorem witness_EncodingsReadBack_frames :
    (List.replicate 240 (0 : Byte)).length ≤ 240 ∧ planned.line.receiver = .hunt ∧
      (0 : Byte).toNat * 256 + (0 : Byte).toNat ≠ (crc16 [0, 1, 2]).toNat := by decide +kernel

/-- A line port where a served reply is being sent, with requests, BUSY refusals and notices waiting. -/
def crowded (requests busy : Nat) (notices : List Notice) : State :=
  planned.setLine { planned.line with
    sending := some { tag := 1, code := 2, body := [1], served := true, after := .nothing }
    requests := List.replicate requests { tag := 9, code := 1, body := [] }
    replies := List.replicate busy { tag := 9, code := 1, body := [3, 7, 4], served := false, after := .nothing }
    notices := notices }

/-- A waiting SLOT_STATE notice of a slot. -/
def waitingNotice (i : SlotNo) : Notice :=
  { source := num i, body := .slotState i .seated .vacant none none, time := 0, merges := 0 }

def overflowNotice : Notice := { source := 0, body := .overflow 1 .watch 3 0, time := 0, merges := 0 }

theorem witness_LineDiscardsJoinsAndDrops_requests :
    (∀ n ∈ [(3, 0), (4, 3), (4, 4)],
      (crowded n.1 n.2 []).line.receiver = .hunt ∧ (crowded n.1 n.2 []).line.sending.any (·.served) = true ∧
        (crowded n.1 n.2 []).line.requests.length = n.1 ∧
        ((crowded n.1 n.2 []).line.replies.countP fun f => f.served = false) = n.2) ∧
      (List.replicate 240 (0 : Byte)).length ≤ 240 := by decide +kernel

/-- 63 ordinary notices wait, without and with OVERFLOW, and a notice of a 64th source comes. -/
theorem witness_LineDiscardsJoinsAndDrops_notices :
    let ns : List Notice := (List.finRange 40).map waitingNotice ++
      (List.finRange 23).map fun i => { waitingNotice ⟨i.val, by omega⟩ with
        body := .runEnd ⟨i.val, by omega⟩ RunRec.empty { bin := 0, score := none, fault := none, bar := false } none none }
    let b : NoticeBody := .zoneClear 3 .sensor Causes.none 0
    (∀ y ∈ ns ++ [overflowNotice], ¬ (y.body.kind = b.kind ∧ y.source = b.source)) ∧
      (ns.countP fun x => x.body.kind ≠ .overflow) = 63 ∧ (∀ y ∈ ns, y.body.kind ≠ .overflow) ∧
      ns ++ [overflowNotice] = ns ++ overflowNotice :: [] ∧ overflowNotice.body = .overflow 1 .watch 3 0 ∧
      ((waitingNotice 39).body.kind = NoticeBody.kind (.slotState 39 .held .ending none none) ∧
        (waitingNotice 39).source = NoticeBody.source (.slotState 39 .held .ending none none)) ∧
      planned.line.mask.slot = false := by decide +kernel

/-- A frame partly taken, its start byte at the count 0 and the count now as given. -/
def collectingAt (now : Time) : State :=
  { planned.setLine { planned.line with receiver := .collect [] 0 } with clock := { planned.clock with ms := now } }

theorem witness_LineDiscardsJoinsAndDrops :
    planned.line.receiver = .hunt ∧ 240 < (241 : Byte).toNat ∧
      ((collectingAt 20).line.receiver = .collect [] 0 ∧ ((collectingAt 20).now - 0).toNat ≤ 20) ∧
      ((collectingAt 21).line.receiver = .collect [] 0 ∧ 20 < ((collectingAt 21).now - 0).toNat) := by decide

/-- R185: a start byte 21 ms after the last byte begins a new frame, and the old one is counted as GAP. -/
theorem test_late_byte_finds_hunt :
    (after .startByte (collectingAt 21)).line.receiver = .collect [] 21 ∧
      (after .startByte (collectingAt 21)).line.counters.gap = 1 ∧
      (after .framingDiscard (collectingAt 21)).line.counters.framing = 0 := by decide

/-- R185: a second passes with a frame partly taken, which is then discarded as GAP. -/
theorem test_second_brings_gap :
    (after .secondTick (collectingAt 0)).line.receiver = .hunt ∧
      (after .secondTick (collectingAt 0)).line.counters.gap = 1 := by decide

/-- The port is sending a served reply that brings something with it. -/
def sendingWith (a : AfterSent) : State :=
  planned.setLine { planned.line with sending := some { tag := 1, code := 2, body := [1], served := true, after := a } }

theorem witness_FramesLeaveInOrder :
    planned.line.sending = none ∧ (sendingWith .nothing).line.sending.map (·.after) = some .nothing ∧
      ((sendingWith (.newRate .r9600)).line.sending.map (·.after) = some (.newRate .r9600) ∧
        .r9600 ≠ (sendingWith (.newRate .r9600)).line.rate) ∧
      (.r115200 = (sendingWith (.newRate .r115200)).line.rate) ∧
      (sendingWith .restart).line.sending.map (·.after) = some .restart ∧
      (∃ l : Line, l.sending = none ∧ l.replies = [{ tag := 1, code := 2, body := [1], served := true, after := .nothing }]) ∧
      (∃ l : Line, ∃ n : Notice, l.sending = none ∧ l.replies = [] ∧ l.notices = [n]) :=
  ⟨by decide, by decide, by decide, by decide, by decide,
    ⟨{ planned.line with replies := [{ tag := 1, code := 2, body := [1], served := true, after := .nothing }] }, by decide⟩,
    ⟨{ planned.line with notices :=
        [{ source := 1, body := .slotState 0 .seated .vacant none none, time := 0, merges := 0 }] },
      { source := 1, body := .slotState 0 .seated .vacant none none, time := 0, merges := 0 }, by decide⟩⟩

theorem witness_RackTimeTicksAndSets :
    planned.ready ∧ [(1 : Byte), 2, 3].length ≠ 4 ∧ planned.line.receiver = .hunt ∧
      (collectingAt 0).line.receiver = .collect [] 0 := ⟨⟨rfl, rfl⟩, by decide⟩

/-- Zone 4 as its state says, in RUN: its cutoff input becomes active and the zone trips. -/
theorem witness_StepKeepsZonesAsState :
    ∃ s : State, ∃ t : State, s.zonesAsState ∧ step s = .next t ∧ (s.zone 3).state = .run ∧
      (t.zone 3).state = .tripped := by
  refine ⟨{ heated id with pending := [.cutoffChange 3 true] }, _, ?_, rfl, by decide, by decide⟩
  intro z
  match z with
  | 0 | 1 | 2 =>
    change _ ∧ _ ∧ _ ∧ _ ∧ _ ∧ _ ∧ _ ∧ _ ∧ _ ∧ _ ∧ _ ∧ _
    decide
  | 3 =>
    change _ ∧ _
    decide

/-- A slot in RUNNING at the cap, credited at a minute tick. -/
theorem witness_StepKeepsDosesAndCartons :
    ∃ s : State, ∃ t : State, s.dosesCapped ∧ (s.dose 39).acc = 1048575 ∧ step s = .next t :=
  ⟨{ (spinning (at_ 39 .running 3) 39).setDose 39 { DoseRec.empty with acc := 1048575 } with pending := [.doseMinuteTick] },
    _, by unfold State.dosesCapped; decide, by decide, rfl⟩

/-- A rack at work: slot 40 in RUNNING and being polled, slot 1 being unloaded to bin 12, whose carton has room. -/
def orderly : State :=
  let c : CurrentOrder :=
    { order := { kind := .extract 11, slot := 0, number := 2, age := 0 }, settings := PortSettings.powerOn }
  let s := ((asked (at_ 39 .running 3) 3 39 .status).modSlot 39 fun r => { r with power := .on }).modSlot 0 fun r =>
    { r with state := .unloading, latch := .released }
  { (s.setPort { s.port with state := .inFlight, current := some c }).modCarton 11 fun x =>
      { x with state := .opened, fill := 18, present := true } with
    ring := { Ring.powerOn with reservation := some { slot := 0, lane := 11, entries := 1 } }, pending := [.handlerDone] }

theorem orderly_live : orderly.port.live = some
    { order := { kind := .extract 11, slot := 0, number := 2, age := 0 }, settings := PortSettings.powerOn } := rfl

theorem witness_StepKeepsRackInOrder :
    orderly.InOrder ∧ (∃ t : State, step orderly = .next t ∧ (t.slot 0).state = .vacant) ∧
      (orderly.plan 0).refs = 1 ∧ (orderly.slot 39).onLink = true ∧ (orderly.slot 0).latch = .released :=
  ⟨{ plansCounted := by decide +kernel
     planDropped := by decide +kernel
     powered := by decide +kernel
     linkPowered := by decide +kernel
     permits := fun i h => absurd h (by revert i; decide +kernel)
     permitsQueued := by decide +kernel
     permitPowered := by decide +kernel
     captured := by decide +kernel
     cycles := fun i h => absurd h (by revert i; decide +kernel)
     cyclesRun := by decide +kernel
     linksKnow := by decide +kernel
     pollsKnown := by decide +kernel
     transactionsKnown := by
       intro l t h
       match l with
       | 0 | 1 | 2 => cases h
       | 3 => cases h; exact ⟨by decide +kernel, fun n h => by cases h⟩
     summariesEnding := by decide +kernel
     ordersOnce := List.Pairwise.nil
     ordersQueued := fun o h => absurd (show o ∈ ([] : List Order) from h) List.not_mem_nil
     orderCurrent := fun c h => by
       cases orderly_live.symm.trans h
       exact ⟨fun o h => absurd (show o ∈ ([] : List Order) from h) List.not_mem_nil, rfl⟩
     latches := fun i h => by
       have hi : i = 0 := by revert i; decide +kernel
       subst hi
       exact ⟨_, 11, orderly_live, rfl, rfl⟩ },
    ⟨_, rfl, by decide +kernel⟩, by decide, by decide, by decide⟩

theorem witness_StepKeepsDosesAndCartons_cartons :
    orderly.cartonsWithinSizes ∧ (∃ t : State, step orderly = .next t ∧ (t.carton 11).fill = 19) := by
  have hc : ∀ b, 1 ≤ (orderly.carton b).capacity ∧ (orderly.carton b).staged = none ∧
      (orderly.carton b).fill ≤ (orderly.carton b).capacity ∧
      ((orderly.carton b).state = .opened → (orderly.carton b).fill < (orderly.carton b).capacity) := by decide +kernel
  refine ⟨⟨fun b => ⟨(hc b).1, fun n h => by simp [(hc b).2.1] at h, (hc b).2.2.1, (hc b).2.2.2⟩, by decide +kernel, ?_, ?_⟩,
    _, rfl, by decide +kernel⟩
  · intro c b h k
    cases orderly_live.symm.trans h
    cases k
    exact ⟨by decide +kernel, .inl (by decide +kernel), _, rfl, rfl, by decide +kernel⟩
  · intro h
    exact absurd (h _ orderly_live) (by decide)

/-- A full request queue at which another request arrives. -/
theorem witness_StepKeepsLineSizes :
    ∃ s : State, ∃ t : State, s.lineWithinSizes ∧ s.line.requests.length = 4 ∧ step s = .next t ∧
      t.line.busyReplies = 1 :=
  ⟨{ (sendingWith .nothing).setLine { (sendingWith .nothing).line with
      requests := List.replicate 4 { tag := 9, code := 1, body := [] } } with pending := [.slotQuery 7 [1]] },
    _, ⟨by decide, by decide, by decide, ⟨by decide, by decide⟩, fun n h => absurd (show n ∈ ([] : List Notice) from h) List.not_mem_nil⟩, by decide, rfl, by decide⟩

end Sys2Proof.Tests
end

