-- ==== Sys2Proof/Proofs/Served.lean ====
section
/-! PROOFS. What a served request can do to the part (R189, R190): one case for each request that changes something,
with what its checks have made sure of, and one for every refusal and every request that only reports. -/

namespace Sys2Proof.Machine

/-- The states a request can lead to when it is served in `s`. -/
inductive State.Served (s : State) : State → Prop
  /-- refused, or a report, or a reply whose effect comes when it has been sent -/
  | unchanged : s.Served s
  /-- R25 -/
  | opened (i : SlotNo) (p : PlanNo) (vacant : (s.slot i).state = .vacant) : s.Served (s.openSlot i p)
  /-- R25 -/
  | started (i : SlotNo) (p : PlanNo) (seated : (s.slot i).state = .seated) :
      s.Served ((s.assignPlan i p).startRun i false)
  /-- R28 -/
  | rerun (i : SlotNo) (p : PlanNo) (held : (s.slot i).state = .held) : s.Served ((s.assignPlan i p).startRun i true)
  /-- R26 -/
  | suspended (i : SlotNo) (may : (s.slot i).suspendable = true) : s.Served (s.suspend i)
  /-- R26 -/
  | continued (i : SlotNo) (review : (s.slot i).state = .review) : s.Served (s.continueSlot i)
  /-- R26 -/
  | ended (i : SlotNo)
      (runs : (s.slot i).state = .running ∨ (s.slot i).state = .paused ∨ (s.slot i).state = .review) :
      s.Served (s.endWithSummary i .hostEnd)
  /-- R27 -/
  | aborted (i : SlotNo) (t : State) (takes : s.abortSlot i = some t) : s.Served t
  /-- R28 -/
  | released (i : SlotNo) (b : LaneNo) (held : (s.slot i).state = .held) : s.Served (s.releaseSlot i b)
  /-- R14 -/
  | spinSet (x : SpinSettings) (room : s.holders ≤ x.permits) : s.Served ({ s with spin := x } : State).testGrants
  /-- R33 -/
  | planLoaded (p : PlanNo) (steps : List PlanStep) (unused : (s.plan p).refs = 0) :
      s.Served (s.setPlan p { s.plan p with steps := steps })
  /-- R72 -/
  | linkSet (l : ShelfNo) (x : LinkSettings) : s.Served (s.modLink l fun y => { y with staged := some x })
  /-- R81 -/
  | profileLoaded (z : ShelfNo) (p : Profile) : s.Served (s.modZone z (·.takeProfile p))
  /-- R84 -/
  | zoneStarted (z : ShelfNo) (off : (s.zone z).state = .off) : s.Served (s.modZone z (·.start s.now))
  /-- R85 -/
  | zoneStopped (z : ShelfNo) (run : (s.zone z).state = .run) : s.Served (s.modZone z Zone.toOff)
  /-- R93 -/
  | zoneResumed (z : ShelfNo) (tripped : (s.zone z).state = .tripped) : s.Served (s.resumeZone z)
  /-- R88 -/
  | zoneSet (z : ShelfNo) (x : ZoneSettings) : s.Served (s.modZone z fun y => { y with settings := x })
  /-- R105 -/
  | dosesSet (x : DoseTable) : s.Served { s with doseTable := x }
  /-- R118 -/
  | rulesSet (x : Vector WatchRule 8) : s.Served { s with rules := x }
  /-- R120 -/
  | watchCleared (i : SlotNo) : s.Served (s.setWatch i { s.watch i with latch := none })
  /-- R132 to R134, R138 -/
  | sortSet (x : SortTables) : s.Served { s with sort := x }
  /-- R136 -/
  | barred (b : LaneNo) : s.Served (s.barBin b)
  /-- R163 -/
  | portSet (x : PortSettings) : s.Served (s.setPort { s.port with settings := x })
  /-- R162 -/
  | portReset (fault : s.port.state = .fault) :
      s.Served (s.setPort { s.port with state := .idle, fault := none, acceptTimeouts := 0 })
  /-- R172 -/
  | binSet (b : LaneNo) (capacity : Nat) (number : Option Nat) (some : 1 ≤ capacity)
      (absent : number.isSome = true → (s.carton b).state = .absent) :
      s.Served (s.modCarton b (·.config capacity number))
  /-- R180 -/
  | recordsReleased (number threshold : Option Nat) : s.Served (s.releaseRecords number threshold)
  /-- R194 -/
  | maskSet (x : NoticeMask) : s.Served (s.setLine { s.line with mask := x })
  /-- R197 -/
  | timeSet (x : Count32) : s.Served (s.setLine { s.line with rackTime := x })

namespace State.Served

variable {s : State} {body : List Byte}

theorem withSlot {slot : Byte} {f : SlotNo → State × Answer} (hf : ∀ i, s.Served (f i).1) :
    s.Served (s.withSlot slot f).1 := by
  unfold State.withSlot
  split
  · exact hf _
  · exact .unchanged

theorem withPlan {slot plan : Byte} {f : SlotNo → PlanNo → State × Answer} (hf : ∀ i p, s.Served (f i p).1) :
    s.Served (s.withPlan slot plan f).1 := by
  unfold State.withPlan
  split
  · split
    · exact .unchanged
    · exact hf _ _
  · exact .unchanged

theorem withZone {zone : Byte} {f : ShelfNo → State × Answer} (hf : ∀ z, s.Served (f z).1) :
    s.Served (s.withZone zone f).1 := by
  unfold State.withZone
  split
  · exact hf _
  · exact .unchanged

/-- A check that refuses, or lets the request through. -/
theorem check {p : Prop} [Decidable p] {a c : State × Answer} (yes : p → s.Served a.1) (no : ¬ p → s.Served c.1) :
    s.Served (if p then a else c).1 := by
  split
  · exact yes ‹_›
  · exact no ‹_›

/-! ## Slot requests (R24 to R28) -/

theorem slotOpen : s.Served (serveSlotOpen body s).1 := by
  unfold serveSlotOpen
  split
  · exact withPlan fun i p => check (.opened i p) fun _ => .unchanged
  · exact .unchanged

theorem slotStart : s.Served (serveSlotStart body s).1 := by
  unfold serveSlotStart
  split
  · exact withPlan fun i p => check (.started i p) fun _ => .unchanged
  · exact .unchanged

theorem slotSuspend : s.Served (serveSlotSuspend body s).1 := by
  unfold serveSlotSuspend
  split
  · exact withSlot fun i => check (.suspended i) fun _ => .unchanged
  · exact .unchanged

theorem slotContinue : s.Served (serveSlotContinue body s).1 := by
  unfold serveSlotContinue
  split
  · exact withSlot fun i => check (.continued i) fun _ => .unchanged
  · exact .unchanged

theorem slotEnd : s.Served (serveSlotEnd body s).1 := by
  unfold serveSlotEnd
  split
  · exact withSlot fun i => check (.ended i) fun _ => .unchanged
  · exact .unchanged

theorem slotAbort : s.Served (serveSlotAbort body s).1 := by
  unfold serveSlotAbort
  split
  · refine withSlot fun i => ?_
    split
    · exact .aborted i _ ‹_›
    · exact .unchanged
  · exact .unchanged

theorem slotRelease : s.Served (serveSlotRelease body s).1 := by
  unfold serveSlotRelease
  split
  · split
    · exact check (fun h => .released _ _ h.1) fun _ => .unchanged
    · exact .unchanged
  · exact .unchanged

theorem slotRerun : s.Served (serveSlotRerun body s).1 := by
  unfold serveSlotRerun
  split
  · exact withPlan fun i p => check (fun h => .rerun i p h.1) fun _ => .unchanged
  · exact .unchanged

/-! ## Settings, plans and links (R14, R33, R72) -/

theorem spinSettings : s.Served (serveSpinSettings body s).1 := by
  simp only [serveSpinSettings]
  split
  · exact check (fun _ => .unchanged) fun h => .spinSet _ (Nat.not_lt.mp (not_or.mp h).2)
  · exact .unchanged

theorem planLoad : s.Served (servePlanLoad body s).1 := by
  unfold servePlanLoad
  split
  · refine check (fun _ => .unchanged) fun _ => ?_
    split
    · exact .unchanged
    · refine check (fun _ => .unchanged) fun _ => check (fun _ => .unchanged) fun h => ?_
      split
      · exact .unchanged
      · exact .planLoaded _ _ (not_not.mp h)
  · exact .unchanged

theorem linkConfig : s.Served (serveLinkConfig body s).1 := by
  unfold serveLinkConfig
  split
  · split
    · exact .unchanged
    · exact .linkSet _ _
  · exact .unchanged

/-! ## Zones (R81, R84, R85, R88, R93) -/

theorem profileLoad : s.Served (serveProfileLoad body s).1 := by
  unfold serveProfileLoad
  split
  · refine check (fun _ => .unchanged) fun _ => withZone fun z => check (fun _ => .unchanged) fun _ => ?_
    split
    · exact .unchanged
    · exact .profileLoaded z _
  · exact .unchanged

theorem zoneStart : s.Served (serveZoneStart body s).1 := by
  unfold serveZoneStart
  split
  · exact withZone fun z => check (fun _ => .unchanged) fun off => check (fun _ => .unchanged) fun _ =>
      check (fun _ => .zoneStarted z (not_not.mp off)) fun _ => .unchanged
  · exact .unchanged

theorem zoneStop : s.Served (serveZoneStop body s).1 := by
  unfold serveZoneStop
  split
  · exact withZone fun z => check (.zoneStopped z) fun _ => .unchanged
  · exact .unchanged

theorem zoneResume : s.Served (serveZoneResume body s).1 := by
  unfold serveZoneResume
  split
  · exact withZone fun z => check (fun _ => .unchanged) fun tripped =>
      check (fun _ => .zoneResumed z (not_not.mp tripped)) fun _ => .unchanged
  · exact .unchanged

theorem zoneSettings : s.Served (serveZoneSettings body s).1 := by
  unfold serveZoneSettings
  split
  · exact withZone fun z => .zoneSet z _
  · exact .unchanged

/-! ## Tables and bars (R105, R118, R120, R132 to R138) -/

theorem doseTableLoad : s.Served (serveDoseTableLoad body s).1 := by
  unfold serveDoseTableLoad
  split
  · exact .dosesSet _
  · exact .unchanged

theorem watchLoad : s.Served (serveWatchLoad body s).1 := by
  unfold serveWatchLoad
  refine check (fun _ => .unchanged) fun _ => ?_
  split
  · exact .unchanged
  · exact .rulesSet _

theorem watchClear : s.Served (serveWatchClear body s).1 := by
  unfold serveWatchClear
  split
  · exact withSlot fun i => .watchCleared i
  · exact .unchanged

theorem weightsLoad : s.Served (serveWeightsLoad body s).1 := by
  unfold serveWeightsLoad
  split
  · exact .sortSet _
  · exact .unchanged

theorem gradeMapLoad : s.Served (serveGradeMapLoad body s).1 := by
  unfold serveGradeMapLoad
  split
  · refine check (fun _ => .unchanged) fun _ => check (fun _ => .unchanged) fun _ => ?_
    split
    · exact .unchanged
    · exact check (fun _ => .sortSet _) fun _ => .unchanged
  · exact .unchanged

theorem faultTableLoad : s.Served (serveFaultTableLoad body s).1 := by
  unfold serveFaultTableLoad
  refine check (fun _ => .unchanged) fun _ => ?_
  split
  · exact .unchanged
  · exact .sortSet _

theorem binBar : s.Served (serveBinBar body s).1 := by
  unfold serveBinBar
  split
  · split
    · exact .barred _
    · exact .unchanged
  · exact .unchanged

theorem binUnbar : s.Served (serveBinUnbar body s).1 := by
  unfold serveBinUnbar
  split
  · split
    · exact .sortSet _
    · exact .unchanged
  · exact .unchanged

/-! ## The handler port, cartons and the line port (R162, R163, R172, R180, R184, R194, R197, R199) -/

theorem handlerSettings : s.Served (serveHandlerSettings body s).1 := by
  unfold serveHandlerSettings
  split
  · split
    · exact .unchanged
    · exact .portSet _
  · exact .unchanged

theorem handlerReset : s.Served (serveHandlerReset body s).1 := by
  unfold serveHandlerReset
  split
  · split
    · exact .portReset ‹_›
    · exact .unchanged
  · exact .unchanged

theorem binConfig : s.Served (serveBinConfig body s).1 := by
  simp only [serveBinConfig]
  split
  · split
    · refine check (fun _ => .unchanged) fun _ => check (fun _ => .unchanged) fun h => .binSet _ _ _ ?_ ?_
      · simp [takeNat, clampNat]
      · exact fun some => not_not.mp fun absent => h ⟨some, absent⟩
    · exact .unchanged
  · exact .unchanged

theorem manifestRelease : s.Served (serveManifestRelease body s).1 := by
  unfold serveManifestRelease
  split
  · split
    · refine check (fun _ => ?_) fun _ => .unchanged
      dsimp only
      exact .recordsReleased _ _
    · exact .unchanged
  · exact .unchanged

theorem noticeMask : s.Served (serveNoticeMask body s).1 := by
  unfold serveNoticeMask
  split
  · exact check (fun _ => .maskSet _) fun _ => .unchanged
  · exact .unchanged

theorem setTime : s.Served (serveSetTime body s).1 := by
  unfold serveSetTime
  split
  · exact .timeSet _
  · exact .unchanged

end State.Served

/-- The requests that change nothing when they are served (R35, R73, R96, R135, R140, R164, R173, R179, R184, R198,
R199, R204). -/
theorem RequestCode.serve_reports (c : RequestCode) (body : List Byte) (s : State)
    (hc : c ∈ [.slotQuery, .planRead, .zoneQuery, .gradeMapRead, .sortProbe, .queueQuery, .binQuery, .manifestRead,
      .rackQuery, .lineConfig, .restart]) : (c.serve body s).1 = s := by
  fin_cases hc
  · simp only [RequestCode.serve, serveSlotQuery, State.withSlot]; (repeat' split) <;> rfl
  · simp only [RequestCode.serve, servePlanRead]; (repeat' split) <;> rfl
  · simp only [RequestCode.serve, serveZoneQuery, State.withZone]; (repeat' split) <;> rfl
  · simp only [RequestCode.serve, serveGradeMapRead]; (repeat' split) <;> rfl
  · simp only [RequestCode.serve, serveSortProbe]; (repeat' split) <;> rfl
  · simp only [RequestCode.serve, serveQueueQuery]; (repeat' split) <;> rfl
  · simp only [RequestCode.serve, serveBinQuery]; (repeat' split) <;> rfl
  · simp only [RequestCode.serve, serveManifestRead]; (repeat' split) <;> rfl
  · simp only [RequestCode.serve, serveRackQuery]; (repeat' split) <;> rfl
  · simp only [RequestCode.serve, serveLineConfig]; (repeat' split) <;> rfl
  · simp only [RequestCode.serve, serveRestart]; (repeat' split) <;> rfl

/-- Every request leads to one of the states of `State.Served` (R189). -/
theorem RequestCode.served (c : RequestCode) (body : List Byte) (s : State) : s.Served (c.serve body s).1 := by
  have reports (hc : c ∈ [.slotQuery, .planRead, .zoneQuery, .gradeMapRead, .sortProbe, .queueQuery, .binQuery,
      .manifestRead, .rackQuery, .lineConfig, .restart]) : s.Served (c.serve body s).1 := by
    rw [c.serve_reports body s hc]; exact .unchanged
  cases c with
  | slotOpen => exact .slotOpen
  | slotStart => exact .slotStart
  | slotSuspend => exact .slotSuspend
  | slotContinue => exact .slotContinue
  | slotEnd => exact .slotEnd
  | slotAbort => exact .slotAbort
  | slotRelease => exact .slotRelease
  | slotRerun => exact .slotRerun
  | spinSettings => exact .spinSettings
  | planLoad => exact .planLoad
  | linkConfig => exact .linkConfig
  | profileLoad => exact .profileLoad
  | zoneStart => exact .zoneStart
  | zoneStop => exact .zoneStop
  | zoneResume => exact .zoneResume
  | zoneSettings => exact .zoneSettings
  | doseTableLoad => exact .doseTableLoad
  | watchLoad => exact .watchLoad
  | watchClear => exact .watchClear
  | weightsLoad => exact .weightsLoad
  | gradeMapLoad => exact .gradeMapLoad
  | faultTableLoad => exact .faultTableLoad
  | binBar => exact .binBar
  | binUnbar => exact .binUnbar
  | handlerSettings => exact .handlerSettings
  | handlerReset => exact .handlerReset
  | binConfig => exact .binConfig
  | manifestRelease => exact .manifestRelease
  | noticeMask => exact .noticeMask
  | setTime => exact .setTime
  | slotQuery | planRead | zoneQuery | gradeMapRead | sortProbe | queueQuery | binQuery | manifestRead | rackQuery
  | lineConfig | restart => exact reports (by decide)

/-- A request as it is answered leads to one of the states of `State.Served`, a code that is no request code to the
state as it was (R189). -/
theorem Request.answer_served (r : Request) (s : State) : s.Served (r.answer s).1 := by
  unfold Request.answer
  split
  · exact RequestCode.served _ _ s
  · exact .unchanged

end Sys2Proof.Machine
end

