-- ==== Sys2Proof/Proofs/Permits.lean ====
section
/-! PROOFS. The permit limit (R10, R14) and the queue of waiting commands, carried through every operation of the part.
`State.Permitted s t` is the relation every operation keeps; it composes, so each operation's lemma is a chain of the
lemmas of the operations it calls, in the order it calls them. -/

namespace Sys2Proof.Machine

/-- From `s` to `t` the queue of waiting commands stands, and no more permits are held than the limit allows if so few
were held before (R10). -/
def State.Permitted (s t : State) : Prop :=
  t.pending = s.pending ∧ (s.permitsWithinLimit → t.permitsWithinLimit)

variable {s t u : State} {i : SlotNo} {l : ShelfNo} {b : LaneNo}

/-- The holder count after a slot record is written (R10). -/
theorem State.holders_setSlot (s : State) (i : SlotNo) (r : SlotRec) :
    (s.setSlot i r).holders =
      (s.holders - if (s.slot i).permit = .held then 1 else 0) + if r.permit = .held then 1 else 0 := by
  simp only [State.holders, State.setSlot, State.slot, Vector.countP_toList, Vector.countP_set, decide_eq_true_eq]
  rfl

/-- A slot that holds a permit is among the holders. -/
theorem State.holders_pos (h : (s.slot i).permit = .held) : 0 < s.holders := by
  rw [State.holders, List.countP_pos_iff]
  exact ⟨s.slot i, by simp [State.slot], by simpa using h⟩

namespace State.Permitted

theorem refl (s : State) : s.Permitted s := ⟨rfl, id⟩

/-- A change beyond the slot records, the SPIN settings and the queue of commands. -/
theorem frame (h : s.Permitted t) (hp : u.pending = t.pending) (hs : u.slots = t.slots) (hk : u.spin = t.spin) :
    s.Permitted u := by
  refine ⟨hp.trans h.1, fun g => ?_⟩
  have := h.2 g
  simpa [State.permitsWithinLimit, State.holders, hs, hk] using this

/-- A slot record written without gaining a permit. -/
theorem setSlot {r : SlotRec} (h : s.Permitted t) (hr : r.permit = .held → (t.slot i).permit = .held) :
    s.Permitted (t.setSlot i r) := by
  refine ⟨h.1, fun g => Nat.le_trans ?_ (h.2 g)⟩
  rw [State.holders_setSlot]
  by_cases k : r.permit = .held
  · have := State.holders_pos (hr k)
    simp only [k, hr k, if_true]
    omega
  · simp only [k, if_false]
    omega

theorem modSlot {f : SlotRec → SlotRec} (h : s.Permitted t)
    (hf : (f (t.slot i)).permit = (t.slot i).permit) : s.Permitted (t.modSlot i f) :=
  h.setSlot fun k => hf.symm.trans k

theorem modRun {f : RunRec → RunRec} (h : s.Permitted t) : s.Permitted (t.modRun i f) := h.modSlot rfl

/-! ## Records other than the slots' -/

theorem notify {n : NoticeBody} (h : s.Permitted t) : s.Permitted (t.notify n) :=
  h.frame (by simp) (by simp) (by simp)
theorem setPlan {p : PlanNo} {x : Plan} (h : s.Permitted t) : s.Permitted (t.setPlan p x) := h
theorem setPort {x : Port} (h : s.Permitted t) : s.Permitted (t.setPort x) := h
theorem setRing {x : Ring} (h : s.Permitted t) : s.Permitted (t.setRing x) := h
theorem setLine {x : Line} (h : s.Permitted t) : s.Permitted (t.setLine x) := h
theorem setDose {x : DoseRec} (h : s.Permitted t) : s.Permitted (t.setDose i x) := h
theorem setWatch {x : WatchRec} (h : s.Permitted t) : s.Permitted (t.setWatch i x) := h
theorem setLinkSlot {x : LinkSlot} (h : s.Permitted t) : s.Permitted (t.setLinkSlot i x) := h
theorem modLink {f : Link → Link} (h : s.Permitted t) : s.Permitted (t.modLink l f) := h
theorem modZone {z : ShelfNo} {f : Zone → Zone} (h : s.Permitted t) : s.Permitted (t.modZone z f) := h
theorem modCarton {f : Carton → Carton} (h : s.Permitted t) : s.Permitted (t.modCarton b f) := h

/-- An operation of CM. -/
theorem cartons (h : s.Permitted t) (e : t.sameBeyondCartons u) : s.Permitted u := by
  obtain ⟨hp, -, hs, -, -, hk, -⟩ := e
  exact h.frame hp hs hk

/-- A function that keeps the relation at every member of a list keeps it over the list. -/
theorem foldl {α : Type} {f : State → α → State} (hf : ∀ (t : State) (a : α), s.Permitted t → s.Permitted (f t a))
    (xs : List α) (h : s.Permitted t) : s.Permitted (xs.foldl f t) := by
  induction xs generalizing t with
  | nil => exact h
  | cons x xs ih => exact ih (hf t x h)

/-! ## Slots (chapter 1) -/

theorem enter {st : SlotState} {o : Option HoldReason} (h : s.Permitted t) : s.Permitted (t.enter i st o) :=
  (h.modSlot rfl).notify
theorem enterHeld {o : HoldReason} (h : s.Permitted t) : s.Permitted (t.enterHeld i o) := h.enter
theorem enterVacant {c : Option EndCause} (h : s.Permitted t) : s.Permitted (t.enterVacant i c) := by
  refine notify (setWatch (setDose (setLinkSlot (h.setSlot fun k => ?_))))
  exact absurd k (by simp [SlotRec.empty])
theorem dropPlan (h : s.Permitted t) : s.Permitted (t.dropPlan i) := by
  unfold State.dropPlan
  split
  · exact (h.modSlot rfl).setPlan
  · exact h
theorem assignPlan {p : PlanNo} (h : s.Permitted t) : s.Permitted (t.assignPlan i p) := (h.modSlot rfl).setPlan
theorem joinOrder {k : OrderKind} (h : s.Permitted t) : s.Permitted (t.joinOrder k i) := h
theorem withdrawOrder (h : s.Permitted t) : s.Permitted (t.withdrawOrder i) := h
theorem askLink {c : DirectedCode} {p : Purpose} (h : s.Permitted t) : s.Permitted (t.askLink i c p) := h
theorem joinLink (h : s.Permitted t) : s.Permitted (t.joinLink i) := h
theorem leaveLink (h : s.Permitted t) : s.Permitted (t.leaveLink i) := h
theorem powerOff (h : s.Permitted t) : s.Permitted (t.powerOff i) := (h.modSlot rfl).leaveLink
theorem clearPermit (h : s.Permitted t) : s.Permitted (t.clearPermit i) :=
  h.setSlot fun k => absurd k (by simp)
theorem recordEnd {c : EndCause} (h : s.Permitted t) : s.Permitted (t.recordEnd i c) :=
  (h.modRun.dropPlan).modSlot rfl

theorem verdict (h : s.Permitted t) : s.Permitted (t.verdict i) := by
  simp only [State.verdict]
  split
  · exact h.modRun.notify.modRun.enter.joinOrder
  · exact h.modRun.notify.modRun.enterHeld

theorem toVerdict (h : s.Permitted t) : s.Permitted (t.toVerdict i) := h.powerOff.modRun.verdict

theorem overcurrentEnd (h : s.Permitted t) : s.Permitted (t.overcurrentEnd i) := by
  unfold State.overcurrentEnd
  split
  · exact h.recordEnd.toVerdict
  split
  · exact h.modRun.verdict
  · exact h

/-- The one operation that gives a permit, while fewer are held than the limit allows (R10). -/
theorem grant (h : s.Permitted t) (room : t.holders < t.spin.permits) : s.Permitted (t.grant i) := by
  refine ⟨h.1, fun _ => ?_⟩
  have e : (t.grant i).holders = (t.setSlot i ((t.grant i).slot i)).holders := by
    simp [State.holders, State.grant, State.slot, State.modSlot, State.setSlot]
  rw [State.permitsWithinLimit, e, State.holders_setSlot]
  refine Nat.le_trans (Nat.add_le_add (Nat.sub_le _ _) (?_ : _ ≤ 1)) room
  split <;> simp

theorem checkOvercurrent (h : s.Permitted t) : s.Permitted (t.checkOvercurrent i) := by
  unfold State.checkOvercurrent
  split
  · exact h.powerOff.clearPermit.overcurrentEnd
  · exact h

theorem grants (n : Nat) (h : s.Permitted t) : s.Permitted (Machine.grants n t) := by
  induction n generalizing t with
  | zero => exact h
  | succ n ih =>
    unfold Machine.grants
    split
    · exact h
    split
    · rename_i room
      exact ih (h.grant room).checkOvercurrent
    · exact h

theorem testGrants (h : s.Permitted t) : s.Permitted t.testGrants := h.grants 41
theorem joinPermit (h : s.Permitted t) : s.Permitted (t.joinPermit i) :=
  testGrants (h.setSlot fun k => absurd k (by simp))

theorem dropPermit (h : s.Permitted t) : s.Permitted (t.dropPermit i) := by
  unfold State.dropPermit
  split
  · exact h
  · exact h.clearPermit
  · exact h.clearPermit.testGrants

theorem takeOvercurrent (h : s.Permitted t) : s.Permitted (t.takeOvercurrent i) :=
  h.powerOff.dropPermit.overcurrentEnd
theorem endAtOnce {c : EndCause} (h : s.Permitted t) : s.Permitted (t.endAtOnce i c) :=
  h.recordEnd.powerOff.dropPermit.toVerdict

theorem endWithSummary {c : EndCause} (h : s.Permitted t) : s.Permitted (t.endWithSummary i c) := by
  unfold State.endWithSummary
  split
  · exact h.endAtOnce
  · exact h.recordEnd.enter.askLink.modLink

theorem endByZone (h : s.Permitted t) : s.Permitted (t.endByZone i) := by
  unfold State.endByZone
  split
  · exact h.recordEnd.enter.askLink
  · exact h.endAtOnce

theorem startRun {again : Bool} (h : s.Permitted t) : s.Permitted (t.startRun i again) :=
  ((h.modSlot rfl).setDose.setWatch.setLinkSlot.enter).joinPermit

theorem enterSeated (h : s.Permitted t) : s.Permitted (t.enterSeated i) := by
  simp only [State.enterSeated]
  split
  · exact h.enter.startRun
  · exact h.enter

theorem teardown (h : s.Permitted t) : s.Permitted (t.teardown i) := by
  simp only [State.teardown]
  split
  · exact h.powerOff.dropPermit.leaveLink.withdrawOrder.recordEnd.enterVacant
  · exact h.powerOff.dropPermit.leaveLink.withdrawOrder.enterVacant

/-! ## Steps (chapter 2) -/

theorem beginStep {n : Nat} (h : s.Permitted t) : s.Permitted (t.beginStep i n) := h.modSlot rfl
theorem askPhase {n : Nat} (h : s.Permitted t) : s.Permitted (t.askPhase i n) := (h.modSlot rfl).askLink

theorem enterOnce {n : Nat} (h : s.Permitted t) : s.Permitted (t.enterOnce i n).1 := by
  unfold State.enterOnce
  split
  · exact h.endWithSummary
  · exact h.beginStep
  · exact h.beginStep
  · exact h.beginStep.askPhase
  · exact (h.beginStep.modSlot rfl).askLink
  · split
    · exact h.beginStep.modSlot rfl
    · exact h.beginStep.modSlot rfl

theorem enterChain (k : Nat) {x : State × Option Nat} (h : s.Permitted x.1) :
    s.Permitted (Machine.enterChain i k x).1 := by
  induction k generalizing x with
  | zero =>
    obtain ⟨t, _ | n⟩ := x
    · exact h
    · exact enterOnce h
  | succ k ih =>
    obtain ⟨t, _ | n⟩ := x
    · exact h
    · exact ih (ih h)

theorem enterStep {n : Nat} (h : s.Permitted t) : s.Permitted (t.enterStep i n) := enterChain _ h
theorem advance (h : s.Permitted t) : s.Permitted (t.advance i) := h.enterStep

theorem takeLimit {x : PlanStep} {target : Option Nat} {act : LimitAction} (h : s.Permitted t) :
    s.Permitted (t.takeLimit i x target act) := by
  unfold State.takeLimit
  split
  · exact h.endWithSummary
  · unfold State.haltLeftPhase
    split
    · exact h.modRun.advance.askLink
    · exact h.modRun.advance

theorem testLimit {x : PlanStep} (h : s.Permitted t) : s.Permitted (t.testLimit i x) := by
  unfold State.testLimit
  split
  · split
    · exact h.takeLimit
    · exact h
  · exact h

theorem testStep (h : s.Permitted t) : s.Permitted (t.testStep i) := by
  unfold State.testStep
  split
  · split
    · exact h.advance
    · exact h.testLimit
  · exact h

theorem tickSlot (h : s.Permitted t) : s.Permitted (t.tickSlot i) := by
  have c : s.Permitted (t.credit i) := by
    unfold State.credit
    split
    · exact h.setDose
    · exact h
  unfold State.tickSlot State.tickStep
  split
  · exact (c.modSlot rfl).testStep
  · exact c

theorem testReply {x : LastStatus} (h : s.Permitted t) : s.Permitted (t.testReply i x) := by
  unfold State.testReply
  split
  · exact h.modRun.advance
  · split
    · split
      · exact h.advance
      · exact h.askPhase
    · exact h
  · split
    · exact h.advance
    · exact h
  · split
    · exact h.advance
    · exact h
  · exact h

theorem haltEnded {p : Purpose} (h : s.Permitted t) : s.Permitted (t.haltEnded i p) := by
  unfold State.haltEnded
  split
  · exact h
  · split
    · exact h.powerOff.modSlot rfl
    · exact h
  · split
    · exact h.powerOff.dropPermit.toVerdict
    · exact h

theorem spinAgain (h : s.Permitted t) : s.Permitted (t.spinAgain i) := (h.modSlot rfl).joinPermit

theorem offTimeOver (h : s.Permitted t) : s.Permitted (t.offTimeOver i) := by
  simp only [State.offTimeOver]
  split
  · split
    · exact (h.modSlot rfl).modSlot rfl
    · exact (h.modSlot rfl).spinAgain
  · exact h

theorem returnToRun (h : s.Permitted t) : s.Permitted (t.returnToRun i) := by
  have g : s.Permitted ((t.modRun i fun r => { r with zonePaused := false }).enter i .running none) := h.modRun.enter
  unfold State.returnToRun State.resumeStep
  split
  · split
    · exact g.askPhase
    · split
      · exact g.askLink
      · exact g
    · exact g
  · exact g.enterStep

theorem identified {x : Identity} (h : s.Permitted t) : s.Permitted (t.identified i x) := by
  simp only [State.identified]
  split
  · exact (h.modRun.modSlot rfl).modRun.enter
  · exact h.modRun.enter.enterStep

theorem rejoin (h : s.Permitted t) : s.Permitted (t.rejoin i) := by
  simp only [State.rejoin]
  split
  · exact (h.joinLink.modSlot rfl).enter
  · exact h.joinLink.modSlot rfl

theorem readyHigh (h : s.Permitted t) : s.Permitted (t.readyHigh i) := by
  simp only [State.readyHigh]
  split
  · exact h
  · split
    · exact (h.modSlot rfl).dropPermit.checkOvercurrent.enter.joinLink.askLink
    · split
      · exact (h.modSlot rfl).dropPermit.checkOvercurrent.rejoin
      · exact (h.modSlot rfl).dropPermit.checkOvercurrent

theorem slotTrip (h : s.Permitted t) : s.Permitted (t.slotTrip i) := by
  unfold State.slotTrip
  split
  · split
    · exact h.modRun
    · exact h.enter.askLink
  · exact h.modRun
  · exact h

theorem slotResume (h : s.Permitted t) : s.Permitted (t.slotResume i) := by
  simp only [State.slotResume]
  split
  · exact h.returnToRun
  · exact h.modRun
  · split
    · exact h.modRun.spinAgain
    · exact h.modRun
  · exact h

theorem slotGrace (h : s.Permitted t) : s.Permitted (t.slotGrace i) := by
  unfold State.slotGrace
  split
  · exact h.endByZone
  · exact h.endByZone
  · exact h.endByZone
  · exact h.endByZone
  · split
    · exact h.endByZone
    · exact h
  · exact h

/-! ## Zones (chapter 4) -/

theorem notifyTrip {z : ShelfNo} (h : s.Permitted t) : s.Permitted (t.notifyTrip z) := by
  unfold State.notifyTrip
  split
  · exact h.notify
  · exact h

theorem graceOver {z : ShelfNo} (h : s.Permitted t) : s.Permitted (t.graceOver z) := by
  unfold State.graceOver
  split
  · exact h.modZone.foldl (fun _ _ g => g.slotGrace) _
  · exact h

theorem tripZone {z : ShelfNo} {c : Cause} (h : s.Permitted t) : s.Permitted (t.tripZone z c) := by
  have g : s.Permitted ((t.modZone z fun x => x.cut c t.line.rackTime).onShelf z State.slotTrip) :=
    h.modZone.foldl (fun _ _ g => g.slotTrip) _
  refine notifyTrip ?_
  simp only [State.startGrace]
  split
  · exact g.modZone.graceOver
  · exact g.modZone

theorem addCause {z : ShelfNo} {c : Cause} (h : s.Permitted t) : s.Permitted (t.addCause z c) := by
  simp only [State.addCause]
  split
  · exact h
  · split
    · exact h.modZone
    · exact h.modZone.tripZone
    · exact h.modZone.modZone.notifyTrip

theorem removeCause {z : ShelfNo} {c : Cause} (h : s.Permitted t) : s.Permitted (t.removeCause z c) := by
  simp only [State.removeCause]
  split
  · split
    · exact h.modZone.notify
    · exact h.modZone
  · exact h

theorem goodReading {z : ShelfNo} {v : Nat} (h : s.Permitted t) : s.Permitted (t.goodReading z v) := by
  simp only [State.goodReading, State.judgeOverLimit]
  split
  · exact h.modZone.removeCause.addCause
  · split
    · exact h.modZone.removeCause.removeCause
    · exact h.modZone.removeCause

theorem badReading {z : ShelfNo} (h : s.Permitted t) : s.Permitted (t.badReading z) := h.modZone.addCause

theorem windowEnd {z : ShelfNo} (h : s.Permitted t) : s.Permitted (t.windowEnd z) := by
  simp only [State.windowEnd]
  split
  · exact h.modZone.removeCause
  · split
    · exact h.modZone.addCause
    · exact h.modZone

theorem resumeZone {z : ShelfNo} (h : s.Permitted t) : s.Permitted (t.resumeZone z) :=
  h.modZone.foldl (fun _ _ g => g.slotResume) _

theorem minute (h : s.Permitted t) : s.Permitted t.minute := by
  refine foldl (fun u z g => ?_) _ (h.foldl (fun _ _ g => g.tickSlot) _)
  unfold State.tickZone
  split
  · exact g.modZone
  · exact g

/-! ## Watch rules and replies (chapters 3 and 6) -/

theorem watchAct {r : WatchRule} (h : s.Permitted t) : s.Permitted (t.watchAct i r) := by
  unfold State.watchAct
  split
  · exact h
  · unfold State.watchSuspend
    split
    · exact h.enter.askLink
    · exact h
  · unfold State.watchReject
    split
    · split
      · exact h.endWithSummary
      · exact h
    · exact h

theorem takeMatch {w : FaultWord} (h : s.Permitted t) : s.Permitted (t.takeMatch i w) := by
  unfold State.takeMatch
  split
  · exact h
  · exact h.setWatch.notify.watchAct
  · simp only [State.hitLatch]
    split
    · exact h.setWatch.notify.watchAct
    · split
      · exact h
      · exact h.setWatch.notify

theorem goodReply (h : s.Permitted t) : s.Permitted (t.goodReply l i) := h

theorem statusTaken {x : LastStatus} (h : s.Permitted t) : s.Permitted (t.statusTaken l i x) := by
  have fallback (u : State) (g : s.Permitted u) : s.Permitted (u.writeFallback i x.grown) := by
    unfold State.writeFallback
    split
    · exact g.modRun
    · exact g
  have watch (u : State) (g : s.Permitted u) : s.Permitted (u.watchStep i x.fault) := by
    unfold State.watchStep
    split
    · exact g.takeMatch.setWatch
    · exact g
  have failed (u : State) (g : s.Permitted u) : s.Permitted (u.failedStep i x.state) := by
    unfold State.failedStep
    split
    · exact g.endWithSummary
    · exact g
  have plan (u : State) (g : s.Permitted u) : s.Permitted (u.planStep i x) := by
    unfold State.planStep
    split
    · exact g.testReply
    · exact g
  exact plan _ (failed _ (watch _ (fallback _ h.goodReply.setLinkSlot)))

theorem identTaken {x : Identity} (h : s.Permitted t) : s.Permitted (t.identTaken l i x) := by
  simp only [State.identTaken]
  split
  · exact h.goodReply.identified
  · exact h.goodReply

theorem phaseTaken {p : Purpose} (h : s.Permitted t) : s.Permitted (t.phaseTaken l i p) := by
  simp only [State.phaseTaken]
  split
  · split
    · exact h.goodReply.modSlot rfl
    · exact h.goodReply
  · exact h.goodReply

theorem blockTaken {op : SummaryOp} {x : SummaryBlock} (h : s.Permitted t) :
    s.Permitted (t.blockTaken l i op x) := by
  simp only [State.blockTaken]
  split
  · exact h.goodReply.modLink
  · split
    · exact h.goodReply.modLink.modRun.powerOff.verdict
    · exact h.goodReply.modLink
  · exact h.goodReply

theorem missed {x : Transaction} (h : s.Permitted t) : s.Permitted (t.missed l x) := by
  have silent (u : State) (g : s.Permitted u) : s.Permitted (u.judgeSilent l x.slot) := by
    unfold State.judgeSilent
    split
    · exact g.endAtOnce
    · exact g
  have directed (u : State) (c : DirectedCode) (p : Purpose) (g : s.Permitted u) :
      s.Permitted (u.directedMiss x.slot c p) := by
    unfold State.directedMiss
    split
    · split
      · exact g.askLink
      · exact g
    · split
      · exact g.askPhase
      · exact g
    · exact g
    · exact g.haltEnded
  have summary (u : State) (g : s.Permitted u) : s.Permitted (u.summaryMiss l x.slot) := by
    simp only [State.summaryMiss]
    split
    · split
      · exact g.modLink.modLink.modRun.powerOff.verdict
      · exact g.modLink
    · exact g
  have ended : s.Permitted (((t.endTransaction l).setLinkSlot x.slot (t.linkSlot x.slot).miss).judgeSilent l x.slot) :=
    silent _ h.modLink.setLinkSlot
  unfold State.missed State.codeMiss
  split
  · exact directed _ _ _ ended
  · exact ended
  · exact summary _ ended

theorem badReply {bytes : List Byte} (h : s.Permitted t) : s.Permitted (t.badReply l bytes) := by
  unfold State.badReply
  split
  · exact h.modLink
  · exact h

/-! ## The handler port (chapter 8) -/

theorem portFault {why : FaultReason} {o : Order} (h : s.Permitted t) : s.Permitted (t.portFault why o) :=
  h.setPort.notify

theorem endHandshake {c : CurrentOrder} {o : PortOutcome} (h : s.Permitted t) : s.Permitted (t.endHandshake c o) := by
  unfold State.endHandshake
  split
  · exact h.setPort
  · split
    · exact h.setPort
    · exact h.setPort

theorem engage (h : s.Permitted t) : s.Permitted (t.engage i) := h.modSlot rfl

theorem orderBack {o : Order} {why : HoldReason} (h : s.Permitted t) : s.Permitted (t.orderBack o why) := by
  unfold State.orderBack
  split
  · simp only [State.extractBack]
    split
    · exact h.engage.teardown
    · exact h.engage.enterHeld
  · simp only [State.insertBack]
    split
    · exact h.dropPlan.enterVacant
    · exact h.dropPlan.enter

theorem endAtCarton {o : Order} (h : s.Permitted t) : s.Permitted (t.endAtCarton o) :=
  h.cartons ((t.cartons_endAtCarton_iff t o).mpr t.sameBeyondCartons_refl)

theorem handshakeOver {o : Order} (h : s.Permitted t) : s.Permitted (t.handshakeOver o) :=
  h.cartons ((t.cartons_handshakeOver_iff t o).mpr t.sameBeyondCartons_refl)

theorem orderFails {o : Order} {e : HandlerEvent} {why : HoldReason} (h : s.Permitted t) :
    s.Permitted (t.orderFails o e why) := h.endAtCarton.notify.orderBack

theorem confirm {c : CurrentOrder} (h : s.Permitted t) : s.Permitted (t.confirm c) := by
  refine endHandshake ?_
  unfold State.orderConfirmed
  split
  · exact (h.cartons ((t.cartons_countIn_iff t _ _).mpr t.sameBeyondCartons_refl)).enterVacant
  · exact h.enterSeated

theorem takeDone {c : CurrentOrder} (h : s.Permitted t) : s.Permitted (t.takeDone c) := by
  simp only [State.takeDone]
  split
  · exact h.setPort.confirm
  · exact h.setPort.setPort

theorem takeFail {c : CurrentOrder} (h : s.Permitted t) : s.Permitted (t.takeFail c) :=
  h.setPort.orderFails.endHandshake

theorem takeOutcome {c : CurrentOrder} {o : PortOutcome} (h : s.Permitted t) : s.Permitted (t.takeOutcome c o) := by
  unfold State.takeOutcome
  split
  · exact h.takeFail
  · split
    · exact h.takeFail
    · exact h.takeDone

theorem takeAccept {c : CurrentOrder} (h : s.Permitted t) : s.Permitted (t.takeAccept c) := by
  unfold State.takeAccept State.readLines
  split
  · split
    · exact h.setPort.takeFail
    · split
      · exact h.setPort.takeDone
      · exact h.setPort
  · exact h.setPort

theorem raiseOffer {c : CurrentOrder} (h : s.Permitted t) : s.Permitted (t.raiseOffer c) := by
  simp only [State.raiseOffer]
  split
  · exact h.setPort.takeAccept
  · exact h.setPort

theorem orderReturned {o : Order} (h : s.Permitted t) : s.Permitted (t.orderReturned o) := by
  simp only [State.orderReturned]
  split
  · split
    · exact h.engage.teardown
    · split
      · exact h.engage.withdrawOrder.enterHeld
      · exact h.engage.enter
  · split
    · exact h.withdrawOrder.enterSeated
    · exact h

theorem acceptOver {c : CurrentOrder} (h : s.Permitted t) : s.Permitted (t.acceptOver c) := by
  simp only [State.acceptOver]
  split
  · exact h.setPort.endAtCarton.notify.orderReturned.setPort.portFault
  · exact h.setPort.endAtCarton.notify.orderReturned.setPort

theorem dispatch {o : Order} {n : Nat} (h : s.Permitted t) : s.Permitted (t.dispatch o n) := by
  simp only [State.dispatch]
  split
  · split
    · exact ((h.setPort.setRing (x := _)).modSlot rfl).enter.raiseOffer
    · exact h.setPort.raiseOffer
  · split
    · exact ((h.setPort.setRing (x := _)).modSlot rfl).enter.setPort
    · exact h.setPort.setPort

theorem arbitrate (h : s.Permitted t) : s.Permitted t.arbitrate := by
  unfold State.arbitrate
  split
  · unfold State.arbiter
    split
    · exact h.setPort
    · exact h.dispatch
    · exact h.dispatch
    · split
      · exact h.dispatch
      · exact h.dispatch
  · exact h

theorem finish (h : s.Permitted t) : s.Permitted t.finish := by
  have links : s.Permitted t.advanceLinks := h
  exact links.arbitrate.setLine

/-! ## The seat (R5 to R7) -/

theorem rawSeat {v : Seat} (h : s.Permitted t) : s.Permitted (t.rawSeat i v) := by
  simp only [State.rawSeat]
  split
  · exact h
  · split
    · exact (h.modSlot rfl).enter
    · exact h.modSlot rfl

theorem seatEvidence (h : s.Permitted t) : s.Permitted (t.seatEvidence i) := by
  unfold State.seatEvidence
  split
  · split
    · exact h.confirm
    · exact h
  · exact h

theorem seatClosed (h : s.Permitted t) : s.Permitted (t.seatClosed i) := by
  unfold State.seatClosed
  split
  · exact h.withdrawOrder.enterSeated
  · exact h.withdrawOrder.enterSeated
  · split
    · exact h.withdrawOrder.enterSeated
    · exact h.seatEvidence
  · exact h.seatEvidence

theorem seatOpened (h : s.Permitted t) : s.Permitted (t.seatOpened i) := by
  unfold State.seatOpened
  split
  case h_10 => exact h.seatEvidence
  all_goals exact h.teardown

theorem debounceOver (h : s.Permitted t) : s.Permitted (t.debounceOver i) := by
  have g : s.Permitted (t.modSlot i fun r => { r with debounce := none, seatStable := r.seatRaw }) := h.modSlot rfl
  simp only [State.debounceOver]
  split
  · split
    · split
      · exact g.enter
      · exact g.enterVacant
    · exact g
  · split
    · exact g.seatClosed
    · exact g.seatOpened

/-! ## Requests served (R189) -/

/-- Accepted SPIN settings never put the limit below the holder count (R14). -/
theorem spinSet {x : SpinSettings} (h : s.Permitted t) (room : t.holders ≤ x.permits) :
    s.Permitted ({ t with spin := x } : State).testGrants :=
  testGrants ⟨h.1, fun _ => room⟩

theorem abortSlot {u : State} (h : s.Permitted t) (takes : t.abortSlot i = some u) : s.Permitted u := by
  unfold State.abortSlot at takes
  split at takes
  · split at takes
    · cases takes
      exact h.withdrawOrder.dropPlan.enterVacant
    · cases takes
  case h_7 =>
    cases takes
    exact h.powerOff.modRun.verdict
  case h_8 =>
    cases takes
    exact h.withdrawOrder.enterHeld
  case h_9 => cases takes
  all_goals
    cases takes
    exact h.endAtOnce

theorem suspend (h : s.Permitted t) : s.Permitted (t.suspend i) := by
  simp only [State.suspend]
  split
  · exact h.modRun.enter.askLink
  · exact h.enter.askLink

theorem continueSlot (h : s.Permitted t) : s.Permitted (t.continueSlot i) := by
  unfold State.continueSlot
  split
  · exact h.modRun.enter
  · exact h.returnToRun

theorem releaseRecords {n x : Option Nat} (h : s.Permitted t) : s.Permitted (t.releaseRecords n x) :=
  h.cartons (by simp [State.releaseRecords, State.sameBeyondCartons_refl])

theorem served (h : s.Permitted t) (g : t.Served u) : s.Permitted u := by
  cases g with
  | unchanged => exact h
  | opened => exact h.assignPlan.enter.joinOrder
  | started => exact h.assignPlan.startRun
  | rerun => exact h.assignPlan.startRun
  | suspended => exact h.suspend
  | continued => exact h.continueSlot
  | ended => exact h.endWithSummary
  | aborted i u takes => exact h.abortSlot takes
  | released => exact h.modRun.enter.joinOrder
  | spinSet x room => exact h.spinSet room
  | planLoaded => exact h.setPlan
  | linkSet => exact h.modLink
  | profileLoaded | zoneStarted | zoneStopped | zoneSet => exact h.modZone
  | zoneResumed => exact h.resumeZone
  | dosesSet | rulesSet | sortSet => exact h
  | watchCleared => exact h.setWatch
  | barred b =>
    have set : s.Permitted (t.setBar b true) := h
    exact set.foldl (fun _ _ g => g.withdrawOrder.enterHeld) _
  | portSet | portReset => exact h.setPort
  | binSet => exact h.modCarton
  | recordsReleased => exact h.releaseRecords
  | maskSet | timeSet => exact h.setLine

/-! ## The line port (chapter 10) -/

theorem serveHead (h : s.Permitted t) : s.Permitted t.serveHead := by
  unfold State.serveHead
  split
  · exact h
  · split
    · exact (h.setLine.served (Request.answer_served _ _)).setLine
    · exact h

theorem arrive {r : Request} (h : s.Permitted t) : s.Permitted (t.arrive r) := h.setLine.serveHead.finish

/-- RESTART leaves no permit held (R30). -/
theorem restartSlots (h : s.Permitted t) : s.Permitted t.restartSlots := by
  refine ⟨h.1, fun _ => ?_⟩
  have none_held : t.restartSlots.holders = 0 := by
    rw [State.holders, List.countP_eq_zero]
    intro r hr
    obtain ⟨x, -, rfl⟩ : ∃ x ∈ t.slots.toList, SlotRec.sampled x.seatRaw = r := by
      simpa [State.restartSlots, mapEach] using hr
    cases x.seatRaw <;> simp [SlotRec.sampled, SlotRec.empty]
  rw [State.permitsWithinLimit, none_held]
  exact Nat.zero_le _

theorem restartPort (h : s.Permitted t) : s.Permitted t.restartPort := by
  simp only [State.restartPort]
  split
  · exact h.setPort.endAtCarton
  · exact h.setPort

theorem release (h : s.Permitted t) : s.Permitted t.release := h
theorem withoutHighWater (h : s.Permitted t) : s.Permitted t.withoutHighWater := h
theorem restartOthers (h : s.Permitted t) :
    s.Permitted t.restartLinks.restartZones.restartRecords.restartLine := h

theorem restart (h : s.Permitted t) : s.Permitted t.restart :=
  h.setLine.restartPort.release.withoutHighWater.restartSlots.restartOthers

theorem frameOut (h : s.Permitted t) : s.Permitted t.frameOut := by
  have after (u : State) (x : AfterSent) (g : s.Permitted u) : s.Permitted (u.afterSent x) := by
    cases x with
    | nothing => exact g
    | newRate r => exact g.setLine
    | restart => exact g.restart
  unfold State.frameOut
  split
  · exact (after _ _ h.setLine).serveHead.finish
  · exact h

theorem receive {x : Byte} (h : s.Permitted t) : s.Permitted (t.receive x) := by
  have lapsed : s.Permitted t.lapse := h.setLine
  simp only [State.receive]
  split
  · split
    · exact lapsed.setLine
    · exact lapsed
  · simp only [State.collect]
    split
    · exact lapsed
    · split
      · exact lapsed.setLine
      · split
        · unfold State.frameTaken
          split
          · exact lapsed.setLine.arrive
          · exact lapsed.setLine
        · exact lapsed.setLine

/-! ## Commands -/

/-- An event that is taken where a condition holds, and is discarded elsewhere (R4). -/
theorem taken {p : Prop} [Decidable p] {u v : State} (yes : s.Permitted u) (no : s.Permitted v) :
    s.Permitted (if p then u else v) := by
  split
  · exact yes
  · exact no

/-- An event that ends a drive's reply on a link, where one is awaited (R52). -/
theorem reply {x : Option Transaction} {f : Transaction → State} (h : s.Permitted t)
    (hf : ∀ y, s.Permitted (f y)) : s.Permitted (match x with | some y => f y | none => t) := by
  split
  · exact hf _
  · exact h

/-- An event that ends a state of the handler port with an order current (R146). -/
theorem atPort {x : Option CurrentOrder} {f : CurrentOrder → State} (h : s.Permitted t)
    (hf : ∀ y, s.Permitted (f y)) : s.Permitted (match x with | some y => f y | none => t) := by
  split
  · exact hf _
  · exact h

end State.Permitted

/-- At power-on no permit is held (R29). -/
theorem State.permitted_ofInputs (x : Inputs) (s : State) :
    s.Permitted { State.ofInputs x with pending := s.pending } := by
  refine ⟨rfl, fun _ => ?_⟩
  have none_held : ({ State.ofInputs x with pending := s.pending } : State).holders = 0 := by
    rw [State.holders, List.countP_eq_zero]
    intro r hr
    obtain ⟨v, -, rfl⟩ : ∃ v ∈ x.seats.toList, SlotRec.sampled v = r := by
      simpa [State.ofInputs, mapEach] using hr
    cases v <;> simp [SlotRec.sampled, SlotRec.empty]
  rw [State.permitsWithinLimit, none_held]
  exact Nat.zero_le _

/-- Every command leads to a next state, leaves the queue of waiting commands as it is, and keeps the permits within
their limit. -/
theorem exec_permitted (c : Instr) (s : State) : ∃ t, exec c s = .next t ∧ s.Permitted t := by
  have h := State.Permitted.refl s
  cases c with
  | powerOn x => exact ⟨_, rfl, s.permitted_ofInputs x⟩
  | restartEffect =>
    refine ⟨_, rfl, .taken (State.Permitted.frameOut ?_) h⟩
    exact h
  | lineRateChange => exact ⟨_, rfl, .taken h.frameOut h⟩
  | frameReceived bytes => exact ⟨_, rfl, h.foldl (fun _ _ g => g.receive) bytes⟩
  | lineGap => exact ⟨_, rfl, .taken h.setLine h⟩
  | lineBreak | framingDiscard => exact ⟨_, rfl, h.setLine⟩
  | frameSent => exact ⟨_, rfl, h.frameOut⟩
  | startByte | lengthDiscard => exact ⟨_, rfl, h.receive⟩
  | secondTick => exact ⟨_, rfl, h⟩
  | doseMinuteTick =>
    have ticked : s.Permitted { s with clock := s.clock.minute } := h
    exact ⟨_, rfl, ticked.minute.finish⟩
  | rawSeatChange => exact ⟨_, rfl, h.rawSeat.finish⟩
  | seatDebounceExpiry => exact ⟨_, rfl, .taken h.debounceOver.finish h⟩
  | readySeen => exact ⟨_, rfl, .taken h.readyHigh.finish h⟩
  | spinLimitExpiry => exact ⟨_, rfl, .taken h.endAtOnce.finish h⟩
  | overcurrentLineActive slot active =>
    have leveled : s.Permitted (s.setOvercurrent slot active) := h
    exact ⟨_, rfl, .taken leveled.takeOvercurrent.finish leveled⟩
  | inrushBlankingEnd =>
    exact ⟨_, rfl, .taken (.taken (h.modSlot rfl).takeOvercurrent.finish (h.modSlot rfl)) h⟩
  | stepTimeLimit slot =>
    refine ⟨_, rfl, ?_⟩
    split
    · exact .taken h.testLimit.finish h
    · exact h
  | cycleOffTimeExpiry => exact ⟨_, rfl, .taken h.offTimeOver.finish h⟩
  | frameStart | poll | directedTransaction | summaryTransaction => exact ⟨_, rfl, .taken h.modLink h⟩
  | statusReply =>
    refine ⟨_, rfl, h.reply fun y => ?_⟩
    split
    · split
      · exact h.statusTaken.finish
      · exact h.badReply
    · exact h.badReply
  | identReply =>
    refine ⟨_, rfl, h.reply fun y => ?_⟩
    split
    · split
      · exact h.identTaken.finish
      · exact h.badReply
    · exact h.badReply
  | phaseStartReply =>
    refine ⟨_, rfl, h.reply fun y => ?_⟩
    split
    · exact h.phaseTaken.finish
    · exact h.badReply
  | haltReply =>
    refine ⟨_, rfl, h.reply fun y => ?_⟩
    split
    · exact h.goodReply.haltEnded.finish
    · exact h.badReply
  | summaryReply =>
    refine ⟨_, rfl, h.reply fun y => ?_⟩
    split
    · split
      · exact h.blockTaken.finish
      · exact h.badReply
    · exact h.badReply
  | miss => exact ⟨_, rfl, h.reply fun y => .taken h.missed.finish h⟩
  | airSensorRead => exact ⟨_, rfl, (State.Permitted.taken h.goodReading h.badReading).finish⟩
  | sensorNoResponse => exact ⟨_, rfl, h.badReading.finish⟩
  | cutoffChange => exact ⟨_, rfl, (State.Permitted.taken h.addCause h.removeCause).finish⟩
  | tachEdge => exact ⟨_, rfl, h.modZone⟩
  | fanWindowEnd => exact ⟨_, rfl, h.windowEnd.finish⟩
  | segmentEnd | controlInterval | pwmPeriodStart | pwmOnTimeEnd => exact ⟨_, rfl, .taken h.modZone h⟩
  | tripGraceExpiry => exact ⟨_, rfl, .taken h.graceOver.finish h⟩
  | orderDispatch => exact ⟨_, rfl, h.finish⟩
  | handlerReadyRise => exact ⟨_, rfl, h.setPort.finish⟩
  | deskewExpiry => exact ⟨_, rfl, h.atPort fun c => h.raiseOffer.finish⟩
  | handlerAccept => exact ⟨_, rfl, h.setPort.atPort fun c => h.setPort.takeAccept.finish⟩
  | acceptTimeout => exact ⟨_, rfl, h.atPort fun c => h.acceptOver.finish⟩
  | handlerDone | handlerFail =>
    exact ⟨_, rfl, h.setPort.atPort fun c => .taken h.setPort.takeOutcome.finish h.setPort⟩
  | evidenceTimeout => exact ⟨_, rfl, h.atPort fun c => h.orderFails.endHandshake.finish⟩
  | completionTimeout => exact ⟨_, rfl, h.atPort fun c => h.setPort.orderFails.portFault.finish⟩
  | handlerLineDrop =>
    exact ⟨_, rfl, h.setPort.atPort fun c => .taken h.setPort.setPort.handshakeOver.finish h.setPort⟩
  | releaseTimeout => exact ⟨_, rfl, h.atPort fun c => h.handshakeOver.portFault.finish⟩
  | cartonPresentRise lane =>
    exact ⟨_, rfl, (h.cartons (by simp [State.sameBeyondCartons_refl])).finish⟩
  | cartonPresentDrop lane =>
    refine ⟨_, rfl, (h.cartons (t := s) (u := s.presentDrop lane) ?_).finish⟩
    simp only [State.presentDrop]
    split <;> simp [State.sameBeyondCartons_refl]
  | unknown => exact ⟨_, rfl, h.arrive⟩
  | slotOpen | slotStart | slotSuspend | slotContinue | slotEnd | slotAbort | slotRelease | slotRerun | spinSettings
  | slotQuery | planLoad | planRead | linkConfig | profileLoad | zoneStart | zoneStop | zoneResume | zoneSettings
  | zoneQuery | doseTableLoad | watchLoad | watchClear | weightsLoad | gradeMapLoad | faultTableLoad | gradeMapRead
  | binBar | binUnbar | sortProbe | handlerSettings | handlerReset | queueQuery | binConfig | binQuery | manifestRead
  | manifestRelease | lineConfig | noticeMask | setTime | rackQuery | restart => exact ⟨_, rfl, h.arrive⟩

/-- What a step on an empty queue does: a command that is due is placed in it, or a millisecond passes (log entry 2). -/
theorem State.idle_eq (s : State) : (∃ c, s.idle = { s with pending := [c] }) ∨ s.idle = s.tickMs := by
  unfold State.idle
  split
  · exact .inl ⟨_, rfl⟩
  · exact .inr rfl

/-- What a step can do: carry out the command at the front of the queue, or idle on an empty one. -/
theorem step_cases {s t : State} (h : step s = .next t) :
    (∃ c rest, s.pending = c :: rest ∧ exec c { s with pending := rest } = .next t) ∨
      (s.pending = [] ∧ t = s.idle) := by
  unfold step at h
  split at h
  · exact .inl ⟨_, _, ‹_›, h⟩
  · exact .inr ⟨‹_›, by injection h with e; exact e.symm⟩

end Sys2Proof.Machine

open Sys2Proof Sys2Proof.Machine

/-- Settles O1: the front command is what `step` matches on. -/
theorem stepTakesFrontCommand : Obligations.StepTakesFrontCommand := by
  unfold Obligations.StepTakesFrontCommand
  intro c rest s
  rfl

/-- Settles O2, by the relation every command keeps. -/
theorem everyCommandRuns : Obligations.EveryCommandRuns := by
  unfold Obligations.EveryCommandRuns
  intro c s
  obtain ⟨t, run, kept⟩ := exec_permitted c s
  exact ⟨t, run, kept.1⟩

/-- Settles O7: a step carries out a command, which keeps the permits within their limit, or idles, which touches
neither permits nor limit. -/
theorem stepKeepsPermitLimit : Obligations.StepKeepsPermitLimit := by
  unfold Obligations.StepKeepsPermitLimit
  intro s t within h
  rcases step_cases h with ⟨c, rest, -, run⟩ | ⟨-, rfl⟩
  · obtain ⟨u, run', kept⟩ := exec_permitted c { s with pending := rest }
    obtain rfl : u = t := by simpa using run'.symm.trans run
    exact kept.2 within
  · rcases s.idle_eq with ⟨c, e⟩ | e
    · exact e ▸ within
    · exact e ▸ within
end

