-- ==== Sys2Proof/Proofs/Reads.lean ====
section
/-! PROOFS. What the slot controller's operations leave in the records (chapter 1): the record of the slot they speak of,
the link, the permit queue, the plan table and the port, one lemma per operation and record. -/

namespace Sys2Proof.Machine

variable (s : State) (i j : SlotNo)

theorem State.modSlot_eq (f : SlotRec → SlotRec) : s.modSlot i f = s.setSlot i (f (s.slot i)) := rfl
theorem State.modRun_eq (f : RunRec → RunRec) :
    s.modRun i f = s.setSlot i { s.slot i with run := f (s.slot i).run } := rfl
theorem State.modLink_eq (l : ShelfNo) (f : Link → Link) : s.modLink l f = s.setLink l (f (s.link l)) := rfl

theorem State.slot_modSlot (f : SlotRec → SlotRec) :
    (s.modSlot i f).slot j = if j = i then f (s.slot i) else s.slot j := by
  split
  · subst j; simp
  · exact s.slot_modSlot_ne f ‹_›

theorem State.link_modLink (l k : ShelfNo) (f : Link → Link) :
    (s.modLink l f).link k = if k = l then f (s.link l) else s.link k := by
  split
  · subst k; simp
  · exact s.link_modLink_ne f ‹_›

/-! ## Changes of state, power and permits -/

@[simp] theorem State.enter_slot_same (st : SlotState) (o : Option HoldReason) :
    (s.enter i st o).slot i = { s.slot i with state := st, hold := o } := by simp [State.enter]
theorem State.enter_slot_ne (st : SlotState) (o : Option HoldReason) (h : j ≠ i) :
    (s.enter i st o).slot j = s.slot j := by simp [State.enter, s.slot_modSlot_ne _ h]
@[simp] theorem State.enter_link (st : SlotState) (o : Option HoldReason) (l : ShelfNo) :
    (s.enter i st o).link l = s.link l := by simp [State.enter]
@[simp] theorem State.enter_linkSlot (st : SlotState) (o : Option HoldReason) (k : SlotNo) :
    (s.enter i st o).linkSlot k = s.linkSlot k := by simp [State.enter]
@[simp] theorem State.enter_plan (st : SlotState) (o : Option HoldReason) (p : PlanNo) :
    (s.enter i st o).plan p = s.plan p := by simp [State.enter]
@[simp] theorem State.enter_permitQueue (st : SlotState) (o : Option HoldReason) :
    (s.enter i st o).permitQueue = s.permitQueue := by simp [State.enter]
@[simp] theorem State.enter_port (st : SlotState) (o : Option HoldReason) : (s.enter i st o).port = s.port := by
  simp [State.enter]
@[simp] theorem State.enter_watch (st : SlotState) (o : Option HoldReason) (k : SlotNo) :
    (s.enter i st o).watch k = s.watch k := by simp [State.enter]

@[simp] theorem State.powerOff_slot_same : (s.powerOff i).slot i = { s.slot i with power := .off } := by
  simp [State.powerOff, State.leaveLink]
@[simp] theorem State.powerOff_link_same : (s.powerOff i).link (shelfOf i) = (s.link (shelfOf i)).leave i := by
  simp [State.powerOff, State.leaveLink]
theorem State.powerOff_link_ne {l : ShelfNo} (h : l ≠ shelfOf i) : (s.powerOff i).link l = s.link l := by
  simp [State.powerOff, State.leaveLink, State.link_modLink_ne _ _ h]
@[simp] theorem State.powerOff_linkSlot (k : SlotNo) : (s.powerOff i).linkSlot k = s.linkSlot k := rfl
@[simp] theorem State.powerOff_plan (p : PlanNo) : (s.powerOff i).plan p = s.plan p := rfl
@[simp] theorem State.powerOff_permitQueue : (s.powerOff i).permitQueue = s.permitQueue := rfl
@[simp] theorem State.powerOff_port : (s.powerOff i).port = s.port := rfl
@[simp] theorem State.powerOff_sort : (s.powerOff i).sort = s.sort := rfl

/-- The slot record once its permit has left the scheme (R10). -/
@[simp] theorem State.clearPermit_slot_same :
    (s.clearPermit i).slot i =
      { s.slot i with permit := .none, grantedAt := none, spinLimit := none, blanking := none } := by
  simp [State.clearPermit, State.slot, State.modSlot, State.setSlot]
@[simp] theorem State.clearPermit_link (l : ShelfNo) : (s.clearPermit i).link l = s.link l := rfl
@[simp] theorem State.clearPermit_linkSlot (k : SlotNo) : (s.clearPermit i).linkSlot k = s.linkSlot k := rfl
@[simp] theorem State.clearPermit_plan (p : PlanNo) : (s.clearPermit i).plan p = s.plan p := rfl
@[simp] theorem State.clearPermit_permitQueue : (s.clearPermit i).permitQueue = s.permitQueue.filter (· ≠ i) := rfl
@[simp] theorem State.clearPermit_port : (s.clearPermit i).port = s.port := rfl
@[simp] theorem State.clearPermit_sort : (s.clearPermit i).sort = s.sort := rfl

/-! ## Plans and the end of a run -/

theorem State.dropPlan_of_none (h : (s.slot i).plan = none) : s.dropPlan i = s := by
  simp [State.dropPlan, h]
theorem State.dropPlan_of_some {p : PlanNo} (h : (s.slot i).plan = some p) :
    s.dropPlan i = (s.setSlot i { s.slot i with plan := none }).setPlan p
      { steps := (s.plan p).steps, refs := (s.plan p).refs - 1 } := by
  simp [State.dropPlan, h, State.uncountPlan, State.modSlot_eq]

@[simp] theorem State.dropPlan_slot_same : (s.dropPlan i).slot i = { s.slot i with plan := none } := by
  cases h : (s.slot i).plan with
  | none => rw [s.dropPlan_of_none i h, ← h]
  | some p => simp [s.dropPlan_of_some i h]
@[simp] theorem State.dropPlan_link (l : ShelfNo) : (s.dropPlan i).link l = s.link l := by
  unfold State.dropPlan; split <;> rfl
@[simp] theorem State.dropPlan_linkSlot (k : SlotNo) : (s.dropPlan i).linkSlot k = s.linkSlot k := by
  unfold State.dropPlan; split <;> rfl
@[simp] theorem State.dropPlan_permitQueue : (s.dropPlan i).permitQueue = s.permitQueue := by
  unfold State.dropPlan; split <;> rfl
@[simp] theorem State.dropPlan_port : (s.dropPlan i).port = s.port := by
  unfold State.dropPlan; split <;> rfl
@[simp] theorem State.dropPlan_sort : (s.dropPlan i).sort = s.sort := by
  unfold State.dropPlan; split <;> rfl
/-- Counting a plan down leaves its steps (R32). -/
@[simp] theorem State.dropPlan_steps (p : PlanNo) : ((s.dropPlan i).plan p).steps = (s.plan p).steps := by
  cases h : (s.slot i).plan with
  | none => rw [s.dropPlan_of_none i h]
  | some q =>
    rw [s.dropPlan_of_some i h]
    by_cases e : p = q
    · subst e; simp
    · simp [State.plan_setPlan_ne _ _ e]

/-- The slot record at the end of a run (R17). -/
@[simp] theorem State.recordEnd_slot_same (c : EndCause) :
    (s.recordEnd i c).slot i =
      { s.slot i with
        plan := none, step := none, cyclePhase := none, phaseArmed := false, offTimer := none, stepEntered := false
        run := { (s.slot i).run with endCause := some c } } := by
  simp [State.recordEnd]
@[simp] theorem State.recordEnd_link (c : EndCause) (l : ShelfNo) : (s.recordEnd i c).link l = s.link l := by
  simp [State.recordEnd]
@[simp] theorem State.recordEnd_linkSlot (c : EndCause) (k : SlotNo) :
    (s.recordEnd i c).linkSlot k = s.linkSlot k := by simp [State.recordEnd]
@[simp] theorem State.recordEnd_permitQueue (c : EndCause) : (s.recordEnd i c).permitQueue = s.permitQueue := by
  simp [State.recordEnd]
@[simp] theorem State.recordEnd_port (c : EndCause) : (s.recordEnd i c).port = s.port := by simp [State.recordEnd]
@[simp] theorem State.recordEnd_sort (c : EndCause) : (s.recordEnd i c).sort = s.sort := by simp [State.recordEnd]

/-! ## The verdict (R20, R123) -/

/-- What SU works out for the slot as it stands (R123). -/
def State.judgement : Judgement := judge s.sort (s.slot i).run (s.slot i).spin (s.linkSlot i).total

/-- The slot with SU's verdict told and stored, before it moves (R123, R131). -/
def State.told : State :=
  let u := s.modRun i fun r => { r with countRegressed := r.countRegressed || (s.judgement i).regressed }
  (u.notify (.runEnd i (u.slot i).run (s.judgement i).verdict (s.judgement i).replaced (s.judgement i).detail)).modRun i
    fun r => { r with verdict := some (s.judgement i).verdict }

theorem State.verdict_eq :
    s.verdict i =
      match laneOf (s.judgement i).verdict.bin with
      | some b => ((s.told i).enter i .graded none).joinOrder (.extract b) i
      | none => (s.told i).enterHeld i (if (s.judgement i).verdict.bar then .barred else .verdict) := rfl

/-- The two ends of a verdict (R20). -/
theorem State.verdict_cases :
    (∃ b, laneOf (s.judgement i).verdict.bin = some b ∧
      s.verdict i = ((s.told i).enter i .graded none).joinOrder (.extract b) i) ∨
    (laneOf (s.judgement i).verdict.bin = none ∧
      s.verdict i = (s.told i).enter i .held (some (if (s.judgement i).verdict.bar then .barred else .verdict))) := by
  rw [State.verdict_eq]
  cases e : laneOf (s.judgement i).verdict.bin with
  | some b => exact .inl ⟨b, rfl, rfl⟩
  | none => exact .inr ⟨rfl, rfl⟩

@[simp] theorem State.told_slot_same :
    (s.told i).slot i =
      { s.slot i with
        run := { (s.slot i).run with
          countRegressed := (s.slot i).run.countRegressed || (s.judgement i).regressed
          verdict := some (s.judgement i).verdict } } := by
  simp [State.told]
@[simp] theorem State.told_link (l : ShelfNo) : (s.told i).link l = s.link l := by simp [State.told]
@[simp] theorem State.told_linkSlot (k : SlotNo) : (s.told i).linkSlot k = s.linkSlot k := by simp [State.told]
@[simp] theorem State.told_plan (p : PlanNo) : (s.told i).plan p = s.plan p := by simp [State.told]
@[simp] theorem State.told_permitQueue : (s.told i).permitQueue = s.permitQueue := by simp [State.told]
@[simp] theorem State.told_port : (s.told i).port = s.port := by simp [State.told]

/-! ## The empty record -/

@[simp] theorem State.enterVacant_slot_same (c : Option EndCause) :
    (s.enterVacant i c).slot i =
      SlotRec.empty (s.slot i).seatRaw (s.slot i).seatStable (s.slot i).debounce (s.slot i).stepEntry := by
  simp [State.enterVacant, State.forgetStatus]
theorem State.enterVacant_slot_ne (c : Option EndCause) (h : j ≠ i) : (s.enterVacant i c).slot j = s.slot j := by
  simp [State.enterVacant, State.forgetStatus, State.slot_setSlot_ne _ _ h]
@[simp] theorem State.enterVacant_link (c : Option EndCause) (l : ShelfNo) :
    (s.enterVacant i c).link l = s.link l := by simp [State.enterVacant, State.forgetStatus]
@[simp] theorem State.enterVacant_plan (c : Option EndCause) (p : PlanNo) :
    (s.enterVacant i c).plan p = s.plan p := by simp [State.enterVacant, State.forgetStatus]
@[simp] theorem State.enterVacant_permitQueue (c : Option EndCause) :
    (s.enterVacant i c).permitQueue = s.permitQueue := by simp [State.enterVacant, State.forgetStatus]
@[simp] theorem State.enterVacant_port (c : Option EndCause) : (s.enterVacant i c).port = s.port := by
  simp [State.enterVacant, State.forgetStatus]
@[simp] theorem State.enterVacant_watch_same (c : Option EndCause) :
    (s.enterVacant i c).watch i = WatchRec.empty := by simp [State.enterVacant, State.forgetStatus]
@[simp] theorem State.enterVacant_last_same (c : Option EndCause) :
    ((s.enterVacant i c).linkSlot i).last = none := by simp [State.enterVacant, State.forgetStatus]

/-! ## What a link knows (R57, R58) -/

variable (l : Link)

@[simp] theorem Link.leave_knows_same : (l.leave i).knows i = false := by
  unfold Link.leave
  split
  · simp [Link.knows]
  · simpa using ‹¬ l.knows i = true›
theorem Link.leave_knows_ne (h : j ≠ i) : (l.leave i).knows j = l.knows j := by
  unfold Link.leave
  split
  · simp [Link.knows, h]
  · rfl
@[simp] theorem Link.join_knows_same : (l.join i).knows i = true := by
  unfold Link.join
  split
  · assumption
  · simp [Link.knows]
theorem Link.join_knows_ne (h : j ≠ i) : (l.join i).knows j = l.knows j := by
  unfold Link.join
  split
  · rfl
  · simp [Link.knows, h]

/-- A slot that leaves takes its summary operation with it (R58). -/
theorem Link.leave_summary {op : SummaryOp} (h : op ∈ (l.leave i).summary) :
    op ∈ l.summary ∧ (l.knows i = true → op.slot ≠ i) := by
  unfold Link.leave at h
  split at h
  · simp only [List.mem_filter, decide_eq_true_eq] at h
    exact ⟨h.1, fun _ => h.2⟩
  · exact ⟨h, fun k => absurd k ‹_›⟩
@[simp] theorem Link.join_summary : (l.join i).summary = l.summary := by unfold Link.join; split <;> rfl
@[simp] theorem Link.ask_summary (c : DirectedCode) (p : Purpose) : (l.ask i c p).summary = l.summary := by
  simp only [Link.ask]; (repeat' split) <;> rfl
@[simp] theorem Link.ask_knows (c : DirectedCode) (p : Purpose) : (l.ask i c p).knows j = l.knows j := by
  simp only [Link.ask]; (repeat' split) <;> rfl
@[simp] theorem Link.askSummary_knows : (l.askSummary i).knows j = l.knows j := by
  unfold Link.askSummary; split <;> rfl
theorem Link.askSummary_mem {op : SummaryOp} (h : op ∈ (l.askSummary i).summary) :
    op ∈ l.summary ∨ op.slot = i := by
  unfold Link.askSummary at h
  split at h
  · exact .inl h
  · rcases List.mem_append.mp h with h | h
    · exact .inl h
    · rw [List.mem_singleton.mp h]; exact .inr rfl

end Sys2Proof.Machine
end

