-- ==== Sys2Proof/Proofs/Order.lean ====
section
/-! PROOFS. The order of the rack (`State.InOrder`) slot by slot: what holds of the whole state (`State.Sound`), what holds
of one slot (`State.SlotAt`), and the changes that leave one slot, or every slot, as it was. An event passes through
states in which one slot, or the current order, is not yet in order: `State.On` says of which slots the order holds,
which order counts as current, and what the port shows. -/

namespace Sys2Proof.Machine

/-! ## One link (R52, R60) -/

/-- The slots still to poll are on the scan list, and a transaction is for a slot the link knows, a SUMMARY one for the
head operation's. -/
structure Link.Sound (x : Link) : Prop where
  polls : ∀ i ∈ x.unpolled, i ∈ x.scan
  transaction : ∀ t, x.outstanding = some t →
    x.knows t.slot = true ∧ ∀ n, t.request = .summary n → x.summary.head?.map (·.slot) = some t.slot

/-- A link that has gone on with its work: it knows the same slots and reads no further summary. -/
structure Link.Goes (x y : Link) : Prop where
  knows : ∀ j, y.knows j = x.knows j
  summary : ∀ op ∈ y.summary, ∃ o ∈ x.summary, o.slot = op.slot
  sound : x.Sound → y.Sound

/-- A link whose lists and transaction stand. -/
theorem Link.Goes.of_same {x y : Link} (hs : y.scan = x.scan) (hj : y.joins = x.joins) (hu : y.unpolled = x.unpolled)
    (hm : y.summary = x.summary) (ho : y.outstanding = x.outstanding) : x.Goes y where
  knows j := by simp [Link.knows, hs, hj]
  summary op h := ⟨op, hm ▸ h, rfl⟩
  sound h := ⟨by rw [hu, hs]; exact h.polls, by
    rw [ho, hm]
    intro t e
    have := h.transaction t e
    simpa [Link.knows, hs, hj] using this⟩

theorem Link.Goes.refl (x : Link) : x.Goes x := .of_same rfl rfl rfl rfl rfl

theorem Link.Goes.trans {x y z : Link} (h : x.Goes y) (g : y.Goes z) : x.Goes z where
  knows j := (g.knows j).trans (h.knows j)
  summary op m := by
    obtain ⟨o, mo, eo⟩ := g.summary op m
    obtain ⟨q, mq, eq⟩ := h.summary o mo
    exact ⟨q, mq, eq.trans eo⟩
  sound := g.sound ∘ h.sound

/-! ## One slot record -/

/-- The fields of a slot record that the order of the rack speaks of. -/
def SlotRec.standing (r : SlotRec) :
    SlotState × Option PlanNo × Option Nat × Power × Permit × Latch × Option CyclePhase × Option Time × Option Time :=
  (r.state, r.plan, r.step, r.power, r.permit, r.latch, r.cyclePhase, r.grantedAt, r.spinLimit)

/-- What the order of the rack says of a slot record alone (R9 to R11, R32, R47). -/
structure SlotRec.Fits (r : SlotRec) : Prop where
  planDropped : r.state ∈ [.vacant, .seated, .ending, .graded, .held, .unloading] → r.plan = none
  powered : r.power = .on → r.state ∈ [.powering, .identifying, .running, .paused, .review, .ending]
  linkPowered : r.onLink = true → r.power = .on
  permits : r.permit ≠ .none → r.state = .powering ∨ (r.state = .running ∧ r.cyclePhase = some .spinning)
  permitPowered : r.permit = .held → r.power = .on
  captured : (r.grantedAt.isSome = true ∨ r.spinLimit.isSome = true) → r.permit = .held
  cycles : r.cyclePhase ≠ none → r.state ∈ [.running, .paused, .review]
  cyclesRun : r.cycleOffLink = true → r.state = .running

/-- What R143 asks of the slot of a queued order. -/
def OrderKind.waitsIn (k : OrderKind) (r : SlotRec) : Prop :=
  match k with
  | .insert => (r.state = .loadWait ∨ r.state = .seating) ∧ r.plan ≠ none
  | .extract _ => r.state = .graded

/-- What R143 and R151 ask of the slot of the current order. -/
def OrderKind.servedIn (k : OrderKind) (r : SlotRec) : Prop :=
  match k with
  | .insert => r.state = .loadWait ∧ r.plan ≠ none
  | .extract _ => r.state = .unloading

section Standing

variable {r q : SlotRec} (h : q.standing = r.standing)
include h

theorem SlotRec.standing_fields :
    q.state = r.state ∧ q.plan = r.plan ∧ q.step = r.step ∧ q.power = r.power ∧ q.permit = r.permit ∧
      q.latch = r.latch ∧ q.cyclePhase = r.cyclePhase ∧ q.grantedAt = r.grantedAt ∧ q.spinLimit = r.spinLimit := by
  simpa [SlotRec.standing] using h

theorem SlotRec.standing_onLink : q.onLink = r.onLink := by
  obtain ⟨hs, -, -, -, -, -, hc, -, -⟩ := SlotRec.standing_fields h
  simp [SlotRec.onLink, SlotRec.cycleOffLink, hs, hc]

theorem SlotRec.standing_cycleOffLink : q.cycleOffLink = r.cycleOffLink := by
  obtain ⟨-, -, -, -, -, -, hc, -, -⟩ := SlotRec.standing_fields h
  simp [SlotRec.cycleOffLink, hc]

theorem SlotRec.Fits.standing (f : r.Fits) : q.Fits := by
  obtain ⟨hs, hp, -, hw, hm, -, hc, hg, hl⟩ := SlotRec.standing_fields h
  have on := SlotRec.standing_onLink h
  have off := SlotRec.standing_cycleOffLink h
  exact ⟨by rw [hs, hp]; exact f.planDropped, by rw [hw, hs]; exact f.powered, by rw [on, hw]; exact f.linkPowered,
    by rw [hm, hs, hc]; exact f.permits, by rw [hm, hw]; exact f.permitPowered,
    by rw [hg, hl, hm]; exact f.captured, by rw [hc, hs]; exact f.cycles, by rw [off, hs]; exact f.cyclesRun⟩

theorem SlotRec.standing_waitsIn (k : OrderKind) : k.waitsIn q ↔ k.waitsIn r := by
  obtain ⟨hs, hp, -⟩ := SlotRec.standing_fields h
  cases k <;> simp [OrderKind.waitsIn, hs, hp]

theorem SlotRec.standing_servedIn (k : OrderKind) : k.servedIn q ↔ k.servedIn r := by
  obtain ⟨hs, hp, -⟩ := SlotRec.standing_fields h
  cases k <;> simp [OrderKind.servedIn, hs, hp]

end Standing

/-! ## The whole state, and one slot -/

/-- The number of slots whose assigned plan it is (R32). -/
def State.users (s : State) (p : PlanNo) : Nat := s.slots.toList.countP fun r => r.plan = some p

/-- What the order of the rack says of the state as a whole: plans counted, links sound and of their own shelf, no slot
with two queued orders. -/
structure State.Sound (s : State) : Prop where
  counted : ∀ p, (s.plan p).refs = s.users p
  own : ∀ l i, (s.link l).knows i = true → shelfOf i = l
  links : ∀ l, (s.link l).Sound
  summaries : ∀ l, ∀ op ∈ (s.link l).summary, shelfOf op.slot = l
  orders : s.port.queue.Pairwise fun a b => a.slot ≠ b.slot

/-- What the order of the rack says of one slot, where `live` is the current order whose outcome has not been applied. -/
structure State.SlotAt (s : State) (live : Option CurrentOrder) (i : SlotNo) : Prop where
  fits : (s.slot i).Fits
  queued : i ∈ s.permitQueue → (s.slot i).permit = .queued
  cycle : (s.slot i).cyclePhase ≠ none → ∃ off, s.currentStep i = some (.cycle off)
  known : (s.link (shelfOf i)).knows i = true ↔ (s.slot i).onLink = true
  summed : ∀ op ∈ (s.link (shelfOf i)).summary, op.slot = i → (s.slot i).state = .ending
  ordered : ∀ o ∈ s.port.queue, o.slot = i → o.kind.waitsIn (s.slot i)
  current : ∀ c, live = some c → c.order.slot = i →
    (∀ o ∈ s.port.queue, o.slot ≠ i) ∧ c.order.kind.servedIn (s.slot i)
  latch : (s.slot i).latch = .released →
    ∃ c b, live = some c ∧ c.order.slot = i ∧ c.order.kind = .extract b

/-- The port's state and its current order. -/
def Port.hold (p : Port) : PortState × Option CurrentOrder := (p.state, p.current)

/-- The state is in order at the slots of `P`, with `live` for the current order, and the port shows `h`. -/
structure State.On (s : State) (h : PortState × Option CurrentOrder) (live : Option CurrentOrder)
    (P : SlotNo → Prop) : Prop where
  sound : s.Sound
  hold : s.port.hold = h
  at_ : ∀ j, P j → s.SlotAt live j

/-- Every slot is in order. -/
abbrev State.Whole (s : State) (h : PortState × Option CurrentOrder) (live : Option CurrentOrder) : Prop :=
  s.On h live fun _ => True

/-- The order of the rack, slot by slot. -/
theorem State.inOrder_iff (s : State) : s.InOrder ↔ s.Whole s.port.hold s.port.live := by
  constructor
  · intro h
    refine ⟨⟨h.plansCounted, fun l i k => ((h.linksKnow l i).mp k).1, fun l => ⟨h.pollsKnown l, h.transactionsKnown l⟩,
      fun l op m => (h.summariesEnding l op m).1, h.ordersOnce⟩, rfl, fun i _ => ?_⟩
    refine ⟨⟨h.planDropped i, h.powered i, h.linkPowered i, h.permits i, h.permitPowered i, h.captured i,
      fun k => (h.cycles i k).1, h.cyclesRun i⟩, h.permitsQueued i, fun k => (h.cycles i k).2,
      by simpa using h.linksKnow (shelfOf i) i, ?_, ?_, ?_, h.latches i⟩
    · rintro op m rfl
      exact (h.summariesEnding _ op m).2
    · rintro o m rfl
      have := h.ordersQueued o m
      cases k : o.kind <;> simpa [OrderKind.waitsIn, k] using this
    · rintro c e rfl
      obtain ⟨once, fit⟩ := h.orderCurrent c e
      refine ⟨once, ?_⟩
      cases k : c.order.kind <;> simpa [OrderKind.servedIn, k] using fit
  · intro h
    have slot (i : SlotNo) := h.at_ i trivial
    refine
      { plansCounted := h.sound.counted
        planDropped := fun i => (slot i).fits.planDropped
        powered := fun i => (slot i).fits.powered
        linkPowered := fun i => (slot i).fits.linkPowered
        permits := fun i => (slot i).fits.permits
        permitsQueued := fun i => (slot i).queued
        permitPowered := fun i => (slot i).fits.permitPowered
        captured := fun i => (slot i).fits.captured
        cycles := fun i k => ⟨(slot i).fits.cycles k, (slot i).cycle k⟩
        cyclesRun := fun i => (slot i).fits.cyclesRun
        linksKnow := fun l i => ⟨fun k => ?_, ?_⟩
        pollsKnown := fun l => (h.sound.links l).polls
        transactionsKnown := fun l => (h.sound.links l).transaction
        summariesEnding := fun l op m => ?_
        ordersOnce := h.sound.orders
        ordersQueued := fun o m => ?_
        orderCurrent := fun c e => ⟨((slot _).current c e rfl).1, ?_⟩
        latches := fun i => (slot i).latch }
    · obtain rfl := h.sound.own l i k
      exact ⟨rfl, (slot i).known.mp k⟩
    · rintro ⟨rfl, on⟩
      exact (slot i).known.mpr on
    · obtain rfl := h.sound.summaries l op m
      exact ⟨rfl, (slot op.slot).summed op m rfl⟩
    · have := (slot o.slot).ordered o m rfl
      cases k : o.kind <;> simpa [OrderKind.waitsIn, k] using this
    · have := ((slot c.order.slot).current c e rfl).2
      cases k : c.order.kind <;> simpa [OrderKind.servedIn, k] using this

/-! ## Changes that leave a slot as it was -/

/-- Between `s` and `t` a slot stands as it did, in its record, the permit queue, its link and the orders. -/
structure State.Spares (s t : State) (j : SlotNo) : Prop where
  slot : (t.slot j).standing = (s.slot j).standing
  queue : j ∈ t.permitQueue → j ∈ s.permitQueue
  steps : ∀ p, (s.slot j).plan = some p → (t.plan p).steps = (s.plan p).steps
  known : (t.link (shelfOf j)).knows j = (s.link (shelfOf j)).knows j
  summed : ∀ op ∈ (t.link (shelfOf j)).summary, op.slot = j → ∃ o ∈ (s.link (shelfOf j)).summary, o.slot = j
  orders : ∀ o ∈ t.port.queue, o.slot = j → o ∈ s.port.queue

variable {s t u : State} {h : PortState × Option CurrentOrder} {live : Option CurrentOrder} {P : SlotNo → Prop}
  {i j : SlotNo}

theorem State.Spares.refl (s : State) (j : SlotNo) : s.Spares s j :=
  ⟨rfl, id, fun _ _ => rfl, rfl, fun op m e => ⟨op, m, e⟩, fun _ m _ => m⟩

theorem State.Spares.trans (a : s.Spares t j) (b : t.Spares u j) : s.Spares u j where
  slot := b.slot.trans a.slot
  queue := a.queue ∘ b.queue
  steps p e := by
    have plan := (SlotRec.standing_fields a.slot).2.1
    exact (b.steps p (plan.trans e)).trans (a.steps p e)
  known := b.known.trans a.known
  summed op m e := by
    obtain ⟨o, mo, eo⟩ := b.summed op m e
    exact a.summed o mo eo
  orders o m e := a.orders o (b.orders o m e) e

/-- The step a spared slot is at. -/
theorem State.Spares.currentStep (a : s.Spares t j) : t.currentStep j = s.currentStep j := by
  obtain ⟨-, plan, step, -⟩ := SlotRec.standing_fields a.slot
  unfold State.currentStep
  rw [plan, step]
  cases e : (s.slot j).plan with
  | none => rfl
  | some p =>
    cases (s.slot j).step with
    | none => rfl
    | some n => cases n <;> simp [a.steps p e]

/-- A spared slot stays in order. -/
theorem State.SlotAt.spared (g : s.SlotAt live j) (a : s.Spares t j) : t.SlotAt live j := by
  obtain ⟨hs, -, -, -, hm, hl, hc, -, -⟩ := SlotRec.standing_fields a.slot
  refine ⟨g.fits.standing a.slot, fun m => hm.trans (g.queued (a.queue m)), ?_, ?_, ?_, ?_, ?_, ?_⟩
  · rw [hc, a.currentStep]
    exact g.cycle
  · rw [a.known, SlotRec.standing_onLink a.slot]
    exact g.known
  · intro op m e
    obtain ⟨o, mo, eo⟩ := a.summed op m e
    exact hs.trans (g.summed o mo eo)
  · intro o m e
    exact (SlotRec.standing_waitsIn a.slot _).mpr (g.ordered o (a.orders o m e) e)
  · intro c e k
    obtain ⟨once, fit⟩ := g.current c e k
    exact ⟨fun o m e => once o (a.orders o m e) e, (SlotRec.standing_servedIn a.slot _).mpr fit⟩
  · rw [hl]
    exact g.latch

/-- A change at one slot alone. -/
structure State.Moves (i : SlotNo) (s t : State) : Prop where
  sound : s.Sound → t.Sound
  hold : t.port.hold = s.port.hold
  spares : ∀ j, j ≠ i → s.Spares t j

/-- A change that touches the order of no slot. -/
structure State.Keeps (s t : State) : Prop where
  sound : s.Sound → t.Sound
  hold : t.port.hold = s.port.hold
  spares : ∀ j, s.Spares t j

theorem State.Moves.trans (a : State.Moves i s t) (b : State.Moves i t u) : State.Moves i s u :=
  ⟨b.sound ∘ a.sound, b.hold.trans a.hold, fun j n => (a.spares j n).trans (b.spares j n)⟩

theorem State.Keeps.refl (s : State) : s.Keeps s := ⟨id, rfl, .refl s⟩

theorem State.Keeps.trans (a : s.Keeps t) (b : t.Keeps u) : s.Keeps u :=
  ⟨b.sound ∘ a.sound, b.hold.trans a.hold, fun j => (a.spares j).trans (b.spares j)⟩

theorem State.Keeps.moves (a : s.Keeps t) : State.Moves i s t := ⟨a.sound, a.hold, fun j _ => a.spares j⟩

theorem State.On.keep (g : s.On h live P) (a : s.Keeps t) : t.On h live P :=
  ⟨a.sound g.sound, a.hold.trans g.hold, fun j m => (g.at_ j m).spared (a.spares j)⟩

/-- A change at a slot the order is not said of. -/
theorem State.On.move (g : s.On h live P) (hi : ¬ P i) (a : State.Moves i s t) : t.On h live P :=
  ⟨a.sound g.sound, a.hold.trans g.hold, fun j m => (g.at_ j m).spared (a.spares j fun e => hi (e ▸ m))⟩

/-- The slots of `P` but one. -/
def butAt (P : SlotNo → Prop) (i : SlotNo) : SlotNo → Prop := fun j => P j ∧ j ≠ i

theorem not_butAt (P : SlotNo → Prop) (i : SlotNo) : ¬ butAt P i i := fun h => h.2 rfl

theorem State.On.but (g : s.On h live P) (i : SlotNo) : s.On h live (butAt P i) :=
  ⟨g.sound, g.hold, fun j m => g.at_ j m.1⟩

/-- The one slot left out is in order again. -/
theorem State.On.close (g : s.On h live (butAt P i)) (a : s.SlotAt live i) : s.On h live P := by
  refine ⟨g.sound, g.hold, fun j m => ?_⟩
  by_cases e : j = i
  · exact e ▸ a
  · exact g.at_ j ⟨m, e⟩

/-- The current order counts for its own slot alone, so that it may change where that slot is left out. -/
theorem State.On.relive {live' : Option CurrentOrder} (g : s.On h live P) (off : ∀ c, live = some c → ¬ P c.order.slot)
    (off' : ∀ c, live' = some c → ¬ P c.order.slot) : s.On h live' P := by
  refine ⟨g.sound, g.hold, fun j m => ?_⟩
  obtain ⟨f, q, c, k, su, o, -, l⟩ := g.at_ j m
  refine ⟨f, q, c, k, su, o, fun d e r => absurd (r ▸ m) (off' d e), fun e => ?_⟩
  obtain ⟨d, -, e, r, -⟩ := l e
  exact absurd (r ▸ m) (off d e)

/-- A change of the port that leaves its queue. -/
theorem State.On.setPort {x : Port} (g : s.On h live P) (q : x.queue = s.port.queue) :
    (s.setPort x).On x.hold live P := by
  refine ⟨⟨g.sound.counted, g.sound.own, g.sound.links, g.sound.summaries, ?_⟩, rfl, fun j m => (g.at_ j m).spared ?_⟩
  · rw [State.setPort_port, q]
    exact g.sound.orders
  · exact ⟨rfl, id, fun _ _ => rfl, rfl, fun op m e => ⟨op, m, e⟩, fun o m _ => by simpa [q] using m⟩

/-! ## Plans counted (R32) -/

theorem State.users_eq (s : State) (p : PlanNo) :
    s.users p = (List.finRange 40).countP fun i => (s.slot i).plan = some p := by
  have e : s.slots.toList = (List.finRange 40).map s.slot := by
    apply List.ext_getElem <;> simp [State.slot]
  rw [State.users, e, List.countP_map]
  rfl

/-- The users of the plans stand where every slot keeps its plan. -/
theorem State.users_congr (e : ∀ j, (t.slot j).plan = (s.slot j).plan) (p : PlanNo) : t.users p = s.users p := by
  simp [State.users_eq, e]

theorem State.users_setSlot (s : State) (i : SlotNo) (r : SlotRec) (p : PlanNo) :
    (s.setSlot i r).users p =
      (s.users p - if (s.slot i).plan = some p then 1 else 0) + if r.plan = some p then 1 else 0 := by
  simp only [State.users, State.setSlot, State.slot, Vector.countP_toList, Vector.countP_set, decide_eq_true_eq]
  rfl

/-- A slot with a plan is one of its users. -/
theorem State.users_pos {p : PlanNo} (e : (s.slot i).plan = some p) : 0 < s.users p := by
  rw [State.users, List.countP_pos_iff]
  exact ⟨s.slot i, by simp [State.slot], by simpa using e⟩

/-! ## The moves of one slot -/

theorem State.Moves.setSlot {r : SlotRec} (e : r.plan = (s.slot i).plan) : State.Moves i s (s.setSlot i r) where
  sound g := by
    refine ⟨fun p => ?_, g.own, g.links, g.summaries, g.orders⟩
    refine (g.counted p).trans (State.users_congr (fun j => ?_) p).symm
    by_cases k : j = i
    · subst k; simpa using e
    · rw [s.slot_setSlot_ne _ k]
  hold := rfl
  spares j n := by
    refine ⟨by rw [s.slot_setSlot_ne _ n], id, fun _ _ => rfl, rfl, fun op m e => ⟨op, m, e⟩, fun _ m _ => m⟩

theorem State.Moves.permitQueue {q : List SlotNo} (e : ∀ j, j ≠ i → j ∈ q → j ∈ s.permitQueue) :
    State.Moves i s { s with permitQueue := q } where
  sound g := ⟨g.counted, g.own, g.links, g.summaries, g.orders⟩
  hold := rfl
  spares j n := ⟨rfl, e j n, fun _ _ => rfl, rfl, fun op m e => ⟨op, m, e⟩, fun _ m _ => m⟩

theorem State.Moves.dropPlan (s : State) (i : SlotNo) : State.Moves i s (s.dropPlan i) := by
  cases e : (s.slot i).plan with
  | none =>
    rw [s.dropPlan_of_none i e]
    exact (State.Keeps.refl s).moves
  | some q =>
    refine ⟨fun g => ⟨fun p => ?_, ?_, ?_, ?_, ?_⟩, by simp [Port.hold], fun j n => ?_⟩
    · have users : (s.dropPlan i).users p = (s.setSlot i { s.slot i with plan := none }).users p := by
        rw [s.dropPlan_of_some i e]
        rfl
      have count := g.counted p
      rw [users, State.users_setSlot, s.dropPlan_of_some i e]
      by_cases k : p = q
      · subst k
        simp [e, count]
      · have : ¬ q = p := fun x => k x.symm
        simp [State.plan_setPlan_ne _ _ k, e, this, count]
    · simpa using g.own
    · simpa using g.links
    · simpa using g.summaries
    · simpa using g.orders
    · refine ⟨?_, by simp, by simp, by simp, fun op m r => ⟨op, by simpa using m, r⟩, fun o m _ => by simpa using m⟩
      rw [s.dropPlan_of_some i e, State.slot_setPlan, s.slot_setSlot_ne _ n]

theorem State.Moves.assignPlan {p : PlanNo} (e : (s.slot i).plan = none) : State.Moves i s (s.assignPlan i p) := by
  have eq : s.assignPlan i p = (s.setSlot i { s.slot i with plan := some p }).setPlan p
      { s.plan p with refs := (s.plan p).refs + 1 } := rfl
  refine ⟨fun g => ⟨fun q => ?_, g.own, g.links, g.summaries, g.orders⟩, rfl, fun j n => ?_⟩
  · have users : (s.assignPlan i p).users q = (s.setSlot i { s.slot i with plan := some p }).users q := rfl
    have count := g.counted q
    rw [users, State.users_setSlot, eq]
    by_cases k : q = p
    · subst k
      simp [e, count]
    · have : ¬ p = q := fun x => k x.symm
      simp [State.plan_setPlan_ne _ _ k, e, this, count]
  · refine ⟨?_, id, fun q _ => ?_, rfl, fun op m e => ⟨op, m, e⟩, fun _ m _ => m⟩
    · rw [eq, State.slot_setPlan, s.slot_setSlot_ne _ n]
    · rw [eq]
      by_cases k : q = p
      · subst k; simp
      · simp [State.plan_setPlan_ne _ _ k]

theorem State.Moves.modLink {f : Link → Link}
    (knows : ∀ j, j ≠ i → (f (s.link (shelfOf i))).knows j = (s.link (shelfOf i)).knows j)
    (summary : ∀ op ∈ (f (s.link (shelfOf i))).summary, op ∈ (s.link (shelfOf i)).summary ∨ op.slot = i)
    (sound : (s.link (shelfOf i)).Sound → (f (s.link (shelfOf i))).Sound) :
    State.Moves i s (s.modLink (shelfOf i) f) where
  sound g := by
    refine ⟨g.counted, fun l j => ?_, fun l => ?_, fun l => ?_, g.orders⟩
    · rw [State.link_modLink]
      split
      · subst l
        intro k
        by_cases e : j = i
        · rw [e]
        · exact g.own _ j (knows j e ▸ k)
      · exact g.own l j
    · rw [State.link_modLink]
      split
      · subst l
        exact sound (g.links _)
      · exact g.links l
    · rw [State.link_modLink]
      split
      · subst l
        intro op m
        rcases summary op m with m | e
        · exact g.summaries _ op m
        · rw [e]
      · exact g.summaries l
  hold := rfl
  spares j n := by
    refine ⟨rfl, id, fun _ _ => rfl, ?_, ?_, fun _ m _ => m⟩
    · rw [State.link_modLink]
      split
      · rename_i e
        rw [knows j n, e]
      · rfl
    · rw [State.link_modLink]
      split
      · rename_i l
        intro op m e
        rcases summary op m with m | k
        · exact ⟨op, l ▸ m, e⟩
        · exact absurd (e.symm.trans k) n
      · exact fun op m e => ⟨op, m, e⟩

theorem State.Moves.setPort {x : Port} (hold : x.hold = s.port.hold)
    (once : s.port.queue.Pairwise (fun a b => a.slot ≠ b.slot) → x.queue.Pairwise fun a b => a.slot ≠ b.slot)
    (orders : ∀ o ∈ x.queue, o.slot ≠ i → o ∈ s.port.queue) : State.Moves i s (s.setPort x) where
  sound g := ⟨g.counted, g.own, g.links, g.summaries, once g.orders⟩
  hold := hold
  spares _ n :=
    ⟨rfl, id, fun _ _ => rfl, rfl, fun op m e => ⟨op, m, e⟩, fun o m e => orders o m fun k => n (e.symm.trans k)⟩

/-! ## Sound links -/

theorem Link.Sound.leave {x : Link} (g : x.Sound) (i : SlotNo) : (x.leave i).Sound := by
  by_cases k : x.knows i
  · have e : x.leave i = { x with
        scan := x.scan.filter (· ≠ i), joins := x.joins.filter (· ≠ i), unpolled := x.unpolled.filter (· ≠ i)
        directed := x.directed.filter (·.slot ≠ i), summary := x.summary.filter (·.slot ≠ i)
        outstanding := match x.outstanding with
          | some t => if t.slot = i then none else some t
          | none => none } := if_pos k
    refine ⟨fun j m => ?_, fun t o => ?_⟩
    · rw [e] at m ⊢
      simp only [List.mem_filter] at m ⊢
      exact ⟨g.polls j m.1, m.2⟩
    · have out : x.outstanding = some t ∧ t.slot ≠ i := by
        rw [e] at o
        cases q : x.outstanding with
        | none => simp [q] at o
        | some y =>
          simp only [q] at o
          split at o
          · cases o
          · cases o
            exact ⟨rfl, ‹_›⟩
      obtain ⟨kn, head⟩ := g.transaction t out.1
      refine ⟨(x.leave_knows_ne i t.slot out.2).trans kn, fun n r => ?_⟩
      have hd := head n r
      rw [e]
      cases q : x.summary with
      | nil => simp [q] at hd
      | cons op ops =>
        have hop : op.slot = t.slot := by simpa [q] using hd
        simp [hop, out.2]
  · have e : x.leave i = x := by simp [Link.leave, k]
    exact e.symm ▸ g

theorem Link.Sound.join {x : Link} (g : x.Sound) (i : SlotNo) : (x.join i).Sound := by
  unfold Link.join
  split
  · exact g
  · refine ⟨g.polls, fun t o => ?_⟩
    obtain ⟨k, head⟩ := g.transaction t o
    refine ⟨?_, head⟩
    simp only [Link.knows, List.contains_eq_mem, Bool.or_eq_true, decide_eq_true_eq, List.mem_append] at k ⊢
    tauto

theorem Link.Goes.ask (x : Link) (i : SlotNo) (c : DirectedCode) (p : Purpose) : x.Goes (x.ask i c p) := by
  simp only [Link.ask]
  split
  · split
    · exact .of_same rfl rfl rfl rfl rfl
    · exact .of_same rfl rfl rfl rfl rfl
  · exact .refl x

theorem Link.Sound.askSummary {x : Link} (g : x.Sound) (i : SlotNo) : (x.askSummary i).Sound := by
  unfold Link.askSummary
  split
  · exact g
  · refine ⟨g.polls, fun t o => ?_⟩
    obtain ⟨k, head⟩ := g.transaction t o
    refine ⟨k, fun n r => ?_⟩
    have := head n r
    cases q : x.summary with
    | nil => simp [q] at this
    | cons op ops => simpa [q] using this

end Sys2Proof.Machine
end

