-- ==== Sys2Proof/Proofs/OrderSlots.lean ====
section
/-! PROOFS. The slot controller's operations keep the rack in order (chapter 1). A slot between two states is `Idle` (no
power, no permit, off its link) or has `NoOrder`; an operation that takes a slot out of order ends in one that closes it
again (`State.On.close`). -/

namespace Sys2Proof.Machine

variable {s t : State} {h : PortState × Option CurrentOrder} {live : Option CurrentOrder} {P : SlotNo → Prop}
  {i : SlotNo}

/-! ## Changes that touch the order of no slot -/

namespace State.Keeps

theorem of_same (slots : ∀ j, (t.slot j).standing = (s.slot j).standing) (queue : t.permitQueue = s.permitQueue)
    (plans : ∀ p, t.plan p = s.plan p) (links : ∀ l, (s.link l).Goes (t.link l))
    (orders : t.port.queue = s.port.queue) (hold : t.port.hold = s.port.hold) : s.Keeps t where
  sound g := by
    refine ⟨fun p => ?_, fun l j k => g.own l j ((links l).knows j ▸ k), fun l => (links l).sound (g.links l),
      fun l op m => ?_, orders ▸ g.orders⟩
    · rw [plans, State.users_congr fun j => (SlotRec.standing_fields (slots j)).2.1]
      exact g.counted p
    · obtain ⟨o, mo, eo⟩ := (links l).summary op m
      exact eo ▸ g.summaries l o mo
  hold := hold
  spares j :=
    ⟨slots j, fun m => queue ▸ m, fun p _ => by rw [plans], (links _).knows j,
      fun op m e => by
        obtain ⟨o, mo, eo⟩ := (links _).summary op m
        exact ⟨o, mo, eo.trans e⟩,
      fun o m _ => orders ▸ m⟩

/-- A change of fields the order of the rack does not speak of. -/
theorem other (slots : t.slots = s.slots) (queue : t.permitQueue = s.permitQueue) (plans : t.plans = s.plans)
    (links : t.links = s.links) (port : t.port = s.port) : s.Keeps t :=
  of_same (fun j => by simp [State.slot, slots]) queue (fun p => by simp [State.plan, plans])
    (fun l => by
      rw [show t.link l = s.link l by simp [State.link, links]]
      exact .refl _)
    (by rw [port]) (by rw [port])

theorem notify (n : NoticeBody) : s.Keeps (s.notify n) := other (by simp) (by simp) (by simp) (by simp) (by simp)
theorem setDose (x : DoseRec) : s.Keeps (s.setDose i x) := other rfl rfl rfl rfl rfl
theorem setWatch (x : WatchRec) : s.Keeps (s.setWatch i x) := other rfl rfl rfl rfl rfl
theorem setLinkSlot (x : LinkSlot) : s.Keeps (s.setLinkSlot i x) := other rfl rfl rfl rfl rfl
theorem setLine (x : Line) : s.Keeps (s.setLine x) := other rfl rfl rfl rfl rfl
theorem setRing (x : Ring) : s.Keeps (s.setRing x) := other rfl rfl rfl rfl rfl
theorem modZone (z : ShelfNo) (f : Zone → Zone) : s.Keeps (s.modZone z f) := other rfl rfl rfl rfl rfl
theorem modCarton (b : LaneNo) (f : Carton → Carton) : s.Keeps (s.modCarton b f) := other rfl rfl rfl rfl rfl

/-- An operation of CM. -/
theorem cartons (e : s.sameBeyondCartons t) : s.Keeps t := by
  obtain ⟨-, -, slots, plans, queue, -, -, links, -, -, -, -, -, -, -, port, -⟩ := e
  exact other slots queue plans links port

theorem modSlot {f : SlotRec → SlotRec} (e : (f (s.slot i)).standing = (s.slot i).standing) :
    s.Keeps (s.modSlot i f) := by
  refine of_same (fun j => ?_) rfl (fun _ => rfl) (fun l => ?_) rfl rfl
  · rw [State.slot_modSlot]
    split
    · subst j; exact e
    · rfl
  · exact .refl _

theorem modRun (f : RunRec → RunRec) : s.Keeps (s.modRun i f) := modSlot rfl

theorem modLink {l : ShelfNo} {f : Link → Link} (e : (s.link l).Goes (f (s.link l))) : s.Keeps (s.modLink l f) := by
  refine of_same (fun _ => rfl) rfl (fun _ => rfl) (fun k => ?_) rfl rfl
  rw [State.link_modLink]
  split
  · subst k; exact e
  · exact .refl _

theorem askLink (c : DirectedCode) (p : Purpose) : s.Keeps (s.askLink i c p) := modLink (.ask _ i c p)

end State.Keeps

/-! ## Moves of one slot -/

namespace State.Moves

theorem modSlot {f : SlotRec → SlotRec} (e : (f (s.slot i)).plan = (s.slot i).plan) :
    State.Moves i s (s.modSlot i f) := .setSlot e

theorem enter (st : SlotState) (o : Option HoldReason) : State.Moves i s (s.enter i st o) :=
  (modSlot rfl).trans (State.Keeps.notify _).moves

theorem leaveLink (s : State) (i : SlotNo) : State.Moves i s (s.leaveLink i) :=
  modLink (fun j n => Link.leave_knows_ne i j _ n) (fun _ m => .inl (Link.leave_summary i _ m).1) fun g => g.leave i

theorem joinLink (s : State) (i : SlotNo) : State.Moves i s (s.joinLink i) :=
  modLink (fun j n => Link.join_knows_ne i j _ n) (fun _ m => .inl (by simpa using m)) fun g => g.join i

theorem askSummary (s : State) (i : SlotNo) : State.Moves i s (s.askSummary i) :=
  modLink (fun j _ => Link.askSummary_knows i j _) (fun _ m => Link.askSummary_mem i _ m) fun g => g.askSummary i

theorem powerOff (s : State) (i : SlotNo) : State.Moves i s (s.powerOff i) := (modSlot rfl).trans (leaveLink _ i)

theorem clearPermit (s : State) (i : SlotNo) : State.Moves i s (s.clearPermit i) :=
  (modSlot rfl).trans (permitQueue fun _ _ m => List.mem_of_mem_filter m)

theorem withdrawOrder (s : State) (i : SlotNo) : State.Moves i s (s.withdrawOrder i) :=
  setPort rfl (fun g => g.sublist List.filter_sublist) fun _ m _ => List.mem_of_mem_filter m

theorem recordEnd (s : State) (i : SlotNo) (c : EndCause) : State.Moves i s (s.recordEnd i c) :=
  ((State.Keeps.modRun _).moves.trans (dropPlan _ i)).trans (modSlot rfl)

theorem enterVacant (c : Option EndCause) (e : (s.slot i).plan = none) : State.Moves i s (s.enterVacant i c) :=
  (setSlot (by simp [SlotRec.empty, e])).trans ((State.Keeps.setLinkSlot _).trans ((State.Keeps.setDose _).trans
    ((State.Keeps.setWatch _).trans (State.Keeps.notify _)))).moves

end State.Moves

/-! ## A slot at rest -/

/-- The states in which a slot's drive is on no link and no phase of a step runs. -/
def SlotState.rests : SlotState → Bool
  | .vacant | .loadWait | .seating | .seated | .powering | .graded | .held | .unloading => true
  | _ => false

theorem SlotRec.onLink_of_rests {r : SlotRec} (e : r.state.rests = true) : r.onLink = false := by
  unfold SlotRec.onLink
  split <;> simp_all [SlotState.rests]

/-- The slot has no power and no permit, runs no CYCLE phase, and is off its link. -/
structure State.Idle (s : State) (i : SlotNo) : Prop where
  power : (s.slot i).power = .off
  permit : (s.slot i).permit = .none
  unqueued : i ∉ s.permitQueue
  phase : (s.slot i).cyclePhase = none
  granted : (s.slot i).grantedAt = none
  limit : (s.slot i).spinLimit = none
  unknown : (s.link (shelfOf i)).knows i = false
  unsummed : ∀ op ∈ (s.link (shelfOf i)).summary, op.slot ≠ i

/-- The slot has no order, queued or current, and its latch is engaged. -/
structure State.NoOrder (s : State) (live : Option CurrentOrder) (i : SlotNo) : Prop where
  latch : (s.slot i).latch = .engaged
  unordered : ∀ o ∈ s.port.queue, o.slot ≠ i
  notLive : ∀ c, live = some c → c.order.slot ≠ i

theorem State.Idle.spared (g : s.Idle i) (a : s.Spares t i) : t.Idle i := by
  obtain ⟨-, -, -, hw, hm, -, hc, hg, hl⟩ := SlotRec.standing_fields a.slot
  refine ⟨hw.trans g.power, hm.trans g.permit, g.unqueued ∘ a.queue, hc.trans g.phase, hg.trans g.granted,
    hl.trans g.limit, a.known.trans g.unknown, fun op m e => ?_⟩
  obtain ⟨o, mo, eo⟩ := a.summed op m e
  exact g.unsummed o mo eo

theorem State.Idle.enter {st : SlotState} {o : Option HoldReason} (a : s.Idle i) : (s.enter i st o).Idle i :=
  ⟨by simpa using a.power, by simpa using a.permit, by simpa using a.unqueued, by simpa using a.phase,
    by simpa using a.granted, by simpa using a.limit, by simpa using a.unknown, by simpa using a.unsummed⟩

theorem State.NoOrder.spared (g : s.NoOrder live i) (a : s.Spares t i) : t.NoOrder live i :=
  ⟨(SlotRec.standing_fields a.slot).2.2.2.2.2.1.trans g.latch, fun o m e => g.unordered o (a.orders o m e) e,
    g.notLive⟩

/-- An idle slot is in order in a state that asks no more of it, where its orders and its latch are. -/
theorem State.SlotAt.of_rest (g : s.Idle i) (rest : (s.slot i).state.rests = true)
    (plan : (s.slot i).state ∈ [.vacant, .seated, .ending, .graded, .held, .unloading] → (s.slot i).plan = none)
    (ordered : ∀ o ∈ s.port.queue, o.slot = i → o.kind.waitsIn (s.slot i))
    (current : ∀ c, live = some c → c.order.slot = i →
      (∀ o ∈ s.port.queue, o.slot ≠ i) ∧ c.order.kind.servedIn (s.slot i))
    (latch : (s.slot i).latch = .released → ∃ c b, live = some c ∧ c.order.slot = i ∧ c.order.kind = .extract b) :
    s.SlotAt live i := by
  have off : (s.slot i).onLink = false := SlotRec.onLink_of_rests rest
  refine ⟨⟨plan, ?_, ?_, ?_, ?_, ?_, ?_, ?_⟩, fun m => absurd m g.unqueued, fun k => absurd g.phase k, ?_,
    fun op m e => absurd e (g.unsummed op m), ordered, current, latch⟩
  · simp [g.power]
  · simp [off]
  · simp [g.permit]
  · simp [g.permit]
  · simp [g.granted, g.limit]
  · simp [g.phase]
  · simp [SlotRec.cycleOffLink, g.phase]
  · simp [g.unknown, off]

/-- An idle slot whose orders wait as R143 asks, with its latch engaged and no order current. -/
theorem State.SlotAt.of_waiting (g : s.Idle i) (latch : (s.slot i).latch = .engaged)
    (ordered : ∀ o ∈ s.port.queue, o.slot = i → o.kind.waitsIn (s.slot i))
    (notLive : ∀ c, live = some c → c.order.slot ≠ i) (rest : (s.slot i).state.rests = true)
    (plan : (s.slot i).state ∈ [.vacant, .seated, .ending, .graded, .held, .unloading] → (s.slot i).plan = none) :
    s.SlotAt live i :=
  .of_rest g rest plan ordered (fun c e k => absurd k (notLive c e)) fun k => absurd (latch.symm.trans k) (by simp)

/-- An idle slot with no order is in order in a state that asks no more of it. -/
theorem State.SlotAt.of_idle (g : s.Idle i) (n : s.NoOrder live i) (rest : (s.slot i).state.rests = true)
    (plan : (s.slot i).state ∈ [.vacant, .seated, .ending, .graded, .held, .unloading] → (s.slot i).plan = none) :
    s.SlotAt live i := .of_waiting g n.latch (fun o m e => absurd e (n.unordered o m)) n.notLive rest plan

/-- A slot that rests, and is not POWERING, is idle. -/
theorem State.SlotAt.idle (a : s.SlotAt live i) (rest : (s.slot i).state.rests = true)
    (still : (s.slot i).state ≠ .powering) : s.Idle i := by
  have away (l : List SlotState) (e : ∀ x ∈ l, x.rests = false ∨ x = .powering) : (s.slot i).state ∉ l := by
    intro m
    rcases e _ m with k | k
    · rw [rest] at k; cases k
    · exact still k
  have power : (s.slot i).power = .off := by
    cases k : (s.slot i).power with
    | off => rfl
    | on => exact absurd (a.fits.powered k) (away _ (by simp [SlotState.rests]))
  have permit : (s.slot i).permit = .none := by
    by_contra k
    rcases a.fits.permits k with e | e
    · exact still e
    · exact away [.running] (by simp [SlotState.rests]) (by simp [e.1])
  have free : ¬ ((s.slot i).grantedAt.isSome = true ∨ (s.slot i).spinLimit.isSome = true) := fun k => by
    have := a.fits.captured k
    simp [permit] at this
  refine ⟨power, permit, fun m => ?_, ?_, ?_, ?_, ?_, fun op m e => ?_⟩
  · have := a.queued m
    simp [permit] at this
  · by_contra k
    exact away _ (by simp [SlotState.rests]) (a.fits.cycles k)
  · simpa using fun k => free (.inl k)
  · simpa using fun k => free (.inr k)
  · simpa [SlotRec.onLink_of_rests rest] using a.known
  · exact away [.ending] (by simp [SlotState.rests]) (by simp [a.summed op m e])

/-- In every state but these four a slot has no order (R143). -/
theorem State.SlotAt.noOrder (a : s.SlotAt live i)
    (away : (s.slot i).state ∉ [.loadWait, .seating, .graded, .unloading]) : s.NoOrder live i := by
  have notLive (c : CurrentOrder) (e : live = some c) : c.order.slot ≠ i := fun k => by
    have fit := (a.current c e k).2
    cases kind : c.order.kind <;> simp only [kind, OrderKind.servedIn] at fit <;> simp [fit] at away
  refine ⟨?_, fun o m k => ?_, notLive⟩
  · cases k : (s.slot i).latch with
    | engaged => rfl
    | released =>
      obtain ⟨c, b, e, r, -⟩ := a.latch k
      exact absurd r (notLive c e)
  · have fit := a.ordered o m k
    cases kind : o.kind <;> simp only [kind, OrderKind.waitsIn] at fit
    · rcases fit.1 with e | e <;> simp [e] at away
    · simp [fit] at away

/-- A slot with nothing queued for it, and no current order, has no order. -/
theorem State.SlotAt.noOrder_of (a : s.SlotAt live i) (unordered : ∀ o ∈ s.port.queue, o.slot ≠ i)
    (notLive : ∀ c, live = some c → c.order.slot ≠ i) : s.NoOrder live i := by
  refine ⟨?_, unordered, notLive⟩
  cases k : (s.slot i).latch with
  | engaged => rfl
  | released =>
    obtain ⟨c, b, e, r, -⟩ := a.latch k
    exact absurd r (notLive c e)

/-- A slot with a queued order has no current one (R143). -/
theorem State.SlotAt.notLive_of_queued (a : s.SlotAt live i) {o : Order} (m : o ∈ s.port.queue) (e : o.slot = i) :
    ∀ c, live = some c → c.order.slot ≠ i :=
  fun c l k => (a.current c l k).1 o m e

/-- In ENDING no CYCLE phase runs, and in these six states no plan is assigned. -/
theorem State.SlotAt.noPhase (a : s.SlotAt live i) (away : (s.slot i).state ∉ [.running, .paused, .review]) :
    (s.slot i).cyclePhase = none := by
  by_contra k
  exact away (a.fits.cycles k)

/-- A drive on its link has no permit, wanted or held. -/
theorem State.SlotAt.noPermit (a : s.SlotAt live i) (on : (s.slot i).onLink = true) : (s.slot i).permit = .none := by
  by_contra k
  rcases a.fits.permits k with e | ⟨e, p⟩ <;> simp [SlotRec.onLink, SlotRec.cycleOffLink, *] at on

namespace State.On

/-- A slot that is idle with no order enters a state that asks no more of it. -/
theorem enterIdle {st : SlotState} {o : Option HoldReason} (g : s.On h live (butAt P i)) (a : s.Idle i)
    (n : s.NoOrder live i) (rest : st.rests = true)
    (plan : st ∈ [.vacant, .seated, .ending, .graded, .held, .unloading] → (s.slot i).plan = none) :
    (s.enter i st o).On h live P := by
  refine (g.move (not_butAt P i) (.enter st o)).close (.of_idle ?_ ?_ (by simpa using rest) (by simpa using plan))
  · exact a.enter
  · exact ⟨by simpa using n.latch, by simpa using n.unordered, n.notLive⟩

/-- An order joins the queue for a slot that has none and is in the state R143 asks of it. -/
theorem joinOrder {k : OrderKind} (g : s.On h live P) (fresh : ∀ o ∈ s.port.queue, o.slot ≠ i)
    (notLive : ∀ c, live = some c → c.order.slot ≠ i) (fit : k.waitsIn (s.slot i)) :
    (s.joinOrder k i).On h live P := by
  have queue : (s.joinOrder k i).port.queue =
      s.port.queue ++ [{ kind := k, slot := i, number := s.port.nextNumber, age := s.port.joined }] := rfl
  have mem (o : Order) (m : o ∈ (s.joinOrder k i).port.queue) : o ∈ s.port.queue ∨ o.slot = i ∧ o.kind = k := by
    rw [queue] at m
    rcases List.mem_append.mp m with m | m
    · exact .inl m
    · rw [List.mem_singleton.mp m]
      exact .inr ⟨rfl, rfl⟩
  refine ⟨⟨g.sound.counted, g.sound.own, g.sound.links, g.sound.summaries, ?_⟩, g.hold, fun j m => ?_⟩
  · rw [queue, List.pairwise_append]
    refine ⟨g.sound.orders, by simp, fun a ma b mb => ?_⟩
    rw [List.mem_singleton.mp mb]
    exact fresh a ma
  · obtain ⟨f, q, c, kn, su, o, cu, l⟩ := g.at_ j m
    refine ⟨f, q, c, kn, su, fun x mx e => ?_, fun d e r => ⟨fun x mx y => ?_, (cu d e r).2⟩, l⟩
    · rcases mem x mx with mx | ⟨hx, kx⟩
      · exact o x mx e
      · obtain rfl := hx.symm.trans e
        exact kx ▸ fit
    · rcases mem x mx with mx | ⟨hx, -⟩
      · exact (cu d e r).1 x mx y
      · exact notLive d e (r.trans (y.symm.trans hx))

/-- SU's verdict moves an idle slot to GRADED with its order, or to HELD (R20). -/
theorem verdict (g : s.On h live (butAt P i)) (a : s.Idle i) (n : s.NoOrder live i) (plan : (s.slot i).plan = none) :
    (s.verdict i).On h live P := by
  have k : s.Keeps (s.told i) := by
    simp only [State.told]
    exact ((State.Keeps.modRun _).trans (.notify _)).trans (.modRun _)
  have enters {st : SlotState} {o : Option HoldReason} (rest : st.rests = true) :
      ((s.told i).enter i st o).On h live P :=
    (g.keep k).enterIdle (a.spared (k.spares i)) (n.spared (k.spares i)) rest fun _ => by simpa using plan
  rcases s.verdict_cases i with ⟨b, -, e⟩ | ⟨-, e⟩
  · rw [e]
    exact (enters rfl).joinOrder (by simpa using n.unordered) n.notLive (by simp [OrderKind.waitsIn])
  · rw [e]
    exact enters rfl

end State.On

end Sys2Proof.Machine
end

