-- ==== Sys2Proof/Proofs/OrderRuns.lean ====
section
/-! PROOFS. Permits, run ends, run starts and the seat teardown keep the rack in order (R7, R10 to R19). -/

namespace Sys2Proof.Machine

variable {s t : State} {h : PortState × Option CurrentOrder} {live : Option CurrentOrder} {P : SlotNo → Prop}
  {i : SlotNo}

/-! ## A slot whose run is over -/

/-- The slot has no permit and runs no CYCLE phase, and a summary operation of it goes as it leaves its link. -/
structure State.Over (s : State) (i : SlotNo) : Prop where
  permit : (s.slot i).permit = .none
  unqueued : i ∉ s.permitQueue
  phase : (s.slot i).cyclePhase = none
  granted : (s.slot i).grantedAt = none
  limit : (s.slot i).spinLimit = none
  leaves : ∀ op ∈ (s.link (shelfOf i)).summary, op.slot = i → (s.link (shelfOf i)).knows i = true

theorem State.Over.powerOff (o : s.Over i) : (s.powerOff i).Idle i where
  power := by simp
  permit := by simpa using o.permit
  unqueued := by simpa using o.unqueued
  phase := by simpa using o.phase
  granted := by simpa using o.granted
  limit := by simpa using o.limit
  unknown := by simp
  unsummed op m e := by
    rw [State.powerOff_link_same] at m
    obtain ⟨m, gone⟩ := Link.leave_summary i _ m
    exact gone (o.leaves op m e) e

theorem State.Idle.over (a : s.Idle i) : s.Over i :=
  ⟨a.permit, a.unqueued, a.phase, a.granted, a.limit, fun op m e => absurd e (a.unsummed op m)⟩

/-- A summary operation of a slot goes as the slot leaves its link, since a slot that has one is on it (R18, R58). -/
theorem State.SlotAt.leaves (a : s.SlotAt live i) {op : SummaryOp} (m : op ∈ (s.link (shelfOf i)).summary)
    (e : op.slot = i) : (s.link (shelfOf i)).knows i = true :=
  a.known.mpr (by simp [SlotRec.onLink, a.summed op m e])

theorem State.NoOrder.congr (n : s.NoOrder live i) (latch : (t.slot i).latch = (s.slot i).latch)
    (queue : t.port.queue = s.port.queue) : t.NoOrder live i :=
  ⟨latch.trans n.latch, queue ▸ n.unordered, n.notLive⟩

/-- The end of the run recorded, a slot off its link and without power or permit is idle. -/
theorem State.Idle.of_recordEnd {c : EndCause} (a : (s.recordEnd i c).Idle i) (phase : (s.slot i).cyclePhase = none) :
    s.Idle i :=
  ⟨by simpa using a.power, by simpa using a.permit, by simpa using a.unqueued, phase, by simpa using a.granted,
    by simpa using a.limit, by simpa using a.unknown, by simpa using a.unsummed⟩

/-- The states of a run, and ENDING, in which power may be on. -/
theorem SlotRec.Fits.active {r : SlotRec} (f : r.Fits) (on : r.power = .on) :
    r.state.runs = true ∨ r.state = .ending := by
  have m := f.powered on
  simp only [List.mem_cons, List.not_mem_nil, or_false] at m
  rcases m with e | e | e | e | e | e <;> simp [e, SlotState.runs]

/-- During a run and in ENDING a slot has no order. -/
theorem State.SlotAt.noOrder_of_active (a : s.SlotAt live i)
    (active : (s.slot i).state.runs = true ∨ (s.slot i).state = .ending) : s.NoOrder live i := by
  refine a.noOrder fun m => ?_
  simp only [List.mem_cons, List.not_mem_nil, or_false] at m
  rcases m with e | e | e | e <;> simp [e, SlotState.runs] at active

/-- With its power off and its permit cleared, a slot's run has only its end to be recorded. -/
theorem State.SlotAt.cleared (a : s.SlotAt live i) (c : EndCause) :
    (((s.powerOff i).clearPermit i).recordEnd i c).Idle i where
  power := by simp
  permit := by simp
  unqueued := by simp
  phase := by simp
  granted := by simp
  limit := by simp
  unknown := by simp
  unsummed op m e := by
    obtain ⟨m, gone⟩ := Link.leave_summary i _ (by simpa using m)
    exact gone (a.leaves m e) e

namespace State.On

/-- The power goes off, the run record takes what its end leaves, and SU judges the slot. -/
theorem offVerdict {f : RunRec → RunRec} (g : s.On h live (butAt P i)) (o : s.Over i) (n : s.NoOrder live i)
    (plan : (s.slot i).plan = none) : (((s.powerOff i).modRun i f).verdict i).On h live P := by
  have k : (s.powerOff i).Keeps ((s.powerOff i).modRun i f) := .modRun f
  exact ((g.move (not_butAt P i) (.powerOff s i)).keep k).verdict (o.powerOff.spared (k.spares i))
    (n.congr (by simp) (by simp)) (by simpa using plan)

theorem toVerdict (g : s.On h live (butAt P i)) (o : s.Over i) (n : s.NoOrder live i)
    (plan : (s.slot i).plan = none) : (s.toVerdict i).On h live P := g.offVerdict o n plan

/-- Overcurrent at a slot whose power is off and whose permit is out of the scheme (R13). -/
theorem overcurrentEnd (g : s.On h live (butAt P i)) (a : (s.recordEnd i .overcurrent).Idle i)
    (n : s.NoOrder live i) (active : (s.slot i).state.runs = true ∨ (s.slot i).state = .ending)
    (phase : (s.slot i).state = .ending → (s.slot i).cyclePhase = none)
    (plan : (s.slot i).state = .ending → (s.slot i).plan = none) : (s.overcurrentEnd i).On h live P := by
  unfold State.overcurrentEnd
  split
  · exact (g.move (not_butAt P i) (.recordEnd s i _)).toVerdict a.over (n.congr (by simp) (by simp)) (by simp)
  · rename_i runs
    have e : (s.slot i).state = .ending := active.resolve_left runs
    rw [if_pos e]
    have k : s.Keeps (s.modRun i fun r => { r with summaryMissing := r.summaryMissing || r.summary.isNone }) :=
      .modRun _
    exact (g.keep k).verdict ((a.of_recordEnd (phase e)).spared (k.spares i)) (n.spared (k.spares i))
      (by simpa using plan e)

theorem checkOvercurrent (g : s.On h live P) (hi : P i) : (s.checkOvercurrent i).On h live P := by
  unfold State.checkOvercurrent
  split
  · rename_i regarded
    have on : (s.slot i).power = .on := by
      simp only [Bool.and_eq_true, SlotRec.regardsOvercurrent, decide_eq_true_eq] at regarded
      exact regarded.2.1
    have a := g.at_ i hi
    have active := a.fits.active on
    have off : State.Moves i s ((s.powerOff i).clearPermit i) := (State.Moves.powerOff s i).trans (.clearPermit _ i)
    refine ((g.but i).move (not_butAt P i) off).overcurrentEnd (a.cleared _)
      ((a.noOrder_of_active active).congr (by simp) (by simp)) (by simpa using active) ?_ ?_
    · intro e
      have : (s.slot i).state = .ending := by simpa using e
      simpa using a.noPhase (by simp [this])
    · intro e
      have : (s.slot i).state = .ending := by simpa using e
      simpa using a.fits.planDropped (by simp [this])
  · exact g

end State.On

/-! ## What a grant leaves alone -/

theorem State.verdict_spares {j : SlotNo} (n : j ≠ i) : s.Spares (s.verdict i) j := by
  have told : s.Spares (s.told i) j := by
    simp only [State.told]
    exact (((State.Keeps.modRun _).trans (.notify _)).trans (.modRun _)).spares j
  rcases s.verdict_cases i with ⟨b, -, e⟩ | ⟨-, e⟩
  · rw [e]
    refine (told.trans ((State.Moves.enter _ _).spares j n)).trans
      ⟨rfl, id, fun _ _ => rfl, rfl, fun op m e => ⟨op, m, e⟩, fun o m k => ?_⟩
    rcases List.mem_append.mp m with m | m
    · exact m
    · rw [List.mem_singleton.mp m] at k
      exact absurd k.symm n
  · rw [e]
    exact told.trans ((State.Moves.enter _ _).spares j n)

theorem State.overcurrentEnd_spares {j : SlotNo} (n : j ≠ i) : s.Spares (s.overcurrentEnd i) j := by
  unfold State.overcurrentEnd
  split
  · exact ((State.Moves.recordEnd s i _).trans ((State.Moves.powerOff _ i).trans
      (State.Keeps.modRun _).moves) |>.spares j n).trans (State.verdict_spares n)
  · split
    · exact ((State.Keeps.modRun _).spares j).trans (State.verdict_spares n)
    · exact .refl s j

theorem State.checkOvercurrent_spares {j : SlotNo} (n : j ≠ i) : s.Spares (s.checkOvercurrent i) j := by
  unfold State.checkOvercurrent
  split
  · exact (((State.Moves.powerOff s i).trans (.clearPermit _ i)).spares j n).trans (State.overcurrentEnd_spares n)
  · exact .refl s j

theorem State.Moves.grant (s : State) (i : SlotNo) : State.Moves i s (s.grant i) :=
  (State.Moves.modSlot rfl).trans (.permitQueue fun _ _ m => List.mem_of_mem_filter m)

@[simp] theorem State.grant_slot_same (s : State) (i : SlotNo) :
    (s.grant i).slot i =
      { s.slot i with
        permit := .held, power := .on, grantedAt := some s.now
        spinLimit := some (Time.after s.now (s.spin.limitS * 1000))
        blanking := if s.spin.blankingMs = 0 then none else some (Time.after s.now s.spin.blankingMs) } := by
  simp [State.grant, State.slot, State.modSlot, State.setSlot]
@[simp] theorem State.grant_permitQueue (s : State) (i : SlotNo) :
    (s.grant i).permitQueue = s.permitQueue.filter (· ≠ i) := rfl
@[simp] theorem State.grant_link (s : State) (i : SlotNo) (l : ShelfNo) : (s.grant i).link l = s.link l := rfl
@[simp] theorem State.grant_port (s : State) (i : SlotNo) : (s.grant i).port = s.port := rfl

/-- A slot that wants its permit is off its link, and is not in ENDING. -/
theorem SlotRec.offLink_of_wants {r : SlotRec}
    (wants : r.state = .powering ∨ (r.state = .running ∧ r.cyclePhase = some .spinning)) : r.onLink = false := by
  rcases wants with e | ⟨e, p⟩ <;> simp [SlotRec.onLink, SlotRec.cycleOffLink, *]

/-- The step a slot is at depends on its plan and step index alone. -/
theorem State.currentStep_congr (plan : (t.slot i).plan = (s.slot i).plan) (step : (t.slot i).step = (s.slot i).step)
    (plans : ∀ p, (t.plan p).steps = (s.plan p).steps) : t.currentStep i = s.currentStep i := by
  unfold State.currentStep
  rw [plan, step]
  cases (s.slot i).plan with
  | none => rfl
  | some p =>
    cases (s.slot i).step with
    | none => rfl
    | some n => cases n <;> simp [plans]

/-- A permit queued or held at a slot that wants one. -/
theorem State.SlotAt.permitted (a : s.SlotAt live i)
    (wants : (s.slot i).state = .powering ∨ ((s.slot i).state = .running ∧ (s.slot i).cyclePhase = some .spinning))
    (state : (t.slot i).state = (s.slot i).state) (plan : (t.slot i).plan = (s.slot i).plan)
    (step : (t.slot i).step = (s.slot i).step) (phase : (t.slot i).cyclePhase = (s.slot i).cyclePhase)
    (latch : (t.slot i).latch = (s.slot i).latch)
    (held : (t.slot i).permit = .held → (t.slot i).power = .on)
    (captured : (t.slot i).grantedAt.isSome = true ∨ (t.slot i).spinLimit.isSome = true → (t.slot i).permit = .held)
    (queued : i ∈ t.permitQueue → (t.slot i).permit = .queued) (plans : ∀ p, (t.plan p).steps = (s.plan p).steps)
    (link : t.link (shelfOf i) = s.link (shelfOf i)) (port : t.port.queue = s.port.queue) : t.SlotAt live i := by
  have off := SlotRec.offLink_of_wants wants
  have off' : (t.slot i).onLink = false := by
    rw [← off]
    simp [SlotRec.onLink, SlotRec.cycleOffLink, state, phase]
  have f := a.fits
  have active : (s.slot i).state ∈ [SlotState.powering, .identifying, .running, .paused, .review, .ending] := by
    rcases wants with e | ⟨e, -⟩ <;> simp [e]
  refine ⟨⟨?_, ?_, ?_, ?_, held, captured, ?_, ?_⟩, queued, ?_, ?_, ?_, ?_, ?_, ?_⟩
  · rw [state, plan]; exact f.planDropped
  · exact fun _ => state ▸ active
  · simp [off']
  · exact fun _ => by rw [state, phase]; exact wants
  · rw [phase, state]; exact f.cycles
  · simp only [SlotRec.cycleOffLink, phase, state]; exact f.cyclesRun
  · rw [phase, State.currentStep_congr plan step plans]; exact a.cycle
  · rw [link, a.known, off, off']
  · rw [link, state]; exact a.summed
  · rw [port]
    intro o m e
    have := a.ordered o m e
    cases k : o.kind <;> simpa [OrderKind.waitsIn, k, state, plan] using this
  · intro c e k
    rw [port]
    obtain ⟨once, fit⟩ := a.current c e k
    refine ⟨once, ?_⟩
    cases k : c.order.kind <;> simpa [OrderKind.servedIn, k, state, plan] using fit
  · rw [latch]; exact a.latch

namespace State.On

theorem grant (g : s.On h live P) (hi : P i) (q : (s.slot i).permit = .queued) : (s.grant i).On h live P := by
  have a := g.at_ i hi
  exact ((g.but i).move (not_butAt P i) (.grant s i)).close
    (a.permitted (a.fits.permits (by simp [q])) (by simp) (by simp) (by simp) (by simp) (by simp) (by simp) (by simp)
      (by simp) (fun _ => rfl) rfl rfl)

/-- The grant test keeps the order of the slots that may be granted, and leaves every slot not queued alone. -/
theorem grants (n : Nat) (g : s.On h live P) (q : ∀ j ∈ s.permitQueue, P j) :
    (Machine.grants n s).On h live P ∧ ∀ k, k ∉ s.permitQueue → s.Spares (Machine.grants n s) k := by
  induction n generalizing s with
  | zero => exact ⟨g, fun k _ => .refl s k⟩
  | succ n ih =>
    unfold Machine.grants
    split
    · exact ⟨g, fun k _ => .refl s k⟩
    · rename_i i rest e
      split
      · have m : i ∈ s.permitQueue := by simp [e]
        have given := (g.grant (q i m) ((g.at_ i (q i m)).queued m)).checkOvercurrent (q i m)
        have spares (k : SlotNo) (n : k ≠ i) : s.Spares ((s.grant i).checkOvercurrent i) k :=
          ((State.Moves.grant s i).spares k n).trans (State.checkOvercurrent_spares n)
        obtain ⟨on, rest⟩ := ih given fun k mk => by
          by_cases c : k = i
          · exact c ▸ q i m
          · exact q k ((spares k c).queue mk)
        refine ⟨on, fun k nk => ?_⟩
        have n : k ≠ i := fun c => nk (c ▸ m)
        exact (spares k n).trans (rest k fun mk => nk ((spares k n).queue mk))
      · exact ⟨g, fun k _ => .refl s k⟩

theorem testGrants (g : s.On h live P) (q : ∀ j ∈ s.permitQueue, P j) : s.testGrants.On h live P := (g.grants 41 q).1

/-- A slot that wants a permit joins the queue (R10). -/
theorem joinPermit (g : s.On h live P) (hi : P i) (q : ∀ j ∈ s.permitQueue, P j) (unpermitted : (s.slot i).permit = .none)
    (wants : (s.slot i).state = .powering ∨ ((s.slot i).state = .running ∧ (s.slot i).cyclePhase = some .spinning)) :
    (s.joinPermit i).On h live P := by
  have a := g.at_ i hi
  have free := a.fits.captured
  have move : State.Moves i s
      { s.modSlot i fun r => { r with permit := .queued } with permitQueue := s.permitQueue ++ [i] } :=
    (State.Moves.modSlot rfl).trans (.permitQueue fun j n m => by simpa [n] using m)
  have slot : ({ s.modSlot i fun r => { r with permit := .queued } with
      permitQueue := s.permitQueue ++ [i] } : State).slot i = { s.slot i with permit := .queued } := by
    simp [State.slot, State.modSlot, State.setSlot]
  refine testGrants (((g.but i).move (not_butAt P i) move).close (a.permitted wants ?_ ?_ ?_ ?_ ?_ ?_ ?_ ?_
    (fun _ => rfl) rfl rfl)) fun j m => ?_
  · rw [slot]
  · rw [slot]
  · rw [slot]
  · rw [slot]
  · rw [slot]
  · rw [slot]; simp
  · rw [slot]
    intro k
    have := free k
    simp [unpermitted] at this
  · rw [slot]; simp
  · have : j ∈ s.permitQueue ++ [i] := m
    rcases List.mem_append.mp this with m | m
    · exact q j m
    · exact List.mem_singleton.mp m ▸ hi

/-- A permit dropped (R10): the slot stands as with its permit cleared, and the others stay in order. -/
theorem dropPermit (g : s.On h live (butAt P i)) (q : ∀ j ∈ s.permitQueue, P j)
    (queued : i ∈ s.permitQueue → (s.slot i).permit = .queued)
    (captured : (s.slot i).grantedAt.isSome = true ∨ (s.slot i).spinLimit.isSome = true → (s.slot i).permit = .held) :
    (s.dropPermit i).On h live (butAt P i) ∧ (s.clearPermit i).Spares (s.dropPermit i) i := by
  have cleared := g.move (not_butAt P i) (.clearPermit s i)
  unfold State.dropPermit
  split
  · rename_i e
    have nothing : ¬ ((s.slot i).grantedAt.isSome = true ∨ (s.slot i).spinLimit.isSome = true) := fun k => by
      have := captured k
      simp [e] at this
    have granted : (s.slot i).grantedAt = none := by simpa using fun k => nothing (.inl k)
    have limit : (s.slot i).spinLimit = none := by simpa using fun k => nothing (.inr k)
    refine ⟨g, ⟨?_, fun m => ?_, fun _ _ => rfl, rfl, fun op m k => ⟨op, m, k⟩, fun _ m _ => m⟩⟩
    · simp [SlotRec.standing, e, granted, limit]
    · have := queued m
      simp [e] at this
  · exact ⟨cleared, .refl _ i⟩
  · have := cleared.grants 41 fun j m => by
      have m : j ∈ s.permitQueue ∧ j ≠ i := by simpa using m
      exact ⟨q j m.1, m.2⟩
    exact ⟨this.1, this.2 i (by simp)⟩

/-- An end that goes straight to its verdict (R19). -/
theorem endAtOnce (g : s.On h live P) (hi : P i) (q : ∀ j ∈ s.permitQueue, P j)
    (runs : (s.slot i).state.runs = true) (c : EndCause) : (s.endAtOnce i c).On h live P := by
  have a := g.at_ i hi
  have move : State.Moves i s ((s.recordEnd i c).powerOff i) := (State.Moves.recordEnd s i c).trans (.powerOff _ i)
  obtain ⟨on, spared⟩ := ((g.but i).move (not_butAt P i) move).dropPermit (by simpa using q)
    (by simpa using a.queued) (by simpa using a.fits.captured)
  have idle : (((s.recordEnd i c).powerOff i).clearPermit i).Idle i := by
    refine ⟨by simp, by simp, by simp, by simp, by simp, by simp, by simp, fun op m e => ?_⟩
    obtain ⟨m, gone⟩ := Link.leave_summary i _ (by simpa using m)
    exact gone (a.leaves m e) e
  have free : (((s.recordEnd i c).powerOff i).clearPermit i).NoOrder live i :=
    (a.noOrder_of_active (.inl runs)).congr (by simp) (by simp)
  exact on.toVerdict (idle.spared spared).over (free.spared spared)
    ((SlotRec.standing_fields spared.slot).2.1.trans (by simp))

/-- Overcurrent is taken while power is on (R13). -/
theorem takeOvercurrent (g : s.On h live P) (hi : P i) (q : ∀ j ∈ s.permitQueue, P j) (power : (s.slot i).power = .on) :
    (s.takeOvercurrent i).On h live P := by
  have a := g.at_ i hi
  have active := a.fits.active power
  obtain ⟨on, spared⟩ := ((g.but i).move (not_butAt P i) (.powerOff s i)).dropPermit (by simpa using q)
    (by simpa using a.queued) (by simpa using a.fits.captured)
  obtain ⟨state, plan, -, -, -, -, phase, -⟩ := SlotRec.standing_fields spared.slot
  have state' : (((s.powerOff i).dropPermit i).slot i).state = (s.slot i).state := state.trans (by simp)
  have cleared := a.cleared .overcurrent
  refine on.overcurrentEnd ?_ ?_ (state' ▸ active) ?_ ?_
  · obtain ⟨-, -, -, w, m, -, -, gr, li⟩ := SlotRec.standing_fields spared.slot
    refine ⟨?_, ?_, ?_, by simp, ?_, ?_, ?_, ?_⟩
    · rw [State.recordEnd_slot_same]; exact w.trans (by simp)
    · rw [State.recordEnd_slot_same]; exact m.trans (by simp)
    · rw [State.recordEnd_permitQueue]
      exact fun k => by simpa using spared.queue k
    · rw [State.recordEnd_slot_same]; exact gr.trans (by simp)
    · rw [State.recordEnd_slot_same]; exact li.trans (by simp)
    · rw [State.recordEnd_link]; exact spared.known.trans (by simp)
    · rw [State.recordEnd_link]
      intro op mo e
      obtain ⟨o, mo, eo⟩ := spared.summed op mo e
      exact cleared.unsummed o (by simpa using mo) eo
  · exact State.NoOrder.spared ((a.noOrder_of_active active).congr (by simp) (by simp)) spared
  · intro e
    rw [state'] at e
    exact phase.trans (by simpa using a.noPhase (by simp [e]))
  · intro e
    rw [state'] at e
    exact plan.trans (by simpa using a.fits.planDropped (by simp [e]))

/-! ## The empty slot, and run starts -/

/-- A slot that is off its link, in no queue and without an order goes to VACANT (R1). -/
theorem enterVacant {c : Option EndCause} (g : s.On h live (butAt P i)) (plan : (s.slot i).plan = none)
    (unqueued : i ∉ s.permitQueue) (unknown : (s.link (shelfOf i)).knows i = false)
    (unsummed : ∀ op ∈ (s.link (shelfOf i)).summary, op.slot ≠ i) (unordered : ∀ o ∈ s.port.queue, o.slot ≠ i)
    (notLive : ∀ c, live = some c → c.order.slot ≠ i) : (s.enterVacant i c).On h live P := by
  refine (g.move (not_butAt P i) (.enterVacant c plan)).close (.of_idle ?_ ?_ ?_ ?_)
  · exact ⟨by simp [SlotRec.empty], by simp [SlotRec.empty], by simpa using unqueued, by simp [SlotRec.empty],
      by simp [SlotRec.empty], by simp [SlotRec.empty], by simpa using unknown, by simpa using unsummed⟩
  · exact ⟨by simp [SlotRec.empty], by simpa using unordered, notLive⟩
  · simp [SlotRec.empty, SlotState.rests]
  · simp [SlotRec.empty]

/-- The seat teardown (R7). -/
theorem teardown (g : s.On h live P) (hi : P i) (q : ∀ j ∈ s.permitQueue, P j)
    (notLive : ∀ c, live = some c → c.order.slot ≠ i)
    (plan : (s.slot i).state.runs = false → (s.slot i).plan = none) : (s.teardown i).On h live P := by
  have a := g.at_ i hi
  obtain ⟨on, spared⟩ := ((g.but i).move (not_butAt P i) (.powerOff s i)).dropPermit (by simpa using q)
    (by simpa using a.queued) (by simpa using a.fits.captured)
  have cleared := a.cleared .removed
  let u := (((s.powerOff i).dropPermit i).leaveLink i).withdrawOrder i
  have onU : u.On h live (butAt P i) :=
    on.move (not_butAt P i) ((State.Moves.leaveLink _ i).trans (.withdrawOrder _ i))
  have slot : u.slot i = ((s.powerOff i).dropPermit i).slot i := rfl
  have link : u.link (shelfOf i) = (((s.powerOff i).dropPermit i).link (shelfOf i)).leave i := by
    simp [u, State.withdrawOrder, State.leaveLink]
  have unqueued : i ∉ u.permitQueue := fun k => by simpa using spared.queue k
  have unknown : (u.link (shelfOf i)).knows i = false := by rw [link]; simp
  have unsummed : ∀ op ∈ (u.link (shelfOf i)).summary, op.slot ≠ i := fun op m e => by
    rw [link] at m
    obtain ⟨o, mo, eo⟩ := spared.summed op (Link.leave_summary i _ m).1 e
    exact cleared.unsummed o (by simpa using mo) eo
  have unordered : ∀ o ∈ u.port.queue, o.slot ≠ i := by simp [u, State.withdrawOrder]
  obtain ⟨state, planned, -⟩ := SlotRec.standing_fields spared.slot
  have stateU : (u.slot i).state = (s.slot i).state := by rw [slot, state]; simp
  change (State.enterVacant (if (u.slot i).state.runs then u.recordEnd i .removed else u) i _).On h live P
  split
  · exact (onU.move (not_butAt P i) (.recordEnd u i _)).enterVacant (by simp) (by simpa using unqueued)
      (by simpa using unknown) (by simpa using unsummed) (by simpa using unordered) notLive
  · rename_i still
    refine onU.enterVacant ?_ unqueued unknown unsummed unordered notLive
    rw [slot, planned]
    simpa using plan (by rw [stateU] at still; simpa using still)

/-- A run starts at an idle slot with no order (R15). -/
theorem startRun {again : Bool} (g : s.On h live (butAt P i)) (hi : P i) (q : ∀ j ∈ s.permitQueue, P j)
    (a : s.Idle i) (n : s.NoOrder live i) : (s.startRun i again).On h live P := by
  simp only [State.startRun]
  have cleared {f : SlotRec → SlotRec} (e : (f (s.slot i)).plan = (s.slot i).plan)
      (w : (f (s.slot i)).power = (s.slot i).power) (m : (f (s.slot i)).permit = (s.slot i).permit)
      (l : (f (s.slot i)).latch = (s.slot i).latch) (c : (f (s.slot i)).cyclePhase = none)
      (gr : (f (s.slot i)).grantedAt = (s.slot i).grantedAt) (li : (f (s.slot i)).spinLimit = (s.slot i).spinLimit) :
      let u := (((s.modSlot i f).setDose i DoseRec.empty).setWatch i WatchRec.empty).setLinkSlot i LinkSlot.empty
      (u.enter i .powering none).On h live P := by
    refine enterIdle (g.move (not_butAt P i) ((State.Moves.modSlot e).trans
      (((State.Keeps.setDose _).trans (.setWatch _)).trans (.setLinkSlot _)).moves)) ?_ ?_ rfl (by simp)
    · exact ⟨by simpa [w] using a.power, by simpa [m] using a.permit, a.unqueued, by simpa using c,
        by simpa [gr] using a.granted, by simpa [li] using a.limit, a.unknown, a.unsummed⟩
    · exact ⟨by simpa [l] using n.latch, n.unordered, n.notLive⟩
  refine joinPermit (cleared rfl rfl rfl rfl rfl rfl rfl) hi (by simpa using q) (by simpa using a.permit) ?_
  simp

/-- An idle slot with no order goes to SEATED, and on to its run where it has a plan (R6). -/
theorem enterSeated (g : s.On h live (butAt P i)) (hi : P i) (q : ∀ j ∈ s.permitQueue, P j) (a : s.Idle i)
    (n : s.NoOrder live i) : (s.enterSeated i).On h live P := by
  simp only [State.enterSeated]
  split
  · refine startRun (g.move (not_butAt P i) (.enter _ _)) hi (by simpa using q) a.enter (n.congr (by simp) (by simp))
  · rename_i e
    exact g.enterIdle a n rfl fun _ => by simpa using e

end State.On

end Sys2Proof.Machine
end

