-- ==== Sys2Proof/Proofs/OrderSteps.lean ====
section
/-! PROOFS. Plan steps, replies, zone events and the scan frame keep the rack in order (chapters 2 to 4). -/

namespace Sys2Proof.Machine

variable {s t : State} {h : PortState × Option CurrentOrder} {live : Option CurrentOrder} {i : SlotNo} {l : ShelfNo}

/-! ## A slot on its link, and a CYCLE step off it -/

/-- A drive on its link is in no CYCLE phase off it. -/
theorem State.SlotAt.notOff (a : s.SlotAt live i) (on : (s.slot i).onLink = true) :
    (s.slot i).cycleOffLink = false := by
  by_contra k
  have off : (s.slot i).cycleOffLink = true := by simpa using k
  simp [SlotRec.onLink, a.fits.cyclesRun off, off] at on

theorem State.SlotAt.noOrder_of_onLink (a : s.SlotAt live i) (on : (s.slot i).onLink = true) : s.NoOrder live i := by
  refine a.noOrder fun m => ?_
  simp only [List.mem_cons, List.not_mem_nil, or_false] at m
  rcases m with e | e | e | e <;> simp [SlotRec.onLink, e] at on

/-- At a step that is no CYCLE step no CYCLE phase runs. -/
theorem State.SlotAt.noPhase_of_step (a : s.SlotAt live i) {x : PlanStep} (e : s.currentStep i = some x)
    (k : ∀ off, x ≠ .cycle off) : (s.slot i).cyclePhase = none := by
  by_contra p
  obtain ⟨off, c⟩ := a.cycle p
  exact k off (Option.some.inj (e.symm.trans c))

theorem SlotRec.notOff_of_noPhase {r : SlotRec} (e : r.cyclePhase = none) : r.cycleOffLink = false := by
  simp [SlotRec.cycleOffLink, e]

/-- The states in which a slot's drive is on its link, when in RUNNING it is outside the phases off it. -/
theorem SlotRec.onLink_states {r : SlotRec} (on : r.onLink = true) :
    r.state = .identifying ∨ r.state = .paused ∨ r.state = .review ∨ r.state = .ending ∨ r.state = .running := by
  unfold SlotRec.onLink at on
  split at on <;> simp_all

/-- A slot that was on its link and still is. -/
theorem State.SlotAt.linked (a : s.SlotAt live i) (on : (s.slot i).onLink = true) (on' : (t.slot i).onLink = true)
    (off' : (t.slot i).cycleOffLink = false) (power : (t.slot i).power = (s.slot i).power)
    (permit : (t.slot i).permit = (s.slot i).permit) (latch : (t.slot i).latch = (s.slot i).latch)
    (granted : (t.slot i).grantedAt = (s.slot i).grantedAt) (limit : (t.slot i).spinLimit = (s.slot i).spinLimit)
    (cycle : (t.slot i).cyclePhase ≠ none →
      (t.slot i).state ∈ [.running, .paused, .review] ∧ ∃ off, t.currentStep i = some (.cycle off))
    (ending : (t.slot i).state = .ending → (t.slot i).plan = none)
    (stays : (s.slot i).state = .ending → (t.slot i).state = .ending) (queue : t.permitQueue = s.permitQueue)
    (link : t.link (shelfOf i) = s.link (shelfOf i)) (port : t.port.queue = s.port.queue) : t.SlotAt live i := by
  have n := (a.noOrder_of_onLink on).congr latch port
  have free : (t.slot i).permit = .none := permit.trans (a.noPermit on)
  have f := a.fits
  have on₂ := SlotRec.onLink_states on'
  refine ⟨⟨fun m => ?_, fun _ => ?_, fun _ => power.trans (f.linkPowered on), by simp [free], by simp [free], ?_,
    fun k => (cycle k).1, by simp [off']⟩, ?_, fun k => (cycle k).2, ?_, fun op m e => ?_,
    fun o m e => absurd e (n.unordered o m), fun c e k => absurd k (n.notLive c e),
    fun k => absurd (n.latch.symm.trans k) (by simp)⟩
  · refine ending ?_
    simp only [List.mem_cons, List.not_mem_nil, or_false] at m
    rcases on₂ with e | e | e | e | e <;> simp [e] at m ⊢
  · rcases on₂ with e | e | e | e | e <;> simp [e]
  · rw [granted, limit, permit]; exact f.captured
  · rw [queue, permit]; exact a.queued
  · rw [link, a.known, on, on']
  · rw [link] at m
    exact stays (a.summed op m e)

/-- A CYCLE step off the link, with no permit. -/
theorem State.SlotAt.cycling (run : (s.slot i).state = .running) (off : (s.slot i).cycleOffLink = true)
    (permit : (s.slot i).permit = .none) (unqueued : i ∉ s.permitQueue) (granted : (s.slot i).grantedAt = none)
    (limit : (s.slot i).spinLimit = none) (unknown : (s.link (shelfOf i)).knows i = false)
    (unsummed : ∀ op ∈ (s.link (shelfOf i)).summary, op.slot ≠ i) (n : s.NoOrder live i)
    (step : ∃ off, s.currentStep i = some (.cycle off)) : s.SlotAt live i := by
  have away : (s.slot i).onLink = false := by simp [SlotRec.onLink, run, off]
  exact ⟨⟨by simp [run], by simp [run], by simp [away], by simp [permit], by simp [permit], by simp [granted, limit],
      by simp [run], by simp [run]⟩, fun m => absurd m unqueued, fun _ => step, by simp [unknown, away],
    fun op m e => absurd e (unsummed op m), fun o m e => absurd e (n.unordered o m),
    fun c e k => absurd k (n.notLive c e), fun k => absurd (n.latch.symm.trans k) (by simp)⟩

/-- A slot with no permit has nothing of the permit scheme. -/
theorem State.SlotAt.unpermitted (a : s.SlotAt live i) (free : (s.slot i).permit = .none) :
    i ∉ s.permitQueue ∧ (s.slot i).grantedAt = none ∧ (s.slot i).spinLimit = none := by
  have nothing : ¬ ((s.slot i).grantedAt.isSome = true ∨ (s.slot i).spinLimit.isSome = true) := fun k => by
    have := a.fits.captured k
    simp [free] at this
  refine ⟨fun m => ?_, by simpa using fun k => nothing (.inl k), by simpa using fun k => nothing (.inr k)⟩
  have := a.queued m
  simp [free] at this

/-- Off its link, a slot is unknown to it, and no summary of it is read. -/
theorem State.SlotAt.away (a : s.SlotAt live i) (off : (s.slot i).onLink = false) :
    (s.link (shelfOf i)).knows i = false ∧ ∀ op ∈ (s.link (shelfOf i)).summary, op.slot ≠ i := by
  refine ⟨by simpa [off] using a.known, fun op m e => ?_⟩
  simp [SlotRec.onLink, a.summed op m e] at off

/-- A slot that has joined its link. -/
theorem State.SlotAt.joined (a : s.SlotAt live i) (off : (s.slot i).onLink = false) (n : s.NoOrder live i)
    (free : (s.slot i).permit = .none) (on' : (t.slot i).onLink = true) (off' : (t.slot i).cycleOffLink = false)
    (power : (t.slot i).power = .on) (permit : (t.slot i).permit = .none)
    (latch : (t.slot i).latch = (s.slot i).latch) (granted : (t.slot i).grantedAt = (s.slot i).grantedAt)
    (limit : (t.slot i).spinLimit = (s.slot i).spinLimit)
    (cycle : (t.slot i).cyclePhase ≠ none →
      (t.slot i).state ∈ [.running, .paused, .review] ∧ ∃ off, t.currentStep i = some (.cycle off))
    (begun : (t.slot i).state ≠ .ending) (queue : t.permitQueue = s.permitQueue)
    (link : t.link (shelfOf i) = (s.link (shelfOf i)).join i) (port : t.port.queue = s.port.queue) :
    t.SlotAt live i := by
  have n' := n.congr latch port
  obtain ⟨unqueued, free₁, free₂⟩ := a.unpermitted free
  obtain ⟨-, unsummed⟩ := a.away off
  have on₂ := SlotRec.onLink_states on'
  refine ⟨⟨fun m => ?_, fun _ => ?_, fun _ => power, by simp [permit], by simp [permit], ?_, fun k => (cycle k).1,
    by simp [off']⟩, ?_, fun k => (cycle k).2, ?_, fun op m e => ?_, fun o m e => absurd e (n'.unordered o m),
    fun c e k => absurd k (n'.notLive c e), fun k => absurd (n'.latch.symm.trans k) (by simp)⟩
  · simp only [List.mem_cons, List.not_mem_nil, or_false] at m
    rcases on₂ with e | e | e | e | e <;> simp [e] at m begun
  · rcases on₂ with e | e | e | e | e <;> simp [e]
  · simp [granted, limit, free₁, free₂]
  · rw [queue]
    exact fun m => absurd m unqueued
  · rw [link]
    simp [on']
  · rw [link, Link.join_summary] at m
    exact absurd e (unsummed op m)

/-- The states in which polls and misses are applied to a run are states of a run. -/
theorem SlotState.runs_of_polled {st : SlotState} (e : st.polled = true) : st.runs = true := by
  cases st <;> simp_all [SlotState.polled, SlotState.runs]

namespace State.On

/-- A slot on its link enters a state on it. -/
theorem enterLinked {st : SlotState} {o : Option HoldReason} (g : s.Whole h live) (on : (s.slot i).onLink = true)
    (linked : st ∈ [.running, .paused, .review, .ending]) (begun : (s.slot i).state ≠ .ending)
    (ending : st = .ending → (s.slot i).plan = none ∧ (s.slot i).cyclePhase = none) :
    (s.enter i st o).Whole h live := by
  have a := g.at_ i trivial
  have notOff := a.notOff on
  have notOff' : SlotRec.cycleOffLink { s.slot i with state := st, hold := o } = false := notOff
  refine ((g.but i).move (not_butAt _ i) (.enter st o)).close (a.linked on ?_ ?_ ?_ ?_ ?_ ?_ ?_ ?_ ?_ ?_ ?_ ?_ ?_)
  · simp only [List.mem_cons, List.not_mem_nil, or_false] at linked
    rcases linked with rfl | rfl | rfl | rfl <;> simp [SlotRec.onLink, notOff']
  · simpa using notOff'
  · simp
  · simp
  · simp
  · simp
  · simp
  · intro k
    have k : (s.slot i).cyclePhase ≠ none := by simpa using k
    refine ⟨?_, ?_⟩
    · simp only [List.mem_cons, List.not_mem_nil, or_false] at linked
      rcases linked with rfl | rfl | rfl | rfl
      · simp
      · simp
      · simp
      · exact absurd (ending rfl).2 (by simpa using k)
    · rw [State.currentStep_congr (s := s) (by simp) (by simp) fun p => by simp]
      exact a.cycle k
  · intro e
    simpa using (ending (by simpa using e)).1
  · exact fun e => absurd e begun
  · simp
  · simp
  · simp

/-- The end of a run is recorded at a slot on its link (R17). -/
theorem recordEnd {c : EndCause} (g : s.Whole h live) (on : (s.slot i).onLink = true) :
    (s.recordEnd i c).Whole h live := by
  have a := g.at_ i trivial
  have on' : ((s.recordEnd i c).slot i).onLink = true := by
    rcases SlotRec.onLink_states on with e | e | e | e | e <;> simp [SlotRec.onLink, SlotRec.cycleOffLink, e]
  exact ((g.but i).move (not_butAt _ i) (.recordEnd s i c)).close (a.linked on on'
    (SlotRec.notOff_of_noPhase (by simp)) (by simp) (by simp) (by simp) (by simp) (by simp) (by simp) (by simp)
    (by simp) (by simp) (by simp) (by simp))

/-- A summary read is asked for in ENDING (R18). -/
theorem askSummary (g : s.Whole h live) (ending : (s.slot i).state = .ending) : (s.askSummary i).Whole h live := by
  obtain ⟨f, q, c, k, su, o, cu, la⟩ := g.at_ i trivial
  have link : (s.askSummary i).link (shelfOf i) = (s.link (shelfOf i)).askSummary i := by simp [State.askSummary]
  refine ((g.but i).move (not_butAt _ i) (.askSummary s i)).close ⟨f, q, c, ?_, ?_, o, cu, la⟩
  · rw [link, Link.askSummary_knows]
    exact k
  · exact fun _ _ _ => ending

/-- A run ends with a summary, or at its verdict off the link (R18). -/
theorem endWithSummary (g : s.Whole h live) (polled : (s.slot i).state.polled = true) (c : EndCause) :
    (s.endWithSummary i c).Whole h live := by
  unfold State.endWithSummary
  split
  · exact g.endAtOnce trivial (fun _ _ => trivial) (SlotState.runs_of_polled polled) c
  · rename_i off
    have on : (s.slot i).onLink = true := by
      unfold SlotRec.onLink
      split <;> simp_all [SlotState.polled]
    have begun : (s.slot i).state ≠ .ending := fun e => by simp [e, SlotState.polled] at polled
    have ended := g.recordEnd (c := c) on
    have on' : ((s.recordEnd i c).slot i).onLink = true := by
      rcases SlotRec.onLink_states on with e | e | e | e | e <;> simp [SlotRec.onLink, SlotRec.cycleOffLink, e]
    have entered := ended.enterLinked (o := none) on' (st := .ending) (by simp) (by simpa using begun) (by simp)
    refine (entered.keep (.askLink _ _)).askSummary ?_
    have := (SlotRec.standing_fields ((State.Keeps.askLink (s := (s.recordEnd i c).enter i .ending none) (i := i) .halt
      .plain).spares i).slot).1
    exact this.trans (by simp)

end State.On

end Sys2Proof.Machine
end

