-- ==== Sys2Proof/Proofs/OrderPlans.lean ====
section
/-! PROOFS. Plans at work, replies, misses and zone events keep the rack in order (chapters 2 to 4, 6). -/

namespace Sys2Proof.Machine

variable {s t : State} {h : PortState × Option CurrentOrder} {live : Option CurrentOrder} {i : SlotNo} {l : ShelfNo}

/-! ## Step entry (R37, R38, R46) -/

/-- The slot is in RUNNING with its drive on its link. -/
def State.runsLinked (s : State) (i : SlotNo) : Prop := (s.slot i).state = .running ∧ (s.slot i).cycleOffLink = false

theorem State.runsLinked.onLink (r : s.runsLinked i) : (s.slot i).onLink = true := by
  simp [SlotRec.onLink, r.1, r.2]

theorem State.runsLinked.spared (r : s.runsLinked i) (a : s.Spares t i) : t.runsLinked i :=
  ⟨(SlotRec.standing_fields a.slot).1.trans r.1, (SlotRec.standing_cycleOffLink a.slot).trans r.2⟩

/-- After an entry the slot is at the step entered. -/
theorem State.currentStep_beginStep (s : State) (i : SlotNo) (n : Nat) :
    (s.beginStep i n).currentStep i = s.stepAt i n := by
  simp only [State.currentStep, State.beginStep, State.slot_modSlot_same, SlotRec.beginStep, State.plan_modSlot,
    State.stepAt]
  cases (s.slot i).plan <;> cases n <;> rfl

namespace State.On

theorem beginStep (g : s.Whole h live) (r : s.runsLinked i) (n : Nat) :
    (s.beginStep i n).Whole h live ∧ (s.beginStep i n).runsLinked i := by
  have slot : (s.beginStep i n).slot i = (s.slot i).beginStep n (s.dose i).acc := s.slot_modSlot_same i _
  have off : ((s.beginStep i n).slot i).cycleOffLink = false := SlotRec.notOff_of_noPhase (by rw [slot]; rfl)
  have after : (s.beginStep i n).runsLinked i := ⟨by rw [slot]; exact r.1, off⟩
  refine ⟨((g.but i).move (not_butAt _ i) (.modSlot rfl)).close ((g.at_ i trivial).linked r.onLink after.onLink off ?_ ?_
    ?_ ?_ ?_ ?_ ?_ ?_ rfl rfl rfl), after⟩
  all_goals simp [SlotRec.beginStep, r.1]

theorem askPhase (g : s.Whole h live) (n : Nat) : (s.askPhase i n).Whole h live :=
  (g.keep (State.Keeps.modSlot rfl)).keep (.askLink _ _)

theorem askLink {c : DirectedCode} {p : Purpose} (g : s.Whole h live) : (s.askLink i c p).Whole h live :=
  g.keep (.askLink _ _)

/-- Entry to a CYCLE step (R48). -/
theorem beginCycle (g : s.Whole h live) (r : s.runsLinked i) (step : ∃ off, s.currentStep i = some (.cycle off)) :
    (s.beginCycle i).Whole h live := by
  refine askLink (((g.but i).move (not_butAt _ i) (.modSlot rfl)).close ((g.at_ i trivial).linked r.onLink ?_ ?_ ?_ ?_
    ?_ ?_ ?_ ?_ ?_ ?_ rfl rfl rfl))
  · simp [SlotRec.onLink, SlotRec.cycleOffLink, r.1]
  · simp [SlotRec.cycleOffLink]
  · simp
  · simp
  · simp
  · simp
  · simp
  · refine fun _ => ⟨by simp [r.1], ?_⟩
    rw [State.currentStep_congr (s := s) (by simp) (by simp) fun p => by simp]
    exact step
  · simp [r.1]
  · simp [r.1]

/-- One step entry; where it names another step, the slot is ready to enter it. -/
theorem enterOnce (g : s.Whole h live) (r : s.runsLinked i) (n : Nat) :
    (s.enterOnce i n).1.Whole h live ∧ ∀ m, (s.enterOnce i n).2 = some m → (s.enterOnce i n).1.runsLinked i := by
  obtain ⟨begun, run⟩ := g.beginStep r n
  have looped (f : SlotRec → SlotRec) (e : ∀ q, (f q).standing = q.standing) :
      ((s.beginStep i n).modSlot i f).Whole h live ∧ ((s.beginStep i n).modSlot i f).runsLinked i :=
    ⟨begun.keep (.modSlot (e _)), run.spared ((State.Keeps.modSlot (e _)).spares i)⟩
  unfold State.enterOnce
  split
  · exact ⟨g.endWithSummary (by simp [r.1, SlotState.polled]) _, by simp⟩
  · exact ⟨begun, by simp⟩
  · exact ⟨begun, by simp⟩
  · exact ⟨begun.askPhase _, by simp⟩
  · rename_i e
    exact ⟨begun.beginCycle run ⟨_, (s.currentStep_beginStep i n).trans e⟩, by simp⟩
  · split
    · have k := looped (fun r => r.setLoop n (r.loopCount n + 1)) fun _ => rfl
      exact ⟨k.1, fun _ _ => k.2⟩
    · have k := looped (fun r => r.setLoop n 0) fun _ => rfl
      exact ⟨k.1, fun _ _ => k.2⟩

theorem enterChain (k : Nat) (x : State × Option Nat) (g : x.1.Whole h live)
    (r : ∀ m, x.2 = some m → x.1.runsLinked i) :
    (Machine.enterChain i k x).1.Whole h live ∧
      ∀ m, (Machine.enterChain i k x).2 = some m → (Machine.enterChain i k x).1.runsLinked i := by
  induction k generalizing x with
  | zero =>
    obtain ⟨s, _ | n⟩ := x
    · exact ⟨g, r⟩
    · exact enterOnce g (r n rfl) n
  | succ k ih =>
    obtain ⟨s, _ | n⟩ := x
    · exact ⟨g, r⟩
    · obtain ⟨g₁, r₁⟩ := ih _ g r
      exact ih _ g₁ r₁

theorem enterStep (g : s.Whole h live) (r : s.runsLinked i) (n : Nat) : (s.enterStep i n).Whole h live :=
  (enterChain _ (s, some n) g fun _ _ => r).1

theorem advance (g : s.Whole h live) (r : s.runsLinked i) : (s.advance i).Whole h live := g.enterStep r _

/-! ## The tests of a step (R40, R41) -/

theorem haltLeftPhase (g : s.Whole h live) (x : PlanStep) : (s.haltLeftPhase i x).Whole h live := by
  unfold State.haltLeftPhase
  split
  · exact g.askLink
  · exact g

/-- A slot in RUNNING at a step that is no CYCLE step has its drive on its link. -/
theorem runsLinked_of_step (g : s.Whole h live) (run : (s.slot i).state = .running) {x : PlanStep}
    (e : s.currentStep i = some x) (k : ∀ off, x ≠ .cycle off) : s.runsLinked i :=
  ⟨run, SlotRec.notOff_of_noPhase ((g.at_ i trivial).noPhase_of_step e k)⟩

theorem takeLimit {x : PlanStep} {target : Option Nat} {act : LimitAction} (g : s.Whole h live)
    (r : s.runsLinked i) : (s.takeLimit i x target act).Whole h live := by
  unfold State.takeLimit
  split
  · exact g.endWithSummary (by simp [r.1, SlotState.polled]) _
  · have k := State.Keeps.modRun (s := s) (i := i) fun q =>
      { q with deficit := saturate Config.doseCap (q.deficit + shortfall target (s.stepDose i)) }
    exact ((g.keep k).advance (r.spared (k.spares i))).haltLeftPhase x

theorem testLimit {x : PlanStep} (g : s.Whole h live) (run : (s.slot i).state = .running)
    (e : s.currentStep i = some x) : (s.testLimit i x).Whole h live := by
  unfold State.testLimit
  split
  · rename_i m
    split
    · exact g.takeLimit (g.runsLinked_of_step run e fun off k => by simp [k, PlanStep.limits] at m)
    · exact g
  · exact g

theorem testStep (g : s.Whole h live) (run : (s.slot i).state = .running) : (s.testStep i).Whole h live := by
  unfold State.testStep
  split
  · rename_i x e
    split
    · rename_i met
      exact g.advance (g.runsLinked_of_step run e fun off k => by simp [k, State.soakMet] at met)
    · exact g.testLimit run e
  · exact g

theorem tickSlot (g : s.Whole h live) : (s.tickSlot i).Whole h live := by
  have k : s.Keeps (s.credit i) := by
    unfold State.credit
    split
    · exact .setDose _
    · exact .refl s
  unfold State.tickSlot State.tickStep
  split
  · rename_i clocks
    have run : ((s.credit i).slot i).state = .running := by
      simp only [SlotRec.clocks, Bool.and_eq_true, decide_eq_true_eq] at clocks
      exact clocks.1
    exact ((g.keep k).keep (.modSlot rfl)).testStep (by simpa using run)
  · exact g.keep k

theorem testReply (g : s.Whole h live) (run : (s.slot i).state = .running) (x : LastStatus) :
    (s.testReply i x).Whole h live := by
  unfold State.testReply
  split
  · rename_i e
    have k := State.Keeps.modRun (s := s) (i := i) fun r => { r with base := some x.grown }
    exact (g.keep k).advance ((g.runsLinked_of_step run e (by simp)).spared (k.spares i))
  · rename_i e
    split
    · split
      · exact g.advance (g.runsLinked_of_step run e (by simp))
      · exact g.askPhase _
    · exact g
  · rename_i e
    split
    · exact g.advance (g.runsLinked_of_step run e (by simp))
    · exact g
  · split
    · rename_i phase
      exact g.advance ⟨run, by simp [SlotRec.cycleOffLink, phase]⟩
    · exact g
  · exact g

/-! ## The CYCLE phases (R47 to R50) -/

/-- A CYCLE step leaves its link (R48). -/
theorem cycleOff (g : s.Whole h live) (run : (s.slot i).state = .running)
    (phase : (s.slot i).cyclePhase = some .halting) : (s.cycleOff i).Whole h live := by
  have a := g.at_ i trivial
  have on : (s.slot i).onLink = true := by simp [SlotRec.onLink, SlotRec.cycleOffLink, run, phase]
  obtain ⟨unqueued, granted, limit⟩ := a.unpermitted (a.noPermit on)
  have step : ∃ off, s.currentStep i = some (.cycle off) := a.cycle (by simp [phase])
  simp only [State.cycleOff]
  refine ((g.but i).move (not_butAt _ i) ((State.Moves.powerOff s i).trans (.modSlot rfl))).close (.cycling ?_ ?_ ?_ ?_
    ?_ ?_ ?_ ?_ ?_ ?_)
  · simpa using run
  · simp [SlotRec.cycleOffLink]
  · simpa using a.noPermit on
  · simpa using unqueued
  · simpa using granted
  · simpa using limit
  · simp
  · intro op m e
    obtain ⟨m, gone⟩ := Link.leave_summary i _ (by simpa using m)
    exact gone (a.leaves m e) e
  · exact (a.noOrder_of_onLink on).congr (by simp) (by simp)
  · rw [State.currentStep_congr (s := s) (by simp) (by simp) fun p => by simp]
    exact step

/-- The phase of a CYCLE step off its link changes to another one off it. -/
theorem setPhase {c : CyclePhase} (g : s.Whole h live) (run : (s.slot i).state = .running)
    (phase : (s.slot i).cyclePhase = some .off ∨ (s.slot i).cyclePhase = some .waiting)
    (c' : c = .waiting ∨ c = .spinning) :
    (s.modSlot i fun r => { r with cyclePhase := some c }).Whole h live ∧ (s.slot i).permit = .none := by
  have a := g.at_ i trivial
  have away : (s.slot i).onLink = false := by
    rcases phase with e | e <;> simp [SlotRec.onLink, SlotRec.cycleOffLink, run, e]
  have free : (s.slot i).permit = .none := by
    by_contra k
    rcases a.fits.permits k with e | ⟨-, e⟩
    · simp [run] at e
    · rcases phase with p | p <;> simp [p] at e
  obtain ⟨unqueued, granted, limit⟩ := a.unpermitted free
  obtain ⟨unknown, unsummed⟩ := a.away away
  refine ⟨((g.but i).move (not_butAt _ i) (.modSlot rfl)).close (.cycling ?_ ?_ ?_ unqueued ?_ ?_ unknown unsummed ?_ ?_),
    free⟩
  · simpa using run
  · rcases c' with rfl | rfl <;> simp [SlotRec.cycleOffLink]
  · simpa using free
  · simpa using granted
  · simpa using limit
  · exact (a.noOrder (by simp [run])).congr (by simp) rfl
  · rw [State.currentStep_congr (s := s) (by simp) (by simp) fun p => by simp]
    exact a.cycle (by rcases phase with e | e <;> simp [e])

theorem spinAgain (g : s.Whole h live) (run : (s.slot i).state = .running)
    (phase : (s.slot i).cyclePhase = some .off ∨ (s.slot i).cyclePhase = some .waiting) :
    (s.spinAgain i).Whole h live := by
  obtain ⟨g', free⟩ := g.setPhase run phase (.inr rfl)
  exact g'.joinPermit trivial (fun _ _ => trivial) (by simpa using free) (.inr (by simpa using run))

theorem offTimeOver (g : s.Whole h live) : (s.offTimeOver i).Whole h live := by
  simp only [State.offTimeOver]
  split
  · rename_i c
    simp only [Bool.and_eq_true, decide_eq_true_eq] at c
    have g' : (s.modSlot i fun r => { r with offTimer := none }).Whole h live := g.keep (.modSlot rfl)
    split
    · exact (g'.setPhase (by simpa using c.1) (.inl (by simpa using c.2)) (.inl rfl)).1
    · exact g'.spinAgain (by simpa using c.1) (.inl (by simpa using c.2))
  · exact g

/-- The power goes off and SU judges the slot in ENDING. -/
theorem endingVerdict (g : s.Whole h live) (ending : (s.slot i).state = .ending) :
    ((s.powerOff i).verdict i).Whole h live := by
  have a := g.at_ i trivial
  have on : (s.slot i).onLink = true := by simp [SlotRec.onLink, ending]
  obtain ⟨unqueued, granted, limit⟩ := a.unpermitted (a.noPermit on)
  have gone : s.Over i := ⟨a.noPermit on, unqueued, a.noPhase (by simp [ending]), granted, limit, fun op m e => a.leaves m e⟩
  exact ((g.but i).move (not_butAt _ i) (.powerOff s i)).verdict gone.powerOff
    ((a.noOrder_of_onLink on).congr (by simp) (by simp)) (by simpa using a.fits.planDropped (by simp [ending]))

theorem haltEnded (g : s.Whole h live) (p : Purpose) : (s.haltEnded i p).Whole h live := by
  unfold State.haltEnded
  split
  · exact g
  · split
    · rename_i c
      simp only [Bool.and_eq_true, State.atEntry, decide_eq_true_eq] at c
      obtain ⟨⟨⟨run, -⟩, -⟩, phase⟩ := c
      exact g.cycleOff run phase
    · exact g
  · split
    · rename_i ending
      have a := g.at_ i trivial
      have free : ((s.powerOff i).slot i).permit = .none := by
        simpa using a.noPermit (by simp [SlotRec.onLink, ending])
      have e : (s.powerOff i).dropPermit i = s.powerOff i := by unfold State.dropPermit; rw [free]
      have cleared : (s.powerOff i).Over i := by
        refine State.Idle.over (State.Over.powerOff ⟨by simpa using free, ?_, ?_, ?_, ?_, fun op m e => a.leaves m e⟩)
        · exact (a.unpermitted (by simpa using free)).1
        · exact a.noPhase (by simp [ending])
        · exact (a.unpermitted (by simpa using free)).2.1
        · exact (a.unpermitted (by simpa using free)).2.2
      rw [e]
      exact ((g.but i).move (not_butAt _ i) (.powerOff s i)).toVerdict cleared
        ((a.noOrder (by simp [ending])).congr (by simp) (by simp)) (by simpa using a.fits.planDropped (by simp [ending]))
    · exact g

theorem resumeStep (g : s.Whole h live) (r : s.runsLinked i) : (s.resumeStep i).Whole h live := by
  unfold State.resumeStep
  split
  · split
    · exact g.askPhase _
    · split
      · exact g.askLink
      · exact g
    · exact g
  · exact g.enterStep r _

/-- A slot in PAUSED or REVIEW returns to RUNNING (R22, R26). -/
theorem returnToRun (g : s.Whole h live) (st : (s.slot i).state = .paused ∨ (s.slot i).state = .review) :
    (s.returnToRun i).Whole h live := by
  have on : (s.slot i).onLink = true := by rcases st with e | e <;> simp [SlotRec.onLink, e]
  have notOff := (g.at_ i trivial).notOff on
  have g' : (s.modRun i fun r => { r with zonePaused := false }).Whole h live := g.keep (.modRun _)
  have on' : SlotRec.onLink ((s.modRun i fun r => { r with zonePaused := false }).slot i) = true := by
    rw [State.slot_modRun_same]; exact on
  refine (g'.enterLinked on' (by simp) ?_ (by simp)).resumeStep ⟨by simp, ?_⟩
  · rcases st with e | e <;> simp [e]
  · rw [State.enter_slot_same, State.slot_modRun_same]
    exact notOff

/-! ## IDENT and READY (R11, R16, R49) -/

theorem identified (g : s.Whole h live) (st : (s.slot i).state = .identifying) (x : Identity) :
    (s.identified i x).Whole h live := by
  have phase : (s.slot i).cyclePhase = none := (g.at_ i trivial).noPhase (by simp [st])
  have k := State.Keeps.modRun (s := s) (i := i) fun r => { r with identity := some x }
  have g' := g.keep k
  simp only [State.identified]
  generalize hu : (s.modRun i fun r => { r with identity := some x }) = u at g'
  have slot : u.slot i = { s.slot i with run := { (s.slot i).run with identity := some x } } := by
    rw [← hu, State.slot_modRun_same]
  have stU : (u.slot i).state = .identifying := by rw [slot]; exact st
  have phaseU : (u.slot i).cyclePhase = none := by rw [slot]; exact phase
  have onU : (u.slot i).onLink = true := by simp [SlotRec.onLink, stU]
  split
  · have a := g'.at_ i trivial
    have first : (u.modSlot i fun r => { r with step := some 1 }).Whole h live := by
      refine ((g'.but i).move (not_butAt _ i) (.modSlot rfl)).close (a.linked onU ?_ ?_ ?_ ?_ ?_ ?_ ?_ ?_ ?_ ?_ rfl rfl
        rfl) <;> simp [SlotRec.onLink, SlotRec.cycleOffLink, stU, phaseU]
    refine (first.keep (.modRun _)).enterLinked ?_ (by simp) ?_ (by simp)
    · simp [SlotRec.onLink, stU]
    · simp [stU]
  · refine (g'.enterLinked onU (by simp) (by simp [stU]) (by simp)).enterStep ⟨by simp, ?_⟩ 1
    exact SlotRec.notOff_of_noPhase (by simpa using phaseU)

end State.On

/-- A verdict leaves the slot in GRADED or HELD (R20). -/
theorem State.verdict_state (s : State) (i : SlotNo) :
    ((s.verdict i).slot i).state = .graded ∨ ((s.verdict i).slot i).state = .held := by
  rcases s.verdict_cases i with ⟨b, -, e⟩ | ⟨-, e⟩
  · left
    rw [e]
    change (((s.told i).enter i .graded none).slot i).state = _
    simp
  · right
    rw [e]
    simp

/-- Overcurrent is not taken, or leaves the slot at its verdict (R13). -/
theorem State.checkOvercurrent_cases (s : State) (i : SlotNo) (runs : (s.slot i).state.runs = true) :
    s.checkOvercurrent i = s ∨ ((s.checkOvercurrent i).slot i).state = .graded ∨
      ((s.checkOvercurrent i).slot i).state = .held := by
  unfold State.checkOvercurrent
  split
  · right
    have runs' : (((s.powerOff i).clearPermit i).slot i).state.runs = true := by simpa using runs
    rw [State.overcurrentEnd, if_pos runs']
    exact State.verdict_state _ i
  · exact .inl rfl

namespace State.On

/-- POWERING goes on to IDENTIFYING with its power on (R16). -/
theorem startIdent (g : s.Whole h live) (st : (s.slot i).state = .powering) (power : (s.slot i).power = .on)
    (free : (s.slot i).permit = .none) : (s.startIdent i).Whole h live := by
  have a := g.at_ i trivial
  have phase := a.noPhase (by simp [st])
  have off : (s.slot i).onLink = false := by simp [SlotRec.onLink, st]
  refine askLink (((g.but i).move (not_butAt _ i) ((State.Moves.enter _ _).trans (.joinLink _ i))).close (a.joined off
    (a.noOrder (by simp [st])) free ?_ ?_ ?_ ?_ ?_ ?_ ?_ ?_ ?_ ?_ ?_ ?_))
  all_goals simp [State.joinLink, SlotRec.onLink, SlotRec.cycleOffLink, phase, power, free]

/-- A CYCLE spin-up has ended by READY (R49). -/
theorem rejoin (g : s.Whole h live) (st : (s.slot i).state = .running)
    (phase : (s.slot i).cyclePhase = some .spinning) (power : (s.slot i).power = .on)
    (free : (s.slot i).permit = .none) : (s.rejoin i).Whole h live := by
  have a := g.at_ i trivial
  have off : (s.slot i).onLink = false := by simp [SlotRec.onLink, SlotRec.cycleOffLink, st, phase]
  have step := a.cycle (by simp [phase])
  have back : ((s.joinLink i).modSlot i fun r => { r with cyclePhase := some .rejoining }).Whole h live := by
    refine ((g.but i).move (not_butAt _ i) ((State.Moves.joinLink s i).trans (.modSlot rfl))).close (a.joined off
      (a.noOrder (by simp [st])) free ?_ ?_ ?_ ?_ ?_ ?_ ?_ ?_ ?_ ?_ ?_ ?_)
    case refine_8 =>
      refine fun _ => ⟨by simp [State.joinLink, st], ?_⟩
      rw [State.currentStep_congr (s := s) (by simp [State.joinLink]) (by simp [State.joinLink]) fun p => by
        simp [State.joinLink]]
      exact step
    all_goals simp [State.joinLink, SlotRec.onLink, SlotRec.cycleOffLink, st, power, free]
  simp only [State.rejoin]
  split
  · refine back.enterLinked ?_ (by simp) ?_ (by simp)
    · simp [State.joinLink, SlotRec.onLink, SlotRec.cycleOffLink, st]
    · simp [State.joinLink, st]
  · exact back

/-- READY ends the spin capture (R11, R16, R49). -/
theorem readyHigh (g : s.Whole h live) : (s.readyHigh i).Whole h live := by
  simp only [State.readyHigh]
  split
  · exact g
  · rename_i t₀ granted
    have a := g.at_ i trivial
    have held : (s.slot i).permit = .held := a.fits.captured (.inl (by simp [granted]))
    have power := a.fits.permitPowered held
    have wants := a.fits.permits (by simp [held])
    have k : s.Keeps (s.modSlot i fun r => { r with spin := r.spin.record (saturate Config.cap16 (Time.since s.now t₀)) }) :=
      .modSlot rfl
    generalize (s.modSlot i fun r =>
      { r with spin := r.spin.record (saturate Config.cap16 (Time.since s.now t₀)) }) = u at k
    obtain ⟨state, -, -, powerU, permitU, -, phaseU, -⟩ := SlotRec.standing_fields (k.spares i).slot
    have aU := (g.keep k).at_ i trivial
    obtain ⟨on, spared⟩ := ((g.keep k).but i).dropPermit (fun _ _ => trivial) aU.queued aU.fits.captured
    have cleared : (u.clearPermit i).SlotAt live i := by
      refine aU.permitted ?_ ?_ ?_ ?_ ?_ ?_ ?_ ?_ ?_ ?_ ?_ ?_
      · rw [state, phaseU]; exact wants
      all_goals simp
    have dropped := on.close (cleared.spared spared)
    obtain ⟨stateD, -, -, powerD, permitD, -, phaseD, -⟩ := SlotRec.standing_fields spared.slot
    have runs : ((u.dropPermit i).slot i).state.runs = true := by
      rw [stateD]
      rcases wants with e | ⟨e, -⟩ <;> simp [state, e, SlotState.runs]
    have checked := dropped.checkOvercurrent (i := i) trivial
    rcases (u.dropPermit i).checkOvercurrent_cases i runs with e | e
    · rw [e]
      have powered : ((u.dropPermit i).slot i).power = .on := by rw [powerD]; simpa [powerU] using power
      have free : ((u.dropPermit i).slot i).permit = .none := by rw [permitD]; simp
      split
      · rename_i st
        exact dropped.startIdent st powered free
      · split
        · rename_i st
          have stS : (s.slot i).state = .running := by
            rw [stateD] at st
            simpa [state] using st
          have phase : (s.slot i).cyclePhase = some .spinning := by
            rcases wants with e | ⟨-, e⟩
            · simp [stS] at e
            · exact e
          exact dropped.rejoin st (phaseD.trans (by simpa [phaseU] using phase)) powered free
        · exact dropped
    · have notPowering : (((u.dropPermit i).checkOvercurrent i).slot i).state ≠ .powering := by
        rcases e with e | e <;> simp [e]
      have notRunning : (((u.dropPermit i).checkOvercurrent i).slot i).state ≠ .running := by
        rcases e with e | e <;> simp [e]
      rw [if_neg notPowering, if_neg notRunning]
      exact checked

end State.On

end Sys2Proof.Machine
end

