-- ==== Sys2Proof/Proofs/OrderLinks.lean ====
section
/-! PROOFS. The scan frames, the ends of transactions, and the zone events keep the rack in order (chapters 3 and 4). -/

namespace Sys2Proof.Machine

variable {s t : State} {h : PortState × Option CurrentOrder} {live : Option CurrentOrder} {i : SlotNo} {l : ShelfNo}

/-! ## One link at work (R51, R52, R59 to R61) -/

namespace Link.Goes

/-- A link without a transaction is sound while its lists stand. -/
theorem of_idle {x y : Link} (hs : y.scan = x.scan) (hj : y.joins = x.joins) (hu : y.unpolled = x.unpolled)
    (hm : ∀ op ∈ y.summary, ∃ o ∈ x.summary, o.slot = op.slot) (idle : y.outstanding = none) : x.Goes y where
  knows j := by simp [Link.knows, hs, hj]
  summary := hm
  sound g := ⟨by rw [hu, hs]; exact g.polls, by simp [idle]⟩

/-- A transaction is sent to a slot the link knows. -/
theorem send {x y : Link} (g : x.Goes y) {j : SlotNo} {r : LinkRequest} (now : Time)
    (known : x.Sound → x.knows j = true) (head : ∀ n, r = .summary n → y.summary.head?.map (·.slot) = some j) :
    x.Goes (y.send j r now) where
  knows := g.knows
  summary := g.summary
  sound a := ⟨(g.sound a).polls, fun t e => by
    obtain rfl := Option.some.inj e
    exact ⟨(g.knows j).trans (known a), head⟩⟩

theorem spoil (x : Link) : x.Goes x.spoil where
  knows _ := rfl
  summary op m := ⟨op, m, rfl⟩
  sound g := ⟨g.polls, fun t e => by
    obtain ⟨t₀, e₀, rfl⟩ := Option.map_eq_some_iff.mp e
    exact g.transaction t₀ e₀⟩

theorem endGap (x : Link) : x.Goes x.endGap := .of_same rfl rfl rfl rfl rfl

theorem advance (x : Link) : x.Goes x.advance := by
  have rest {y : Link} (polled : x.Goes y) :
      x.Goes (if y.phase = .gap && y.eligible.isNone && y.gapOver then y.endGap else y) := by
    split
    · exact polled.trans (.endGap y)
    · exact polled
  simp only [Link.advance]
  split
  · split
    · exact rest (.of_same rfl rfl rfl rfl rfl)
    · exact rest (.refl x)
  · exact .refl x

theorem startFrame (x : Link) (now : Time) : x.Goes (x.startFrame now) where
  knows j := by simp [Link.knows, Link.startFrame]
  summary op m := ⟨op, m, rfl⟩
  sound g := by
    refine ⟨fun _ => id, fun t e => ?_⟩
    have := g.transaction t e
    simpa [Link.knows, Link.startFrame] using this

theorem sendPoll (x : Link) (now : Time) : x.Goes (x.sendPoll now) := by
  unfold Link.sendPoll
  split
  · rename_i i rest e
    have shorter : x.Goes { x with unpolled := rest } :=
      ⟨fun _ => rfl, fun op m => ⟨op, m, rfl⟩, fun g => ⟨fun j m => g.polls j (by simp [e, m]), g.transaction⟩⟩
    refine shorter.send now (fun g => ?_) (by simp)
    have := g.polls i (by simp [e])
    simp [Link.knows, this]
  · exact .refl x

theorem sendDirected (x : Link) (now : Time) : x.Goes (x.sendDirected now) := by
  unfold Link.sendDirected
  split
  · rename_i d e
    have scanned : d.slot ∈ x.scan := by simpa using List.find?_some e
    have fewer : x.Goes { x with directed := x.directed.filter (·.slot ≠ d.slot) } := .of_same rfl rfl rfl rfl rfl
    exact fewer.send now (fun _ => by simp [Link.knows, scanned]) (by simp)
  · exact .refl x

theorem sendSummary (x : Link) (now : Time) (known : ∀ op ∈ x.summary, x.knows op.slot = true) :
    x.Goes (x.sendSummary now) := by
  unfold Link.sendSummary
  split
  · rename_i op rest e
    have counted : x.Goes { x with gapCount := x.gapCount + 1 } := .of_same rfl rfl rfl rfl rfl
    exact counted.send now (fun _ => known op (by simp [e])) (by simp [e])
  · exact .refl x

/-- The head operation is replaced between transactions. -/
theorem setHead {x : Link} {op op' : SummaryOp} (m : op ∈ x.summary) (e : op'.slot = op.slot)
    (idle : x.outstanding = none) : x.Goes (x.setHead op') := by
  refine .of_idle rfl rfl rfl (fun o mo => ?_) idle
  rcases List.mem_cons.mp mo with rfl | mo
  · exact ⟨op, m, e.symm⟩
  · exact ⟨o, List.mem_of_mem_drop mo, rfl⟩

theorem dropHead {x : Link} (idle : x.outstanding = none) : x.Goes x.dropHead :=
  .of_idle rfl rfl rfl (fun o mo => ⟨o, List.mem_of_mem_drop mo, rfl⟩) idle

end Link.Goes

/-! ## Transactions and the slots they are for -/

theorem State.Keeps.goodReply (s : State) (l : ShelfNo) (i : SlotNo) : s.Keeps (s.goodReply l i) :=
  (State.Keeps.modLink (.of_idle rfl rfl rfl (fun op m => ⟨op, m, rfl⟩) rfl)).trans (.setLinkSlot _)

theorem State.Keeps.badReply (s : State) (l : ShelfNo) (bytes : List Byte) : s.Keeps (s.badReply l bytes) := by
  unfold State.badReply
  split
  · exact .modLink (.spoil _)
  · exact .refl s

theorem Link.awaiting_outstanding {x : Link} {now : Time} {r : Transaction} (e : x.awaiting now = some r) :
    x.outstanding = some r := (Option.filter_eq_some_iff.mp e).1

namespace State.On

theorem transaction_known (g : s.Whole h live) {r : Transaction} (o : (s.link l).outstanding = some r) :
    shelfOf r.slot = l ∧ (s.slot r.slot).onLink = true := by
  have k := ((g.sound.links l).transaction r o).1
  obtain rfl := g.sound.own l r.slot k
  exact ⟨rfl, (g.at_ r.slot trivial).known.mp k⟩

/-- The slot of a summary operation is in ENDING. -/
theorem summary_ending (g : s.Whole h live) {op : SummaryOp} (m : op ∈ (s.link l).summary) :
    (s.slot op.slot).state = .ending := by
  obtain rfl := g.sound.summaries l op m
  exact (g.at_ op.slot trivial).summed op m rfl

/-- A SUMMARY transaction is the head operation's. -/
theorem transaction_head (g : s.Whole h live) {r : Transaction} (o : (s.link l).outstanding = some r) {n : Nat}
    (e : r.request = .summary n) : ∃ op rest, (s.link l).summary = op :: rest ∧ op.slot = r.slot := by
  have k := ((g.sound.links l).transaction r o).2 n e
  cases m : (s.link l).summary with
  | nil => simp [m] at k
  | cons op rest => exact ⟨op, rest, rfl, by simpa [m] using k⟩

/-- The SUMMARY transaction of a link goes to a slot on it. -/
theorem sendSummary (g : s.Whole h live) (now : Time) : (s.modLink l (·.sendSummary now)).Whole h live := by
  refine g.keep (.modLink (.sendSummary _ now fun op m => ?_))
  have e := g.summary_ending m
  obtain rfl := g.sound.summaries l op m
  exact (g.at_ op.slot trivial).known.mpr (by simp [SlotRec.onLink, e])

end State.On

/-! ## STATUS (R70, R112 to R117) -/

/-- What a match does, but for the action it hands over. -/
theorem State.Keeps.latched (s : State) (i : SlotNo) (x : WatchLatch) (n : NoticeBody) :
    s.Keeps ((s.setLatch i x).notify n) := (State.Keeps.setWatch _).trans (.notify _)

namespace State.On

theorem watchSuspend (g : s.Whole h live) (on : (s.slot i).onLink = true) : (s.watchSuspend i).Whole h live := by
  unfold State.watchSuspend
  split
  · rename_i run
    exact (g.enterLinked on (by simp) (by simp [run]) (by simp)).askLink
  · exact g

theorem watchReject (g : s.Whole h live) (c : Option WatchClass) : (s.watchReject i c).Whole h live := by
  unfold State.watchReject
  split
  · split
    · rename_i st
      exact g.endWithSummary (by rcases st with e | e <;> simp [e, SlotState.polled]) _
    · exact g
  · exact g

theorem watchAct (g : s.Whole h live) (on : (s.slot i).onLink = true) (r : WatchRule) :
    (s.watchAct i r).Whole h live := by
  unfold State.watchAct
  split
  · exact g
  · exact g.watchSuspend on
  · exact g.watchReject _

theorem evaluate (g : s.Whole h live) (on : (s.slot i).onLink = true) (w : FaultWord) :
    (s.evaluate i w).Whole h live := by
  have acted (x : WatchLatch) (n : NoticeBody) (r : WatchRule) :
      (((s.setLatch i x).notify n).watchAct i r).Whole h live :=
    have k := State.Keeps.latched s i x n
    watchAct (g.keep k) ((SlotRec.standing_onLink (k.spares i).slot).trans on) r
  have matched : (s.takeMatch i w).Whole h live := by
    unfold State.takeMatch
    split
    · exact g
    · exact acted _ _ _
    · simp only [State.hitLatch]
      split
      · exact acted _ _ _
      · split
        · exact g
        · exact g.keep (.latched s i _ _)
  exact matched.keep (.setWatch _)

theorem watchStep (g : s.Whole h live) (on : (s.slot i).onLink = true) (w : FaultWord) :
    (s.watchStep i w).Whole h live := by
  unfold State.watchStep
  split
  · exact g.evaluate on w
  · exact g

theorem failedStep (g : s.Whole h live) (d : DriveState) : (s.failedStep i d).Whole h live := by
  unfold State.failedStep
  split
  · rename_i c
    exact g.endWithSummary (by simp at c; exact c.1) _
  · exact g

theorem planStep (g : s.Whole h live) (x : LastStatus) : (s.planStep i x).Whole h live := by
  unfold State.planStep
  split
  · rename_i c
    exact g.testReply (by simp at c; exact c.1) x
  · exact g

theorem statusTaken (g : s.Whole h live) (on : (s.slot i).onLink = true) (x : LastStatus) :
    (s.statusTaken l i x).Whole h live := by
  have fallback (u : State) : u.Keeps (u.writeFallback i x.grown) := by
    unfold State.writeFallback
    split
    · exact .modRun _
    · exact .refl u
  have k := ((State.Keeps.goodReply s l i).trans (.setLinkSlot (i := i) { (s.goodReply l i).linkSlot i with last := some x })).trans
    (fallback _)
  exact (((g.keep k).watchStep ((SlotRec.standing_onLink (k.spares i).slot).trans on) _).failedStep _).planStep _

/-! ## IDENT, PHASE START and HALT (R64) -/

theorem identTaken (g : s.Whole h live) (x : Identity) : (s.identTaken l i x).Whole h live := by
  have g' := g.keep (.goodReply s l i)
  simp only [State.identTaken]
  split
  · exact g'.identified ‹_› x
  · exact g'

theorem phaseTaken (g : s.Whole h live) (p : Purpose) : (s.phaseTaken l i p).Whole h live := by
  have g' := g.keep (.goodReply s l i)
  simp only [State.phaseTaken]
  split
  · split
    · exact g'.keep (.modSlot rfl)
    · exact g'
  · exact g'

/-! ## SUMMARY (R66, R67) -/

/-- The head operation ends with its slot in ENDING, at its verdict. -/
theorem summaryEnds (g : s.Whole h live) (ending : (s.slot i).state = .ending) (idle : (s.link l).outstanding = none)
    (f : RunRec → RunRec) : ((((s.modLink l Link.dropHead).modRun i f).powerOff i).verdict i).Whole h live := by
  have k := (State.Keeps.modLink (.dropHead idle)).trans (.modRun (i := i) f)
  exact (g.keep k).endingVerdict ((SlotRec.standing_fields (k.spares i).slot).1.trans ending)

theorem blockTaken (g : s.Whole h live) {op : SummaryOp} (m : op ∈ (s.link l).summary) (b : SummaryBlock) :
    (s.blockTaken l op.slot op b).Whole h live := by
  have ending := g.summary_ending m
  have k := State.Keeps.goodReply s l op.slot
  have g' := g.keep k
  have ending' := (SlotRec.standing_fields (k.spares op.slot).slot).1.trans ending
  have link : (s.goodReply l op.slot).link l = { s.link l with outstanding := none } := by
    simp [State.goodReply, State.endTransaction]
  have idle : ((s.goodReply l op.slot).link l).outstanding = none := by rw [link]
  have m' : op ∈ ((s.goodReply l op.slot).link l).summary := by rw [link]; exact m
  have replaced {op' : SummaryOp} (e : op'.slot = op.slot) :
      ((s.goodReply l op.slot).modLink l (·.setHead op')).Whole h live := g'.keep (.modLink (.setHead m' e idle))
  simp only [State.blockTaken]
  split
  · exact replaced rfl
  · split
    · exact g'.summaryEnds ending' idle _
    · exact replaced rfl
  · exact g'

/-! ## Misses (R67, R71) -/

theorem directedMiss (g : s.Whole h live) (c : DirectedCode) (p : Purpose) : (s.directedMiss i c p).Whole h live := by
  unfold State.directedMiss
  split
  · split
    · exact g.askLink
    · exact g
  · split
    · exact g.askPhase _
    · exact g
  · exact g
  · exact g.haltEnded _

theorem summaryMiss (g : s.Whole h live) (idle : (s.link l).outstanding = none)
    (ending : (s.slot i).state = .ending) : (s.summaryMiss l i).Whole h live := by
  unfold State.summaryMiss
  split
  · rename_i op rest e
    have k : s.Keeps (s.modLink l fun x => (x.setHead { op with misses := saturate 15 (op.misses + 1) }).endGap) :=
      .modLink ((Link.Goes.setHead (op := op) (op' := { op with misses := saturate 15 (op.misses + 1) }) (by simp [e]) rfl
        idle).trans (.endGap _))
    simp only
    split
    · refine (g.keep k).summaryEnds ending ?_ _
      simpa [Link.endGap, Link.setHead] using idle
    · exact g.keep k
  · exact g

theorem judgeSilent (g : s.Whole h live) : (s.judgeSilent l i).Whole h live := by
  unfold State.judgeSilent
  split
  · rename_i c
    simp only [Bool.and_eq_true] at c
    exact g.endAtOnce trivial (fun _ _ => trivial) (SlotState.runs_of_polled c.2) _
  · exact g

theorem missed (g : s.Whole h live) {r : Transaction} (o : (s.link l).outstanding = some r) :
    (s.missed l r).Whole h live := by
  have k : s.Keeps ((s.endTransaction l).setLinkSlot r.slot (s.linkSlot r.slot).miss) :=
    (State.Keeps.modLink (.of_idle rfl rfl rfl (fun op m => ⟨op, m, rfl⟩) rfl)).trans (.setLinkSlot _)
  have g' := g.keep k
  simp only [State.missed]
  cases e : r.request with
  | directed c p => exact g'.judgeSilent.directedMiss c p
  | status => exact g'.judgeSilent
  | summary n =>
    obtain ⟨op, rest, head, slot⟩ := g.transaction_head o e
    have ending : (s.slot r.slot).state = .ending := slot ▸ g.summary_ending (l := l) (op := op) (by rw [head]; exact List.mem_cons_self)
    have silent : ((s.endTransaction l).setLinkSlot r.slot (s.linkSlot r.slot).miss).judgeSilent l r.slot =
        (s.endTransaction l).setLinkSlot r.slot (s.linkSlot r.slot).miss := by
      simp [State.judgeSilent, State.endTransaction, ending, SlotState.polled]
    simp only [State.codeMiss]
    rw [silent]
    exact g'.summaryMiss (by simp [State.endTransaction]) (by simpa [State.endTransaction] using ending)

/-! ## Zone events at the slots of a shelf (R22) -/

theorem endByZone (g : s.Whole h live) (runs : (s.slot i).state.runs = true) : (s.endByZone i).Whole h live := by
  unfold State.endByZone
  split
  · rename_i c
    have on : (s.slot i).onLink = true := by
      simp only [State.zoneEndOnLink] at c
      split at c <;> simp_all [SlotRec.onLink]
    have on' : ((s.recordEnd i .zoneTrip).slot i).onLink = true := by
      rcases SlotRec.onLink_states on with e | e | e | e | e <;> simp [SlotRec.onLink, SlotRec.cycleOffLink, e]
    refine ((g.recordEnd (c := .zoneTrip) on).enterLinked on' (by simp) ?_ (by simp)).askLink
    intro e
    rw [State.recordEnd_slot_same] at e
    simp only at e
    simp [e, SlotState.runs] at runs
  · exact g.endAtOnce trivial (fun _ _ => trivial) runs _

theorem slotTrip (g : s.Whole h live) : (s.slotTrip i).Whole h live := by
  unfold State.slotTrip
  split
  · rename_i run
    split
    · exact g.keep (.modRun _)
    · rename_i off
      exact (g.enterLinked (by simp [SlotRec.onLink, run, off]) (by simp) (by simp [run]) (by simp)).askLink
  · exact g.keep (.modRun _)
  · exact g

theorem slotResume (g : s.Whole h live) : (s.slotResume i).Whole h live := by
  simp only [State.slotResume]
  split
  · exact g.returnToRun (.inl ‹_›)
  · exact g.keep (.modRun _)
  · rename_i run
    have g' : (s.modRun i fun r => { r with zonePaused := false }).Whole h live := g.keep (.modRun _)
    split
    · rename_i phase
      exact g'.spinAgain (by simpa using run) (.inr (by simpa using phase))
    · exact g'
  · exact g

theorem slotGrace (g : s.Whole h live) : (s.slotGrace i).Whole h live := by
  unfold State.slotGrace
  split
  · exact g.endByZone (by simp [*, SlotState.runs])
  · exact g.endByZone (by simp [*, SlotState.runs])
  · exact g.endByZone (by simp [*, SlotState.runs])
  · exact g.endByZone (by simp [*, SlotState.runs])
  · split
    · exact g.endByZone (by simp [*, SlotState.runs])
    · exact g
  · exact g

/-- An event applied to one thing after another keeps the rack in order where it does so at each. -/
theorem foldl {α : Type} {f : State → α → State} (each : ∀ s a, s.Whole h live → (f s a).Whole h live) (as : List α)
    (g : s.Whole h live) : (as.foldl f s).Whole h live := by
  induction as generalizing s with
  | nil => exact g
  | cons a as ih => exact ih (each s a g)

theorem onShelf {f : State → SlotNo → State} (each : ∀ s i, s.Whole h live → (f s i).Whole h live)
    (g : s.Whole h live) : (s.onShelf l f).Whole h live := foldl each _ g

/-! ## Zones (R76 to R79, R89 to R93) -/

theorem modZone {f : Zone → Zone} (g : s.Whole h live) : (s.modZone l f).Whole h live := g.keep (.modZone _ _)

theorem notifyTrip (g : s.Whole h live) : (s.notifyTrip l).Whole h live := by
  unfold State.notifyTrip
  split
  · exact g.keep (.notify _)
  · exact g

theorem graceOver (g : s.Whole h live) : (s.graceOver l).Whole h live := by
  unfold State.graceOver
  split
  · exact g.modZone.onShelf fun _ _ g => g.slotGrace
  · exact g

theorem startGrace (g : s.Whole h live) : (s.startGrace l).Whole h live := by
  simp only [State.startGrace]
  split
  · exact g.modZone.graceOver
  · exact g.modZone

theorem addCause (g : s.Whole h live) (c : Cause) : (s.addCause l c).Whole h live := by
  simp only [State.addCause]
  split
  · exact g
  · split
    · exact g.modZone
    · exact (g.modZone.modZone.onShelf fun _ _ g => g.slotTrip).startGrace.notifyTrip
    · exact g.modZone.modZone.notifyTrip

theorem removeCause (g : s.Whole h live) (c : Cause) : (s.removeCause l c).Whole h live := by
  simp only [State.removeCause]
  split
  · split
    · exact g.modZone.keep (.notify _)
    · exact g.modZone
  · exact g

theorem goodReading (g : s.Whole h live) (x : Nat) : (s.goodReading l x).Whole h live := by
  have cleared : ((s.modZone l fun z => { z with air := some x, sensor := .good, reading := false }).removeCause l
      .sensor).Whole h live := g.modZone.removeCause _
  simp only [State.goodReading, State.judgeOverLimit]
  split
  · exact cleared.addCause _
  · split
    · exact cleared.removeCause _
    · exact cleared

theorem badReading (g : s.Whole h live) : (s.badReading l).Whole h live := g.modZone.addCause _

theorem windowEnd (g : s.Whole h live) : (s.windowEnd l).Whole h live := by
  simp only [State.windowEnd]
  split
  · exact g.modZone.removeCause _
  · split
    · exact g.modZone.addCause _
    · exact g.modZone

theorem resumeZone (g : s.Whole h live) : (s.resumeZone l).Whole h live :=
  g.modZone.onShelf fun _ _ g => g.slotResume

/-! ## The dose minute tick (R97) -/

theorem minute (g : s.Whole h live) : s.minute.Whole h live := by
  refine foldl (fun s z g => ?_) _ (foldl (fun s i g => g.tickSlot) _ g)
  unfold State.tickZone
  split
  · exact g.modZone
  · exact g

/-! ## Every link goes on (R61) -/

theorem advanceLinks (g : s.Whole h live) : s.advanceLinks.Whole h live := by
  refine g.keep (.of_same (fun _ => rfl) rfl (fun _ => rfl) (fun l => ?_) rfl rfl)
  have link : s.advanceLinks.link l = (s.link l).advance := by simp [State.link, State.advanceLinks, mapEach]
  exact link ▸ .advance _

end State.On

end Sys2Proof.Machine
end

