-- ==== Sys2Proof/Proofs/OrderHandler.lean ====
section
/-! PROOFS. The handler port, the arbiter and the seat keep the rack in order (chapter 8, R5 to R7). An outcome takes the
current order's slot out of the order of the rack and closes it again with no order current; the port's own state is
set before or after that. -/

namespace Sys2Proof.Machine

variable {s t : State} {h : PortState × Option CurrentOrder} {live : Option CurrentOrder} {P : SlotNo → Prop}
  {i : SlotNo} {b : LaneNo} {c : CurrentOrder} {o : Order} {st : PortState}

/-! ## From the slots to the rack -/

/-- Every slot is in order with the current order the port shows. -/
theorem State.On.inOrder (g : s.Whole h live) (e : s.port.live = live) : s.InOrder :=
  s.inOrder_iff.mpr ⟨g.sound, rfl, fun j m => e.symm ▸ g.at_ j m⟩

theorem State.InOrder.whole (g : s.InOrder) : s.Whole s.port.hold s.port.live := s.inOrder_iff.mp g

/-- A change that keeps the rack in order slot by slot keeps it in order. -/
theorem State.InOrder.of_whole (w : t.Whole s.port.hold s.port.live) : t.InOrder := by
  refine w.inOrder ?_
  obtain ⟨state, current⟩ := Prod.mk.injEq .. |>.mp w.hold
  simp [Port.live, state, current]

theorem State.InOrder.keep (g : s.InOrder) (k : s.Keeps t) : t.InOrder := of_whole (g.whole.keep k)

/-- A change of the port that leaves its queue, its state and its current order. -/
theorem State.InOrder.setPort {x : Port} (g : s.InOrder) (queue : x.queue = s.port.queue)
    (hold : x.hold = s.port.hold) : (s.setPort x).InOrder := of_whole (hold ▸ g.whole.setPort queue)

theorem Port.hold_eq {x : Port} (state : x.state = st) (current : x.current = some c) : x.hold = (st, some c) := by
  simp [Port.hold, state, current]

/-- The port serves an order whose outcome is open. -/
theorem State.InOrder.serving (g : s.InOrder) (e : s.port.currentIn st = some c)
    (waits : st ∈ [.deskew, .offered, .inFlight, .checking]) : s.Whole (st, some c) (some c) := by
  simp only [Port.currentIn] at e
  split at e
  · rename_i state
    have live : s.port.live = some c := by
      simp only [List.mem_cons, List.not_mem_nil, or_false] at waits
      rcases waits with rfl | rfl | rfl | rfl <;> simp [Port.live, state, e]
    exact Port.hold_eq state e ▸ live ▸ g.whole
  · cases e

/-! ## The slot of the current order (R23, R157, R158) -/

theorem State.On.port (g : s.On (st, some c) live P) : s.port.state = st ∧ s.port.current = some c :=
  Prod.mk.injEq .. |>.mp g.hold

/-- The current order's slot is idle, and no other order is queued for it. -/
theorem State.SlotAt.served (a : s.SlotAt (some c) c.order.slot) :
    s.Idle c.order.slot ∧ (∀ o ∈ s.port.queue, o.slot ≠ c.order.slot) ∧
      c.order.kind.servedIn (s.slot c.order.slot) := by
  obtain ⟨once, fit⟩ := a.current c rfl rfl
  refine ⟨?_, once, fit⟩
  cases k : c.order.kind <;> simp only [k, OrderKind.servedIn] at fit
  · exact a.idle (by simp [fit, SlotState.rests]) (by simp [fit])
  · exact a.idle (by simp [fit, SlotState.rests]) (by simp [fit])

/-- The slot of an insertion has its latch engaged (R8). -/
theorem State.SlotAt.insertEngaged (a : s.SlotAt (some c) c.order.slot) (k : c.order.kind = .insert) :
    (s.slot c.order.slot).latch = .engaged := by
  cases e : (s.slot c.order.slot).latch with
  | engaged => rfl
  | released =>
    obtain ⟨d, b, e, -, kind⟩ := a.latch e
    simp [← Option.some.inj e, k] at kind

/-- With no order current, a slot's latch is engaged. -/
theorem State.SlotAt.engaged (a : s.SlotAt live i) (notLive : ∀ c, live = some c → c.order.slot ≠ i) :
    (s.slot i).latch = .engaged := by
  cases e : (s.slot i).latch with
  | engaged => rfl
  | released =>
    obtain ⟨d, b, e, r, -⟩ := a.latch e
    exact absurd r (notLive d e)

theorem State.Idle.congr (a : s.Idle i) (slot : (t.slot i).standing = (s.slot i).standing)
    (queue : t.permitQueue = s.permitQueue) (link : t.link (shelfOf i) = s.link (shelfOf i)) : t.Idle i := by
  obtain ⟨-, -, -, w, m, -, p, g, l⟩ := SlotRec.standing_fields slot
  exact ⟨w.trans a.power, m.trans a.permit, queue ▸ a.unqueued, p.trans a.phase, g.trans a.granted, l.trans a.limit,
    link ▸ a.unknown, link ▸ a.unsummed⟩

theorem State.engage_slot_same (s : State) (i : SlotNo) : (s.engage i).slot i = { s.slot i with latch := .engaged } :=
  s.slot_modSlot_same i _

theorem State.Idle.engage (a : s.Idle i) : (s.engage i).Idle i := by
  have slot := s.engage_slot_same i
  exact ⟨by rw [slot]; exact a.power, by rw [slot]; exact a.permit, a.unqueued, by rw [slot]; exact a.phase,
    by rw [slot]; exact a.granted, by rw [slot]; exact a.limit, a.unknown, a.unsummed⟩

theorem State.Idle.withdrawOrder (a : s.Idle i) : (s.withdrawOrder i).Idle i := a.congr rfl rfl rfl

/-- The orders of a slot withdrawn, it has none. -/
theorem State.NoOrder.withdrawn (latch : (s.slot i).latch = .engaged)
    (notLive : ∀ c, live = some c → c.order.slot ≠ i) : (s.withdrawOrder i).NoOrder live i :=
  ⟨latch, by simp [State.withdrawOrder], notLive⟩

namespace State.On

/-- The order current is no more, with its slot out of order. -/
theorem relieved (g : s.Whole h (some c)) : s.On h none (butAt (fun _ => True) c.order.slot) :=
  (g.but c.order.slot).relive (fun _ e k => by obtain rfl := Option.some.inj e; exact k.2 rfl) (by simp)

/-- The teardown of an idle slot (R7, R23). -/
theorem teardownIdle (g : s.On h live (butAt P i)) (a : s.Idle i) (notLive : ∀ c, live = some c → c.order.slot ≠ i)
    (plan : (s.slot i).plan = none) : (s.teardown i).On h live P := by
  have off := a.over.powerOff
  have kept : (s.powerOff i).dropPermit i = s.powerOff i := by unfold State.dropPermit; rw [off.permit]
  let u := ((s.powerOff i).leaveLink i).withdrawOrder i
  have moved : State.Moves i s u := ((State.Moves.powerOff s i).trans (.leaveLink _ i)).trans (.withdrawOrder _ i)
  have planU : (u.slot i).plan = none := by simpa [u, State.withdrawOrder, State.leaveLink] using plan
  have unqueued : i ∉ u.permitQueue := off.unqueued
  have link : u.link (shelfOf i) = ((s.powerOff i).link (shelfOf i)).leave i := by
    simp [u, State.withdrawOrder, State.leaveLink]
  have unknown : (u.link (shelfOf i)).knows i = false := by rw [link]; simp
  have unsummed : ∀ op ∈ (u.link (shelfOf i)).summary, op.slot ≠ i := fun op m => by
    rw [link] at m
    exact off.unsummed op (Link.leave_summary i _ m).1
  have unordered : ∀ o ∈ u.port.queue, o.slot ≠ i := by simp [u, State.withdrawOrder]
  simp only [State.teardown, kept]
  change (State.enterVacant (if (u.slot i).state.runs then u.recordEnd i .removed else u) i _).On h live P
  split
  · exact ((g.move (not_butAt P i) moved).move (not_butAt P i) (.recordEnd u i _)).enterVacant (by simp)
      (by simpa using unqueued) (by simpa using unknown) (by simpa using unsummed) (by simpa using unordered) notLive
  · exact (g.move (not_butAt P i) moved).enterVacant planU unqueued unknown unsummed unordered notLive

/-- An extraction comes back to its slot (R23). -/
theorem extractBack (g : s.Whole h (some c)) (k : c.order.kind = .extract b) (why : HoldReason) :
    (s.extractBack c.order.slot why).Whole h none := by
  obtain ⟨idle, once, fit⟩ := (g.at_ c.order.slot trivial).served
  simp only [k, OrderKind.servedIn] at fit
  have plan := (g.at_ c.order.slot trivial).fits.planDropped (by simp [fit])
  have moved := g.relieved.move (not_butAt _ _) (State.Moves.modSlot (s := s) (f := fun r => { r with latch := .engaged }) rfl)
  simp only [State.extractBack]
  split
  · exact moved.teardownIdle idle.engage (by simp) (by simpa using plan)
  · exact moved.enterIdle idle.engage ⟨by simp, once, by simp⟩ rfl fun _ => by simpa using plan

/-- An insertion ends without a seated drive (R23, R32). -/
theorem insertBack (g : s.Whole h (some c)) (k : c.order.kind = .insert) :
    (s.insertBack c.order.slot).Whole h none := by
  have a := g.at_ c.order.slot trivial
  obtain ⟨idle, once, -⟩ := a.served
  have moved := g.relieved.move (not_butAt _ _) (State.Moves.dropPlan s c.order.slot)
  have idle' : (s.dropPlan c.order.slot).Idle c.order.slot :=
    ⟨by simpa using idle.power, by simpa using idle.permit, by simpa using idle.unqueued, by simpa using idle.phase,
      by simpa using idle.granted, by simpa using idle.limit, by simpa using idle.unknown, by simpa using idle.unsummed⟩
  simp only [State.insertBack]
  split
  · exact moved.enterVacant (by simp) idle'.unqueued idle'.unknown idle'.unsummed (by simpa using once) (by simp)
  · exact moved.enterIdle idle' ⟨by simpa using a.insertEngaged k, by simpa using once, by simp⟩ rfl (by simp)

theorem orderBack (g : s.Whole h (some c)) (why : HoldReason) : (s.orderBack c.order why).Whole h none := by
  unfold State.orderBack
  split
  · exact g.extractBack ‹_› why
  · exact g.insertBack ‹_›


end State.On

theorem State.Keeps.endAtCarton (s : State) (o : Order) : s.Keeps (s.endAtCarton o) :=
  .cartons (by simp [State.sameBeyondCartons_refl])

theorem State.Keeps.handshakeOver (s : State) (o : Order) : s.Keeps (s.handshakeOver o) :=
  .cartons (by simp [State.sameBeyondCartons_refl])

namespace State.On

/-- An end other than confirmation (R158, R160). -/
theorem orderFails (g : s.Whole h (some c)) (e : HandlerEvent) (why : HoldReason) :
    (s.orderFails c.order e why).Whole h none :=
  ((g.keep (.endAtCarton s c.order)).keep (.notify _)).orderBack why

/-- A confirmed order (R157). -/
theorem orderConfirmed (g : s.Whole h (some c)) : (s.orderConfirmed c.order).Whole h none := by
  have a := g.at_ c.order.slot trivial
  unfold State.orderConfirmed
  split
  · rename_i b k
    have counted : s.Keeps (s.countIn c.order.slot b) := .cartons (by simp [State.sameBeyondCartons_refl])
    have g' := g.keep counted
    obtain ⟨idle, once, fit⟩ := (g'.at_ c.order.slot trivial).served
    simp only [k, OrderKind.servedIn] at fit
    exact g'.relieved.enterVacant ((g'.at_ c.order.slot trivial).fits.planDropped (by simp [fit])) idle.unqueued
      idle.unknown idle.unsummed once (by simp)
  · rename_i k
    obtain ⟨idle, once, -⟩ := a.served
    exact g.relieved.enterSeated trivial (fun _ _ => trivial) idle ⟨a.insertEngaged k, once, by simp⟩

/-! ## The handshake (R151 to R156) -/

/-- The port takes a state in which no order waits for its outcome. -/
theorem settle {x : Port} (g : s.Whole h none) (settled : x.state = .idle ∨ x.state = .confirming ∨ x.state = .fault)
    (queue : x.queue = s.port.queue := by rfl) : (s.setPort x).InOrder := by
  refine (g.setPort queue).inOrder ?_
  rcases settled with e | e | e <;> simp [Port.live, e]

theorem endHandshake (g : s.Whole h none) (c : CurrentOrder) (o : PortOutcome) : (s.endHandshake c o).InOrder := by
  unfold State.endHandshake State.portIdle
  split
  · exact g.settle (.inl (by rfl))
  · split
    · exact g.settle (.inr (.inl (by rfl)))
    · exact g.settle (.inl (by rfl))

theorem portFault (g : s.Whole h none) (why : FaultReason) (o : Order) : (s.portFault why o).InOrder := by
  have settled : (s.setPort { s.port.cleared .fault with fault := some why }).InOrder := g.settle (.inr (.inr rfl))
  exact settled.keep (.notify _)

theorem confirm (g : s.Whole h (some c)) : (s.confirm c).InOrder := g.orderConfirmed.endHandshake c .done

/-- The port goes on with its current order. -/
theorem serve {x : Port} (g : s.Whole h (some c)) (current : x.current = some c) (state : x.state = st := by rfl)
    (queue : x.queue = s.port.queue := by rfl) : (s.setPort x).Whole (st, some c) (some c) :=
  Port.hold_eq state current ▸ g.setPort queue

theorem serveInOrder (g : s.Whole (st, some c) (some c)) (waits : st ∈ [.deskew, .offered, .inFlight, .checking]) :
    s.InOrder := by
  refine g.inOrder ?_
  simp only [List.mem_cons, List.not_mem_nil, or_false] at waits
  rcases waits with rfl | rfl | rfl | rfl <;> simp [Port.live, g.port.1, g.port.2]

theorem takeDone (g : s.Whole (st, some c) (some c)) : (s.takeDone c).InOrder := by
  have checking : (s.setPort { s.port with state := .checking, outcome := some .done, timer := none }).Whole
      (.checking, some c) (some c) := g.serve g.port.2
  simp only [State.takeDone]
  split
  · exact checking.confirm
  · exact State.On.serveInOrder (st := .checking) (checking.serve g.port.2) (by simp)

theorem takeFail (g : s.Whole (st, some c) (some c)) : (s.takeFail c).InOrder :=
  ((g.serve (x := { s.port with outcome := some .fail, timer := none }) g.port.2 g.port.1).orderFails _ _).endHandshake
    c .fail

theorem takeOutcome (g : s.Whole (st, some c) (some c)) (o : PortOutcome) : (s.takeOutcome c o).InOrder := by
  unfold State.takeOutcome
  split
  · exact g.takeFail
  · split
    · exact g.takeFail
    · exact g.takeDone

theorem takeAccept (g : s.Whole (st, some c) (some c)) : (s.takeAccept c).InOrder := by
  have flying := g.serve (x := { s.port with
    state := .inFlight, acceptTimeouts := 0
    timer := some { kind := .completion, expiry := Time.after s.now (c.settings.completionS * 1000) } }) g.port.2
  unfold State.takeAccept State.readLines
  split
  · split
    · exact flying.takeFail
    · split
      · exact flying.takeDone
      · exact flying.serveInOrder (by simp)
  · exact flying.serveInOrder (by simp)

theorem raiseOffer (g : s.Whole (st, some c) (some c)) : (s.raiseOffer c).InOrder := by
  have offered := g.serve (x := { s.port with
    state := .offered, timer := some { kind := .accept, expiry := Time.after s.now (c.settings.acceptS * 1000) } })
    g.port.2
  simp only [State.raiseOffer]
  split
  · exact offered.takeAccept
  · exact offered.serveInOrder (by simp)

/-! ## An order returned (R153) -/

/-- A returned extraction: its slot is out of order until the slot's side of it is done. -/
theorem extractReturned (g : s.On h none (butAt (fun _ => True) o.slot)) (k : o.kind = .extract b) (a : s.Idle o.slot)
    (plan : (s.slot o.slot).plan = none)
    (ordered : ∀ q ∈ s.port.queue, q.slot = o.slot → ∃ b, q.kind = .extract b) : (s.orderReturned o).Whole h none := by
  have engaged := s.engage_slot_same o.slot
  have moved := g.move (not_butAt _ _) (State.Moves.modSlot (s := s) (f := fun r => { r with latch := .engaged }) rfl)
  have latch : ((s.engage o.slot).slot o.slot).latch = .engaged := by rw [engaged]
  have plan' : ((s.engage o.slot).slot o.slot).plan = none := by rw [engaged]; exact plan
  simp only [State.orderReturned, k]
  split
  · exact moved.teardownIdle a.engage (by simp) plan'
  · split
    · exact (moved.move (not_butAt _ _) (.withdrawOrder _ _)).enterIdle a.engage.withdrawOrder
        (.withdrawn latch (by simp)) rfl fun _ => plan'
    · refine (moved.move (not_butAt _ _) (.enter .graded none)).close (.of_waiting a.engage.enter (by rw [State.enter_slot_same]; exact latch) ?_
        (by simp) (by simp [SlotState.rests]) fun _ => by rw [State.enter_slot_same]; exact plan')
      intro q m e
      obtain ⟨b, kind⟩ := ordered q (by simpa using m) e
      simp [kind, OrderKind.waitsIn]

/-- A returned insertion, back in the queue (R153 items 2 and 3). -/
theorem insertReturned (g : s.Whole h none) (k : o.kind = .insert) (m : (s.slot o.slot).state = .loadWait) :
    (s.orderReturned o).Whole h none := by
  have a := g.at_ o.slot trivial
  simp only [State.orderReturned, k]
  split
  · exact ((g.but o.slot).move (not_butAt _ _) (.withdrawOrder _ _)).enterSeated trivial (fun _ _ => trivial)
      (a.idle (by simp [m, SlotState.rests]) (by simp [m])).withdrawOrder (.withdrawn (a.engaged (by simp)) (by simp))
  · exact g

end State.On

theorem returnOrder_perm (o : Order) (q : List Order) : List.Perm (returnOrder o q) (o :: q) := by
  induction q with
  | nil => exact .refl _
  | cons x q ih =>
    unfold returnOrder
    split
    · exact .refl _
    · exact (ih.cons x).trans (.swap o x q)

namespace State.On

/-- The accept timer's order is back in the queue, and its slot out of order. -/
theorem returned {x : Port} (g : s.Whole h (some c)) (queue : x.queue = returnOrder c.order s.port.queue) :
    (s.setPort x).On x.hold none (butAt (fun _ => True) c.order.slot) := by
  have perm := returnOrder_perm c.order s.port.queue
  obtain ⟨-, once, -⟩ := (g.at_ c.order.slot trivial).served
  have b := g.relieved
  refine ⟨⟨b.sound.counted, b.sound.own, b.sound.links, b.sound.summaries, ?_⟩, rfl, fun j m => ?_⟩
  · rw [State.setPort_port, queue, perm.pairwise_iff fun e => e.symm, List.pairwise_cons]
    exact ⟨fun q m => (once q m).symm, g.sound.orders⟩
  · refine (b.at_ j m).spared ⟨rfl, id, fun _ _ => rfl, rfl, fun op m e => ⟨op, m, e⟩, fun q mq e => ?_⟩
    rw [State.setPort_port, queue, perm.mem_iff] at mq
    rcases List.mem_cons.mp mq with rfl | mq
    · exact absurd e.symm m.2
    · exact mq

/-- The accept timer expires (R153). -/
theorem acceptOver (g : s.Whole h (some c)) : (s.acceptOver c).InOrder := by
  have a := g.at_ c.order.slot trivial
  obtain ⟨idle, once, fit⟩ := a.served
  have back := g.returned (x := { s.port.cleared .idle with queue := returnOrder c.order s.port.queue }) rfl
  have orders : ∀ q ∈ returnOrder c.order s.port.queue, q.slot = c.order.slot → q = c.order := fun q m e => by
    rcases List.mem_cons.mp ((returnOrder_perm _ _).mem_iff.mp m) with rfl | m
    · rfl
    · exact absurd e (once q m)
  have done : ∀ n, let t := s.setPort { s.port.cleared .idle with queue := returnOrder c.order s.port.queue }
      ((t.endAtCarton c.order).handlerNotice c.order .acceptTimeout n fun x => x.orderReturned c.order).Whole (.idle, none)
        none := fun n => by
    intro t
    have k := (State.Keeps.endAtCarton t c.order).trans (.notify (.handlerSlot c.order.slot .acceptTimeout c.order
      (((t.endAtCarton c.order).orderReturned c.order).slot c.order.slot).state n))
    obtain ⟨state, plan, -⟩ := SlotRec.standing_fields (k.spares c.order.slot).slot
    cases kind : c.order.kind with
    | insert =>
      simp only [kind, OrderKind.servedIn] at fit
      have whole : t.Whole (.idle, none) none := by
        refine back.close (.of_waiting (idle.congr rfl rfl rfl) (a.insertEngaged kind) ?_ (by simp) ?_ ?_)
        · intro q m e
          rw [orders q m e, kind]
          exact ⟨.inl fit.1, fit.2⟩
        · simp [fit.1, SlotState.rests]
        · simp [fit.1]
      exact (whole.keep k).insertReturned kind (state.trans fit.1)
    | extract b =>
      simp only [kind, OrderKind.servedIn] at fit
      refine (back.keep k).extractReturned kind ((idle.congr (t := t) rfl rfl rfl).spared (k.spares _))
        (plan.trans (a.fits.planDropped (by simp [fit]))) fun q m e => ⟨b, ?_⟩
      rw [orders q ((k.spares _).orders q m e) e, kind]
  simp only [State.acceptOver]
  split
  · exact (done _ |>.setPort (by rfl)).portFault _ _
  · exact (done _).settle (.inl (Prod.mk.injEq .. |>.mp (done _).hold).1)

/-! ## Dispatch (R149 to R151) -/

/-- An order is dispatched to its slot, which is in the state R147 or R148 asks for. -/
theorem dispatch (g : s.Whole h none) (m : o ∈ s.port.queue)
    (fit : o.kind = .insert → (s.slot o.slot).state = .loadWait) (n : Nat) : (s.dispatch o n).InOrder := by
  have a := g.at_ o.slot trivial
  have waits := a.ordered o m rfl
  let x : Port := { s.port with
    queue := s.port.queue.filter (·.slot ≠ o.slot), current := some { order := o, settings := s.port.settings },
    streak := n, state := .deskew }
  have begun : (s.setPort x).On (.deskew, some { order := o, settings := s.port.settings })
      (some { order := o, settings := s.port.settings }) (butAt (fun _ => True) o.slot) :=
    (((g.but o.slot).move (not_butAt _ _) (.withdrawOrder s o.slot)).setPort (x := x) rfl).relive (by simp) fun c e k => by
      obtain rfl := Option.some.inj e
      exact k.2 rfl
  have rest : (s.slot o.slot).state.rests = true ∧ (s.slot o.slot).state ≠ .powering := by
    cases k : o.kind <;> simp only [k, OrderKind.waitsIn] at waits
    · simp [fit k, SlotState.rests]
    · simp [waits, SlotState.rests]
  have idle := a.idle rest.1 rest.2
  have unordered : ∀ q ∈ x.queue, q.slot ≠ o.slot := by simp [x]
  have under {u : State} (w : u.Whole (.deskew, some { order := o, settings := s.port.settings })
      (some { order := o, settings := s.port.settings })) :
      (if s.port.settings.deskew = 0 then u.raiseOffer { order := o, settings := s.port.settings }
        else u.setPort { u.port with
          timer := some { kind := .deskew, expiry := Time.after u.now s.port.settings.deskew } }).InOrder := by
    split
    · exact w.raiseOffer
    · exact State.On.serveInOrder (st := .deskew) (w.serve (by exact w.port.2) (by exact w.port.1)) (by simp)
  unfold State.dispatch
  cases k : o.kind with
  | insert =>
    simp only [k, OrderKind.waitsIn] at waits
    refine under (begun.close (.of_rest (idle.congr rfl rfl rfl) rest.1 (fun q => ?_) (fun q m e => ?_) (fun d e _ => ?_)
      fun q => ?_))
    · exact a.fits.planDropped q
    · exact absurd e (unordered q m)
    · obtain rfl := Option.some.inj e
      exact ⟨unordered, by simpa [k, OrderKind.servedIn] using ⟨fit k, waits.2⟩⟩
    · obtain ⟨d, -, e, -⟩ := a.latch q
      cases e
  | extract b =>
    simp only [k, OrderKind.waitsIn] at waits
    have plan := a.fits.planDropped (by simp [waits])
    refine under (((begun.keep (.setRing _)).move (not_butAt _ _) ((State.Moves.modSlot rfl).trans (.enter _ _))).close
      (.of_rest ?_ ?_ ?_ ?_ ?_ ?_))
    · exact State.Idle.enter ⟨by simpa using idle.power, by simpa using idle.permit, idle.unqueued,
        by simpa using idle.phase, by simpa using idle.granted, by simpa using idle.limit, idle.unknown, idle.unsummed⟩
    · simp [SlotState.rests]
    · simpa using plan
    · intro q m e
      exact absurd e (unordered q (by simpa using m))
    · intro d e _
      obtain rfl := Option.some.inj e
      exact ⟨by simpa using unordered, by simp [k, OrderKind.servedIn]⟩
    · exact fun _ => ⟨_, b, rfl, rfl, k⟩

end State.On

end Sys2Proof.Machine
end

