-- ==== Sys2Proof/Proofs/OrderRack.lean ====
section
/-! PROOFS. Seats, served requests, RESTART and power-on keep the rack in order, and so does every command. -/

namespace Sys2Proof.Machine

variable {s t u : State} {h : PortState × Option CurrentOrder} {live : Option CurrentOrder} {P : SlotNo → Prop}
  {i : SlotNo} {b : LaneNo} {c : CurrentOrder} {st : PortState}

/-! ## The end of an event (R60, R61, R149, R192) -/

namespace State.InOrder

theorem arbitrate (g : s.InOrder) : s.arbitrate.InOrder := by
  have dispatched {o : Order} {n : Nat} (idle : s.port.state = .idle) (m : o ∈ s.port.queue) (e : s.eligible o = true) :
      (s.dispatch o n).InOrder := by
    refine State.On.dispatch (h := s.port.hold) ?_ m (fun k => ?_) n
    · have live : s.port.live = none := by simp [Port.live, idle]
      exact live ▸ g.whole
    · simp only [State.eligible, State.orderTest, k] at e
      split at e
      · cases e
      · split at e
        · cases e
        · split at e
          · cases e
          · exact not_not.mp ‹_›
  have inserts {o : Order} {n : Nat} (idle : s.port.state = .idle) (e : s.oldestInsert = some o) :
      (s.dispatch o n).InOrder := by
    have := List.find?_some e
    simp only [Bool.and_eq_true] at this
    exact dispatched idle (List.mem_of_find?_eq_some e) this.2
  have extracts {o : Order} {n : Nat} (idle : s.port.state = .idle) (e : s.oldestExtract = some o) :
      (s.dispatch o n).InOrder := by
    have := List.find?_some e
    simp only [Bool.and_eq_true] at this
    exact dispatched idle (List.mem_of_find?_eq_some e) this.2
  unfold State.arbitrate
  split
  · rename_i idle
    unfold State.arbiter
    split
    · exact g.setPort rfl rfl
    · exact extracts idle ‹_›
    · exact inserts idle ‹_›
    · split
      · exact extracts idle ‹_›
      · exact inserts idle ‹_›
  · exact g

theorem setLine {x : Line} (g : s.InOrder) : (s.setLine x).InOrder := g.keep (.setLine _)

theorem finish (g : s.InOrder) : s.finish.InOrder := by
  have linked : s.advanceLinks.InOrder := of_whole g.whole.advanceLinks
  exact linked.arbitrate.setLine

theorem of_finish (g : t.Whole s.port.hold s.port.live) : t.finish.InOrder := (of_whole g).finish

/-! ## The seat (R5 to R7) -/

/-- A slot waits for no order that is current in this state. -/
theorem notLive (g : s.InOrder) (away : (s.slot i).state ∉ [.loadWait, .unloading]) :
    ∀ c, s.port.live = some c → c.order.slot ≠ i := fun c e k => by
  have fit := ((g.whole.at_ i trivial).current c e k).2
  cases kind : c.order.kind <;> simp only [kind, OrderKind.servedIn] at fit <;> simp [fit] at away

theorem orderQueued_iff (s : State) (i : SlotNo) : s.orderQueued i = true ↔ ∃ o ∈ s.port.queue, o.slot = i := by
  simp [State.orderQueued]

theorem rawSeat (g : s.InOrder) (v : Seat) : (s.rawSeat i v).InOrder := by
  have k : s.Keeps (s.modSlot i fun r => { r with seatRaw := v, debounce := some (Time.after s.now s.spin.debounceMs) }) :=
    .modSlot rfl
  simp only [State.rawSeat]
  split
  · exact g
  · split
    · rename_i closes
      obtain ⟨-, -, st⟩ := closes
      have notLive : ∀ c, s.port.live = some c → c.order.slot ≠ i := by
        rcases st with e | ⟨-, q⟩
        · exact g.notLive (by simp [e])
        · obtain ⟨o, m, e⟩ := (orderQueued_iff s i).mp q
          exact (g.whole.at_ i trivial).notLive_of_queued m e
      have rest : (s.slot i).state.rests = true ∧ (s.slot i).state ≠ .powering := by
        rcases st with e | ⟨e, -⟩ <;> simp [e, SlotState.rests]
      have a := g.whole.at_ i trivial
      have w := g.whole.keep k
      refine of_whole (((w.but i).move (not_butAt _ i) (.enter .seating none)).close (.of_waiting ?_ ?_ ?_ notLive ?_ ?_))
      · exact ((a.idle rest.1 rest.2).spared (k.spares i)).enter
      · simpa using a.engaged notLive
      · intro o m e
        have waits := a.ordered o (by simpa using m) e
        cases kind : o.kind <;> simp only [kind, OrderKind.waitsIn] at waits
        · simpa [OrderKind.waitsIn] using waits.2
        · rcases st with e | ⟨e, -⟩ <;> simp [e] at waits
      · simp [SlotState.rests]
      · simp
    · exact g.keep k

theorem seatEvidence (g : s.InOrder) : (s.seatEvidence i).InOrder := by
  unfold State.seatEvidence
  split
  · rename_i c e
    split
    · rename_i taken
      simp only [Bool.and_eq_true, decide_eq_true_eq] at taken
      have checking : s.port.state = .checking := taken.1.1
      exact (g.serving (st := .checking) (by simp [Port.currentIn, checking, e]) (by simp)).confirm
    · exact g
  · exact g

/-- A slot with no order that is current goes to SEATED, its queued order withdrawn (R6, R23). -/
theorem seated (g : s.InOrder) (rest : (s.slot i).state.rests = true) (still : (s.slot i).state ≠ .powering)
    (notLive : ∀ c, s.port.live = some c → c.order.slot ≠ i) : ((s.withdrawOrder i).enterSeated i).InOrder := by
  have a := g.whole.at_ i trivial
  exact of_whole (((g.whole.but i).move (not_butAt _ i) (.withdrawOrder s i)).enterSeated trivial (fun _ _ => trivial)
    (a.idle rest still).withdrawOrder (.withdrawn (a.engaged notLive) notLive))

theorem seatClosed (g : s.InOrder) : (s.seatClosed i).InOrder := by
  unfold State.seatClosed
  split
  · exact g.seated (by simp [*, SlotState.rests]) (by simp [*]) (g.notLive (by simp [*]))
  · exact g.seated (by simp [*, SlotState.rests]) (by simp [*]) (g.notLive (by simp [*]))
  · split
    · rename_i q
      obtain ⟨o, m, e⟩ := (orderQueued_iff s i).mp q
      exact g.seated (by simp [*, SlotState.rests]) (by simp [*]) ((g.whole.at_ i trivial).notLive_of_queued m e)
    · exact g.seatEvidence
  · exact g.seatEvidence

theorem teardown (g : s.InOrder) (away : (s.slot i).state ∉ [.loadWait, .unloading])
    (plan : (s.slot i).state.runs = false → (s.slot i).plan = none) : (s.teardown i).InOrder :=
  of_whole (g.whole.teardown trivial (fun _ _ => trivial) (g.notLive away) plan)

theorem seatOpened (g : s.InOrder) : (s.seatOpened i).InOrder := by
  have f := (g.whole.at_ i trivial).fits.planDropped
  unfold State.seatOpened
  split
  case h_10 => exact g.seatEvidence
  all_goals
    rename_i e
    exact g.teardown (by simp [e]) fun idle => f (by simp_all [SlotState.runs])

theorem debounceOver (g : s.InOrder) : (s.debounceOver i).InOrder := by
  have k : s.Keeps (s.modSlot i fun r => { r with debounce := none, seatStable := r.seatRaw }) := .modSlot rfl
  have g' := g.keep k
  simp only [State.debounceOver]
  generalize s.modSlot i (fun r => { r with debounce := none, seatStable := r.seatRaw }) = u at k g'
  obtain ⟨state, plan, -⟩ := SlotRec.standing_fields (k.spares i).slot
  split
  · split
    · rename_i e
      have e' : (u.slot i).state = .seating := state.trans e
      have a := g'.whole.at_ i trivial
      have notLive := g'.notLive (i := i) (by simp [e'])
      have idle := a.idle (by simp [e', SlotState.rests]) (by simp [e'])
      have waits (o : Order) (m : o ∈ u.port.queue) (k : o.slot = i) : o.kind = .insert ∧ (u.slot i).plan ≠ none := by
        have fit := a.ordered o m k
        cases kind : o.kind <;> simp only [kind, OrderKind.waitsIn] at fit
        · exact ⟨rfl, fit.2⟩
        · simp [e'] at fit
      split
      · refine of_whole (((g'.whole.but i).move (not_butAt _ i) (.enter .loadWait none)).close (.of_waiting idle.enter
          (by simpa using a.engaged notLive) (fun o m k => ?_) notLive (by simp [SlotState.rests]) (by simp)))
        obtain ⟨kind, has⟩ := waits o (by simpa using m) k
        simpa [kind, OrderKind.waitsIn] using has
      · rename_i planless
        have free : (u.slot i).plan = none := by rw [plan]; simpa using planless
        exact of_whole ((g'.whole.but i).enterVacant free idle.unqueued idle.unknown idle.unsummed
          (fun o m k => (waits o m k).2 free) notLive)
    · exact g'
  · split
    · exact g'.seatClosed
    · exact g'.seatOpened

end State.InOrder

/-! ## Requests served (R14, R24 to R28, R33, R136) -/

@[simp] theorem State.assignPlan_slot_same (s : State) (i : SlotNo) (p : PlanNo) :
    (s.assignPlan i p).slot i = { s.slot i with plan := some p } := by
  simp [State.assignPlan, State.countPlan]
@[simp] theorem State.assignPlan_permitQueue (s : State) (i : SlotNo) (p : PlanNo) :
    (s.assignPlan i p).permitQueue = s.permitQueue := rfl
@[simp] theorem State.assignPlan_link (s : State) (i : SlotNo) (p : PlanNo) (l : ShelfNo) :
    (s.assignPlan i p).link l = s.link l := rfl
@[simp] theorem State.assignPlan_port (s : State) (i : SlotNo) (p : PlanNo) : (s.assignPlan i p).port = s.port := rfl

theorem State.Idle.assignPlan {p : PlanNo} (a : s.Idle i) : (s.assignPlan i p).Idle i :=
  ⟨by simpa using a.power, by simpa using a.permit, a.unqueued, by simpa using a.phase, by simpa using a.granted,
    by simpa using a.limit, a.unknown, a.unsummed⟩

namespace State.On

/-- A slot at rest without an order takes a plan. -/
theorem assigned {p : PlanNo} (g : s.Whole h live) (st : (s.slot i).state = .vacant ∨ (s.slot i).state = .seated ∨
    (s.slot i).state = .held) :
    (s.assignPlan i p).On h live (butAt (fun _ => True) i) ∧ (s.assignPlan i p).Idle i ∧
      (s.assignPlan i p).NoOrder live i := by
  have a := g.at_ i trivial
  have plan : (s.slot i).plan = none := a.fits.planDropped (by rcases st with e | e | e <;> simp [e])
  refine ⟨(g.but i).move (not_butAt _ i) (.assignPlan plan), State.Idle.assignPlan (a.idle ?_ ?_),
    (a.noOrder ?_).congr (by simp) rfl⟩
  · rcases st with e | e | e <;> simp [e, SlotState.rests]
  · rcases st with e | e | e <;> simp [e]
  · rcases st with e | e | e <;> simp [e]

theorem openSlot {p : PlanNo} (g : s.Whole h live) (vacant : (s.slot i).state = .vacant) :
    (s.openSlot i p).Whole h live := by
  obtain ⟨on, idle, n⟩ := g.assigned (p := p) (.inl vacant)
  exact (on.enterIdle (st := .loadWait) (o := none) idle n rfl (by simp)).joinOrder (by simpa using n.unordered) n.notLive
    (by simp [OrderKind.waitsIn])

theorem startAssigned {p : PlanNo} {again : Bool} (g : s.Whole h live) (st : (s.slot i).state = .vacant ∨
    (s.slot i).state = .seated ∨ (s.slot i).state = .held) : ((s.assignPlan i p).startRun i again).Whole h live := by
  obtain ⟨on, idle, n⟩ := g.assigned (p := p) st
  exact on.startRun trivial (fun _ _ => trivial) idle n

theorem suspend (g : s.Whole h live) (may : (s.slot i).suspendable = true) : (s.suspend i).Whole h live := by
  have on : (s.slot i).onLink = true ∧ (s.slot i).state ≠ .ending := by
    simp only [SlotRec.suspendable, Bool.or_eq_true, Bool.and_eq_true, decide_eq_true_eq] at may
    rcases may with e | ⟨e, off⟩ <;> simp_all [SlotRec.onLink]
  simp only [State.suspend]
  split
  · have k := State.Keeps.modRun (s := s) (i := i) fun r => { r with zonePaused := true }
    have standing := (k.spares i).slot
    exact ((g.keep k).enterLinked ((SlotRec.standing_onLink standing).trans on.1) (by simp)
      (by rw [(SlotRec.standing_fields standing).1]; exact on.2) (by simp)).askLink
  · exact (g.enterLinked on.1 (by simp) on.2 (by simp)).askLink

theorem continueSlot (g : s.Whole h live) (review : (s.slot i).state = .review) : (s.continueSlot i).Whole h live := by
  unfold State.continueSlot
  split
  · have k := State.Keeps.modRun (s := s) (i := i) fun r => { r with zonePaused := true }
    have standing := (k.spares i).slot
    exact (g.keep k).enterLinked ((SlotRec.standing_onLink standing).trans (by simp [SlotRec.onLink, review])) (by simp)
      (by rw [(SlotRec.standing_fields standing).1]; simp [review]) (by simp)
  · exact g.returnToRun (.inr review)

theorem releaseSlot (g : s.Whole h live) (held : (s.slot i).state = .held) : (s.releaseSlot i b).Whole h live := by
  have k := State.Keeps.modRun (s := s) (i := i) fun r =>
    { r with verdict := r.verdict.map fun v => { v with bin := binOf b } }
  have a := (g.keep k).at_ i trivial
  have n := a.noOrder (by simp [held])
  exact (((g.keep k).but i).enterIdle (st := .graded) (o := none) (a.idle (by simp [held, SlotState.rests])
    (by simp [held])) n rfl fun _ => a.fits.planDropped (by simp [held])).joinOrder (by simpa using n.unordered) n.notLive
    (by simp [OrderKind.waitsIn])

/-- The settings of the permits change, and the queue is tested (R14). -/
theorem spinSet {x : SpinSettings} (g : s.Whole h live) : ({ s with spin := x } : State).testGrants.Whole h live := by
  have set : ({ s with spin := x } : State).Whole h live := g.keep (.other rfl rfl rfl rfl rfl)
  exact set.testGrants fun _ _ => trivial

/-- A plan that no slot names is loaded (R33). -/
theorem planLoaded {p : PlanNo} {steps : List PlanStep} (g : s.Whole h live) (unused : (s.plan p).refs = 0) :
    (s.setPlan p { s.plan p with steps := steps }).Whole h live := by
  refine ⟨⟨fun q => ?_, g.sound.own, g.sound.links, g.sound.summaries, g.sound.orders⟩, g.hold, fun j m => (g.at_ j m).spared
    ⟨rfl, id, fun q e => ?_, rfl, fun op m e => ⟨op, m, e⟩, fun _ m _ => m⟩⟩
  · by_cases e : q = p
    · subst e
      rw [State.plan_setPlan_same]
      exact g.sound.counted q
    · rw [State.plan_setPlan_ne _ _ e]
      exact g.sound.counted q
  · have n : q ≠ p := by
      rintro rfl
      have := State.users_pos e
      rw [← g.sound.counted, unused] at this
      exact absurd this (by simp)
    rw [State.plan_setPlan_ne _ _ n]

/-- A slot in GRADED goes to HELD, its extraction withdrawn (R27, R137). -/
theorem withdrawHeld {why : HoldReason} (g : s.Whole h live)
    (st : (s.slot i).state = .graded ∨ (s.slot i).state = .held) :
    ((s.withdrawOrder i).enterHeld i why).Whole h live := by
  have a := g.at_ i trivial
  have notLive (c : CurrentOrder) (e : live = some c) : c.order.slot ≠ i := fun k => by
    have fit := (a.current c e k).2
    cases kind : c.order.kind <;> simp only [kind, OrderKind.servedIn] at fit <;> rcases st with e | e <;> simp [e] at fit
  refine ((g.but i).move (not_butAt _ i) (.withdrawOrder s i)).enterIdle (a.idle ?_ ?_).withdrawOrder
    (.withdrawn (a.engaged notLive) notLive) rfl fun _ => a.fits.planDropped ?_
  · rcases st with e | e <;> simp [e, SlotState.rests]
  · rcases st with e | e <;> simp [e]
  · rcases st with e | e <;> simp [e]

theorem withdrawnAll (is : List SlotNo) (g : s.Whole h live)
    (st : ∀ i ∈ is, (s.slot i).state = .graded ∨ (s.slot i).state = .held) :
    (is.foldl State.withdrawn s).Whole h live := by
  induction is generalizing s with
  | nil => exact g
  | cons i is ih =>
    refine ih (g.withdrawHeld (st i (by simp))) fun j m => ?_
    by_cases e : j = i
    · subst e
      right
      simp [State.withdrawn, State.enterHeld]
    · have move : State.Moves i s (s.withdrawn i) := (State.Moves.withdrawOrder s i).trans (.enter _ _)
      rw [(SlotRec.standing_fields (move.spares j e).slot).1]
      exact st j (by simp [m])

theorem barBin (g : s.Whole h live) : (s.barBin b).Whole h live := by
  have set : (s.setBar b true).Whole h live := g.keep (.other rfl rfl rfl rfl rfl)
  refine set.withdrawnAll _ fun i m => .inl ?_
  obtain ⟨o, mo, rfl⟩ := List.mem_map.mp m
  obtain ⟨mo, kind⟩ := List.mem_filter.mp mo
  have waits := (g.at_ o.slot trivial).ordered o mo rfl
  simp only [decide_eq_true_eq] at kind
  simpa [kind, OrderKind.waitsIn] using waits

/-- A run in ENDING is given up (R27). -/
theorem abortEnding (g : s.Whole h live) (ending : (s.slot i).state = .ending) : (s.abortEnding i).Whole h live := by
  have a := g.at_ i trivial
  have on : (s.slot i).onLink = true := by simp [SlotRec.onLink, ending]
  obtain ⟨unqueued, granted, limit⟩ := a.unpermitted (a.noPermit on)
  exact (g.but i).offVerdict ⟨a.noPermit on, unqueued, a.noPhase (by simp [ending]), granted, limit,
    fun op m e => a.leaves m e⟩ (a.noOrder_of_onLink on) (a.fits.planDropped (by simp [ending]))

theorem abortSlot (g : s.Whole h live) (takes : s.abortSlot i = some t) : t.Whole h live := by
  have a := g.at_ i trivial
  have endAtOnce {c : EndCause} (runs : (s.slot i).state.runs = true) := g.endAtOnce trivial (fun _ _ => trivial) runs c
  unfold State.abortSlot at takes
  split at takes
  · rename_i st
    split at takes
    · cases takes
      rename_i q
      obtain ⟨o, m, e⟩ := (State.InOrder.orderQueued_iff s i).mp q
      have idle := a.idle (by simp [st, SlotState.rests]) (by simp [st])
      exact (((g.but i).move (not_butAt _ i) (.withdrawOrder s i)).move (not_butAt _ i) (.dropPlan _ i)).enterVacant
        (by simp) (by simpa [State.withdrawOrder] using idle.unqueued) (by simpa [State.withdrawOrder] using idle.unknown)
        (by simpa [State.withdrawOrder] using idle.unsummed) (by simp [State.withdrawOrder]) (a.notLive_of_queued m e)
    · cases takes
  case h_7 =>
    cases takes
    exact g.abortEnding ‹_›
  case h_8 =>
    cases takes
    exact g.withdrawHeld (.inl ‹_›)
  case h_9 => cases takes
  all_goals
    cases takes
    exact endAtOnce (by simp [*, SlotState.runs])

end State.On

namespace State.InOrder

theorem served (g : s.InOrder) (a : s.Served t) : t.InOrder := by
  have w := g.whole
  have unspoken {t : State} (slots : t.slots = s.slots) (queue : t.permitQueue = s.permitQueue)
      (plans : t.plans = s.plans) (links : t.links = s.links) (port : t.port = s.port) : t.InOrder :=
    g.keep (.other slots queue plans links port)
  cases a with
  | unchanged => exact g
  | opened i p vacant => exact of_whole (w.openSlot vacant)
  | started i p seated => exact of_whole (w.startAssigned (.inr (.inl seated)))
  | rerun i p held => exact of_whole (w.startAssigned (.inr (.inr held)))
  | suspended i may => exact of_whole (w.suspend may)
  | continued i review => exact of_whole (w.continueSlot review)
  | ended i runs =>
    exact of_whole (w.endWithSummary (by rcases runs with e | e | e <;> simp [e, SlotState.polled]) _)
  | aborted i t takes => exact of_whole (w.abortSlot takes)
  | released i b held => exact of_whole (w.releaseSlot held)
  | spinSet x _ => exact of_whole w.spinSet
  | planLoaded p steps unused => exact of_whole (w.planLoaded unused)
  | linkSet l x => exact g.keep (.modLink (.of_same rfl rfl rfl rfl rfl))
  | profileLoaded | zoneStarted | zoneStopped | zoneSet => exact g.keep (.modZone _ _)
  | zoneResumed => exact of_whole w.resumeZone
  | dosesSet | rulesSet | sortSet => exact unspoken rfl rfl rfl rfl rfl
  | watchCleared => exact g.keep (.setWatch _)
  | barred => exact of_whole w.barBin
  | portSet => exact g.setPort rfl rfl
  | portReset fault =>
    have live : s.port.live = none := by simp [Port.live, fault]
    exact State.On.settle (live ▸ w) (.inl rfl)
  | binSet => exact g.keep (.modCarton _ _)
  | recordsReleased => exact g.keep (.cartons (by simp [State.releaseRecords, State.sameBeyondCartons_refl]))
  | maskSet | timeSet => exact g.setLine

/-! ## The line port (chapter 10) -/

theorem serveHead (g : s.InOrder) : s.serveHead.InOrder := by
  unfold State.serveHead
  split
  · exact g
  · split
    · exact (g.setLine.served (Request.answer_served _ _)).setLine
    · exact g

theorem arrive {r : Request} (g : s.InOrder) : (s.arrive r).InOrder := g.setLine.serveHead.finish

/-- A rack just sampled is in order: no plan, permit, order or transaction. -/
theorem sampled (slots : ∀ i, ∃ v, s.slot i = SlotRec.sampled v) (plans : ∀ p, (s.plan p).refs = 0)
    (queue : s.permitQueue = []) (links : ∀ l, ∃ n x, s.link l = Link.idleFrom n x) (orders : s.port.queue = [])
    (live : s.port.live = none) : s.InOrder := by
  have known (l : ShelfNo) (i : SlotNo) : (s.link l).knows i = false := by
    obtain ⟨n, x, e⟩ := links l
    simp [e, Link.knows, Link.idleFrom]
  have summary (l : ShelfNo) : (s.link l).summary = [] := by
    obtain ⟨n, x, e⟩ := links l
    simp [e, Link.idleFrom]
  refine (s.inOrder_iff).mpr (live ▸ ⟨⟨fun p => ?_, fun l i k => ?_, fun l => ?_, fun l op m => ?_, ?_⟩, rfl, fun i _ => ?_⟩)
  · rw [plans, State.users_eq, eq_comm, List.countP_eq_zero]
    intro i _
    obtain ⟨v, e⟩ := slots i
    cases v <;> simp [e, SlotRec.sampled, SlotRec.empty]
  · simp [known] at k
  · obtain ⟨n, x, e⟩ := links l
    rw [e]
    exact ⟨by simp [Link.idleFrom], by simp [Link.idleFrom]⟩
  · simp [summary] at m
  · simp [orders]
  · obtain ⟨v, e⟩ := slots i
    refine .of_idle ⟨?_, ?_, by simp [queue], ?_, ?_, ?_, known _ i, by simp [summary]⟩ ⟨?_, by simp [orders], by simp⟩ ?_ ?_
    all_goals cases v <;> simp [e, SlotRec.sampled, SlotRec.empty, SlotState.rests]

end State.InOrder

/-- The port at RESTART (R145). -/
theorem State.restartPort_port (s : State) : s.restartPort.port =
    { s.port.cleared .idle with queue := [], acceptTimeouts := 0, streak := 0, fault := none } := by
  simp only [State.restartPort]
  split
  · rename_i c _
    let t := s.setPort { s.port.cleared .idle with queue := [], acceptTimeouts := 0, streak := 0, fault := none }
    have same : t.sameBeyondCartons (t.endAtCarton c.order) :=
      (t.cartons_endAtCarton_iff t c.order).mpr t.sameBeyondCartons_refl
    obtain ⟨-, -, -, -, -, -, -, -, -, -, -, -, -, -, -, port, -⟩ := same
    exact port
  · rfl

namespace State.InOrder

/-- RESTART samples the rack anew (R30, R56, R145). -/
theorem restart (s : State) : s.restart.InOrder := by
  obtain ⟨t, slots, plans, links⟩ : ∃ t : State,
      s.restart.slots = mapEach (fun r => SlotRec.sampled r.seatRaw) t.slots ∧
      s.restart.plans = mapEach (fun p => { p with refs := 0 }) t.plans ∧
      s.restart.links = mapEach (fun l => Link.idleFrom t.now (l.staged.getD l.settings)) t.links :=
    ⟨(s.setLine { s.line with notices := [] }).restartPort.release.withoutHighWater, rfl, rfl, rfl⟩
  have port : s.restart.port = (s.setLine { s.line with notices := [] }).restartPort.port := by
    unfold State.restart
    generalize (s.setLine { s.line with notices := [] }).restartPort = u
    rfl
  rw [State.restartPort_port] at port
  refine sampled (fun i => ?_) (fun p => ?_) rfl (fun l => ?_) (by rw [port])
    (by rw [port]; simp [Port.live, Port.cleared])
  · exact ⟨(t.slot i).seatRaw, by simp [State.slot, slots, mapEach]⟩
  · simp [State.plan, plans, mapEach]
  · exact ⟨t.now, (t.link l).staged.getD (t.link l).settings, by simp [State.link, links, mapEach]⟩

theorem frameOut (g : s.InOrder) : s.frameOut.InOrder := by
  have after (x : AfterSent) : ((s.setLine { s.line with sending := none }).afterSent x).InOrder := by
    cases x with
    | nothing => exact g.setLine
    | newRate r => exact g.setLine.setLine
    | restart => exact restart _
  unfold State.frameOut
  split
  · exact (after _).serveHead.finish
  · exact g

theorem receive {x : Byte} (g : s.InOrder) : (s.receive x).InOrder := by
  have lapsed : s.lapse.InOrder := g.setLine
  simp only [State.receive]
  split
  · split
    · exact lapsed.setLine
    · exact lapsed
  · simp only [State.collect]
    split
    · exact lapsed
    · split
      · exact lapsed.setLine
      · split
        · unfold State.frameTaken
          split
          · exact lapsed.setLine.arrive
          · exact lapsed.setLine
        · exact lapsed.setLine

theorem receiveAll (g : s.InOrder) (bytes : List Byte) : (s.receiveAll bytes).InOrder := by
  unfold State.receiveAll
  induction bytes generalizing s with
  | nil => exact g
  | cons x bytes ih => exact ih g.receive

/-! ## Commands -/

/-- An event that is taken where a condition holds, and is discarded elsewhere (R4). -/
theorem taken {p : Prop} [Decidable p] (yes : p → t.InOrder) (no : u.InOrder) : (if p then t else u).InOrder := by
  split
  · exact yes ‹_›
  · exact no

/-- An event that ends a drive's reply on a link, where one is awaited (R52). -/
theorem reply {l : ShelfNo} {f : Transaction → State} (g : s.InOrder)
    (hf : ∀ y, (s.link l).outstanding = some y → (f y).InOrder) :
    (match (s.link l).awaiting s.now with | some y => f y | none => s).InOrder := by
  split
  · exact hf _ (Link.awaiting_outstanding ‹_›)
  · exact g

/-- An event that ends a state of the handler port with an order current, whose outcome is open (R146). -/
theorem atPort {f : CurrentOrder → State} (g : s.InOrder) (k : t.InOrder)
    (waits : st ∈ [.deskew, .offered, .inFlight, .checking])
    (hf : ∀ c, s.Whole (st, some c) (some c) → (f c).InOrder) :
    (match s.port.currentIn st with | some c => f c | none => t).InOrder := by
  split
  · exact hf _ (g.serving ‹_› waits)
  · exact k

/-- An event that ends CONFIRMING (R156). -/
theorem confirming {f : CurrentOrder → State} (g : s.InOrder) (k : t.InOrder)
    (hf : ∀ c, s.Whole s.port.hold none → (f c).InOrder) :
    (match s.port.currentIn .confirming with | some c => f c | none => t).InOrder := by
  split
  · rename_i e
    simp only [Port.currentIn] at e
    split at e
    · rename_i state
      have live : s.port.live = none := by simp [Port.live, state]
      exact hf _ (live ▸ g.whole)
    · cases e
  · exact k

end State.InOrder

/-- Every command keeps the rack in order. -/
theorem exec_inOrder (c : Instr) {s t : State} (g : s.InOrder) (run : exec c s = .next t) : t.InOrder := by
  have w := g.whole
  have level {x : Port} (queue : x.queue = s.port.queue := by rfl) (hold : x.hold = s.port.hold := by rfl) :
      (s.setPort x).InOrder := g.setPort queue hold
  cases c with
  | powerOn x =>
    cases run
    refine .sampled (fun i => ⟨x.seats[i], ?_⟩) (fun p => ?_) rfl (fun l => ⟨0, LinkSettings.powerOn, ?_⟩) rfl rfl
    · simp [State.slot, State.ofInputs, mapEach]
    · simp [State.plan, State.ofInputs, Plan.empty]
    · simp [State.link, State.ofInputs]
  | restartEffect straps =>
    cases run
    have strapped : (s.setStraps straps).InOrder := g.keep (.other rfl rfl rfl rfl rfl)
    exact .taken (fun _ => strapped.frameOut) g
  | lineRateChange => cases run; exact .taken (fun _ => g.frameOut) g
  | frameReceived bytes => cases run; exact g.receiveAll bytes
  | lineGap => cases run; exact .taken (fun _ => g.setLine) g
  | lineBreak | framingDiscard => cases run; exact g.setLine
  | frameSent => cases run; exact g.frameOut
  | startByte | lengthDiscard => cases run; exact g.receive
  | secondTick => cases run; exact g.keep (.other rfl rfl rfl rfl rfl)
  | doseMinuteTick =>
    obtain rfl : ({ s with clock := s.clock.minute } : State).minute.finish = t := by simpa [exec, execDoseMinuteTick] using run
    have ticked : ({ s with clock := s.clock.minute } : State).InOrder := g.keep (.other rfl rfl rfl rfl rfl)
    have minute : ({ s with clock := s.clock.minute } : State).minute.InOrder := .of_whole ticked.whole.minute
    exact minute.finish
  | rawSeatChange => cases run; exact (g.rawSeat _).finish
  | seatDebounceExpiry => cases run; exact .taken (fun _ => g.debounceOver.finish) g
  | readySeen => cases run; exact .taken (fun _ => .of_finish w.readyHigh) g
  | spinLimitExpiry slot =>
    cases run
    refine .taken (fun limited => .of_finish (w.endAtOnce trivial (fun _ _ => trivial) ?_ _)) g
    have f := (w.at_ slot trivial).fits
    rcases f.permits (by simp [f.captured (.inr limited)]) with e | ⟨e, -⟩ <;> simp [e, SlotState.runs]
  | overcurrentLineActive slot active =>
    cases run
    have leveled : (s.setOvercurrent slot active).InOrder := g.keep (.other rfl rfl rfl rfl rfl)
    refine .taken (fun regarded => .of_finish (leveled.whole.takeOvercurrent trivial (fun _ _ => trivial) ?_)) leveled
    simp only [Bool.and_eq_true, SlotRec.regardsOvercurrent, decide_eq_true_eq] at regarded
    exact regarded.2.1
  | inrushBlankingEnd slot =>
    cases run
    have unblanked : (s.modSlot slot fun r => { r with blanking := none }).InOrder := g.keep (.modSlot rfl)
    refine .taken (fun _ => .taken (fun regarded =>
      .of_finish (unblanked.whole.takeOvercurrent trivial (fun _ _ => trivial) ?_)) unblanked) g
    simp only [Bool.and_eq_true, SlotRec.regardsOvercurrent, decide_eq_true_eq] at regarded
    exact regarded.2.1
  | stepTimeLimit slot =>
    cases run
    split
    · refine .taken (fun may => .of_finish (w.testLimit ?_ ‹_›)) g
      simp only [Bool.and_eq_true, decide_eq_true_eq] at may
      exact may.1.1
    · exact g
  | cycleOffTimeExpiry => cases run; exact .taken (fun _ => .of_finish w.offTimeOver) g
  | frameStart =>
    cases run
    exact .taken (fun _ => g.keep (.modLink ((Link.Goes.startFrame _ _).trans (.advance _)))) g
  | poll => cases run; exact .taken (fun _ => g.keep (.modLink (.sendPoll _ _))) g
  | directedTransaction => cases run; exact .taken (fun _ => g.keep (.modLink (.sendDirected _ _))) g
  | summaryTransaction => cases run; exact .taken (fun _ => .of_whole (w.sendSummary _)) g
  | statusReply =>
    cases run
    refine g.reply fun y o => ?_
    split
    · split
      · exact .of_finish (w.statusTaken (w.transaction_known o).2 _)
      · exact g.keep (.badReply _ _ _)
    · exact g.keep (.badReply _ _ _)
  | identReply =>
    cases run
    refine g.reply fun y o => ?_
    split
    · split
      · exact .of_finish (w.identTaken _)
      · exact g.keep (.badReply _ _ _)
    · exact g.keep (.badReply _ _ _)
  | phaseStartReply =>
    cases run
    refine g.reply fun y o => ?_
    split
    · exact .of_finish (w.phaseTaken _)
    · exact g.keep (.badReply _ _ _)
  | haltReply =>
    cases run
    refine g.reply fun y o => ?_
    split
    · exact .of_finish ((w.keep (.goodReply _ _ _)).haltEnded _)
    · exact g.keep (.badReply _ _ _)
  | summaryReply link bytes =>
    cases run
    refine g.reply fun y o => ?_
    split
    · rename_i op rest request _ head
      split
      · obtain ⟨op', rest', head', slot⟩ := w.transaction_head o request
        obtain ⟨rfl, -⟩ := List.cons.inj (head.symm.trans head')
        rw [← slot]
        exact .of_finish (w.blockTaken (by rw [head]; exact List.mem_cons_self) _)
      · exact g.keep (.badReply _ _ _)
    · exact g.keep (.badReply _ _ _)
  | miss =>
    cases run
    split
    · exact .taken (fun _ => .of_finish (w.missed ‹_›)) g
    · exact g
  | airSensorRead =>
    cases run
    refine State.InOrder.finish (.taken (fun _ => .of_whole (w.goodReading _)) (.of_whole w.badReading))
  | sensorNoResponse => cases run; exact .of_finish w.badReading
  | cutoffChange =>
    cases run
    exact State.InOrder.finish (.taken (fun _ => .of_whole (w.addCause _)) (.of_whole (w.removeCause _)))
  | tachEdge => cases run; exact g.keep (.modZone _ _)
  | fanWindowEnd => cases run; exact .of_finish w.windowEnd
  | segmentEnd | controlInterval | pwmPeriodStart | pwmOnTimeEnd =>
    cases run; exact .taken (fun _ => g.keep (.modZone _ _)) g
  | tripGraceExpiry => cases run; exact .taken (fun _ => .of_finish w.graceOver) g
  | orderDispatch => cases run; exact g.finish
  | handlerReadyRise =>
    cases run
    have ready : (s.setPort { s.port with readyLine := true }).InOrder := level
    exact ready.finish
  | deskewExpiry => cases run; exact g.atPort g (by simp) fun c k => k.raiseOffer.finish
  | handlerAccept =>
    cases run
    exact g.atPort level (by simp) fun c k => (k.serve (by exact k.port.2) (by exact k.port.1)).takeAccept.finish
  | acceptTimeout => cases run; exact g.atPort g (by simp) fun c k => k.acceptOver.finish
  | handlerDone | handlerFail =>
    cases run
    exact g.atPort level (by simp) fun c k =>
      .taken (fun _ => ((k.serve (by exact k.port.2) (by exact k.port.1)).takeOutcome _).finish) level
  | evidenceTimeout =>
    cases run; exact g.atPort g (by simp) fun c k => ((k.orderFails _ _).endHandshake _ _).finish
  | completionTimeout =>
    cases run
    exact g.atPort g (by simp) fun c k => (((k.setPort (by rfl)).orderFails _ _).portFault _ _).finish
  | handlerLineDrop line =>
    cases run
    have low : (s.setPort (s.port.setLow line)).InOrder := g.setPort (by cases line <;> rfl) (by cases line <;> rfl)
    refine g.confirming low fun c k => .taken (fun _ => State.InOrder.finish ?_) low
    have idle : ((s.setPort (s.port.setLow line)).portIdle).InOrder :=
      (k.setPort (x := s.port.setLow line) (by cases line <;> rfl)).settle (.inl rfl)
    exact idle.keep (.handshakeOver _ _)
  | releaseTimeout =>
    cases run; exact g.confirming g fun c k => ((k.keep (.handshakeOver _ _)).portFault _ _).finish
  | cartonPresentRise lane =>
    cases run; exact (g.keep (.cartons (by simp [State.sameBeyondCartons_refl]))).finish
  | cartonPresentDrop lane =>
    cases run
    refine (g.keep (.cartons ?_)).finish
    simp only [State.presentDrop]
    split <;> simp [State.sameBeyondCartons_refl]
  | unknown => cases run; exact g.arrive
  | slotOpen | slotStart | slotSuspend | slotContinue | slotEnd | slotAbort | slotRelease | slotRerun | spinSettings
  | slotQuery | planLoad | planRead | linkConfig | profileLoad | zoneStart | zoneStop | zoneResume | zoneSettings
  | zoneQuery | doseTableLoad | watchLoad | watchClear | weightsLoad | gradeMapLoad | faultTableLoad | gradeMapRead
  | binBar | binUnbar | sortProbe | handlerSettings | handlerReset | queueQuery | binConfig | binQuery | manifestRead
  | manifestRelease | lineConfig | noticeMask | setTime | rackQuery | restart => cases run; exact g.arrive

end Sys2Proof.Machine

open Sys2Proof Sys2Proof.Machine

/-- Settles O59: a step carries out a command, which keeps the rack in order, or idles. -/
theorem stepKeepsRackInOrder : Obligations.StepKeepsRackInOrder := by
  unfold Obligations.StepKeepsRackInOrder
  intro s t g h
  rcases step_cases h with ⟨c, rest, -, run⟩ | ⟨-, rfl⟩
  · have front : ({ s with pending := rest } : State).InOrder := g.keep (.other rfl rfl rfl rfl rfl)
    exact exec_inOrder c front run
  · rcases s.idle_eq with ⟨c, e⟩ | e
    · exact e ▸ g.keep (.other rfl rfl rfl rfl rfl)
    · exact e ▸ g.keep (.other rfl rfl rfl rfl rfl)
end

