-- ==== Sys2Proof/Proofs/Requests.lean ====
section
/-! PROOFS. What the slot requests do, exactly (R24 to R28), and the spin-up permit asked for at a run start (R10, R11). -/

namespace Sys2Proof.Machine

variable {s : State} {slot plan : Byte} {i : SlotNo} {p : PlanNo}

theorem State.withSlot_of (h : ofNum 40 slot.toNat = some i) (f : SlotNo → State × Answer) :
    s.withSlot slot f = f i := by
  simp [State.withSlot, h]

theorem State.withPlan_of (h : ofNum 40 slot.toNat = some i) (k : ofNum 8 plan.toNat = some p)
    (loaded : (s.plan p).steps ≠ []) (f : SlotNo → PlanNo → State × Answer) : s.withPlan slot plan f = f i p := by
  simp [State.withPlan, h, k, loaded]

/-- A request command that arrives while the part is ready, with what it leads to and what it answers (R189). -/
theorem State.request_serves {c : RequestCode} {tag : Byte} {body : List Byte} {t : State} {a : Answer} (h : s.ready)
    (e : c.serve body s = (t, a)) : s.request c tag body = t.answered tag c a := by
  rw [s.request_of_ready c tag body h, e]

/-! ## Suspended and continued (R26, R50) -/

/-- SLOT SUSPEND as one write of the slot (R26). -/
theorem State.suspend_eq (s : State) (i : SlotNo) :
    s.suspend i = ((s.setSlot i { s.slot i with
        state := .review, hold := none
        run := { (s.slot i).run with
          zonePaused := if (s.slot i).state = .paused then true else (s.slot i).run.zonePaused } }).notify
      (.slotState i .review (s.slot i).state (s.slot i).run.endCause none)).askLink i .halt .plain := by
  unfold State.suspend
  by_cases e : (s.slot i).state = .paused
  · simp [e, State.enter, State.modRun_eq, State.modSlot_eq]
  · simp [e, State.enter, State.modSlot_eq]

/-- A slot in RUNNING again, before its step goes on (R22, R26). -/
theorem State.returnToRun_eq (s : State) (i : SlotNo) :
    s.returnToRun i = (((s.setSlot i { s.slot i with
        state := .running, hold := none, run := { (s.slot i).run with zonePaused := false } }).notify
      (.slotState i .running (s.slot i).state (s.slot i).run.endCause none)).resumeStep i) := by
  simp [State.returnToRun, State.enter, State.modRun_eq, State.modSlot_eq]

/-! ## Permits asked for (R10, R11) -/

/-- With the limit reached the grant test grants nothing. -/
theorem State.testGrants_of_full (full : s.spin.permits ≤ s.holders) : s.testGrants = s := by
  unfold State.testGrants grants
  split
  · rfl
  · exact if_neg (Nat.not_lt.mpr full)

/-- With an empty queue the grant test grants nothing. -/
theorem grants_of_nil (n : Nat) (q : s.permitQueue = []) : grants n s = s := by
  cases n with
  | zero => rfl
  | succ n => unfold grants; rw [q]

/-- Overcurrent is not taken while the line is inactive (R13). -/
theorem State.checkOvercurrent_of_inactive (e : s.overcurrent[i] = false) : s.checkOvercurrent i = s := by
  simp [State.checkOvercurrent, e]

/-- The only slot in the queue is granted where there is room and its line is inactive. -/
theorem State.testGrants_of_one (q : s.permitQueue = [i]) (room : s.holders < s.spin.permits)
    (e : s.overcurrent[i] = false) : s.testGrants = s.grant i := by
  unfold State.testGrants grants
  simp only [q, if_pos room]
  rw [State.checkOvercurrent_of_inactive (by exact e)]
  exact grants_of_nil _ (by simp [q])

end Sys2Proof.Machine

open Sys2Proof Sys2Proof.Machine

/-- Settles O4. -/
theorem slotOpenAssignsPlan : Obligations.SlotOpenAssignsPlan := by
  unfold Obligations.SlotOpenAssignsPlan
  intro s tag slot plan i p ready hi hp loaded vacant
  refine congrArg Host.Outcome.next (State.request_serves ready ?_)
  change serveSlotOpen [slot, plan] s = _
  simp only [serveSlotOpen]
  rw [State.withPlan_of hi hp loaded, if_pos vacant]
  simp [State.slotReply, State.openSlot, State.assignPlan, State.countPlan, State.enter, State.joinOrder, Port.joinOrder,
    State.modSlot_eq, nextWrap, vacant]
  rfl

/-- Settles O11. -/
theorem slotReleaseQueuesExtract : Obligations.SlotReleaseQueuesExtract := by
  unfold Obligations.SlotReleaseQueuesExtract
  intro s tag slot bin i b ready hi hb held
  constructor
  · intro barred
    refine congrArg Host.Outcome.next (State.request_serves ready ?_)
    change serveSlotRelease [slot, bin] s = _
    simp [serveSlotRelease, hi, hb, State.barred, barred, State.refuse]
  · intro barred
    refine congrArg Host.Outcome.next (State.request_serves ready ?_)
    change serveSlotRelease [slot, bin] s = _
    simp [serveSlotRelease, hi, hb, State.barred, barred, held, State.slotReply, State.releaseSlot, State.modRun_eq, State.enter,
      State.joinOrder, Port.joinOrder, State.modSlot_eq, nextWrap, binOf]
    rfl

/-- Settles O12. -/
theorem rawSeatStartsDebounce : Obligations.RawSeatStartsDebounce := by
  unfold Obligations.RawSeatStartsDebounce
  intro s i level
  have run : exec (.rawSeatChange i level) s = .next (s.rawSeat i level).finish := rfl
  refine ⟨fun same => ?_, fun changed => ⟨fun closes => ?_, fun stays => ?_⟩⟩
  · rw [run, State.rawSeat, if_pos same]
  · rw [run]
    simp [State.rawSeat, if_neg changed, if_pos closes, State.enter, State.modSlot_eq, Time.after]
  · rw [run]
    simp [State.rawSeat, if_neg changed, if_neg stays, State.modSlot_eq, Time.after]

/-- Settles O8. -/
theorem suspendAndContinue : Obligations.SuspendAndContinue := by
  unfold Obligations.SuspendAndContinue
  constructor
  · intro s tag slot i ready hi st
    refine congrArg Host.Outcome.next (State.request_serves ready ?_)
    change serveSlotSuspend [slot] s = _
    have may : (s.slot i).suspendable = true := by
      rcases st with e | ⟨e, off⟩ <;> simp [SlotRec.suspendable, *]
    simp only [serveSlotSuspend]
    rw [State.withSlot_of hi, if_pos may, State.suspend_eq, State.slotReply]
    simp [State.askLink]
    rfl
  · intro s tag slot i ready hi review
    constructor
    · intro tripped
      refine congrArg Host.Outcome.next (State.request_serves ready ?_)
      change serveSlotContinue [slot] s = _
      simp only [serveSlotContinue]
      rw [State.withSlot_of hi, if_pos review, State.continueSlot, if_pos (by simp [State.zoneTripped, tripped])]
      simp [State.slotReply, State.enter, State.modRun_eq, State.modSlot_eq, review]
      rfl
    · intro running u v
      refine congrArg Host.Outcome.next (State.request_serves ready ?_)
      change serveSlotContinue [slot] s = _
      have again : s.continueSlot i = v := by
        have slotU : u.slot i = { s.slot i with
            state := .running, hold := none, run := { (s.slot i).run with zonePaused := false } } := by simp [u]
        have step : u.currentStep i = s.currentStep i :=
          State.currentStep_congr (by simp [slotU]) (by simp [slotU]) fun p => by simp [u]
        rw [State.continueSlot, if_neg (by simp [State.zoneTripped, running]), State.returnToRun_eq, review]
        change u.resumeStep i = v
        simp only [State.resumeStep, State.askPhase, State.askCycleHalt, step, slotU]
        rfl
      simp only [serveSlotContinue]
      rw [State.withSlot_of hi, if_pos review, again]
      rfl

/-- Settles O6: with one slot in the queue the grant test makes at most the one grant. -/
theorem permitGrantedOrQueued : Obligations.PermitGrantedOrQueued := by
  unfold Obligations.PermitGrantedOrQueued
  intro s i unqueued free
  let asked : State := { s.setSlot i { s.slot i with permit := .queued } with permitQueue := s.permitQueue ++ [i] }
  have join : s.joinPermit i = asked.testGrants := rfl
  have holders : asked.holders = s.holders := by
    have : asked.holders = (s.setSlot i { s.slot i with permit := .queued }).holders := rfl
    simp [this, State.holders_setSlot, free]
  refine ⟨fun full => ?_, fun empty room inactive => ?_⟩
  · rw [join]
    exact State.testGrants_of_full (holders ▸ full)
  · rw [join, State.testGrants_of_one (s := asked) (i := i) (by simp [asked, empty]) (holders ▸ room) inactive]
    simp [State.grant, asked, State.modSlot, State.setSlot, State.slot, empty, Time.after]
    rfl

/-- Settles O5: both requests assign the plan and start the run, and differ in what they keep of the last one. -/
theorem runStartClears : Obligations.RunStartClears := by
  unfold Obligations.RunStartClears
  intro s tag slot plan i p ready hi hp loaded started
  have begun (again : Bool) : (s.assignPlan i p).startRun i again =
      started (if again then (s.slot i).run.identity else none)
        (if again then min 255 ((s.slot i).run.runCount + 1) else 1) := by
    refine congrArg (State.joinPermit · i) ?_
    simp [State.enter, State.modSlot_eq, State.assignPlan, State.countPlan, RunRec.start, RunRec.empty, saturate, SpinRec.empty, LinkSlot.empty]
  constructor
  · intro seated
    refine congrArg Host.Outcome.next (State.request_serves ready ?_)
    change serveSlotStart [slot, plan] s = _
    simp only [serveSlotStart]
    rw [State.withPlan_of hi hp loaded, if_pos seated, begun]
    rfl
  · intro x held identity
    refine congrArg Host.Outcome.next (State.request_serves ready ?_)
    change serveSlotRerun [slot, plan] s = _
    simp only [serveSlotRerun]
    rw [State.withPlan_of hi hp loaded, if_pos (by simp [held, identity]), begun]
    simp only [identity]
    rfl
end

