-- ==== Sys2Proof/Proofs/RunEnds.lean ====
section
/-! PROOFS. The ends of a run (R13, R17 to R20, R26, R27): what a slot's record holds when SU judges it, whatever other
slots the grant test of its permit reaches. -/

namespace Sys2Proof.Machine

variable {s t u v : State} {i j : SlotNo} {c : EndCause}

/-! ## What the operations of another slot leave alone -/

/-- Between `s` and `t` the slot's record stands as it did, it has joined no queue, its links know it as before, no
transaction has been asked for, and no miss counts have changed. -/
structure State.Beside (i : SlotNo) (s t : State) : Prop where
  slot : t.slot i = s.slot i
  queue : i ∈ t.permitQueue → i ∈ s.permitQueue
  knows : ∀ l, (t.link l).knows i = (s.link l).knows i
  counts : ∀ k, t.linkSlot k = s.linkSlot k
  directed : ∀ l, ∀ d ∈ (t.link l).directed, d ∈ (s.link l).directed

theorem Link.leave_directed {x : Link} {d : Directed} (m : d ∈ (x.leave i).directed) :
    d ∈ x.directed ∧ (x.knows i = true → d.slot ≠ i) := by
  unfold Link.leave at m
  split at m
  · simp only [List.mem_filter, decide_eq_true_eq] at m
    exact ⟨m.1, fun _ => m.2⟩
  · exact ⟨m, fun k => absurd k ‹_›⟩

namespace State.Beside

theorem refl (i : SlotNo) (s : State) : Beside i s s := ⟨rfl, id, fun _ => rfl, fun _ => rfl, fun _ _ m => m⟩

theorem trans (a : Beside i s t) (b : Beside i t u) : Beside i s u :=
  ⟨b.slot.trans a.slot, a.queue ∘ b.queue, fun l => (b.knows l).trans (a.knows l), fun k => (b.counts k).trans (a.counts k),
    fun l d m => a.directed l d (b.directed l d m)⟩

/-- An operation that touches no link. -/
theorem of_links (slot : t.slot i = s.slot i) (queue : i ∈ t.permitQueue → i ∈ s.permitQueue)
    (links : ∀ l, t.link l = s.link l) (counts : ∀ k, t.linkSlot k = s.linkSlot k) : Beside i s t :=
  ⟨slot, queue, fun l => by rw [links], counts, fun l d m => by rwa [links] at m⟩

variable (n : i ≠ j)
include n

theorem modSlot (f : SlotRec → SlotRec) : Beside i s (s.modSlot j f) :=
  of_links (s.slot_modSlot_ne f n) id (fun _ => rfl) fun _ => rfl

theorem enter (st : SlotState) (o : Option HoldReason) : Beside i s (s.enter j st o) :=
  of_links (s.enter_slot_ne j i st o n) (by simp) (by simp) (by simp)

theorem powerOff : Beside i s (s.powerOff j) where
  slot := s.slot_modSlot_ne (fun r => { r with power := .off }) n
  queue := id
  knows l := by
    by_cases e : l = shelfOf j
    · subst e
      rw [State.powerOff_link_same, Link.leave_knows_ne j i _ n]
    · rw [State.powerOff_link_ne _ _ e]
  counts _ := rfl
  directed l d m := by
    by_cases e : l = shelfOf j
    · subst e
      rw [State.powerOff_link_same] at m
      exact (Link.leave_directed m).1
    · rwa [State.powerOff_link_ne _ _ e] at m

theorem clearPermit : Beside i s (s.clearPermit j) :=
  of_links (s.slot_modSlot_ne (fun r =>
      { r with permit := .none, grantedAt := none, spinLimit := none, blanking := none }) n) (fun m => List.mem_of_mem_filter m) (fun _ => rfl) fun _ => rfl

theorem dropPlan : Beside i s (s.dropPlan j) := by
  refine of_links ?_ (by simp) (by simp) (by simp)
  unfold State.dropPlan
  split
  · exact s.slot_modSlot_ne (fun r => { r with plan := none }) n
  · rfl

theorem recordEnd (c : EndCause) : Beside i s (s.recordEnd j c) :=
  ((modSlot n _).trans (dropPlan n)).trans (modSlot n _)

theorem verdict : Beside i s (s.verdict j) := by
  have told : Beside i s (s.told j) :=
    of_links (by simp [State.told, State.modRun_eq, State.slot_setSlot_ne _ _ n]) (by simp) (by simp) (by simp)
  rcases s.verdict_cases j with ⟨b, -, e⟩ | ⟨-, e⟩
  · rw [e]
    exact (told.trans (enter n _ _)).trans (of_links rfl id (fun _ => rfl) fun _ => rfl)
  · rw [e]
    exact told.trans (enter n _ _)

theorem overcurrentEnd : Beside i s (s.overcurrentEnd j) := by
  unfold State.overcurrentEnd
  split
  · exact (((recordEnd n _).trans (powerOff n)).trans (modSlot n _)).trans (verdict n)
  · split
    · exact (modSlot n _).trans (verdict n)
    · exact refl i s

theorem checkOvercurrent : Beside i s (s.checkOvercurrent j) := by
  unfold State.checkOvercurrent
  split
  · exact ((powerOff n).trans (clearPermit n)).trans (overcurrentEnd n)
  · exact refl i s

theorem grant : Beside i s (s.grant j) :=
  of_links (s.slot_modSlot_ne (fun r =>
      { r with
        permit := .held, power := .on, grantedAt := some s.now
        spinLimit := some (Time.after s.now (s.spin.limitS * 1000))
        blanking := if s.spin.blankingMs = 0 then none else some (Time.after s.now s.spin.blankingMs) }) n) (fun m => List.mem_of_mem_filter m) (fun _ => rfl) fun _ => rfl

omit n in
/-- The grant test reaches the slots of the permit queue alone. -/
theorem grants (k : Nat) (out : i ∉ s.permitQueue) : Beside i s (Machine.grants k s) := by
  induction k generalizing s with
  | zero => exact refl i s
  | succ k ih =>
    unfold Machine.grants
    split
    · exact refl i s
    · rename_i j rest q
      split
      · have n : i ≠ j := fun e => out (by simp [q, e])
        have step := (grant (s := s) n).trans (checkOvercurrent n)
        exact step.trans (ih fun m => out (step.queue m))
      · exact refl i s

end State.Beside

/-! ## A permit returned (R10) -/

theorem State.dropPermit_cases (s : State) (i : SlotNo) :
    ((s.slot i).permit = .none ∧ s.dropPermit i = s) ∨
      ((s.slot i).permit ≠ .none ∧ State.Beside i (s.clearPermit i) (s.dropPermit i)) := by
  unfold State.dropPermit
  split
  · exact .inl ⟨‹_›, rfl⟩
  · rename_i e
    exact .inr ⟨by simp [e], .refl i _⟩
  · rename_i e
    exact .inr ⟨by simp [e], .grants 41 (by simp)⟩

/-- A slot that drops its permit has none, and its record stands but for the permit's own timers. -/
theorem State.dropPermit_slot (s : State) (i : SlotNo) : ∃ g l b,
    (s.dropPermit i).slot i =
      { s.slot i with permit := .none, grantedAt := g, spinLimit := l, blanking := b } := by
  rcases s.dropPermit_cases i with ⟨free, e⟩ | ⟨-, beside⟩
  · refine ⟨(s.slot i).grantedAt, (s.slot i).spinLimit, (s.slot i).blanking, ?_⟩
    rw [e, ← free]
  · exact ⟨none, none, none, beside.slot.trans (by simp)⟩

theorem State.dropPermit_knows (s : State) (i : SlotNo) (l : ShelfNo) :
    ((s.dropPermit i).link l).knows i = (s.link l).knows i := by
  rcases s.dropPermit_cases i with ⟨-, e⟩ | ⟨-, beside⟩
  · rw [e]
  · exact beside.knows l

theorem State.dropPermit_linkSlot (s : State) (i k : SlotNo) : (s.dropPermit i).linkSlot k = s.linkSlot k := by
  rcases s.dropPermit_cases i with ⟨-, e⟩ | ⟨-, beside⟩
  · rw [e]
  · exact beside.counts k

theorem State.dropPermit_directed (s : State) (i : SlotNo) (l : ShelfNo) :
    ∀ d ∈ ((s.dropPermit i).link l).directed, d ∈ (s.link l).directed := by
  rcases s.dropPermit_cases i with ⟨-, e⟩ | ⟨-, beside⟩
  · rw [e]
    exact fun d m => m
  · exact beside.directed l

/-! ## At the verdict (R19, R20) -/

/-- The slot's record after its verdict. -/
theorem State.verdict_slot_same (s : State) (i : SlotNo) :
    (s.verdict i).slot i =
      { s.slot i with
        state := if (laneOf (s.judgement i).verdict.bin).isSome then .graded else .held
        hold := if (laneOf (s.judgement i).verdict.bin).isSome then none
          else some (if (s.judgement i).verdict.bar then .barred else .verdict)
        run := { (s.slot i).run with
          countRegressed := (s.slot i).run.countRegressed || (s.judgement i).regressed
          verdict := some (s.judgement i).verdict } } := by
  rcases s.verdict_cases i with ⟨b, lane, e⟩ | ⟨lane, e⟩
  · have joined (x : State) : (x.joinOrder (.extract b) i).slot i = x.slot i := rfl
    rw [e, joined, State.enter_slot_same, State.told_slot_same, lane]
    rfl
  · rw [e, State.enter_slot_same, State.told_slot_same, lane]
    rfl

theorem State.verdict_link (s : State) (i : SlotNo) (l : ShelfNo) : (s.verdict i).link l = s.link l := by
  have joined (b : LaneNo) (x : State) : (x.joinOrder (.extract b) i).link l = x.link l := rfl
  rcases s.verdict_cases i with ⟨b, -, e⟩ | ⟨-, e⟩ <;> simp [e, joined]

/-- The slot of `s` has been given up in `v`: its power is off, its link has forgotten it and all it asked for, and its
run record is `run`, with nothing else of it that SU reads changed. -/
structure State.Given (s v : State) (i : SlotNo) (run : RunRec) : Prop where
  same : s.sameBeyondSlots v
  run : (v.slot i).run = run
  spin : (v.slot i).spin = (s.slot i).spin
  counts : v.linkSlot i = s.linkSlot i
  power : (v.slot i).power = .off
  unknown : (v.link (shelfOf i)).knows i = false
  directed : ∀ l, ∀ d ∈ (v.link l).directed, d ∈ (s.link l).directed
  gone : (s.link (shelfOf i)).knows i = true → ∀ d ∈ (v.link (shelfOf i)).directed, d.slot ≠ i

theorem State.Given.sort {run : RunRec} (g : s.Given v i run) : v.sort = s.sort := g.same.2.2.2.2.2.2.2.1

theorem State.Given.judgedAs {run : RunRec} (g : s.Given v i run) :
    (v.verdict i).judgedAs i s.sort run (s.slot i).spin (s.linkSlot i).total :=
  ⟨v, rfl, g.sort, g.run, g.spin, congrArg LinkSlot.total g.counts⟩

theorem State.Given.judgement {run : RunRec} (g : s.Given v i run) :
    v.judgement i = judge s.sort run (s.slot i).spin (s.linkSlot i).total := by
  rw [State.judgement, g.sort, g.run, g.spin, g.counts]

namespace State.Given

variable {run : RunRec}

theorem modRun (g : s.Given v i run) (f : RunRec → RunRec) : s.Given (v.modRun i f) i (f run) :=
  ⟨by simpa using g.same, by simp [g.run], by simpa using g.spin, g.counts, by simpa using g.power, g.unknown, g.directed,
    g.gone⟩

theorem recordEnd (g : s.Given v i run) (c : EndCause) : s.Given (v.recordEnd i c) i { run with endCause := some c } :=
  ⟨by simpa using g.same, by simp [g.run], by simpa using g.spin, by simpa using g.counts, by simpa using g.power,
    by simpa using g.unknown, by simpa using g.directed, by simpa using g.gone⟩

/-- The power switch turned off, its link forgets the slot (R9, R58). -/
theorem powerOff (same : s.sameBeyondSlots v) (spin : (v.slot i).spin = (s.slot i).spin)
    (counts : v.linkSlot i = s.linkSlot i) (directed : ∀ l, ∀ d ∈ (v.link l).directed, d ∈ (s.link l).directed)
    (gone : (s.link (shelfOf i)).knows i = true → (v.link (shelfOf i)).knows i = true ∨
      ∀ d ∈ (v.link (shelfOf i)).directed, d.slot ≠ i) : s.Given (v.powerOff i) i (v.slot i).run where
  same := by simpa using same
  run := by simp
  spin := by simpa using spin
  counts := counts
  power := by simp
  unknown := by simp
  directed l d m := by
    by_cases e : l = shelfOf i
    · subst e
      rw [State.powerOff_link_same] at m
      exact directed _ d (Link.leave_directed m).1
    · rw [State.powerOff_link_ne _ _ e] at m
      exact directed l d m
  gone k d m := by
    rw [State.powerOff_link_same] at m
    obtain ⟨m, left⟩ := Link.leave_directed m
    exact (gone k).elim left fun g => g d m

theorem off (g : s.Given v i run) : s.Given (v.powerOff i) i run :=
  g.run ▸ powerOff g.same g.spin g.counts g.directed fun k => .inr (g.gone k)

theorem dropPermit (g : s.Given v i run) : s.Given (v.dropPermit i) i run := by
  obtain ⟨x, y, z, slot⟩ := v.dropPermit_slot i
  exact ⟨by simpa using g.same, by rw [slot]; exact g.run, by rw [slot]; exact g.spin,
    (v.dropPermit_linkSlot i i).trans g.counts, by rw [slot]; exact g.power, (v.dropPermit_knows i _).trans g.unknown,
    fun l d m => g.directed l d (v.dropPermit_directed i l d m), fun k d m => g.gone k d (v.dropPermit_directed i _ d m)⟩

end State.Given

/-- An end straight to the verdict (R19). -/
theorem State.endAtOnce_given (s : State) (i : SlotNo) (c : EndCause) :
    ∃ v, s.endAtOnce i c = v.verdict i ∧
      s.Given v i { (s.slot i).run with endCause := some c, summaryMissing := true } ∧
      (v.slot i).permit = .none ∧ (v.slot i).plan = none := by
  have given : s.Given ((s.recordEnd i c).powerOff i) i { (s.slot i).run with endCause := some c } := by
    have := State.Given.powerOff (s := s) (v := s.recordEnd i c) (i := i) (by simp [State.sameBeyondSlots_refl]) (by simp)
      (by simp) (by simp) (by simpa using .inl)
    simpa using this
  obtain ⟨x, y, z, slot⟩ := ((s.recordEnd i c).powerOff i).dropPermit_slot i
  refine ⟨_, rfl, given.dropPermit.off.modRun fun r => { r with summaryMissing := true }, ?_, ?_⟩
  · simp [slot]
  · simp [slot]

/-- What overcurrent leaves of a slot before its run is judged (R13). -/
theorem State.takeOvercurrent_given (s : State) (i : SlotNo) :
    s.Given ((s.powerOff i).dropPermit i) i (s.slot i).run ∧
      (((s.powerOff i).dropPermit i).slot i).permit = .none ∧
      (((s.powerOff i).dropPermit i).slot i).state = (s.slot i).state := by
  obtain ⟨x, y, z, slot⟩ := (s.powerOff i).dropPermit_slot i
  exact ⟨(State.Given.powerOff s.sameBeyondSlots_refl rfl rfl (fun _ _ m => m) .inl).dropPermit, by rw [slot],
    by rw [slot]; simp⟩

end Sys2Proof.Machine
end

