-- ==== Sys2Proof/Proofs/RunEndRequests.lean ====
section
/-! PROOFS. SLOT END and SLOT ABORT, the spin limit and overcurrent (R12, R13, R18, R19, R26, R27). -/

namespace Sys2Proof.Machine

variable {s t u v : State} {i : SlotNo} {c : EndCause} {run : RunRec}

/-- The end of a run with its drive on the link (R17, R18). -/
theorem State.endWithSummary_of_onLink (on : (s.slot i).cycleOffLink = false) :
    s.endWithSummary i c = s.runEnded i c := by
  have one (x : State) : (x.askLink i .halt .plain).askSummary i =
      x.modLink (shelfOf i) fun l => (l.ask i .halt .plain).askSummary i := by
    simp [State.askLink, State.askSummary, State.modLink_eq]
  rw [State.endWithSummary, if_neg (by simp [on]), one, State.runEnded]
  refine congrArg (State.modLink · (shelfOf i) fun l => (l.ask i .halt .plain).askSummary i) ?_
  cases plan : (s.slot i).plan with
  | none => simp [State.recordEnd, State.dropPlan, State.enter, State.modRun_eq, State.modSlot_eq, plan]
  | some p => simp [State.recordEnd, State.dropPlan, State.uncountPlan, State.enter, State.modRun_eq, State.modSlot_eq, plan]

/-! ## Judgements (R124, R125) -/

/-- A run given up, or without its summary, is not judged by its score (R124 step 2). -/
theorem judge_hold {t : SortTables} {spin : SpinRec} {misses : Nat}
    (e : run.endCause = some .abort ∨ (run.endCause = some .hostEnd ∧ run.summaryMissing = true)) :
    judge t run spin misses = Judgement.hold := by
  rcases e with e | ⟨e, m⟩
  · simp [judge, e, EndCause.entry]
  · simp [judge, e, m, EndCause.entry]

/-- A fault cause is judged by its entry of the fault table (R125). -/
theorem judge_fault {t : SortTables} {spin : SpinRec} {misses : Nat} {x : FaultEntry} (e : run.endCause = some c)
    (entry : c.entry = some x) : judge t run spin misses = judgeFault t x := by
  simp [judge, e, entry]

/-- The slot after a verdict of bin 0 that no bar has made (R20). -/
theorem State.Given.held (g : s.Given v i run)
    (hold : judge s.sort run (s.slot i).spin (s.linkSlot i).total = Judgement.hold) :
    (v.verdict i).slot i =
      { v.slot i with
        state := .held, hold := some .verdict
        run := { run with verdict := some { bin := 0, score := none, fault := none, bar := false } } } := by
  have lane : laneOf (0 : Bin) = none := by decide
  rw [State.verdict_slot_same, g.judgement, hold, g.run]
  simp [Judgement.hold, lane]

/-! ## A run given up (R27) -/

theorem State.abortEnding_given (s : State) (i : SlotNo) :
    ∃ v, s.abortEnding i = v.verdict i ∧
      s.Given v i { (s.slot i).run with
        endCause := some .abort
        summaryMissing := (s.slot i).run.summaryMissing || (s.slot i).run.summary.isNone } ∧
      (v.slot i).permit = (s.slot i).permit := by
  refine ⟨_, rfl, ⟨by simp [State.sameBeyondSlots_refl], by simp, by simp, rfl, by simp, ?_, fun l d m => ?_, fun k d m => ?_⟩,
    by simp⟩
  · simp
  · have m : d ∈ ((s.powerOff i).link l).directed := m
    by_cases e : l = shelfOf i
    · subst e
      rw [State.powerOff_link_same] at m
      exact (Link.leave_directed m).1
    · rwa [State.powerOff_link_ne _ _ e] at m
  · have m : d ∈ ((s.powerOff i).link (shelfOf i)).directed := m
    rw [State.powerOff_link_same] at m
    exact (Link.leave_directed m).2 k

/-- Emptying a slot's dose record is all that VACANT does beyond the slots (R1). -/
theorem State.same_enterVacant_of (e : s.sameBeyondSlots t) (c : Option EndCause) :
    State.sameBeyondSlots { s with doses := s.doses.set i DoseRec.empty } (t.enterVacant i c) := by
  refine State.sameBeyondSlots_trans ?_ (State.same_enterVacant t i c)
  obtain ⟨clock, spin, line, zones, doses, table, rules, sort, cartons, ring, straps, pending⟩ := e
  exact ⟨clock, spin, line, zones, by rw [doses], table, rules, sort, cartons, ring, straps, pending⟩

/-! ## Overcurrent (R13) -/

/-- Overcurrent has been taken at a slot of `s` (R13). -/
structure State.CutOff (s u : State) (i : SlotNo) : Prop where
  same : s.sameBeyondSlots u
  power : (u.slot i).power = .off
  permit : (u.slot i).permit = .none
  ends : (s.slot i).state.runs = true → (u.slot i).run.endCause = some .overcurrent ∧
    ((u.slot i).state = .graded ∨ (u.slot i).state = .held) ∧
    u.judgedAs i s.sort { (s.slot i).run with endCause := some .overcurrent, summaryMissing := true } (s.slot i).spin
      (s.linkSlot i).total
  ending : (s.slot i).state = .ending → (u.slot i).run.endCause = (s.slot i).run.endCause ∧
    ((u.slot i).state = .graded ∨ (u.slot i).state = .held) ∧
    u.judgedAs i s.sort
      { (s.slot i).run with summaryMissing := (s.slot i).run.summaryMissing || (s.slot i).run.summary.isNone }
      (s.slot i).spin (s.linkSlot i).total

theorem State.takeOvercurrent_cutOff (s : State) (i : SlotNo) : s.CutOff (s.takeOvercurrent i) i := by
  obtain ⟨given, permit, state⟩ := s.takeOvercurrent_given i
  unfold State.takeOvercurrent
  generalize (s.powerOff i).dropPermit i = x at given permit state
  unfold State.overcurrentEnd
  rw [state]
  split
  · rename_i runs
    have judged := ((given.recordEnd .overcurrent).off).modRun fun r => { r with summaryMissing := true }
    refine ⟨by simpa using judged.same, ?_, ?_, fun _ => ⟨?_, State.verdict_state _ i, judged.judgedAs⟩, fun e => ?_⟩
    · rw [State.toVerdict, State.verdict_slot_same]; exact judged.power
    · rw [State.toVerdict, State.verdict_slot_same]; simpa using permit
    · rw [State.toVerdict, State.verdict_slot_same, judged.run]
    · simp [e, SlotState.runs] at runs
  · rename_i still
    split
    · rename_i e
      have judged := given.modRun fun r => { r with summaryMissing := r.summaryMissing || r.summary.isNone }
      refine ⟨by simpa using judged.same, ?_, ?_, fun runs => absurd runs still,
        fun _ => ⟨?_, State.verdict_state _ i, judged.judgedAs⟩⟩
      · rw [State.verdict_slot_same]; exact judged.power
      · rw [State.verdict_slot_same]; simpa using permit
      · rw [State.verdict_slot_same, judged.run]
    · rename_i other
      exact ⟨given.same, given.power, permit, fun runs => absurd runs still, fun e => absurd e other⟩

end Sys2Proof.Machine

open Sys2Proof Sys2Proof.Machine

/-- Settles O9. -/
theorem slotEndEndsRun : Obligations.SlotEndEndsRun := by
  unfold Obligations.SlotEndEndsRun
  intro s tag slot i ready hi st
  have serve : RequestCode.slotEnd.serve [slot] s = (s.endWithSummary i .hostEnd).slotReply i := by
    change serveSlotEnd [slot] s = _
    simp only [serveSlotEnd]
    rw [State.withSlot_of hi, if_pos st]
  constructor
  · intro on
    refine congrArg Host.Outcome.next (State.request_serves ready (serve.trans ?_))
    rw [State.endWithSummary_of_onLink on, State.slotReply]
    simp [State.runEnded]
    rfl
  · intro off
    obtain ⟨v, e, given, permit, plan⟩ := s.endAtOnce_given i .hostEnd
    have slot := given.held (judge_hold (.inr ⟨rfl, rfl⟩))
    refine ⟨v.verdict i, congrArg Host.Outcome.next (State.request_serves ready (serve.trans ?_)), ?_, given.judgedAs, ?_⟩
    · rw [State.endWithSummary, if_pos off, e, State.slotReply, slot]
      rfl
    · simpa using given.same
    · rw [slot]
      exact ⟨rfl, rfl, given.power, permit, plan, rfl, rfl, rfl⟩

/-- Settles O10, by the slot's state. -/
theorem slotAbortGivesUp : Obligations.SlotAbortGivesUp := by
  unfold Obligations.SlotAbortGivesUp
  intro s tag slot i ready hi
  have takes {t : State} (e : s.abortSlot i = some t) :
      exec (.slotAbort tag [slot]) s = .next (t.answered tag .slotAbort (Answer.accept (u8 (t.slot i).state.byte))) := by
    refine congrArg Host.Outcome.next (State.request_serves ready ?_)
    change serveSlotAbort [slot] s = _
    simp only [serveSlotAbort]
    rw [State.withSlot_of hi, e]
    rfl
  refine ⟨fun st queued => ?_, fun active => ?_, fun st => ?_, fun st => ?_⟩
  · have e : s.abortSlot i = some (((s.withdrawOrder i).dropPlan i).enterVacant i none) := by
      simp [State.abortSlot, st, queued]
    have slot : (((s.withdrawOrder i).dropPlan i).enterVacant i none).slot i =
        SlotRec.empty (s.slot i).seatRaw (s.slot i).seatStable (s.slot i).debounce (s.slot i).stepEntry := by
      simp [State.withdrawOrder]
    refine ⟨_, ?_, State.same_enterVacant_of (by simp [State.sameBeyondSlots_refl]) none, slot, ?_, fun p plan => ?_⟩
    · rw [takes e, slot]
      rfl
    · simp [State.withdrawOrder]
    · rw [State.enterVacant_plan, State.dropPlan_of_some _ _ (by simpa [State.withdrawOrder] using plan)]
      simp [State.withdrawOrder]
  · obtain ⟨v, run, e, given, cause, missing, permit⟩ : ∃ v run, s.abortSlot i = some (v.verdict i) ∧ s.Given v i run ∧
        run.endCause = some .abort ∧ ((s.slot i).run.summary = none → run.summaryMissing = true) ∧
        (v.slot i).permit = (if (s.slot i).state = .ending then (s.slot i).permit else .none) := by
      by_cases ending : (s.slot i).state = .ending
      · obtain ⟨v, e, given, permit⟩ := s.abortEnding_given i
        refine ⟨v, _, by simp [State.abortSlot, ending, e], given, rfl, fun none => by simp [none], by simp [ending, permit]⟩
      · obtain ⟨v, e, given, permit, -⟩ := s.endAtOnce_given i .abort
        refine ⟨v, _, ?_, given, rfl, fun _ => rfl, by simp [ending, permit]⟩
        have runs := active.resolve_right ending
        unfold State.abortSlot
        split <;> simp_all [SlotState.runs]
    have slot := given.held (judge_hold (.inl cause))
    refine ⟨v.verdict i, ?_, by simpa using given.same, ?_⟩
    · rw [takes e, slot]
      rfl
    · rw [slot]
      refine ⟨rfl, rfl, given.power, permit, cause, rfl, missing, ?_, fun l => ?_, fun k => ?_⟩
      · rw [State.verdict_link]; exact given.unknown
      · rw [State.verdict_link]; exact given.directed l
      · rw [State.verdict_link]; exact given.gone k
  · have e : s.abortSlot i = some ((s.withdrawOrder i).enterHeld i .aborted) := by simp [State.abortSlot, st]
    rw [takes e]
    simp [State.withdrawOrder, State.enterHeld, State.enter, State.modSlot_eq, st]
    rfl
  · have e : s.abortSlot i = none := by
      rcases st with e | e | e | e | e | ⟨e, queued⟩ <;> simp [State.abortSlot, *]
    refine congrArg Host.Outcome.next (State.request_serves ready ?_)
    change serveSlotAbort [slot] s = _
    simp only [serveSlotAbort]
    rw [State.withSlot_of hi, e]
    rfl

/-- Settles O16. -/
theorem spinLimitEndsRun : Obligations.SpinLimitEndsRun := by
  unfold Obligations.SpinLimitEndsRun
  intro s i limited held st
  obtain ⟨v, e, given, permit, -⟩ := s.endAtOnce_given i .noSpin
  have judged : judge s.sort { (s.slot i).run with endCause := some .noSpin, summaryMissing := true } (s.slot i).spin
      (s.linkSlot i).total = judgeFault s.sort 10 := judge_fault rfl rfl
  refine ⟨v.verdict i, ?_, by simpa using given.same, ?_, ?_, ?_, ?_, ?_, v.verdict_state i, ?_, given.judgedAs⟩
  · rw [← e]
    exact congrArg Host.Outcome.next (if_pos limited)
  · rw [State.verdict_slot_same]; exact permit
  · rw [State.verdict_slot_same]; exact given.power
  · rw [State.verdict_slot_same]; exact given.spin
  · rw [State.verdict_slot_same, given.run]
  · rw [State.verdict_slot_same, given.run]
  · rw [State.verdict_slot_same, given.judgement, judged]
    rfl

/-- Settles O17: the line's level is stored first, and overcurrent is taken where it is regarded. -/
theorem overcurrentCutsPower : Obligations.OvercurrentCutsPower := by
  unfold Obligations.OvercurrentCutsPower
  intro s i taken
  refine ⟨fun on unblanked => ?_, fun off => ?_, ?_, fun blanked low => ?_, fun blanked high on => ?_⟩
  · have regarded : (s.slot i).regardsOvercurrent = true := by simp [SlotRec.regardsOvercurrent, on, unblanked]
    obtain ⟨same, power, permit, ends, ending⟩ := (s.setOvercurrent i true).takeOvercurrent_cutOff i
    exact ⟨_, congrArg Host.Outcome.next (if_pos (by simp [regarded])), same, power, permit, ends, ending⟩
  · have unregarded : (s.slot i).regardsOvercurrent = false := by
      rcases off with e | e <;> simp [SlotRec.regardsOvercurrent, e]
    exact congrArg Host.Outcome.next (if_neg (by simp [unregarded]))
  · rfl
  · have run : exec (.inrushBlankingEnd i) s = .next (s.modSlot i fun r => { r with blanking := none }) := by
      refine congrArg Host.Outcome.next ((if_pos blanked).trans (if_neg ?_))
      simp [low]
    exact run
  · have regarded : ((s.modSlot i fun r => { r with blanking := none }).slot i).regardsOvercurrent = true := by
      simp [SlotRec.regardsOvercurrent, on]
    obtain ⟨same, power, permit, ends, ending⟩ :=
      (s.modSlot i fun r => { r with blanking := none }).takeOvercurrent_cutOff i
    refine ⟨_, congrArg Host.Outcome.next ((if_pos blanked).trans (if_pos ?_)), ?_, power, permit, ?_, ?_⟩
    · rw [Bool.and_eq_true]
      exact ⟨high, regarded⟩
    · have level : s.overcurrent.set i true = s.overcurrent := by
        rw [← high]
        simp
      rw [level]
      exact same
    · simpa using ends
    · simpa using ending
end

