-- ==== Sys2Proof/Proofs/SeatAndReady.lean ====
section
/-! PROOFS. The seat teardown at a stable OPEN (R7), and READY at the end of a spin capture (R11, R16, R49). -/

namespace Sys2Proof.Machine

variable {s t u v : State} {i : SlotNo}

/-! ## The teardown (R7) -/

/-- The slot torn down, but for its state and records (R7 items 1 to 4). -/
def State.detached (s : State) (i : SlotNo) : State :=
  (((s.powerOff i).dropPermit i).leaveLink i).withdrawOrder i

/-- The slot torn down and its run ended, where it has one (R7, R17). -/
def State.torn (s : State) (i : SlotNo) : State :=
  if ((s.detached i).slot i).state.runs then (s.detached i).recordEnd i .removed else s.detached i

theorem State.teardown_eq (s : State) (i : SlotNo) :
    s.teardown i = (s.torn i).enterVacant i ((s.torn i).slot i).run.endCause := rfl

/-- The end of the run recorded, or not, the slot's seat, its queue, its link and its orders are those it was detached
with. -/
theorem State.torn_reads (s : State) (i : SlotNo) :
    SlotRec.empty ((s.torn i).slot i).seatRaw ((s.torn i).slot i).seatStable ((s.torn i).slot i).debounce
        ((s.torn i).slot i).stepEntry =
      SlotRec.empty (s.slot i).seatRaw (s.slot i).seatStable (s.slot i).debounce (s.slot i).stepEntry ∧
    (s.torn i).permitQueue = ((s.powerOff i).dropPermit i).permitQueue ∧
    ((s.torn i).link (shelfOf i)).knows i = false ∧ ∀ o ∈ (s.torn i).port.queue, o.slot ≠ i := by
  obtain ⟨x, y, z, dropped⟩ := (s.powerOff i).dropPermit_slot i
  have slot : (s.detached i).slot i = ((s.powerOff i).dropPermit i).slot i := rfl
  have link : (s.detached i).link (shelfOf i) = (((s.powerOff i).dropPermit i).link (shelfOf i)).leave i := by
    simp [State.detached, State.withdrawOrder, State.leaveLink]
  have unknown : ((s.detached i).link (shelfOf i)).knows i = false := by rw [link]; simp
  have orders : ∀ o ∈ (s.detached i).port.queue, o.slot ≠ i := by simp [State.detached, State.withdrawOrder]
  unfold State.torn
  split
  · refine ⟨?_, by simp; rfl, by simpa using unknown, by simpa using orders⟩
    rw [State.recordEnd_slot_same, slot, dropped, State.powerOff_slot_same]
  · refine ⟨?_, rfl, unknown, orders⟩
    rw [slot, dropped, State.powerOff_slot_same]

/-- A slot that drops its permit is out of the queue, where a queued slot has a permit state. -/
theorem State.dropPermit_unqueued (queued : i ∈ s.permitQueue → (s.slot i).permit ≠ .none) :
    i ∉ (s.dropPermit i).permitQueue := by
  rcases s.dropPermit_cases i with ⟨free, e⟩ | ⟨-, beside⟩
  · rw [e]
    exact fun m => queued m free
  · exact fun m => by simpa using beside.queue m

/-! ## The debounce ends (R5 to R7) -/

/-- The slot of `s` once its debounce has ended (R5). -/
def State.settled (s : State) (i : SlotNo) : State :=
  s.setSlot i { s.slot i with debounce := none, seatStable := (s.slot i).seatRaw }

theorem State.debounceOver_changed (n : (s.slot i).seatRaw ≠ (s.slot i).seatStable) :
    s.debounceOver i =
      if (s.slot i).seatRaw = .closed then (s.settled i).seatClosed i else (s.settled i).seatOpened i := by
  simp only [State.debounceOver, if_neg n]
  rfl

theorem State.exec_debounce (running : (s.slot i).debounce.isSome = true) :
    exec (.seatDebounceExpiry i) s = .next (s.debounceOver i).finish := congrArg Host.Outcome.next (if_pos running)

@[simp] theorem State.settled_slot_same (s : State) (i : SlotNo) :
    (s.settled i).slot i = { s.slot i with debounce := none, seatStable := (s.slot i).seatRaw } := by
  simp [State.settled]

/-- In the states that hold a drive a stable OPEN tears the slot down (R7). -/
theorem State.seatOpened_of_drive (st : (s.slot i).state.runs = true ∨ (s.slot i).state = .ending ∨
    (s.slot i).state = .seated ∨ (s.slot i).state = .graded ∨ (s.slot i).state = .held) :
    s.seatOpened i = s.teardown i := by
  unfold State.seatOpened
  cases e : (s.slot i).state <;> simp [e, SlotState.runs] at st ⊢

/-! ## READY (R11) -/

/-- A permit held is returned: the slot has none, and its record stands otherwise (R10). -/
theorem State.dropPermit_held (held : (s.slot i).permit = .held) :
    (s.dropPermit i).slot i =
      { s.slot i with permit := .none, grantedAt := none, spinLimit := none, blanking := none } := by
  rcases s.dropPermit_cases i with ⟨free, -⟩ | ⟨-, beside⟩
  · simp [held] at free
  · exact beside.slot.trans (by simp)

/-- A directed transaction asked for a slot on the link is in its queue (R63). -/
theorem Link.ask_mem {x : Link} (known : x.knows i = true) (c : DirectedCode) (p : Purpose) :
    { slot := i, code := c, purpose := p } ∈ (x.ask i c p).directed := by
  simp only [Link.ask, if_pos known]
  split
  · rename_i waits
    obtain ⟨d, m, e⟩ := List.any_eq_true.mp waits
    refine List.mem_map.mpr ⟨d, m, if_pos ?_⟩
    simpa using e
  · simp

/-- POWERING goes on to IDENTIFYING, joins its link and asks for IDENT (R16). -/
theorem State.startIdent_reads (s : State) (i : SlotNo) :
    (s.startIdent i).slot i = { s.slot i with state := .identifying, hold := none } ∧
      ((s.startIdent i).link (shelfOf i)).knows i = true ∧
      { slot := i, code := .ident, purpose := .plain } ∈ ((s.startIdent i).link (shelfOf i)).directed := by
  have link : (s.startIdent i).link (shelfOf i) = ((s.link (shelfOf i)).join i).ask i .ident .plain := by
    simp [State.startIdent, State.askLink, State.joinLink]
  refine ⟨?_, ?_, ?_⟩
  · simp [State.startIdent, State.askLink, State.joinLink]
  · rw [link]; simp
  · rw [link]; exact Link.ask_mem (by simp) _ _

/-- A CYCLE spin-up that has ended joins its link again, in PAUSED where the zone has stopped the run (R49). -/
theorem State.rejoin_reads (s : State) (i : SlotNo) :
    (s.rejoin i).slot i = { s.slot i with
        cyclePhase := some .rejoining
        state := if (s.slot i).run.zonePaused then .paused else (s.slot i).state
        hold := if (s.slot i).run.zonePaused then none else (s.slot i).hold } ∧
      ((s.rejoin i).link (shelfOf i)).knows i = true := by
  simp only [State.rejoin]
  split
  · simp [State.joinLink]
  · simp [State.joinLink]

end Sys2Proof.Machine

open Sys2Proof Sys2Proof.Machine

/-- Settles O13: in these states a stable OPEN is a teardown. -/
theorem stableOpenTearsDown : Obligations.StableOpenTearsDown := by
  unfold Obligations.StableOpenTearsDown
  intro s i running raw stable queued st
  have torn : s.debounceOver i = (s.settled i).teardown i := by
    rw [State.debounceOver_changed (by simp [raw, stable]), if_neg (by simp [raw]),
      State.seatOpened_of_drive (by simpa using st)]
  have e := (s.settled i).teardown_eq i
  obtain ⟨empty, queue, unknown, orders⟩ := (s.settled i).torn_reads i
  refine ⟨(s.settled i).teardown i, ?_, (s.settled i).same_teardown i, ?_, ?_, ?_, ?_, ?_, ?_⟩
  · rw [State.exec_debounce running, torn]
  · rw [e, State.enterVacant_slot_same, empty]
    simp [raw]
  · rw [e, State.enterVacant_permitQueue, queue]
    exact State.dropPermit_unqueued (by simpa [State.settled] using queued)
  · rw [e, State.enterVacant_link]; exact unknown
  · rw [e, State.enterVacant_port]; exact orders
  · rw [e]; simp
  · rw [e]; simp

/-- Settles O15: the permit returned, the slot's line is inactive, and the slot goes on by its state. -/
theorem readyEndsCapture : Obligations.ReadyEndsCapture := by
  unfold Obligations.ReadyEndsCapture
  intro s i g granted held inactive st
  let x := s.modSlot i fun r => { r with spin := r.spin.record (saturate Config.cap16 (Time.since s.now g)) }
  let t := x.dropPermit i
  have slot : t.slot i = { s.slot i with
      spin := (s.slot i).spin.record (saturate Config.cap16 (Time.since s.now g))
      permit := .none, grantedAt := none, spinLimit := none, blanking := none } := by
    rw [State.dropPermit_held (by simp [x, held])]
    simp [x]
  have same : s.sameBeyondSlots t := by simp [t, x, State.sameBeyondSlots_refl]
  have unchecked : t.checkOvercurrent i = t := State.checkOvercurrent_of_inactive (by rw [same.2.2.1]; exact inactive)
  have ready : s.readyHigh i =
      if (t.slot i).state = .powering then t.startIdent i
      else if (t.slot i).state = .running then t.rejoin i else t := by
    simp only [State.readyHigh, granted]
    rw [show (x.dropPermit i).checkOvercurrent i = t from unchecked]
  have run : exec (.readySeen i) s = .next (s.readyHigh i).finish := congrArg Host.Outcome.next (if_pos (by simp [granted]))
  rcases st with st | st
  · obtain ⟨slotU, known, asked⟩ := t.startIdent_reads i
    rw [ready, slot, if_pos st] at run
    refine ⟨t.startIdent i, run, by simpa using same, ?_⟩
    rw [slotU, slot]
    exact ⟨rfl, rfl, rfl, rfl, known, fun _ => ⟨rfl, _, asked, rfl, rfl⟩, fun e => by simp [st] at e⟩
  · obtain ⟨slotU, known⟩ := t.rejoin_reads i
    rw [ready, slot, if_neg (by simp [st]), if_pos st] at run
    refine ⟨t.rejoin i, run, by simpa using same, ?_⟩
    rw [slotU, slot]
    exact ⟨rfl, rfl, rfl, rfl, known, fun e => by simp [st] at e, fun _ => ⟨rfl, by simp [st]⟩⟩
end

