-- ==== Sys2Proof/Proofs/CountIn.lean ====
section
/-! PROOFS. What CM does when an extraction is counted in (R168) does not depend on the slot records, but for the run and
the spin record that the SHIPPED record carries (R175). -/

namespace Sys2Proof.Machine

variable {s : State} {i : SlotNo} {r : SlotRec} {b : LaneNo}

/-! ## Each operation of CM and a write of a slot record -/

theorem State.ite_setSlot {p : Prop} [Decidable p] {s t : State} :
    (if p then s else t).setSlot i r = if p then s.setSlot i r else t.setSlot i r := by split <;> rfl

theorem State.judgeHighWater_setSlot : s.judgeHighWater.setSlot i r = (s.setSlot i r).judgeHighWater := by
  simp only [State.judgeHighWater, State.ite_setSlot, State.notify_setSlot, State.setRing_setSlot]
  rfl
@[simp] theorem State.writePaid_setSlot (x : ManifestBody) :
    (s.writePaid x).setSlot i r = (s.setSlot i r).writePaid x := by
  simp [State.writePaid, State.writeRecord, State.judgeHighWater_setSlot]
@[simp] theorem State.modCarton_setSlot (f : Carton → Carton) :
    (s.modCarton b f).setSlot i r = (s.setSlot i r).modCarton b f := rfl
@[simp] theorem State.release_setSlot : s.release.setSlot i r = (s.setSlot i r).release := rfl
@[simp] theorem State.notifyCarton_setSlot (e : CartonEvent) (c : Option (Nat × Nat × Nat)) :
    (s.notifyCarton b e c).setSlot i r = (s.setSlot i r).notifyCarton b e c := by simp [State.notifyCarton]

/-- CM reads its own records alone: a carton it reads is the one it would read before the write. -/
theorem State.notifyCarton_carton (e : CartonEvent) (c : Option (Nat × Nat × Nat)) (k : LaneNo) :
    (s.notifyCarton b e c).carton k = s.carton k := by simp [State.notifyCarton]
theorem State.modCarton_carton_setSlot (f : Carton → Carton) (k : LaneNo) :
    ((s.setSlot i r).modCarton b f).carton k = (s.modCarton b f).carton k := rfl

@[simp] theorem State.enterAbsent_setSlot (e : CartonEvent) (c : Option (Nat × Nat × Nat)) :
    (s.enterAbsent b e c).setSlot i r = (s.setSlot i r).enterAbsent b e c := by
  simp only [State.enterAbsent, State.openCarton, State.ite_setSlot, State.notifyCarton_setSlot, State.modCarton_setSlot]
  rw [State.notifyCarton_carton, State.notifyCarton_carton, State.modCarton_carton_setSlot]
@[simp] theorem State.serveBin_setSlot : (s.serveBin b).setSlot i r = (s.setSlot i r).serveBin b := by
  simp only [State.serveBin, State.closeShort, State.writeRecord, State.judgeHighWater_setSlot, State.ite_setSlot,
    State.enterAbsent_setSlot, State.modCarton_setSlot, State.setRing_setSlot]
  rfl
@[simp] theorem State.serveFreed_setSlot : s.serveFreed.setSlot i r = (s.setSlot i r).serveFreed := by
  unfold State.serveFreed
  generalize allLanes = lanes
  induction lanes generalizing s with
  | nil => rfl
  | cons b lanes ih => rw [List.foldl_cons, List.foldl_cons, ih, State.serveBin_setSlot]
@[simp] theorem State.takeUpClose_setSlot : (s.takeUpClose b).setSlot i r = (s.setSlot i r).takeUpClose b := by
  have freed (t : State) : (t.setSlot i r).serveFreed.carton b = t.serveFreed.carton b := by
    rw [← State.serveFreed_setSlot, State.carton_setSlot]
  simp only [State.takeUpClose, State.ite_setSlot, State.serveFreed_setSlot, State.enterAbsent_setSlot,
    State.notifyCarton_setSlot, State.modCarton_setSlot]
  generalize hf : (fun c : Carton => { c with pendingClose := false }) = f
  rw [← State.modCarton_setSlot, freed]
  rfl
@[simp] theorem State.endExtraction_setSlot : (s.endExtraction b).setSlot i r = (s.setSlot i r).endExtraction b := by
  simp only [State.endExtraction, State.ite_setSlot, State.takeUpClose_setSlot, State.serveFreed_setSlot,
    State.release_setSlot]
  rfl
@[simp] theorem State.fullCarton_setSlot : (s.fullCarton b).setSlot i r = (s.setSlot i r).fullCarton b := by
  simp only [State.fullCarton, State.ite_setSlot, State.enterAbsent_setSlot, State.modCarton_setSlot,
    State.writePaid_setSlot, State.notifyCarton_setSlot]
  rfl

/-- The count-in of an extraction commutes with a write of its slot's record that keeps what the SHIPPED record takes. -/
theorem State.countIn_setSlot (run : r.run = (s.slot i).run) (spin : r.spin = (s.slot i).spin) :
    (s.countIn i b).setSlot i r = (s.setSlot i r).countIn i b := by
  have record (f : Carton → Carton) : ((s.setSlot i r).modCarton b f).shipped i b = (s.modCarton b f).shipped i b := by
    simp [State.shipped, run, spin]
  have written (f : Carton → Carton) (x : ManifestBody) :
      (((s.setSlot i r).modCarton b f).writePaid x).carton b = ((s.modCarton b f).writePaid x).carton b := by
    rw [← State.modCarton_setSlot, ← State.writePaid_setSlot, State.carton_setSlot]
  simp only [State.countIn, record, written, State.ite_setSlot, State.serveFreed_setSlot, State.release_setSlot,
    State.fullCarton_setSlot, State.endExtraction_setSlot, State.writePaid_setSlot, State.modCarton_setSlot]

end Sys2Proof.Machine
end

