-- ==== Sys2Proof/Proofs/Verdicts.lean ====
section
/-! PROOFS. The verdict: the fault table, the score and its band, the bar step, and the slot's move (R20, R123 to
R131). -/

namespace Sys2Proof.Machine

variable {t : SortTables} {run : RunRec} {spin : SpinRec} {misses : Nat} {x : Summary} {c : EndCause}

/-! ## What SU works out (R124) -/

theorem judgeFault_eq (t : SortTables) (e : FaultEntry) :
    judgeFault t e =
      { verdict :=
          { bin := (barStep t t.faults[e]).1, score := none, fault := some e, bar := (barStep t t.faults[e]).2.1 }
        replaced := (barStep t t.faults[e]).2.2, detail := none, regressed := false } := rfl

/-- A COMPLETE or HOST_END run with its summary is judged by its score (R124 step 4). -/
theorem judge_score (e : run.endCause = some .complete ∨ run.endCause = some .hostEnd)
    (there : run.summaryMissing = false) (read : run.summary = some x) :
    judge t run spin misses = judgeScore t run x spin misses := by
  rcases e with e | e <;> simp [judge, e, EndCause.entry, there, read]

/-- The ends that are judged neither by the fault table nor by the score (R124 step 2). -/
theorem judge_neither
    (e : run.endCause = none ∨ run.endCause = some .zoneTrip ∨ run.endCause = some .abort ∨
      run.endCause = some .removed ∨
      ((run.endCause = some .complete ∨ run.endCause = some .hostEnd) ∧
        (run.summaryMissing = true ∨ run.summary = none))) :
    judge t run spin misses = Judgement.hold := by
  have unread (m : run.summaryMissing = true ∨ run.summary = none) :
      (match run.summaryMissing, run.summary with
        | false, some x => judgeScore t run x spin misses
        | _, _ => Judgement.hold) = Judgement.hold := by
    rcases m with m | m <;> simp only [m]
    cases run.summaryMissing <;> rfl
  rcases e with e | e | e | e | ⟨e | e, m⟩ <;> simp only [judge, e, EndCause.entry]
  · rfl
  · rfl
  · rfl
  · exact unread m
  · exact unread m

/-- Every judgement is one of three (R124). -/
theorem judge_cases (t : SortTables) (run : RunRec) (spin : SpinRec) (misses : Nat) :
    judge t run spin misses = Judgement.hold ∨ (∃ e, judge t run spin misses = judgeFault t e) ∨
      ∃ x, judge t run spin misses = judgeScore t run x spin misses := by
  unfold judge
  split
  · exact .inl rfl
  · split
    · exact .inr (.inl ⟨_, rfl⟩)
    · split
      · split
        · exact .inr (.inr ⟨_, rfl⟩)
        · exact .inl rfl
      · exact .inl rfl

/-- A score is at most 1000, and comes without a fault (R124, R128). -/
theorem judge_score_le {n : Nat} (e : (judge t run spin misses).verdict.score = some n) :
    n ≤ 1000 ∧ (judge t run spin misses).verdict.fault = none := by
  rcases judge_cases t run spin misses with j | ⟨f, j⟩ | ⟨x, j⟩ <;> rw [j] at e ⊢
  · cases e
  · cases e
  · cases e
    exact ⟨Nat.sub_le _ _, rfl⟩

/-- The first band at or below the score, counted from `k` (R129). -/
theorem bandFrom_append {score : Nat} {b : Band} {after : List Band} (hit : b.lower ≤ score) :
    ∀ (before : List Band) (k : Nat), (∀ y ∈ before, score < y.lower) →
      bandFrom score k (before ++ b :: after) = some (k + before.length, b.bin)
  | [], k, _ => by simp [bandFrom, hit]
  | y :: before, k, above => by
    have past : ¬ y.lower ≤ score := Nat.not_le.mpr (above y (by simp))
    rw [List.cons_append, bandFrom, if_neg past,
      bandFrom_append hit before (k + 1) fun z m => above z (List.mem_cons_of_mem _ m), List.length_cons,
      Nat.add_right_comm, Nat.add_assoc]

/-- The band of a score, where the map is cut at it (R129). -/
theorem bandOf_append {score : Nat} {b : Band} {before after : List Band} (hit : b.lower ≤ score)
    (above : ∀ y ∈ before, score < y.lower) :
    bandOf (before ++ b :: after) score = some (before.length + 1, b.bin) := by
  rw [bandOf, bandFrom_append hit before 1 above, Nat.add_comm]

/-- A judgement by the score, where the band map is cut at the score's band (R124 step 4, R127 to R129). -/
theorem judgeScore_of_band {before after : List Band} {b : Band} (map : t.map = before ++ b :: after)
    (above : ∀ y ∈ before, (scoreDetail t run x spin misses).score < y.lower)
    (hit : b.lower ≤ (scoreDetail t run x spin misses).score) :
    judgeScore t run x spin misses =
      { verdict :=
          { bin := (barStep t b.bin).1, score := some (scoreDetail t run x spin misses).score, fault := none
            bar := (barStep t b.bin).2.1 }
        replaced := (barStep t b.bin).2.2
        detail := some { scoreDetail t run x spin misses with band := before.length + 1 }
        regressed := regressed run.gradeBase x } := by
  have band : bandOf t.map (scoreDetail t run x spin misses).score = some (before.length + 1, b.bin) := by
    rw [map]; exact bandOf_append hit above
  have number : (scoreDetail t run x spin misses).band = before.length + 1 :=
    congrArg (fun o : Option (Nat × Bin) => match o with | some x => x.1 | none => 0) band
  rw [judgeScore]
  simp only [band]
  rw [← number]

/-! ## The slot's move (R20) -/

variable {s : State} {i : SlotNo}

theorem laneOf_eq_some {b : Bin} {n : LaneNo} (e : b.val = n.val + 1) : laneOf b = some n := by
  rw [laneOf, ofNum, dif_pos (by omega)]
  exact congrArg some (Fin.ext (by simp [e]))

theorem laneOf_eq_none {b : Bin} (e : b.val = 0) : laneOf b = none := by
  rw [laneOf, ofNum, dif_neg (by omega)]

/-- RUN_END is queued with the count regressed flag set, and the verdict kept (R123, R131). -/
theorem State.told_eq :
    s.told i =
      let run : RunRec :=
        { (s.slot i).run with countRegressed := (s.slot i).run.countRegressed || (s.judgement i).regressed }
      let u := (s.setSlot i { s.slot i with run := run }).notify
        (.runEnd i run (s.judgement i).verdict (s.judgement i).replaced (s.judgement i).detail)
      u.setSlot i { s.slot i with run := { run with verdict := some (s.judgement i).verdict } } := by
  simp [State.told, State.modRun_eq]

end Sys2Proof.Machine

open Sys2Proof Sys2Proof.Machine

/-- Settles O39: the judgement by the end cause (`judge_fault`, `judge_score`, `judge_neither`), its band where the map
is cut at it, and the slot's move by the bin of the verdict. -/
theorem verdictByFaultOrScore : Obligations.VerdictByFaultOrScore := by
  intro t run spin misses j v bar replaced
  have bar_eq (b : Bin) : bar b = ((barStep t b).1, (barStep t b).2.1) := by
    simp only [bar, barStep, laneOf]
    cases ofNum 12 b.val with
    | none => rfl
    | some n => by_cases barred : t.barred[n] = true <;> simp [barred]
  have replaced_eq (b : Bin) : replaced b = (barStep t b).2.2 := by
    simp only [replaced, bar_eq, barStep]
    cases laneOf b with
    | none => rfl
    | some n => by_cases barred : t.barred[n] = true <;> simp [barred]
  have fault {c : EndCause} {e : FaultEntry} (cause : run.endCause = some c) (entry : c.entry = some e) :
      v = { bin := (bar t.faults[e]).1, score := none, fault := some e, bar := (bar t.faults[e]).2 } ∧
        j.replaced = replaced t.faults[e] ∧ j.detail = none ∧ j.regressed = false := by
    simp only [v, j, judge_fault cause entry, judgeFault_eq, bar_eq, replaced_eq, and_self]
  refine ⟨fun k cause => fault cause rfl, fun c e listed cause => ?_, fun x cause there read => ?_, fun e => ?_,
    fun n e => judge_score_le e, fun s i sort run' spin' total => ?_⟩
  · refine fault cause ?_
    simp only [List.mem_cons, Prod.mk.injEq, List.not_mem_nil, or_false] at listed
    rcases listed with ⟨rfl, rfl⟩ | ⟨rfl, rfl⟩ | ⟨rfl, rfl⟩ | ⟨rfl, rfl⟩ | ⟨rfl, rfl⟩ <;> rfl
  · have judged : j = judgeScore t run x spin misses := judge_score cause there read
    simp only [v, judged]
    refine ⟨rfl, rfl, ?_, fun before b after map above hit => ?_⟩
    · rfl
    · have scored := judgeScore_of_band (run := run) (x := x) (spin := spin) (misses := misses) map above hit
      rw [scored, bar_eq, replaced_eq]
      exact ⟨rfl, rfl, rfl, rfl⟩
  · simp only [v, j, judge_neither e, Judgement.hold, and_self]
  · have judged : s.judgement i = j := by rw [State.judgement, sort, run', spin', total]
    refine ⟨fun b bin => ?_, fun bin => ?_⟩
    · have lane : laneOf (s.judgement i).verdict.bin = some b := by rw [judged]; exact laneOf_eq_some bin
      rw [State.verdict_eq, lane, State.told_eq, judged, run']
      simp [State.enter, State.modSlot_eq, State.joinOrder]
      rfl
    · have lane : laneOf (s.judgement i).verdict.bin = none := by rw [judged]; exact laneOf_eq_none bin
      rw [State.verdict_eq, lane, State.told_eq, judged, run']
      simp [State.enterHeld, State.enter, State.modSlot_eq]
      rfl

end

