-- ==== Sys2Proof/Proofs/PowerOn.lean ====
section
/-! PROOFS. The rack just sampled: what POWER_ON leaves in every record, and the invariants at reset (R29, R56, R74,
R95, R165, R182). -/

namespace Sys2Proof.Machine

variable (x : Inputs)

/-! ## The records at power-on -/

@[simp] theorem State.ofInputs_slot (i : SlotNo) : (State.ofInputs x).slot i = SlotRec.sampled x.seats[i] := by
  simp [State.slot, State.ofInputs, mapEach]
@[simp] theorem State.ofInputs_zone (z : ShelfNo) : (State.ofInputs x).zone z = Zone.powerOn x.cutoff[z] := by
  simp [State.zone, State.ofInputs, mapEach]
@[simp] theorem State.ofInputs_carton (b : LaneNo) : (State.ofInputs x).carton b = Carton.powerOn x.cartons[b] := by
  simp [State.carton, State.ofInputs, mapEach]
@[simp] theorem State.ofInputs_plan (p : PlanNo) : (State.ofInputs x).plan p = Plan.empty := by
  simp [State.plan, State.ofInputs]
@[simp] theorem State.ofInputs_link (l : ShelfNo) :
    (State.ofInputs x).link l = Link.idleFrom 0 LinkSettings.powerOn := by simp [State.link, State.ofInputs]
@[simp] theorem State.ofInputs_dose (i : SlotNo) : (State.ofInputs x).dose i = DoseRec.empty := by
  simp [State.dose, State.ofInputs]
@[simp] theorem State.ofInputs_watch (i : SlotNo) : (State.ofInputs x).watch i = WatchRec.empty := by
  simp [State.watch, State.ofInputs]

/-- A sampled slot: SEATED at a CLOSED seat, VACANT at an OPEN one, with no plan, no power and its latch engaged
(R29). -/
theorem SlotRec.sampled_eq (v : Seat) :
    SlotRec.sampled v =
      { SlotRec.empty v v none 0 with state := if v = .closed then .seated else .vacant } := by
  cases v <;> rfl

/-! ## The invariants there -/

theorem State.ofInputs_holders : (State.ofInputs x).holders = 0 := by
  rw [State.holders, List.countP_eq_zero]
  intro r member
  obtain ⟨v, -, rfl⟩ : ∃ v ∈ x.seats.toList, SlotRec.sampled v = r := by
    simpa [State.ofInputs, mapEach] using member
  simp [SlotRec.sampled_eq, SlotRec.empty]

theorem State.ofInputs_zonesAsState : (State.ofInputs x).zonesAsState := fun z => by
  simp [Zone.powerOn, Zone.asState]

theorem State.ofInputs_dosesCapped : (State.ofInputs x).dosesCapped := fun i => by
  simp [DoseRec.empty]

theorem State.ofInputs_permitsWithinLimit : (State.ofInputs x).permitsWithinLimit := by
  rw [State.permitsWithinLimit, State.ofInputs_holders]
  exact Nat.zero_le _

theorem State.ofInputs_lineWithinSizes : (State.ofInputs x).lineWithinSizes := by
  simp [State.lineWithinSizes, State.ofInputs, Line.powerOn, Line.busyReplies, noticesInOrder, noticesSourced]

theorem State.ofInputs_inOrder : (State.ofInputs x).InOrder :=
  .sampled (fun i => ⟨x.seats[i], State.ofInputs_slot x i⟩) (fun p => by simp [Plan.empty]) rfl
    (fun l => ⟨0, LinkSettings.powerOn, State.ofInputs_link x l⟩) rfl rfl

theorem State.ofInputs_cartonsWithinSizes : (State.ofInputs x).cartonsWithinSizes := by
  have idle : (State.ofInputs x).port.live = none := rfl
  refine ⟨fun b => ?_, Nat.zero_le _, fun c b live => ?_, fun _ => rfl⟩
  · simp [Carton.withinCapacity, Carton.powerOn]
  · rw [idle] at live
    cases live

end Sys2Proof.Machine

open Sys2Proof Sys2Proof.Machine

/-- Settles O3: every record read at power-on, the invariants there, and POWER_ON as the sampling of its pins. -/
theorem powerOnAndReset : Obligations.PowerOnAndReset := by
  have seat (i : SlotNo) : Inputs.atRest.seats[i] = .opened := by simp [Inputs.atRest]
  have cutoff (z : ShelfNo) : Inputs.atRest.cutoff[z] = false := by simp [Inputs.atRest]
  have carton (b : LaneNo) : Inputs.atRest.cartons[b] = false := by simp [Inputs.atRest]
  refine ⟨fun i => ?_, fun p => ?_, rfl, rfl, fun l => ?_, fun z => ?_, fun i => ?_, rfl, fun i => ?_, rfl, rfl, rfl, rfl,
    rfl, fun b => ?_, rfl, rfl, rfl, rfl, State.ofInputs_zonesAsState _, State.ofInputs_dosesCapped _,
    State.ofInputs_permitsWithinLimit _, State.ofInputs_lineWithinSizes _, State.ofInputs_inOrder _,
    State.ofInputs_cartonsWithinSizes _, fun x s => ⟨{ State.ofInputs x with pending := s.pending }, rfl, fun i => ?_,
    fun b => ?_, fun z => ?_, rfl, rfl, rfl, rfl⟩⟩
  · rw [State.reset, State.ofInputs_slot, seat]; rfl
  · exact State.ofInputs_plan _ p
  · rw [State.reset, State.ofInputs_link]; exact ⟨rfl, rfl, rfl, rfl⟩
  · rw [State.reset, State.ofInputs_zone, cutoff]; exact ⟨rfl, rfl, rfl, rfl⟩
  · exact State.ofInputs_dose _ i
  · exact State.ofInputs_watch _ i
  · rw [State.reset, State.ofInputs_carton, carton]; rfl
  · have slot : ({ State.ofInputs x with pending := s.pending } : State).slot i = SlotRec.sampled x.seats[i] :=
      State.ofInputs_slot x i
    rw [slot, SlotRec.sampled_eq]
    exact ⟨rfl, rfl, rfl, rfl, rfl, rfl⟩
  · have opened : ({ State.ofInputs x with pending := s.pending } : State).carton b = Carton.powerOn x.cartons[b] :=
      State.ofInputs_carton x b
    rw [opened]
    exact ⟨rfl, rfl, rfl, rfl⟩
  · have off : ({ State.ofInputs x with pending := s.pending } : State).zone z = Zone.powerOn x.cutoff[z] :=
      State.ofInputs_zone x z
    rw [off]
    rfl

end

