-- ==== Sys2Proof/Proofs/WatchMatches.lean ====
section
/-! PROOFS. A good STATUS reply with a winning watch rule: the reply read, the latch, and what the slot does after it
(R52, R70, R112 to R117). -/

namespace Sys2Proof.Machine

variable {s : State} {l : ShelfNo} {i : SlotNo} {x : LastStatus} {w : FaultWord} {n : RuleNo} {c : EndCause}

/-! ## A good STATUS reply is taken (R52, R54, R70) -/

/-- The check byte makes the sum of a frame 0 (R51). -/
theorem byteSum_frame (head : List Byte) : byteSum (head ++ [- byteSum head]) = 0 := by
  have snoc : byteSum (head ++ [- byteSum head]) = byteSum head + - byteSum head := by
    rw [byteSum, List.foldl_append]; rfl
  rw [snoc, BitVec.add_right_neg]
  rfl

/-- A reply with nine payload bytes passes the tests of R52 for a STATUS request. -/
theorem readReply_status {d : DriveState} {st phase progress temp g1 g0 p1 p0 f1 f0 : Byte}
    (status : readDriveState st = some d) :
    readReply .status (replyFrame 0x14 st [phase, progress, temp, g1, g0, p1, p0, f1, f0]) =
      some (d, [phase, progress, temp, g1, g0, p1, p0, f1, f0]) := by
  have sum := byteSum_frame [Config.sync, 0x14, st, 9, phase, progress, temp, g1, g0, p1, p0, f1, f0]
  simp only [List.cons_append, List.nil_append] at sum
  simp [readReply, replyFrame, status, LinkRequest.code, LinkRequest.replyLength]
  exact sum

/-- A good STATUS reply in time is taken (R52, R70). -/
theorem exec_statusReply {e : Time} {d : DriveState} {st phase progress temp g1 g0 p1 p0 f1 f0 : Byte}
    (out : (s.link l).outstanding = some { slot := i, request := .status, expiry := e, spoiled := false })
    (intime : Time.passed s.now e = false) (status : readDriveState st = some d) (small : phase.toNat ≤ 15)
    (read : x = { state := d, phase := phase.toNat, progress := min 100 progress.toNat, temp := min 150 temp.toNat,
                  grown := be16 g1 g0, pending := be16 p1 p0, fault := BitVec.ofNat 16 (be16 f1 f0), time := s.now }) :
    exec (.statusReply l (replyFrame 0x14 st [phase, progress, temp, g1, g0, p1, p0, f1, f0])) s =
      .next (s.statusTaken l i x).finish := by
  have awaited : (s.link l).awaiting s.now =
      some { slot := i, request := .status, expiry := e, spoiled := false } := by
    simp [Link.awaiting, out, intime]
  have good : readStatus d [phase, progress, temp, g1, g0, p1, p0, f1, f0] s.now = some x := by
    simp [readStatus, small, read]
  change execStatusReply l _ s = _
  rw [execStatusReply, awaited]
  simp only [readReply_status status, good]

/-- The reply's records of a slot whose polls are applied (R69, R71). -/
theorem State.statusTaken_eq (polled : (s.slot i).state.polled = true) :
    s.statusTaken l i x =
      (((s.statusStored l i x).watchStep i x.fault).failedStep i x.state).planStep i x := by
  have stored : ((s.goodReply l i).setLinkSlot i { (s.goodReply l i).linkSlot i with last := some x }).writeFallback i
      x.grown = s.statusStored l i x := by
    rw [State.writeFallback]
    cases first : (s.slot i).run.fallback with
    | none =>
      simp [State.goodReply, State.endTransaction, State.modLink_eq, State.modRun_eq, State.statusStored,
        State.replied, LinkSlot.good, polled, first]
    | some f =>
      have same : ({ s.slot i with run := { (s.slot i).run with fallback := some f } } : SlotRec) = s.slot i := by
        rw [← first]
      simp [State.goodReply, State.endTransaction, State.modLink_eq, State.statusStored, State.replied,
        LinkSlot.good, first, same]
  rw [State.statusTaken, stored]

/-! ## The latch (R112 to R115) -/

/-- An evaluation whose winning rule writes a latch, and whose other effects do not touch the watch record (R113). -/
theorem State.evaluate_of {f : State → State} {latch : WatchLatch} (taken : s.takeMatch i w = f (s.setLatch i latch))
    (apart : ∀ (u : State) (a : WatchRec), (f u).setWatch i a = f (u.setWatch i a)) :
    s.evaluate i w = f (s.setWatch i { prior := w, latch := some latch }) := by
  have found : (f (s.setLatch i latch)).watch i = { s.watch i with latch := some latch } := by
    rw [State.setLatch, ← apart, State.watch_setWatch_same]
  rw [State.evaluate, taken, found, apart, State.setLatch, State.setWatch_setWatch]

/-- The match of an evaluation at an EMPTY latch (R114). -/
theorem State.takeMatch_empty (win : s.winner (s.watch i).prior w = some n) (empty : (s.watch i).latch = none) :
    s.takeMatch i w = s.fillLatch i n w := by
  simp only [State.takeMatch, win, empty]

/-- The match of an evaluation at a FULL latch (R115). -/
theorem State.takeMatch_full {old : WatchLatch} (win : s.winner (s.watch i).prior w = some n)
    (full : (s.watch i).latch = some old) : s.takeMatch i w = s.hitLatch i n w old := by
  simp only [State.takeMatch, win, full]

theorem State.runEnded_setWatch (a : WatchRec) : (s.runEnded i c).setWatch i a = (s.setWatch i a).runEnded i c := by
  unfold State.runEnded
  cases plan : (s.slot i).plan with
  | none => simp [State.modLink_eq, plan]
  | some p => simp [State.modLink_eq, plan]

/-- The latch a winning rule fills (R114). -/
def State.fill (s : State) (n : RuleNo) (w : FaultWord) : WatchLatch :=
  s.rules[n].latched n w s.line.rackTime false

/-- The latch filled and told, and the word made the prior one (R113, R114). -/
def State.filled (s : State) (i : SlotNo) (n : RuleNo) (w : FaultWord) : State :=
  (s.setWatch i { prior := w, latch := some (s.fill n w) }).notify
    (.watch i .filled (s.slot i).run.runCount (s.fill n w) none)

@[simp] theorem State.filled_slot (j : SlotNo) : (s.filled i n w).slot j = s.slot j := by
  simp [State.filled]

/-- NOTE at an EMPTY latch (R114). -/
theorem State.evaluate_note (win : s.winner (s.watch i).prior w = some n) (empty : (s.watch i).latch = none)
    (act : s.rules[n].action = .note) :
    s.evaluate i w = s.filled i n w := by
  refine State.evaluate_of (f := (·.notify (.watch i .filled (s.slot i).run.runCount (s.fill n w) none)))
    ?_ (fun u a => by simp)
  rw [State.takeMatch_empty win empty, State.fillLatch]
  simp only [State.watchAct, act]
  rfl

/-- SUSPEND in REVIEW at an EMPTY latch (R114). -/
theorem State.evaluate_suspend_of_review (win : s.winner (s.watch i).prior w = some n)
    (empty : (s.watch i).latch = none) (act : s.rules[n].action = .suspend) (state : (s.slot i).state = .review) :
    s.evaluate i w = s.filled i n w := by
  refine State.evaluate_of (f := (·.notify (.watch i .filled (s.slot i).run.runCount (s.fill n w) none)))
    ?_ (fun u a => by simp)
  rw [State.takeMatch_empty win empty, State.fillLatch]
  simp only [State.watchAct, act]
  rw [State.watchSuspend, if_neg (by simp [State.setLatch, state])]
  rfl

/-- SUSPEND in RUNNING at an EMPTY latch (R21, R114). -/
theorem State.evaluate_suspend_of_running (win : s.winner (s.watch i).prior w = some n)
    (empty : (s.watch i).latch = none) (act : s.rules[n].action = .suspend) (state : (s.slot i).state = .running) :
    s.evaluate i w =
      (((s.filled i n w).setSlot i { s.slot i with state := .review, hold := none }).notify
        (.slotState i .review .running (s.slot i).run.endCause none)).askLink i .halt .plain := by
  refine State.evaluate_of (f := fun u =>
      (((u.notify (.watch i .filled (s.slot i).run.runCount (s.fill n w) none)).setSlot i
        { s.slot i with state := .review, hold := none }).notify
        (.slotState i .review .running (s.slot i).run.endCause none)).askLink i .halt .plain)
    ?_ (fun u a => by simp [State.askLink, State.modLink_eq])
  rw [State.takeMatch_empty win empty, State.fillLatch]
  simp only [State.watchAct, act]
  rw [State.watchSuspend, if_pos (by simp [State.setLatch, state])]
  simp [State.enter, State.modSlot_eq, State.setLatch, state]
  rfl

/-- REJECT ends the run, whatever the latch was (R21, R114, R115). -/
theorem State.watchAct_reject {r : WatchRule} {k : WatchClass} (act : r.action = .reject) (cls : r.cls = some k)
    (state : (s.slot i).state = .running ∨ (s.slot i).state = .review) (on : (s.slot i).cycleOffLink = false) :
    s.watchAct i r = s.runEnded i (.watchReject k) := by
  simp only [State.watchAct, act, State.watchReject, cls, if_pos state]
  exact State.endWithSummary_of_onLink on

theorem State.evaluate_reject_of_empty {k : WatchClass} (win : s.winner (s.watch i).prior w = some n)
    (empty : (s.watch i).latch = none) (act : s.rules[n].action = .reject) (cls : s.rules[n].cls = some k)
    (state : (s.slot i).state = .running ∨ (s.slot i).state = .review) (on : (s.slot i).cycleOffLink = false) :
    s.evaluate i w = (s.filled i n w).runEnded i (.watchReject k) := by
  refine State.evaluate_of (f := fun u =>
      (u.notify (.watch i .filled (s.slot i).run.runCount (s.fill n w) none)).runEnded i (.watchReject k))
    ?_ (fun u a => by rw [State.runEnded_setWatch, State.notify_setWatch])
  rw [State.takeMatch_empty win empty, State.fillLatch]
  exact State.watchAct_reject act cls (by simpa [State.setLatch] using state) (by simpa [State.setLatch] using on)

theorem State.evaluate_reject_of_full {k : WatchClass} {old : WatchLatch}
    (win : s.winner (s.watch i).prior w = some n) (full : (s.watch i).latch = some old)
    (act : s.rules[n].action = .reject) (cls : s.rules[n].cls = some k)
    (state : (s.slot i).state = .running ∨ (s.slot i).state = .review) (on : (s.slot i).cycleOffLink = false) :
    s.evaluate i w =
      ((s.setWatch i { prior := w, latch := some (s.rules[n].latched n w s.line.rackTime true) }).notify
        (.watch i .overwritten (s.slot i).run.runCount (s.rules[n].latched n w s.line.rackTime true) none)).runEnded
          i (.watchReject k) := by
  refine State.evaluate_of (f := fun u =>
      (u.notify (.watch i .overwritten (s.slot i).run.runCount (s.rules[n].latched n w s.line.rackTime true)
        none)).runEnded i (.watchReject k))
    ?_ (fun u a => by rw [State.runEnded_setWatch, State.notify_setWatch])
  rw [State.takeMatch_full win full, State.hitLatch]
  simp only [act]
  exact State.watchAct_reject act cls (by simpa [State.setLatch] using state) (by simpa [State.setLatch] using on)

/-- Another action at a FULL latch without its repeat flag (R115). -/
theorem State.evaluate_again {old : WatchLatch} (win : s.winner (s.watch i).prior w = some n)
    (full : (s.watch i).latch = some old) (act : s.rules[n].action ≠ .reject) (first : old.again = false) :
    s.evaluate i w =
      (s.setWatch i { prior := w, latch := some { old with again := true } }).notify
        (.watch i .again (s.slot i).run.runCount { old with again := true } (some (n, s.rules[n].action, w))) := by
  refine State.evaluate_of (f := (·.notify
      (.watch i .again (s.slot i).run.runCount { old with again := true } (some (n, s.rules[n].action, w)))))
    ?_ (fun u a => by simp)
  rw [State.takeMatch_full win full, State.hitLatch]
  cases e : s.rules[n].action with
  | reject => exact absurd e act
  | note | suspend => simp [first]

/-- Another action at a FULL latch with its repeat flag (R115). -/
theorem State.evaluate_repeated {old : WatchLatch} (win : s.winner (s.watch i).prior w = some n)
    (full : (s.watch i).latch = some old) (act : s.rules[n].action ≠ .reject) (more : old.again = true) :
    s.evaluate i w = s.setWatch i { prior := w, latch := some old } := by
  have left : s.takeMatch i w = s := by
    rw [State.takeMatch_full win full, State.hitLatch]
    cases e : s.rules[n].action with
    | reject => exact absurd e act
    | note | suspend => simp [more]
  rw [State.evaluate, left, ← full]

/-! ## After the watch unit (R70) -/

/-- A slot still in RUNNING or REVIEW after the evaluation: FAILED ends its run, and RUNNING goes on to its step's
test. -/
theorem State.afterWatch (state : (s.slot i).state = .running ∨ (s.slot i).state = .review)
    (on : (s.slot i).cycleOffLink = false) :
    (s.failedStep i x.state).planStep i x =
      if x.state ≠ .failed ∧ (s.slot i).state = .running then s.testReply i x
      else if x.state = .failed then s.runEnded i .driveFailed else s := by
  have polled : (s.slot i).state.polled = true := by rcases state with e | e <;> simp [e, SlotState.polled]
  by_cases failed : x.state = .failed
  · simp [State.failedStep, State.planStep, polled, failed, State.endWithSummary_of_onLink on]
  · rw [State.failedStep, if_neg (by simp [failed]), State.planStep]
    by_cases running : (s.slot i).state = .running <;> simp [failed, running]

/-- A slot the evaluation has taken to REVIEW (R21, R70). -/
theorem State.afterWatch_of_review (state : (s.slot i).state = .review) (on : (s.slot i).cycleOffLink = false) :
    (s.failedStep i x.state).planStep i x = if x.state = .failed then s.runEnded i .driveFailed else s := by
  rw [State.afterWatch (.inr state) on, if_neg (by simp [state])]

/-- A run the evaluation has ended stands (R70, R116). -/
theorem State.afterWatch_of_ending (state : (s.slot i).state = .ending) :
    (s.failedStep i x.state).planStep i x = s := by
  rw [State.failedStep, if_neg (by simp [state, SlotState.polled]), State.planStep, if_neg (by simp [state])]

/-! ## The records of the reply (R69, R71) -/

theorem State.statusStored_slot_same :
    (s.statusStored l i x).slot i =
      { s.slot i with
        run := { (s.slot i).run with fallback := some ((s.slot i).run.fallback.getD x.grown) } } := by
  simp [State.statusStored]
theorem State.statusStored_watch (j : SlotNo) : (s.statusStored l i x).watch j = s.watch j := rfl

theorem State.runEnded_slot_state : ((s.runEnded i c).slot i).state = .ending := by
  unfold State.runEnded
  cases (s.slot i).plan <;> simp

end Sys2Proof.Machine

open Sys2Proof Sys2Proof.Machine

/-- Settles O37: the reply is taken (`exec_statusReply`, `State.statusTaken_eq`), the evaluation is what the latch and
the winning rule's action say (`State.evaluate_note` and the lemmas after it), and what it left of the run goes on
(`State.afterWatch`). -/
theorem watchActionsTaken : Obligations.WatchActionsTaken := by
  intro s l i e d n st phase progress temp g1 g0 p1 p0 f1 f0 out intime status small state on x win c r taken latched noted
    checked tested
  let base := s.statusStored l i x
  have slot : base.slot i = { s.slot i with
      run := { (s.slot i).run with fallback := some ((s.slot i).run.fallback.getD x.grown) } } :=
    State.statusStored_slot_same
  have at_state : (base.slot i).state = (s.slot i).state := by rw [slot]
  have at_on : (base.slot i).cycleOffLink = false := by rw [slot]; exact on
  have count : (base.slot i).run.runCount = (s.slot i).run.runCount := by rw [slot]
  have at_run : (base.slot i).state = .running ∨ (base.slot i).state = .review := by rw [at_state]; exact state
  have won : base.winner (base.watch i).prior x.fault = some n := win
  have polled : (s.slot i).state.polled = true := by rcases state with e | e <;> simp [e, SlotState.polled]
  have run {u : State} (evaluated : base.evaluate i x.fault = u) :
      exec c s = .next ((u.failedStep i x.state).planStep i x).finish := by
    have took : exec c s = .next (s.statusTaken l i x).finish := exec_statusReply out intime status small rfl
    have watched : (s.statusStored l i x).watchStep i x.fault = u := by
      rw [State.watchStep, if_pos at_run]; exact evaluated
    rw [took, State.statusTaken_eq polled, watched]
  have goes_on {u : State} (same : u.slot i = base.slot i) : (u.failedStep i x.state).planStep i x = tested u := by
    rw [State.afterWatch (by rw [same]; exact at_run) (by rw [same]; exact at_on), same, at_state]
  have filled : base.filled i n x.fault = noted (taken false) .filled none := by
    rw [State.filled, count]
    rfl
  refine ⟨fun empty => ⟨fun act => ?_, fun act => ⟨fun review => ?_, fun running => ?_⟩, fun k act cls => ?_⟩,
    fun old full => ⟨fun k act cls => ?_, fun act first => ?_, fun act more => ?_⟩⟩
  · rw [run (State.evaluate_note won empty act), goes_on (by simp), filled]
  · rw [run (State.evaluate_suspend_of_review won empty act (at_state.trans review)), goes_on (by simp), filled]
    exact congrArg (fun u : State => Host.Outcome.next u.finish) (if_neg (by simp [review]))
  · rw [run (State.evaluate_suspend_of_running won empty act (at_state.trans running)), State.afterWatch_of_review, ← filled]
    · have cause : (base.slot i).run.endCause = (s.slot i).run.endCause := by rw [slot]
      simp only [checked, State.filled_slot, cause]
      rfl
    · simp [State.askLink]
    · simp [State.askLink]
      exact at_on
  · rw [run (State.evaluate_reject_of_empty won empty act cls at_run at_on),
      State.afterWatch_of_ending State.runEnded_slot_state, filled]
  · rw [run (State.evaluate_reject_of_full won full act cls at_run at_on),
      State.afterWatch_of_ending State.runEnded_slot_state, count]
    rfl
  · rw [run (State.evaluate_again won full act first), goes_on (by simp), count]
    rfl
  · rw [run (State.evaluate_repeated won full act more), goes_on (by simp)]

end

