-- ==== Sys2Proof/Proofs/Debounces.lean ====
section
/-! PROOFS. The ends of a debounce that close, agree, return from SEATING, or confirm an order in CHECKING (R5, R6, R15,
R23, R155 to R157). -/

namespace Sys2Proof.Machine

variable {s t : State} {i : SlotNo} {c : CurrentOrder}

/-! ## The grant test leaves a slot with an inactive line in its run (R10, R13) -/

/-- Two slot records alike in state, plan, stable seat and debounce. -/
def SlotRec.Alike (a b : SlotRec) : Prop :=
  b.state = a.state ∧ b.plan = a.plan ∧ b.seatStable = a.seatStable ∧ b.debounce = a.debounce

theorem SlotRec.Alike.trans {a b d : SlotRec} (x : a.Alike b) (y : b.Alike d) : a.Alike d := by
  obtain ⟨state, plan, seat, debounce⟩ := x
  obtain ⟨state', plan', seat', debounce'⟩ := y
  exact ⟨state'.trans state, plan'.trans plan, seat'.trans seat, debounce'.trans debounce⟩

theorem State.grant_checkOvercurrent_alike (inactive : s.overcurrent[i] = false) (j : SlotNo) :
    (s.slot i).Alike (((s.grant j).checkOvercurrent j).slot i) := by
  by_cases e : i = j
  · subst e
    have stays : (s.grant i).checkOvercurrent i = s.grant i := State.checkOvercurrent_of_inactive inactive
    rw [stays]
    simp [SlotRec.Alike, State.grant, State.slot, State.modSlot, State.setSlot]
  · rw [((State.Beside.grant e).trans (State.Beside.checkOvercurrent e)).slot]
    exact ⟨rfl, rfl, rfl, rfl⟩

theorem grants_alike (n : Nat) (inactive : s.overcurrent[i] = false) : (s.slot i).Alike ((grants n s).slot i) := by
  induction n generalizing s with
  | zero => exact ⟨rfl, rfl, rfl, rfl⟩
  | succ n ih =>
    unfold grants
    split
    · exact ⟨rfl, rfl, rfl, rfl⟩
    · rename_i j rest queue
      split
      · have same : s.sameBeyondSlots ((s.grant j).checkOvercurrent j) := by simp [State.sameBeyondSlots_refl]
        obtain ⟨-, -, lines, -⟩ := same
        exact (State.grant_checkOvercurrent_alike inactive j).trans (ih (by rw [lines]; exact inactive))
      · exact ⟨rfl, rfl, rfl, rfl⟩

/-! ## The handler's DONE line is not the slot controller's -/

@[simp] theorem State.verdict_doneLine : (s.verdict i).port.doneLine = s.port.doneLine := by
  rcases s.verdict_cases i with ⟨b, -, e⟩ | ⟨-, e⟩ <;> rw [e] <;> simp [State.joinOrder, Port.joinOrder]
@[simp] theorem State.overcurrentEnd_doneLine : (s.overcurrentEnd i).port.doneLine = s.port.doneLine := by
  unfold State.overcurrentEnd State.toVerdict
  split
  · simp
  · split <;> simp
@[simp] theorem State.checkOvercurrent_doneLine : (s.checkOvercurrent i).port.doneLine = s.port.doneLine := by
  unfold State.checkOvercurrent
  split <;> simp
@[simp] theorem grants_doneLine (n : Nat) : (grants n s).port.doneLine = s.port.doneLine := by
  induction n generalizing s with
  | zero => rfl
  | succ n ih =>
    unfold grants
    split
    · rfl
    · split
      · rw [ih, State.checkOvercurrent_doneLine]; rfl
      · rfl

/-- A run start is the grant test of a state in which the slot is in POWERING with its plan and seat as they were. -/
theorem State.startRun_grants (s : State) (i : SlotNo) : ∃ t : State,
    s.startRun i false = grants 41 t ∧ t.overcurrent = s.overcurrent ∧ t.port = s.port ∧
      SlotRec.Alike { s.slot i with state := .powering } (t.slot i) :=
  ⟨_, rfl, by simp [State.enter], by simp, by
    simp [SlotRec.Alike, State.enter, State.slot, State.modSlot, State.setSlot]⟩

/-- What a run start of a slot with an inactive line leaves of it, and of the port (R15). -/
theorem State.startRun_reads (inactive : s.overcurrent[i] = false) :
    SlotRec.Alike { s.slot i with state := .powering } ((s.startRun i false).slot i) ∧
      (s.startRun i false).port.doneLine = s.port.doneLine := by
  obtain ⟨t, e, lines, port, alike⟩ := s.startRun_grants i
  rw [e, grants_doneLine, port]
  exact ⟨alike.trans (grants_alike 41 (by rw [lines]; exact inactive)), rfl⟩

/-! ## SEATED (R6, R157) -/

theorem State.enterSeated_eq (s : State) (i : SlotNo) :
    s.enterSeated i =
      if (s.slot i).plan = none then s.enter i .seated none else (s.enter i .seated none).startRun i false := by
  simp only [State.enterSeated, State.enter_slot_same]
  cases (s.slot i).plan <;> rfl

/-- A dose record emptied on both sides of a frame (R15, R98). -/
theorem State.same_doses (e : s.sameBeyondSlots t) : State.sameBeyondSlots
    { s with doses := s.doses.set i DoseRec.empty } { t with doses := t.doses.set i DoseRec.empty } := by
  obtain ⟨clock, spin, lines, zones, doses, table, rules, sort, cartons, ring, straps, pending⟩ := e
  exact ⟨clock, spin, lines, zones, by rw [doses], table, rules, sort, cartons, ring, straps, pending⟩

/-- A slot with an inactive line that is seated, on to its run where it has a plan: its record, the port, and what is
left as it was (R6, R15). -/
theorem State.enterSeated_reads (inactive : s.overcurrent[i] = false) :
    SlotRec.Alike { s.slot i with state := if (s.slot i).plan = none then .seated else .powering }
        ((s.enterSeated i).slot i) ∧
      (s.enterSeated i).port.doneLine = s.port.doneLine ∧
      State.sameBeyondSlots
        { s with doses := if (s.slot i).plan = none then s.doses else s.doses.set i DoseRec.empty } (s.enterSeated i) := by
  rw [State.enterSeated_eq]
  by_cases free : (s.slot i).plan = none
  · simp only [if_pos free]
    exact ⟨by simp [SlotRec.Alike], by simp, (s.same_enter s i .seated none).mpr s.sameBeyondSlots_refl⟩
  · simp only [if_neg free]
    have lines : (s.enter i .seated none).overcurrent[i] = false := by simpa [State.enter] using inactive
    obtain ⟨alike, done⟩ := State.startRun_reads lines
    rw [State.enter_slot_same] at alike
    refine ⟨alike, by simpa using done, ?_⟩
    exact State.sameBeyondSlots_trans (State.same_doses ((s.same_enter s i .seated none).mpr s.sameBeyondSlots_refl))
      ((s.enter i .seated none).same_startRun i false)

/-! ## The handshake ends (R156) -/

@[simp] theorem State.endHandshake_slot (o : PortOutcome) (j : SlotNo) : (s.endHandshake c o).slot j = s.slot j := by
  unfold State.endHandshake
  split
  · rfl
  · split <;> rfl

@[simp] theorem State.same_endHandshake (o : PortOutcome) :
    t.sameBeyondSlots (s.endHandshake c o) ↔ t.sameBeyondSlots s := by
  unfold State.endHandshake
  split
  · exact State.same_setPort _ _ _
  · split <;> exact State.same_setPort _ _ _

/-- The handshake of a confirmed order of `s` has ended in `u`, by the mode and the DONE line (R156). -/
def State.HandshakeOver (s u : State) (c : CurrentOrder) : Prop :=
  (c.settings.mode = .strobed ∨ s.port.doneLine = false →
    u.port.state = .idle ∧ u.port.current = none ∧ u.port.timer = none) ∧
  (c.settings.mode = .interlocked → s.port.doneLine = true →
    u.port.state = .confirming ∧ u.port.outcome = some .done ∧
      u.port.timer = some { kind := .release, expiry := s.now + BitVec.ofNat 32 (c.settings.acceptS * 1000) })

theorem State.endHandshake_over (done : t.port.doneLine = s.port.doneLine) (now : t.now = s.now) :
    s.HandshakeOver (t.endHandshake c .done) c := by
  rw [State.HandshakeOver, ← done, ← now]
  unfold State.endHandshake
  refine ⟨fun idle => ?_, fun mode high => ?_⟩
  · cases mode : c.settings.mode with
    | strobed => exact ⟨rfl, rfl, rfl⟩
    | interlocked =>
      have low : t.port.outcomeLine .done = false := by simpa [mode, Port.outcomeLine] using idle
      simp only [low]
      exact ⟨rfl, rfl, rfl⟩
  · simp only [mode, Port.outcomeLine, high]
    exact ⟨rfl, rfl, rfl⟩

/-! ## Seat evidence (R155) -/

theorem State.seatEvidence_of {c : CurrentOrder} (current : s.port.current = some c) (state : s.port.state = .checking)
    (slot : c.order.slot = i) (holds : s.evidence c.order = true) : s.seatEvidence i = s.confirm c := by
  simp [State.seatEvidence, current, state, slot, holds]

theorem State.seatEvidence_of_not
    (fails : ∀ c, s.port.current = some c → s.port.state = .checking → c.order.slot = i → s.evidence c.order = false) :
    s.seatEvidence i = s := by
  unfold State.seatEvidence
  split
  · rename_i c current
    refine if_neg fun holds => ?_
    simp only [Bool.and_eq_true, decide_eq_true_eq] at holds
    obtain ⟨⟨state, slot⟩, evidence⟩ := holds
    simp [fails c current state slot] at evidence
  · rfl

/-! ## The debounce ends (R5, R6) -/

/-- A close that seats the slot withdraws its order (R6 items 2 and 5). -/
theorem State.seatClosed_seats (st : (s.slot i).state = .seating ∨ (s.slot i).state = .vacant ∨
    ((s.slot i).state = .loadWait ∧ s.orderQueued i = true)) : s.seatClosed i = (s.withdrawOrder i).enterSeated i := by
  unfold State.seatClosed
  rcases st with e | e | ⟨e, queued⟩
  · simp only [e]
  · simp only [e]
  · simp only [e, queued, if_true]

/-- In UNLOADING, and in LOAD_WAIT with the order current, a stable change is evidence and nothing else (R23, R155). -/
theorem State.debounceOver_evidence (n : (s.slot i).seatRaw ≠ (s.slot i).seatStable)
    (st : (s.slot i).state = .unloading ∨
      ((s.slot i).state = .loadWait ∧ (s.orderQueued i = false ∨ (s.slot i).seatRaw = .opened))) :
    s.debounceOver i = (s.settled i).seatEvidence i := by
  have state : ((s.settled i).slot i).state = (s.slot i).state := by simp
  have queued : (s.settled i).orderQueued i = s.orderQueued i := rfl
  rw [State.debounceOver_changed n]
  unfold State.seatClosed State.seatOpened
  rcases st with e | ⟨e, unqueued | raw⟩
  · simp only [state, e, ite_self]
  · simp [e, queued, unqueued]
  · simp [e, raw]

/-- Levels alike outside SEATING end the debounce, and nothing else (R5). -/
theorem State.debounceOver_alike (same : (s.slot i).seatRaw = (s.slot i).seatStable) (st : (s.slot i).state ≠ .seating) :
    s.debounceOver i = s.setSlot i { s.slot i with debounce := none } := by
  simp [State.debounceOver, st, State.modSlot_eq, same]

/-- Levels alike in SEATING return the slot (R6 item 3). -/
theorem State.debounceOver_returns (same : (s.slot i).seatRaw = (s.slot i).seatStable) (st : (s.slot i).state = .seating) :
    s.debounceOver i =
      if (s.slot i).plan.isSome then (s.settled i).enter i .loadWait none else (s.settled i).enterVacant i none := by
  simp only [State.debounceOver, if_pos same, if_pos st]
  rfl

/-! ## A confirmed order (R157, R168) -/

/-- A confirmed extraction: counted in, the slot emptied, and the handshake ended (R157, R168). -/
theorem State.confirm_extract {b : LaneNo} (kind : c.order.kind = .extract b) (slot : c.order.slot = i) :
    let u := s.confirm c
    s.HandshakeOver u c ∧
      State.sameBeyondSlots { s with doses := s.doses.set i DoseRec.empty, ring := u.ring, cartons := u.cartons } u ∧
      u.slot i =
        SlotRec.empty (s.slot i).seatRaw (s.slot i).seatStable (s.slot i).debounce (s.slot i).stepEntry ∧
      u.ring = (s.countIn i b).ring ∧ u.cartons = (s.countIn i b).cartons := by
  have u : s.confirm c = ((s.countIn i b).enterVacant i none).endHandshake c .done := by
    simp only [State.confirm, State.orderConfirmed, kind, slot]
  obtain ⟨pending, clock, slots, -, -, spin, lines, -, -, zones, doses, table, rules, -, sort, port, straps⟩ :=
    (s.cartons_countIn_iff s i b).mpr s.sameBeyondCartons_refl
  have record : (s.countIn i b).slot i = s.slot i := congrArg (·[i]) slots
  obtain ⟨clock', spin', lines', zones', doses', table', rules', sort', cartons', ring', straps', pending'⟩ :=
    (State.same_endHandshake (c := c) .done).mpr ((s.countIn i b).same_enterVacant i none)
  rw [u]
  refine ⟨State.endHandshake_over (by rw [State.enterVacant_port, port]) ?_, ⟨clock'.trans clock, spin'.trans spin,
    lines'.trans lines, zones'.trans zones, ?_, table'.trans table, rules'.trans rules, sort'.trans sort, rfl, rfl,
    straps'.trans straps, pending'.trans pending⟩, ?_, ring', cartons'⟩
  · exact congrArg Clock.ms (((s.countIn i b).same_enterVacant i none).1.trans clock)
  · exact doses'.trans (congrArg (fun d => d.set i DoseRec.empty) doses)
  · rw [State.endHandshake_slot, State.enterVacant_slot_same, record]

/-- A confirmed insertion: the slot seated, and the handshake ended (R157). -/
theorem State.confirm_insert (kind : c.order.kind = .insert) (slot : c.order.slot = i)
    (inactive : s.overcurrent[i] = false) :
    let u := s.confirm c
    s.HandshakeOver u c ∧
      State.sameBeyondSlots
        { s with doses := if (s.slot i).plan = none then s.doses else s.doses.set i DoseRec.empty } u ∧
      SlotRec.Alike { s.slot i with state := if (s.slot i).plan = none then .seated else .powering } (u.slot i) := by
  have u : s.confirm c = (s.enterSeated i).endHandshake c .done := by
    simp only [State.confirm, State.orderConfirmed, kind, slot]
  obtain ⟨alike, done, same⟩ := State.enterSeated_reads inactive
  rw [u]
  refine ⟨State.endHandshake_over done (congrArg Clock.ms same.1), (State.same_endHandshake .done).mpr same, ?_⟩
  rw [State.endHandshake_slot]
  exact alike

/-- The count-in of the settled slot does to the cartons and the ring what it does for the slot as it was. -/
theorem State.countIn_settled (s : State) (i : SlotNo) (b : LaneNo) :
    ((s.settled i).countIn i b).ring = (s.countIn i b).ring ∧
      ((s.settled i).countIn i b).cartons = (s.countIn i b).cartons := by
  have commutes : (s.settled i).countIn i b =
      (s.countIn i b).setSlot i { s.slot i with debounce := none, seatStable := (s.slot i).seatRaw } :=
    (State.countIn_setSlot (by rfl) (by rfl)).symm
  rw [commutes]
  exact ⟨rfl, rfl⟩

end Sys2Proof.Machine

open Sys2Proof Sys2Proof.Machine

/-- Settles O14: the slot seated, returned from SEATING or left alone (`State.seatClosed_seats`,
`State.debounceOver_returns`), the change that is no evidence only stored, and the order in CHECKING confirmed by the one
that is (`State.confirm_extract`, `State.confirm_insert`, `State.endHandshake_over`). -/
theorem debounceSeatsOrReturns : Obligations.DebounceSeatsOrReturns := by
  unfold Obligations.DebounceSeatsOrReturns
  intro s i running
  have took : exec (.seatDebounceExpiry i) s = .next (s.debounceOver i).finish := State.exec_debounce running
  refine ⟨fun raw stable st => ?_, fun same st => ?_, fun raw stable st => ⟨fun plan => ?_, fun plan => ?_⟩,
    fun n st fails => ?_, fun c state current slot => ⟨fun b kind st raw stable => ?_, fun kind st unqueued raw stable
      inactive => ?_⟩⟩
  · have seats : s.debounceOver i = ((s.settled i).withdrawOrder i).enterSeated i := by
      rw [State.debounceOver_changed (by simp [raw, stable]), if_pos raw, State.seatClosed_seats (by rw [State.settled_slot_same]; exact st)]
    rw [took, seats, State.enterSeated_eq]
    simp [State.settled, State.withdrawOrder, State.enter, State.modSlot_eq, raw]
  · rw [took, State.debounceOver_alike same st]
  · rw [took, State.debounceOver_returns (raw.trans stable.symm) st, if_pos (Option.isSome_iff_ne_none.mpr plan)]
    simp [State.settled, State.enter, State.modSlot_eq, raw, stable, st]
  · rw [took, State.debounceOver_returns (raw.trans stable.symm) st, if_neg (by simp [plan])]
    exact ⟨_, rfl, by simp [raw], by simp [State.settled]⟩
  · rw [took, State.debounceOver_evidence n st, State.seatEvidence_of_not]
    · rfl
    · intro c current state slot
      have level := fails c current state slot
      rw [State.evidence, slot, State.settled_slot_same]
      cases kind : c.order.kind with
      | insert => simpa [kind] using level
      | extract b => simpa [kind] using level
  · have evidence : (s.settled i).evidence c.order = true := by
      simp [State.evidence, kind, slot, raw]
    rw [took, State.debounceOver_evidence (by simp [raw, stable]) (.inl st),
      State.seatEvidence_of (s := s.settled i) current state slot evidence]
    obtain ⟨ended, same, record, ring, cartons⟩ := State.confirm_extract (s := s.settled i) kind slot
    obtain ⟨ring', cartons'⟩ := s.countIn_settled i b
    refine ⟨_, rfl, ended, same, ?_, ring.trans ring', cartons.trans cartons'⟩
    simp [record, raw]
  · have evidence : (s.settled i).evidence c.order = true := by
      simp [State.evidence, kind, slot, raw]
    rw [took, State.debounceOver_evidence (by simp [raw, stable]) (.inr ⟨st, .inl unqueued⟩),
      State.seatEvidence_of (s := s.settled i) current state slot evidence]
    obtain ⟨ended, same, record⟩ := State.confirm_insert (s := s.settled i) kind slot inactive
    rw [State.settled_slot_same] at same record
    obtain ⟨state', plan, seat, debounce⟩ := record
    exact ⟨_, rfl, ended, same, seat.trans raw, debounce, state', plan⟩

end

