-- ==== Sys2Proof/Proofs/LinkWork.lean ====
section
/-! PROOFS. What a free link sends (R59 to R63), and what a leave and an ask do to its queues (R58, R63). -/

namespace Sys2Proof.Machine

variable {s : State} {l : ShelfNo} {x : Link} {i : SlotNo} {c : DirectedCode} {p : Purpose} {now : Time}

/-! ## The work of a free link (R59 to R63) -/

theorem Link.eligible_of_none (waits : ∀ d ∈ x.directed, d.slot ∉ x.scan) : x.eligible = none :=
  List.find?_eq_none.mpr fun d m => by simpa using waits d m

/-- The oldest entry whose slot is on the scan list is the eligible one (R63). -/
theorem Link.eligible_of_first {before after : List Directed} {d : Directed} (queue : x.directed = before ++ d :: after)
    (waits : ∀ e ∈ before, e.slot ∉ x.scan) (on : d.slot ∈ x.scan) : x.eligible = some d := by
  have skipped : before.find? (fun e => x.scan.contains e.slot) = none :=
    List.find?_eq_none.mpr fun e m => by simpa using waits e m
  rw [Link.eligible, queue, List.find?_append, skipped, List.find?_cons_of_pos (by simpa using on)]
  rfl

theorem Link.gapOver_cons {op : SummaryOp} {ops : List SummaryOp} (queue : x.summary = op :: ops) :
    x.gapOver = (decide (x.settings.gapBudget ≤ x.gapCount) || x.joins.contains op.slot) := by
  rw [Link.gapOver, queue]

/-- A link in WAIT with no transaction outstanding starts a frame once its minimum frame period is over (R62). -/
theorem Link.frameDue_iff :
    x.frameDue now = true ↔
      x.phase = .wait ∧ x.outstanding = none ∧ x.settings.minPeriod ≤ (now - x.frameStart).toNat := by
  simp only [Link.frameDue, Link.free, Link.periodOver, Bool.and_eq_true, decide_eq_true_eq, Option.isNone_iff_eq_none,
    and_assoc]
  rfl

/-- With slots to poll a frame that starts stays in POLL (R60). -/
theorem Link.advance_startFrame_of_slots (slots : x.scan ++ x.joins ≠ []) :
    (x.startFrame now).advance = x.startFrame now := by
  have unpolled : (x.startFrame now).unpolled.isEmpty = false := List.isEmpty_eq_false_iff.mpr slots
  simp only [Link.advance, unpolled]
  simp [Link.startFrame]

/-- A free link in POLL with no slot left and no directed entry to send goes on to GAP, or through it to WAIT (R60, R61). -/
theorem Link.advance_of_polled (free : x.outstanding = none) (poll : x.phase = .poll) (polled : x.unpolled = [])
    (idle : x.eligible = none) :
    x.advance =
      { x with
        phase := if x.gapOver then .wait else .gap, gapCount := if x.gapOver then 0 else x.gapCount } := by
  have waits : ({ x with phase := .gap } : Link).eligible = none := idle
  have spent : ({ x with phase := .gap } : Link).gapOver = x.gapOver := rfl
  simp only [Link.advance, Link.free, free, poll, polled, Option.isNone_none, List.isEmpty_nil, decide_true, Bool.and_self,
    if_true]
  simp only [free, polled] at waits spent
  simp only [waits, spent, Option.isNone_none, Bool.and_self, Bool.true_and]
  cases x.gapOver <;> simp [Link.endGap]

/-- With nothing to poll a frame that starts goes on to GAP, and to WAIT where the gap has nothing to do (R60, R61). -/
theorem Link.advance_startFrame_of_empty (free : x.outstanding = none) (scan : x.scan = []) (joins : x.joins = []) :
    let spent : Bool := x.summary.isEmpty || (x.staged.getD x.settings).gapBudget ≤ x.gapCount
    (x.startFrame now).advance =
      { x with
        frameStart := now, settings := x.staged.getD x.settings, staged := none, unpolled := [],
        phase := if spent then .wait else .gap, gapCount := if spent then 0 else x.gapCount } := by
  intro spent
  have idle : (x.startFrame now).eligible = none :=
    Link.eligible_of_none fun d _ => by simp [Link.startFrame, scan, joins]
  have spends : (x.startFrame now).gapOver = spent := by
    cases queue : x.summary with
    | nil => simp [Link.gapOver, Link.startFrame, spent, queue]
    | cons op ops =>
      rw [Link.gapOver_cons (x := x.startFrame now) queue]
      simp [Link.startFrame, spent, queue]
  rw [Link.advance_of_polled (x := x.startFrame now) free rfl (by simp [Link.startFrame, scan, joins]) idle, spends]
  simp [Link.startFrame, scan, joins]

/-! ## A leave and an ask (R58, R63) -/

theorem Link.ask_unknown (unknown : x.knows i = false) : x.ask i c p = x := by simp [Link.ask, unknown]

theorem Link.leave_unknown (unknown : x.knows i = false) : x.leave i = x := by simp [Link.leave, unknown]

/-- An ask of a slot with no entry joins the tail (R63). -/
theorem Link.ask_joins (known : x.knows i = true) (fresh : ∀ d ∈ x.directed, d.slot ≠ i) :
    x.ask i c p = { x with directed := x.directed ++ [{ slot := i, code := c, purpose := p }] } := by
  have none_waits : x.directed.any (·.slot = i) = false := by simpa using fresh
  simp only [Link.ask, if_pos known, none_waits]
  rfl

/-- An ask of a slot that has an entry takes its place (R63). -/
theorem Link.ask_replaces (known : x.knows i = true) {before after : List Directed} {d : Directed}
    (queue : x.directed = before ++ d :: after) (own : d.slot = i) (others : ∀ y ∈ before ++ after, y.slot ≠ i) :
    x.ask i c p = { x with directed := before ++ { slot := i, code := c, purpose := p } :: after } := by
  have waits : x.directed.any (·.slot = i) = true := by simp [queue, own]
  have left (ys : List Directed) (apart : ∀ y ∈ ys, y.slot ≠ i) (e : Directed) :
      ys.map (fun y => if y.slot = i then e else y) = ys :=
    (List.map_congr_left fun y m => if_neg (apart y m)).trans (List.map_id' ys)
  simp only [Link.ask, if_pos known, if_pos waits]
  simp only [queue, List.map_append, List.map_cons, if_pos own]
  rw [left before fun y m => others y (List.mem_append_left _ m), left after fun y m => others y (List.mem_append_right _ m)]

/-- What a leave takes from a link that knows the slot (R58). -/
theorem Link.leave_known (known : x.knows i = true) :
    x.leave i =
      { x with
        scan := x.scan.filter (· ≠ i), joins := x.joins.filter (· ≠ i), unpolled := x.unpolled.filter (· ≠ i),
        directed := x.directed.filter (·.slot ≠ i), summary := x.summary.filter (·.slot ≠ i),
        outstanding := x.outstanding.filter (·.slot ≠ i) } := by
  rw [Link.leave, if_pos known]
  cases x.outstanding with
  | none => rfl
  | some t => by_cases own : t.slot = i <;> simp [Option.filter, own]

/-- Each slot has at most one directed entry (R63). -/
def Link.oneEach (x : Link) : Prop := x.directed.Pairwise fun a b => a.slot ≠ b.slot

theorem Link.oneEach_ask (one : x.oneEach) : (x.ask i c p).oneEach := by
  simp only [Link.ask]
  split
  · split
    · refine List.pairwise_map.mpr (one.imp fun {a b} apart => ?_)
      by_cases first : a.slot = i
      · have second : b.slot ≠ i := fun e => apart (first.trans e.symm)
        simpa [first, second] using second.symm
      · by_cases second : b.slot = i <;> simp [first, second, apart]
    · rename_i fresh
      refine List.pairwise_append.mpr ⟨one, List.pairwise_singleton _ _, fun d m e own => ?_⟩
      rw [List.mem_singleton.mp own]
      exact fun same => fresh (List.any_eq_true.mpr ⟨d, m, by simpa using same⟩)
  · exact one

theorem Link.oneEach_leave (one : x.oneEach) : (x.leave i).oneEach := by
  cases known : x.knows i with
  | false => rwa [Link.leave_unknown known]
  | true =>
    rw [Link.leave_known known]
    exact one.filter _

end Sys2Proof.Machine

open Sys2Proof Sys2Proof.Machine

/-- Settles O20, clause by clause: a frame start by what there is to poll, and a sending by the work it takes up. -/
theorem linkWorkIsSent : Obligations.LinkWorkIsSent := by
  refine ⟨fun r => byteSum_frame _, ?_⟩
  intro s l x out free
  refine ⟨fun wait period => ?_, fun early => ?_, fun wait period slots => ?_,
    fun wait period scan joins => ?_,
    fun i rest poll waits unpolled => ?_, fun before d after queue waits on => ?_,
    fun op ops gap waits queue budget joined => ?_⟩
  · have due : (s.link l).frameDue s.now = true := Link.frameDue_iff.mpr ⟨wait, free, period⟩
    have idle : (s.link l).outstanding = none := free
    simp only [State.dueLink, idle, due, if_true]
  · have notDue : ¬ (s.link l).frameDue s.now = true := fun due =>
      absurd (Link.frameDue_iff.mp due).2.2 (Nat.not_le.mpr early)
    exact congrArg Host.Outcome.next (if_neg notDue)
  · have started := Link.advance_startFrame_of_slots (now := s.now) slots
    exact congrArg Host.Outcome.next
      ((if_pos (Link.frameDue_iff.mpr ⟨wait, free, period⟩)).trans (congrArg (s.setLink l) started))
  · have started := Link.advance_startFrame_of_empty (now := s.now) free scan joins
    exact congrArg Host.Outcome.next
      ((if_pos (Link.frameDue_iff.mpr ⟨wait, free, period⟩)).trans (congrArg (s.setLink l) started))
  · have idle : x.eligible = none := Link.eligible_of_none waits
    refine congrArg Host.Outcome.next ((if_pos ?_).trans ?_)
    · change (x.phase = .poll && x.free && x.eligible.isNone) = true
      simp [poll, Link.free, free, idle]
    · have sent : x.sendPoll s.now = { x with unpolled := rest, outstanding := out i .status } := by
        simp only [Link.sendPoll, unpolled]
        rfl
      exact congrArg (s.setLink l) sent
  · refine congrArg Host.Outcome.next ((if_pos (by simpa [Link.free] using free)).trans ?_)
    have sent : x.sendDirected s.now =
        { x with
          directed := x.directed.filter (·.slot ≠ d.slot), outstanding := out d.slot (.directed d.code d.purpose) } := by
      simp only [Link.sendDirected, Link.eligible_of_first queue waits on]
      rfl
    exact congrArg (s.setLink l) sent
  · have idle : x.eligible = none := Link.eligible_of_none waits
    have more : x.gapOver = false := by
      rw [Link.gapOver_cons queue]
      simp [joined, Nat.not_le.mpr budget]
    refine congrArg Host.Outcome.next ((if_pos ?_).trans ?_)
    · change (x.phase = .gap && x.free && x.eligible.isNone && !x.gapOver) = true
      simp [gap, Link.free, free, idle, more]
    · have sent : x.sendSummary s.now =
          { x with gapCount := x.gapCount + 1, outstanding := out op.slot (.summary op.next) } := by
        simp only [Link.sendSummary, queue]
        rfl
      exact congrArg (s.setLink l) sent

/-- Settles O21, one rule of the queues for each clause. -/
theorem directedQueueHoldsOneEach : Obligations.DirectedQueueHoldsOneEach :=
  ⟨fun _ _ => rfl, fun _ _ _ _ =>
    ⟨fun unknown => ⟨Link.ask_unknown unknown, Link.leave_unknown unknown⟩, Link.ask_joins,
      fun _ _ _ known queue own others => Link.ask_replaces known queue own others,
      fun one => ⟨Link.oneEach_ask one, Link.oneEach_leave one⟩,
      fun known => ⟨Link.leave_known known, Link.leave_knows_same _ _⟩⟩⟩
end

