-- ==== Sys2Proof/Proofs/BadReplies.lean ====
section
/-! PROOFS. The tests a drive's reply must pass (R51, R52, R54, R55), and a reply that fails one of them, which ends no
transaction. -/

namespace Sys2Proof.Machine

variable {s : State} {l : ShelfNo} {t : Transaction} {bytes payload q : List Byte} {r : LinkRequest} {d : DriveState}
  {code st check : Byte}

/-! ## A frame read (R51, R52) -/

/-- The tests 1 to 5 of R52 on one whole frame: its code, its length, its drive status and its sum. -/
theorem readReply_frame (short : payload.length < 256) :
    readReply r (Config.sync :: code :: st :: BitVec.ofNat 8 payload.length :: payload ++ [check]) =
      (readDriveState st).bind fun d =>
        if code = r.code ∧ payload.length = r.replyLength ∧
            byteSum (Config.sync :: code :: st :: BitVec.ofNat 8 payload.length :: payload ++ [check]) = 0 then
          some (d, payload)
        else none := by
  have start (rest : List Byte) : (Config.sync :: rest).dropWhile (· != Config.sync) = Config.sync :: rest := by simp
  have length : (BitVec.ofNat 8 payload.length).toNat = payload.length := by simpa using short
  simp only [readReply, List.cons_append, start, length]
  cases readDriveState st with
  | none => rfl
  | some d =>
    rw [Option.bind_some]
    by_cases full : payload.length = r.replyLength
    · simp [← full, List.take_of_length_le]
    · simp [full]

theorem readReply_of_good (short : payload.length < 256) (echo : code = r.code) (length : payload.length = r.replyLength)
    (status : readDriveState st = some d) : readReply r (replyFrame code st payload) = some (d, payload) := by
  refine (readReply_frame short).trans ?_
  rw [status, Option.bind_some, if_pos ⟨echo, length, byteSum_frame _⟩]

/-- What is read of a frame is its payload. -/
theorem readReply_payload (short : payload.length < 256) (read : readReply r (replyFrame code st payload) = some (d, q)) :
    q = payload := by
  have frame := (readReply_frame short).symm.trans read
  cases status : readDriveState st with
  | none => simp [status] at frame
  | some e =>
    rw [status, Option.bind_some] at frame
    split at frame
    · simpa using (congrArg (Option.map Prod.snd) frame).symm
    · simp at frame

theorem sync_mem_replyFrame : Config.sync ∈ replyFrame code st payload := by simp [replyFrame]

/-! ## The transaction a reply may end (R52) -/

theorem Link.awaiting_of {x : Link} {now : Time} (out : x.outstanding = some t) (whole : t.spoiled = false)
    (intime : Time.passed now t.expiry = false) : x.awaiting now = some t := by
  simp [Link.awaiting, Option.filter, out, whole, intime]

theorem Link.awaiting_of_not {x : Link} {now : Time}
    (lost : ∀ t, x.outstanding = some t → t.spoiled = true ∨ Time.passed now t.expiry = true) : x.awaiting now = none := by
  cases out : x.outstanding with
  | none => simp [Link.awaiting, out]
  | some t => rcases lost t out with e | e <;> simp [Link.awaiting, Option.filter, out, e]

/-- Bytes that are no good reply spoil the transaction once they hold a sync (R51, R52). -/
theorem State.badReply_eq (out : (s.link l).outstanding = some t) :
    s.badReply l bytes =
      if Config.sync ∈ bytes then s.setLink l { s.link l with outstanding := some { t with spoiled := true } } else s := by
  simp only [State.badReply, List.contains_iff_mem, State.modLink_eq, Link.spoil, out, Option.map_some]

/-- The five commands that carry reply bytes of a link (R52). -/
def replyCommands (l : ShelfNo) (bytes : List Byte) : List Instr :=
  [.statusReply l bytes, .identReply l bytes, .phaseStartReply l bytes, .haltReply l bytes, .summaryReply l bytes]

/-- With no transaction waiting for a reply the bytes of one change nothing. -/
theorem exec_reply_of_unawaited {c : Instr} (reply : c ∈ replyCommands l bytes) (unawaited : (s.link l).awaiting s.now = none) :
    exec c s = .next s := by
  simp only [replyCommands, List.mem_cons, List.not_mem_nil, or_false] at reply
  rcases reply with rfl | rfl | rfl | rfl | rfl
  · simp only [exec, execStatusReply, unawaited]
  · simp only [exec, execIdentReply, unawaited]
  · simp only [exec, execPhaseStartReply, unawaited]
  · simp only [exec, execHaltReply, unawaited]
  · simp only [exec, execSummaryReply, unawaited]

section
variable (awaited : (s.link l).awaiting s.now = some t)
include awaited

/-! Each reply command whose bytes are no good reply of its own kind (R52, R54, R55). -/

theorem exec_statusReply_bad
    (bad : ∀ d q x, t.request = .status → readReply t.request bytes = some (d, q) → readStatus d q s.now ≠ some x) :
    exec (.statusReply l bytes) s = .next (s.badReply l bytes) := by
  simp only [exec, execStatusReply, awaited]
  split
  · split
    · exact absurd ‹_› (bad _ _ _ ‹_› ‹_›)
    · rfl
  · rfl

theorem exec_identReply_bad
    (bad : ∀ p d q x, t.request = .directed .ident p → readReply t.request bytes = some (d, q) → readIdentity q ≠ some x) :
    exec (.identReply l bytes) s = .next (s.badReply l bytes) := by
  simp only [exec, execIdentReply, awaited]
  split
  · split
    · exact absurd ‹_› (bad _ _ _ _ ‹_› ‹_›)
    · rfl
  · rfl

theorem exec_phaseStartReply_bad
    (bad : ∀ n p, t.request = .directed (.phaseStart n) p → readReply t.request bytes = none) :
    exec (.phaseStartReply l bytes) s = .next (s.badReply l bytes) := by
  simp only [exec, execPhaseStartReply, awaited]
  split
  · rename_i request read
    simp [bad _ _ request] at read
  · rfl

theorem exec_haltReply_bad (bad : ∀ p, t.request = .directed .halt p → readReply t.request bytes = none) :
    exec (.haltReply l bytes) s = .next (s.badReply l bytes) := by
  simp only [exec, execHaltReply, awaited]
  split
  · rename_i request read
    simp [bad _ request] at read
  · rfl

theorem exec_summaryReply_bad
    (bad : ∀ n d q x, t.request = .summary n → readReply t.request bytes = some (d, q) → readBlock n q ≠ some x) :
    exec (.summaryReply l bytes) s = .next (s.badReply l bytes) := by
  simp only [exec, execSummaryReply, awaited]
  split
  · split
    · exact absurd ‹_› (bad _ _ _ _ ‹_› ‹_›)
    · rfl
  · rfl

/-- Bytes that read as no reply to the request are no good reply of any command (R52). -/
theorem exec_reply_of_unread {c : Instr} (reply : c ∈ replyCommands l bytes) (unread : readReply t.request bytes = none) :
    exec c s = .next (s.badReply l bytes) := by
  simp only [replyCommands, List.mem_cons, List.not_mem_nil, or_false] at reply
  rcases reply with rfl | rfl | rfl | rfl | rfl
  · exact exec_statusReply_bad awaited fun d q x _ read => by simp [unread] at read
  · exact exec_identReply_bad awaited fun p d q x _ read => by simp [unread] at read
  · exact exec_phaseStartReply_bad awaited fun n p _ => unread
  · exact exec_haltReply_bad awaited fun p _ => unread
  · exact exec_summaryReply_bad awaited fun n d q x _ read => by simp [unread] at read

end

/-! ## Payloads that fail (R54, R55) -/

theorem readStatus_of_phase {phase : Byte} {rest : List Byte} {now : Time} (high : 15 < phase.toNat) :
    readStatus d (phase :: rest) now = none := by
  unfold readStatus
  split
  · rename_i e
    obtain ⟨rfl, -⟩ := List.cons_eq_cons.mp e
    exact if_neg (Nat.not_le.mpr high)
  · rfl

theorem readBlock_of_other {n : Nat} {b : Byte} {rest : List Byte} (other : b.toNat ≠ n) :
    readBlock n (b :: rest) = none := by
  unfold readBlock
  split
  · rename_i e
    obtain ⟨rfl, -⟩ := List.cons_eq_cons.mp e
    exact if_neg fun same => other same.1
  · rename_i e
    obtain ⟨rfl, -⟩ := List.cons_eq_cons.mp e
    exact if_neg fun same => other same.1
  · rfl

end Sys2Proof.Machine

open Sys2Proof Sys2Proof.Machine

/-- Settles O26: no reply is awaited, or the command's bytes are no good reply of its kind (`exec_statusReply_bad` and the
lemmas after it), and what they do is `State.badReply_eq`. -/
theorem badRepliesEndNothing : Obligations.BadRepliesEndNothing := by
  refine ⟨fun s l bytes c reply => ⟨fun none_out => ?_, fun t out spoiled => ?_, fun t out late => ?_,
    fun t out whole intime unread => ?_⟩, ?_, ?_⟩
  · exact exec_reply_of_unawaited reply (Link.awaiting_of_not fun t out => by simp [none_out] at out)
  · refine exec_reply_of_unawaited reply (Link.awaiting_of_not fun t' out' => .inl ?_)
    rw [Option.some.inj (out'.symm.trans out), spoiled]
  · refine exec_reply_of_unawaited reply (Link.awaiting_of_not fun t' out' => .inr ?_)
    rw [Option.some.inj (out'.symm.trans out), late]
  · rw [exec_reply_of_unread (Link.awaiting_of out whole intime) reply unread, State.badReply_eq out]
  · intro r code st check payload short head
    refine ⟨fun fails => ?_, fun d echo length status sum => ?_⟩
    · refine (readReply_frame short).trans (Option.bind_eq_none_iff.mpr fun d status => if_neg ?_)
      rintro ⟨echo, length, sum⟩
      rcases fails with e | e | e | e
      · exact e echo
      · exact e length
      · simp [status] at e
      · exact e sum
    · refine (readReply_frame short).trans ?_
      rw [status, Option.bind_some, if_pos ⟨echo, length, sum⟩]
  · intro s l i e st intime waits failed
    have awaited {r : LinkRequest} (out : waits r) : (s.link l).awaiting s.now = some _ := Link.awaiting_of out rfl intime
    have spoils {r : LinkRequest} {code : Byte} {payload : List Byte} (out : waits r) :
        s.badReply l (replyFrame code st payload) = failed r :=
      (State.badReply_eq out).trans (if_pos sync_mem_replyFrame)
    refine ⟨fun phase progress temp g1 g0 p1 p0 f1 f0 out high => ?_, fun b g1 g0 p1 p0 t h v out other => ?_,
      fun n b m1 m2 m3 m4 out later other => ?_, ?_⟩
    · rw [exec_statusReply_bad (awaited out) fun d q x _ read => ?_, spoils out]
      rw [readReply_payload (by simp) read, readStatus_of_phase high]
      simp
    · rw [exec_summaryReply_bad (awaited out) fun n d q x request read => ?_, spoils out]
      cases request
      rw [readReply_payload (by simp) read, readBlock_of_other (n := 0) fun zero => other (BitVec.eq_of_toNat_eq zero)]
      simp
    · rw [exec_summaryReply_bad (awaited out) fun n d q x request read => ?_, spoils out]
      cases request
      rw [readReply_payload (by simp) read, readBlock_of_other other]
      simp
    · intro r bytes out bad
      have spoiled : Host.Outcome.next (s.badReply l bytes) = bad := congrArg Host.Outcome.next (State.badReply_eq out)
      exact ⟨fun kind => (exec_statusReply_bad (awaited out) fun d q x request => absurd request kind).trans spoiled,
        fun kind => (exec_identReply_bad (awaited out) fun p d q x request => absurd request (kind p)).trans spoiled,
        fun kind => (exec_phaseStartReply_bad (awaited out) fun n p request => absurd request (kind n p)).trans spoiled,
        fun kind => (exec_haltReply_bad (awaited out) fun p request => absurd request (kind p)).trans spoiled,
        fun kind => (exec_summaryReply_bad (awaited out) fun n d q x request => absurd request (kind n)).trans spoiled⟩
end

