-- ==== Sys2Proof/Proofs/RepliesStand.lean ====
section
/-! PROOFS. What the replies of the drives have written, carried through the operations of chapters 1, 2 and 6: SC's own
operations begin no transaction, count no miss, and leave the identity, the fallback base and the prior fault word of
every slot. -/

namespace Sys2Proof.Machine

/-- From `s` to `t` no transaction begins, and the last status, the miss counts, the identity, the fallback base and the
prior fault word of every slot stand. -/
structure State.RepliesStand (s t : State) : Prop where
  idle : ∀ l, (s.link l).outstanding = none → (t.link l).outstanding = none
  counts : ∀ j, t.linkSlot j = s.linkSlot j
  prior : ∀ j, (t.watch j).prior = (s.watch j).prior
  identity : ∀ j, (t.slot j).run.identity = (s.slot j).run.identity
  fallback : ∀ j, (t.slot j).run.fallback = (s.slot j).run.fallback

variable {s t u : State} {i : SlotNo} {l : ShelfNo}

/-! ## The outstanding transaction of a link (R52) -/

@[simp] theorem Link.ask_outstanding (x : Link) (c : DirectedCode) (p : Purpose) :
    (x.ask i c p).outstanding = x.outstanding := by
  simp only [Link.ask]; (repeat' split) <;> rfl

@[simp] theorem Link.askSummary_outstanding (x : Link) : (x.askSummary i).outstanding = x.outstanding := by
  unfold Link.askSummary; split <;> rfl

theorem Link.leave_outstanding_of_none {x : Link} (idle : x.outstanding = none) : (x.leave i).outstanding = none := by
  unfold Link.leave
  split
  · simp only [idle]
  · exact idle

namespace State.RepliesStand

theorem refl (s : State) : s.RepliesStand s := ⟨fun _ => id, fun _ => rfl, fun _ => rfl, fun _ => rfl, fun _ => rfl⟩

/-! ## Writes of records -/

/-- A change that touches no slot, link, count or watch record. -/
theorem frame (h : s.RepliesStand t) (slots : u.slots = t.slots) (links : u.links = t.links)
    (counts : u.linkSlots = t.linkSlots) (watches : u.watches = t.watches) : s.RepliesStand u where
  idle l e := by simpa only [State.link, links] using h.idle l e
  counts j := by simpa only [State.linkSlot, counts] using h.counts j
  prior j := by simpa only [State.watch, watches] using h.prior j
  identity j := by simpa only [State.slot, slots] using h.identity j
  fallback j := by simpa only [State.slot, slots] using h.fallback j

theorem modSlot {f : SlotRec → SlotRec} (h : s.RepliesStand t)
    (identity : (f (t.slot i)).run.identity = (t.slot i).run.identity := by rfl)
    (fallback : (f (t.slot i)).run.fallback = (t.slot i).run.fallback := by rfl) : s.RepliesStand (t.modSlot i f) where
  idle := h.idle
  counts := h.counts
  prior := h.prior
  identity j := by
    rw [State.slot_modSlot]
    split
    · subst j; exact identity.trans (h.identity i)
    · exact h.identity j
  fallback j := by
    rw [State.slot_modSlot]
    split
    · subst j; exact fallback.trans (h.fallback i)
    · exact h.fallback j

theorem modRun {f : RunRec → RunRec} (h : s.RepliesStand t)
    (identity : (f (t.slot i).run).identity = (t.slot i).run.identity := by rfl)
    (fallback : (f (t.slot i).run).fallback = (t.slot i).run.fallback := by rfl) : s.RepliesStand (t.modRun i f) :=
  h.modSlot identity fallback

theorem modLink {f : Link → Link} (h : s.RepliesStand t)
    (idle : (t.link l).outstanding = none → (f (t.link l)).outstanding = none) : s.RepliesStand (t.modLink l f) where
  idle k e := by
    rw [State.link_modLink]
    split
    · subst k; exact idle (h.idle l e)
    · exact h.idle k e
  counts := h.counts
  prior := h.prior
  identity := h.identity
  fallback := h.fallback

theorem notify {n : NoticeBody} (h : s.RepliesStand t) : s.RepliesStand (t.notify n) :=
  h.frame (by simp) (by simp) (by simp) (by simp)
theorem setPlan {p : PlanNo} {x : Plan} (h : s.RepliesStand t) : s.RepliesStand (t.setPlan p x) := h.frame rfl rfl rfl rfl
theorem setPort {x : Port} (h : s.RepliesStand t) : s.RepliesStand (t.setPort x) := h.frame rfl rfl rfl rfl

theorem setLatch {x : WatchLatch} (h : s.RepliesStand t) : s.RepliesStand (t.setLatch i x) where
  idle := h.idle
  counts := h.counts
  prior j := by
    refine Eq.trans ?_ (h.prior j)
    by_cases e : j = i
    · subst e; simp [State.setLatch]
    · rw [State.setLatch, State.watch_setWatch_ne _ _ e]
  identity := h.identity
  fallback := h.fallback

/-! ## Slots (chapter 1) -/

theorem enter {st : SlotState} {o : Option HoldReason} (h : s.RepliesStand t) : s.RepliesStand (t.enter i st o) :=
  h.modSlot.notify
theorem askLink {c : DirectedCode} {p : Purpose} (h : s.RepliesStand t) : s.RepliesStand (t.askLink i c p) :=
  h.modLink fun e => by rwa [Link.ask_outstanding]
theorem askSummary (h : s.RepliesStand t) : s.RepliesStand (t.askSummary i) :=
  h.modLink fun e => by rwa [Link.askSummary_outstanding]
theorem powerOff (h : s.RepliesStand t) : s.RepliesStand (t.powerOff i) := h.modSlot.modLink Link.leave_outstanding_of_none
theorem clearPermit (h : s.RepliesStand t) : s.RepliesStand (t.clearPermit i) :=
  (h.modSlot (i := i) (f := fun r =>
    { r with permit := .none, grantedAt := none, spinLimit := none, blanking := none })).frame rfl rfl rfl rfl

theorem dropPlan (h : s.RepliesStand t) : s.RepliesStand (t.dropPlan i) := by
  unfold State.dropPlan
  split
  · exact h.modSlot.setPlan
  · exact h

theorem recordEnd {c : EndCause} (h : s.RepliesStand t) : s.RepliesStand (t.recordEnd i c) := h.modRun.dropPlan.modSlot

theorem verdict (h : s.RepliesStand t) : s.RepliesStand (t.verdict i) := by
  simp only [State.verdict]
  split
  · exact h.modRun.notify.modRun.enter.setPort
  · exact h.modRun.notify.modRun.enter

theorem toVerdict (h : s.RepliesStand t) : s.RepliesStand (t.toVerdict i) := h.powerOff.modRun.verdict

theorem overcurrentEnd (h : s.RepliesStand t) : s.RepliesStand (t.overcurrentEnd i) := by
  unfold State.overcurrentEnd
  split
  · exact h.recordEnd.toVerdict
  split
  · exact h.modRun.verdict
  · exact h

theorem checkOvercurrent (h : s.RepliesStand t) : s.RepliesStand (t.checkOvercurrent i) := by
  unfold State.checkOvercurrent
  split
  · exact h.powerOff.clearPermit.overcurrentEnd
  · exact h

theorem grant (h : s.RepliesStand t) : s.RepliesStand (t.grant i) :=
  (h.modSlot (i := i) (f := fun r =>
    { r with
      permit := .held, power := .on, grantedAt := some t.now
      spinLimit := some (Time.after t.now (t.spin.limitS * 1000))
      blanking := if t.spin.blankingMs = 0 then none else some (Time.after t.now t.spin.blankingMs) })).frame
    rfl rfl rfl rfl

/-- The grant test may end the run of another slot by overcurrent, and no more (R10, R13). -/
theorem grants (n : Nat) (h : s.RepliesStand t) : s.RepliesStand (Machine.grants n t) := by
  induction n generalizing t with
  | zero => exact h
  | succ n ih =>
    unfold Machine.grants
    split
    · exact h
    split
    · exact ih h.grant.checkOvercurrent
    · exact h

theorem dropPermit (h : s.RepliesStand t) : s.RepliesStand (t.dropPermit i) := by
  unfold State.dropPermit
  split
  · exact h
  · exact h.clearPermit
  · exact h.clearPermit.grants 41

theorem endAtOnce {c : EndCause} (h : s.RepliesStand t) : s.RepliesStand (t.endAtOnce i c) :=
  h.recordEnd.powerOff.dropPermit.toVerdict

theorem endWithSummary {c : EndCause} (h : s.RepliesStand t) : s.RepliesStand (t.endWithSummary i c) := by
  unfold State.endWithSummary
  split
  · exact h.endAtOnce
  · exact h.recordEnd.enter.askLink.askSummary

/-! ## Steps (chapter 2) -/

theorem beginStep {n : Nat} (h : s.RepliesStand t) : s.RepliesStand (t.beginStep i n) := h.modSlot
theorem askPhase {n : Nat} (h : s.RepliesStand t) : s.RepliesStand (t.askPhase i n) := h.modSlot.askLink

theorem enterOnce {n : Nat} (h : s.RepliesStand t) : s.RepliesStand (t.enterOnce i n).1 := by
  unfold State.enterOnce
  split
  · exact h.endWithSummary
  · exact h.beginStep
  · exact h.beginStep
  · exact h.beginStep.askPhase
  · exact h.beginStep.modSlot.askLink
  · split
    · exact h.beginStep.modSlot (f := fun r => r.setLoop n (r.loopCount n + 1))
    · exact h.beginStep.modSlot (f := fun r => r.setLoop n 0)

theorem enterChain (k : Nat) {x : State × Option Nat} (h : s.RepliesStand x.1) :
    s.RepliesStand (Machine.enterChain i k x).1 := by
  induction k generalizing x with
  | zero =>
    obtain ⟨t, _ | n⟩ := x
    · exact h
    · exact enterOnce h
  | succ k ih =>
    obtain ⟨t, _ | n⟩ := x
    · exact h
    · exact ih (ih h)

theorem enterStep {n : Nat} (h : s.RepliesStand t) : s.RepliesStand (t.enterStep i n) := enterChain _ h
theorem advance (h : s.RepliesStand t) : s.RepliesStand (t.advance i) := h.enterStep

theorem testReply {x : LastStatus} (h : s.RepliesStand t) : s.RepliesStand (t.testReply i x) := by
  unfold State.testReply
  split
  · exact h.modRun.advance
  · split
    · split
      · exact h.advance
      · exact h.askPhase
    · exact h
  · split
    · exact h.advance
    · exact h
  · split
    · exact h.advance
    · exact h
  · exact h

theorem cycleOff (h : s.RepliesStand t) : s.RepliesStand (t.cycleOff i) := by
  unfold State.cycleOff
  exact h.powerOff.modSlot

theorem haltEnded {p : Purpose} (h : s.RepliesStand t) : s.RepliesStand (t.haltEnded i p) := by
  unfold State.haltEnded
  split
  · exact h
  · split
    · exact h.cycleOff
    · exact h
  · split
    · exact h.powerOff.dropPermit.toVerdict
    · exact h

/-! ## Watch rules and replies (chapters 3 and 6) -/

theorem watchAct {r : WatchRule} (h : s.RepliesStand t) : s.RepliesStand (t.watchAct i r) := by
  unfold State.watchAct
  split
  · exact h
  · unfold State.watchSuspend
    split
    · exact h.enter.askLink
    · exact h
  · unfold State.watchReject
    split
    · split
      · exact h.endWithSummary
      · exact h
    · exact h

theorem takeMatch {w : FaultWord} (h : s.RepliesStand t) : s.RepliesStand (t.takeMatch i w) := by
  unfold State.takeMatch
  split
  · exact h
  · exact h.setLatch.notify.watchAct
  · simp only [State.hitLatch]
    split
    · exact h.setLatch.notify.watchAct
    · split
      · exact h
      · exact h.setLatch.notify

theorem failedStep {d : DriveState} (h : s.RepliesStand t) : s.RepliesStand (t.failedStep i d) := by
  unfold State.failedStep
  split
  · exact h.endWithSummary
  · exact h

theorem planStep {x : LastStatus} (h : s.RepliesStand t) : s.RepliesStand (t.planStep i x) := by
  unfold State.planStep
  split
  · exact h.testReply
  · exact h

theorem directedMiss {c : DirectedCode} {p : Purpose} (h : s.RepliesStand t) : s.RepliesStand (t.directedMiss i c p) := by
  unfold State.directedMiss
  split
  · split
    · exact h.askLink
    · exact h
  · split
    · exact h.askPhase
    · exact h
  · exact h
  · exact h.haltEnded

theorem summaryMiss (h : s.RepliesStand t) : s.RepliesStand (t.summaryMiss l i) := by
  simp only [State.summaryMiss]
  split
  · split
    · exact ((h.modLink id).modLink id).modRun.powerOff.verdict
    · exact h.modLink id
  · exact h

theorem judgeSilent (h : s.RepliesStand t) : s.RepliesStand (t.judgeSilent l i) := by
  unfold State.judgeSilent
  split
  · exact h.endAtOnce
  · exact h

theorem codeMiss {r : LinkRequest} (h : s.RepliesStand t) : s.RepliesStand (t.codeMiss l i r) := by
  unfold State.codeMiss
  split
  · exact h.directedMiss
  · exact h
  · exact h.summaryMiss

end State.RepliesStand

end Sys2Proof.Machine
end

