-- ==== Sys2Proof/Proofs/StatusReplies.lean ====
section
/-! PROOFS. What a good STATUS reply leaves in the records (R52, R54, R69 to R71, R113). -/

namespace Sys2Proof.Machine

variable {s : State} {l : ShelfNo} {i : SlotNo} {x : LastStatus} {w : FaultWord} {c : EndCause}

/-- The run record once its run has ended with a cause, by whichever path (R18, R19). -/
theorem State.endWithSummary_endCause : ((s.endWithSummary i c).slot i).run.endCause = some c := by
  cases on : (s.slot i).cycleOffLink with
  | false =>
    rw [State.endWithSummary_of_onLink on, State.runEnded]
    cases (s.slot i).plan <;> simp
  | true =>
    obtain ⟨v, e, given, -⟩ := s.endAtOnce_given i c
    rw [State.endWithSummary, if_pos on, e, State.verdict_slot_same, given.run]

/-- The watch unit's step is a match of the rules, and the word made the prior one, in RUNNING and REVIEW (R70, R113). -/
theorem State.watchStep_cases (s : State) (i : SlotNo) (w : FaultWord) :
    (((s.slot i).state = .running ∨ (s.slot i).state = .review) ∧ s.watchStep i w = s.evaluate i w) ∨
      (¬ ((s.slot i).state = .running ∨ (s.slot i).state = .review) ∧ s.watchStep i w = s) := by
  unfold State.watchStep
  split
  · exact .inl ⟨‹_›, rfl⟩
  · exact .inr ⟨‹_›, rfl⟩

/-- The records of a reply after the watch unit's step. -/
theorem State.watchStep_reads (s : State) (i : SlotNo) (w : FaultWord) :
    (∀ k, (s.link k).outstanding = none → ((s.watchStep i w).link k).outstanding = none) ∧
      (s.watchStep i w).linkSlot i = s.linkSlot i ∧
      ((s.watchStep i w).slot i).run.fallback = (s.slot i).run.fallback ∧
      ((s.slot i).state = .running ∨ (s.slot i).state = .review → ((s.watchStep i w).watch i).prior = w) := by
  rcases s.watchStep_cases i w with ⟨-, e⟩ | ⟨away, e⟩
  · have kept : s.RepliesStand (s.takeMatch i w) := (State.RepliesStand.refl s).takeMatch
    rw [e]
    exact ⟨kept.idle, kept.counts i, kept.fallback i, fun _ => by simp [State.evaluate]⟩
  · rw [e]
    exact ⟨fun _ => id, rfl, rfl, fun st => absurd st away⟩

/-- Where no rule wins the watch unit leaves the slot's record as it is. -/
theorem State.watchStep_slot_of_no_winner (lost : s.winner (s.watch i).prior w = none) :
    (s.watchStep i w).slot i = s.slot i := by
  rcases s.watchStep_cases i w with ⟨-, e⟩ | ⟨-, e⟩
  · have unmatched : s.takeMatch i w = s := by simp only [State.takeMatch, lost]
    rw [e, State.evaluate, unmatched, State.slot_setWatch]
  · rw [e]

/-- A FAILED drive's run ends DRIVE_FAILED, and its step is not tested (R70). -/
theorem State.failed_endCause (polled : (s.slot i).state.polled = true) (failed : x.state = .failed) :
    ((((s.failedStep i x.state).planStep i x)).slot i).run.endCause = some .driveFailed := by
  rw [State.planStep, if_neg (by simp [failed]), State.failedStep, if_pos (by simp [polled, failed])]
  exact State.endWithSummary_endCause

/-- Where polls are not applied to a run a good STATUS reply writes the last-status record alone (R69 to R71). -/
theorem State.statusTaken_of_not_polled (away : (s.slot i).state.polled = false) :
    s.statusTaken l i x =
      (s.replied l i).setLinkSlot i { last := some x, consecutive := 0, total := (s.linkSlot i).total } := by
  let t := (s.replied l i).setLinkSlot i { last := some x, consecutive := 0, total := (s.linkSlot i).total }
  have stored : (s.goodReply l i).setLinkSlot i { (s.goodReply l i).linkSlot i with last := some x } = t := by
    simp [t, State.goodReply, State.endTransaction, State.modLink_eq, State.replied, LinkSlot.good]
  have state : (t.slot i).state = (s.slot i).state := rfl
  have unwritten : t.writeFallback i x.grown = t := if_neg (by simp [state, away])
  have unwatched : t.watchStep i x.fault = t := if_neg (by
    rw [state]
    rintro (e | e) <;> simp [e, SlotState.polled] at away)
  have unended : t.failedStep i x.state = t := if_neg (by simp [state, away])
  have untested : t.planStep i x = t := if_neg (by
    rw [state]
    intro h
    obtain ⟨e, -⟩ : (s.slot i).state = .running ∧ _ := by simpa using h
    simp [e, SlotState.polled] at away)
  simp only [State.statusTaken]
  rw [stored, unwritten, unwatched, unended, untested]

end Sys2Proof.Machine

open Sys2Proof Sys2Proof.Machine

/-- Settles O22: the records written by the reply (`State.statusStored`) stand through the watch unit's step
(`State.watchStep_reads`) and what follows it (`State.RepliesStand`). -/
theorem statusReplyTaken : Obligations.StatusReplyTaken := by
  intro s l i e d st phase progress temp g1 g0 p1 p0 f1 f0 out intime status small x
  have taken := exec_statusReply (x := x) out intime status small rfl
  refine ⟨s.statusTaken l i x, taken, by simp [State.sameBeyondSlots_refl], ?_⟩
  cases polled : (s.slot i).state.polled with
  | false =>
    rw [State.statusTaken_of_not_polled polled]
    refine ⟨by simp [State.replied], by simp, nofun, fun running => ?_, nofun, fun _ => rfl⟩
    rcases running with e | e <;> simp [e, SlotState.polled] at polled
  | true =>
    let t := s.statusStored l i x
    have slot : t.slot i = { s.slot i with
        run := { (s.slot i).run with fallback := some ((s.slot i).run.fallback.getD x.grown) } } :=
      State.statusStored_slot_same
    have state : (t.slot i).state = (s.slot i).state := by rw [slot]
    obtain ⟨idle, counts, fallback, prior⟩ := t.watchStep_reads i x.fault
    have after : (t.watchStep i x.fault).RepliesStand (((t.watchStep i x.fault).failedStep i x.state).planStep i x) :=
      (State.RepliesStand.refl _).failedStep.planStep
    rw [State.statusTaken_eq polled]
    refine ⟨after.idle l (idle l ?_), (after.counts i).trans (counts.trans ?_), fun _ => ?_, fun running => ?_,
      fun _ failed lost => ?_, nofun⟩
    · simp [t, State.statusStored, State.replied]
    · simp [t, State.statusStored]
    · rw [after.fallback i, fallback, slot]
    · rw [after.prior i]
      exact prior (by rwa [state])
    · refine State.failed_endCause ?_ failed
      rw [State.watchStep_slot_of_no_winner (s := t) lost, state, polled]
end

