-- ==== Sys2Proof/Proofs/DirectedReplies.lean ====
section
/-! PROOFS. Good replies of IDENT, PHASE START and HALT (R16, R19, R43, R48, R64), with the entry of a step that is no LOOP
step (R37). -/

namespace Sys2Proof.Machine

variable {s u T : State} {l : ShelfNo} {i : SlotNo} {n : Nat} {p : Purpose} {t : Transaction} {d : DriveState}
  {bytes q : List Byte}

/-! ## Entry to a step (R37, R38) -/

theorem enterChain_done (k : Nat) : enterChain i k (s, none) = (s, none) := by cases k <;> rfl

/-- A chain of entries ends with the first that names no other step. -/
theorem enterChain_of_done (done : (s.enterOnce i n).2 = none) (k : Nat) :
    enterChain i k (s, some n) = s.enterOnce i n := by
  induction k with
  | zero => rfl
  | succ k ih =>
    have stands : s.enterOnce i n = ((s.enterOnce i n).1, none) := Prod.ext rfl done
    rw [enterChain, ih, stands, enterChain_done]

theorem State.enterStep_of_done (done : (s.enterOnce i n).2 = none) : s.enterStep i n = (s.enterOnce i n).1 := by
  rw [State.enterStep, enterChain_of_done done]

theorem State.askPhase_slot_same (phase : Nat) :
    (s.askPhase i phase).slot i = { s.slot i with phaseArmed := false } := by
  simp [State.askPhase, State.askLink]

theorem State.beginStep_slot_same : (s.beginStep i n).slot i = (s.slot i).beginStep n (s.dose i).acc := by
  simp [State.beginStep]

/-- The slot at a step it has entered, LOOP steps left out (R37, R43, R48). -/
theorem State.enterStep_slot_same {y : PlanStep} (step : s.stepAt i n = some y) (noLoop : ∀ a b, y ≠ .loop a b) :
    (s.enterStep i n).slot i =
      { (s.slot i).beginStep n (s.dose i).acc with
        cyclePhase := match y with | .cycle _ => some .halting | _ => none } := by
  cases y with
  | baseline =>
    have once : s.enterOnce i n = (s.beginStep i n, none) := by simp only [State.enterOnce, step]
    rw [State.enterStep_of_done (by rw [once]), once, State.beginStep_slot_same]
    rfl
  | soak target limit act =>
    have once : s.enterOnce i n = (s.beginStep i n, none) := by simp only [State.enterOnce, step]
    rw [State.enterStep_of_done (by rw [once]), once, State.beginStep_slot_same]
    rfl
  | exercise phase target limit act =>
    have once : s.enterOnce i n = ((s.beginStep i n).askPhase i phase, none) := by simp only [State.enterOnce, step]
    rw [State.enterStep_of_done (by rw [once]), once, State.askPhase_slot_same, State.beginStep_slot_same]
    rfl
  | cycle off =>
    have once : s.enterOnce i n = ((s.beginStep i n).beginCycle i, none) := by simp only [State.enterOnce, step]
    rw [State.enterStep_of_done (by rw [once]), once]
    simp [State.beginCycle, State.askCycleHalt, State.askLink, State.beginStep_slot_same]
  | loop target count => exact absurd rfl (noLoop target count)

/-! ## IDENT (R16) -/

/-- The slot with the identity of a good IDENT reply stored (R16). -/
def State.named (s : State) (i : SlotNo) (x : Identity) : State := s.modRun i fun r => { r with identity := some x }

theorem State.named_slot_same (x : Identity) :
    (s.named i x).slot i = { s.slot i with run := { (s.slot i).run with identity := some x } } := by
  simp [State.named]

theorem State.zoneTripped_iff : s.zoneTripped i = true ↔ (s.zone (shelfOf i)).state = .tripped := decide_eq_true_iff

theorem State.identified_of_tripped (tripped : (s.zone (shelfOf i)).state = .tripped) (x : Identity) :
    s.identified i x =
      (((s.named i x).modSlot i fun r => { r with step := some 1 }).modRun i fun r => { r with zonePaused := true }).enter
        i .paused none :=
  if_pos (State.zoneTripped_iff (s := s.named i x).mpr tripped)

theorem State.identified_of_not_tripped (untripped : (s.zone (shelfOf i)).state ≠ .tripped) (x : Identity) :
    s.identified i x = ((s.named i x).enter i .running none).enterStep i 1 :=
  if_neg fun tripped => untripped (State.zoneTripped_iff (s := s.named i x).mp tripped)

/-- The identity stays in the run record, whatever the first step leads to. -/
theorem State.identified_identity (x : Identity) : ((s.identified i x).slot i).run.identity = some x := by
  have kept : (s.named i x).RepliesStand (s.identified i x) := by
    by_cases tripped : (s.zone (shelfOf i)).state = .tripped
    · rw [State.identified_of_tripped tripped]
      exact (State.RepliesStand.refl _).modSlot.modRun.enter
    · rw [State.identified_of_not_tripped tripped]
      exact (State.RepliesStand.refl _).enter.enterStep
  rw [kept.identity, State.named_slot_same]

/-- The first step of the plan entered after IDENT, where it is no LOOP step (R16, R37). -/
theorem State.identified_slot_of_step (untripped : (s.zone (shelfOf i)).state ≠ .tripped) (x : Identity) {y : PlanStep}
    (step : s.stepAt i 1 = some y) (noLoop : ∀ a b, y ≠ .loop a b) :
    ((s.identified i x).slot i).state = .running ∧ ((s.identified i x).slot i).step = some 1 ∧
      ((s.identified i x).slot i).stepClock = 0 ∧ ((s.identified i x).slot i).doseStart = (s.dose i).acc := by
  have at_step : ((s.named i x).enter i .running none).stepAt i 1 = some y := by
    simpa [State.named, State.stepAt] using step
  have dose : (((s.named i x).enter i .running none).dose i).acc = (s.dose i).acc := by simp [State.named, State.enter]
  rw [State.identified_of_not_tripped untripped, State.enterStep_slot_same at_step noLoop, dose, State.enter_slot_same]
  exact ⟨rfl, rfl, rfl, rfl⟩

theorem State.identTaken_of_identifying (st : (s.slot i).state = .identifying) (x : Identity) :
    s.identTaken l i x = (s.replied l i).identified i x := if_pos st

theorem State.identTaken_of_not_identifying (st : (s.slot i).state ≠ .identifying) (x : Identity) :
    s.identTaken l i x = s.replied l i := if_neg st

theorem readIdentity_of {serial : List Byte} (twenty : serial.length = 20) (m1 m0 c f1 f0 : Byte) :
    readIdentity (serial ++ [m1, m0, c, f1, f0]) =
      some { serial := serial, model := be16 m1 m0, capacity := c.toNat, firmware := be16 f1 f0 } := by
  have rest : (serial ++ [m1, m0, c, f1, f0]).drop 20 = [m1, m0, c, f1, f0] := List.drop_left' twenty
  have front : (serial ++ [m1, m0, c, f1, f0]).take 20 = serial := List.take_left' twenty
  simp only [readIdentity, rest, front]

/-! ## PHASE START and HALT (R43, R48, R64) -/

/-- The end of a PHASE START asked for by a step entry acts at that entry alone (R43). -/
theorem State.atEntry_iff :
    s.atEntry i n = true ↔ (s.slot i).state = .running ∧ (s.slot i).stepEntered = true ∧ (s.slot i).stepEntry = n := by
  simp [State.atEntry, and_assoc]

/-- A verdict on a slot given up in a state that has the tables, the record and the miss count of `s`. -/
theorem State.Given.judgedAs_of {v : State} {run : RunRec} {total : Nat} (g : T.Given v i run)
    (same : s.sameBeyondSlots T) (spin : (T.slot i).spin = (s.slot i).spin) (counts : (T.linkSlot i).total = total) :
    (v.verdict i).judgedAs i s.sort run (s.slot i).spin total := by
  obtain ⟨-, -, -, -, -, -, -, sort, -⟩ := same
  have judged := g.judgedAs
  rwa [sort, spin, counts] at judged

/-- A HALT has ended in a state that has the slot, its step and the frame of `s` (R19, R48, R64). -/
theorem State.haltOver_of (same : s.sameBeyondSlots T) (slot : T.slot i = s.slot i)
    (step : T.currentStep i = s.currentStep i) :
    s.haltOver T i p (T.linkSlot i).total (.next (T.haltEnded i p).finish) := by
  refine ⟨fun off purpose running entered halting current => ⟨_, rfl, by simpa using same, ?_⟩,
    fun purpose ending => ⟨_, rfl, by simpa using same, ?_⟩, fun idle => ?_⟩
  · have now : T.now = s.now := by
      obtain ⟨clock, -⟩ := same
      exact congrArg Clock.ms clock
    have acts : T.haltEnded i p = T.cycleOff i := by
      rw [purpose, State.haltEnded]
      exact if_pos (by simpa [State.atEntry_iff, slot, running, entered] using halting)
    rw [acts]
    simp [State.cycleOff, step, current, now, Time.after]
  · obtain ⟨given, free, -⟩ := T.takeOvercurrent_given i
    have acts : T.haltEnded i p = ((T.powerOff i).dropPermit i).toVerdict i := by
      rw [purpose, State.haltEnded]
      exact if_pos (by rw [slot, ending])
    have judging := given.off.modRun fun r => { r with summaryMissing := true }
    rw [slot] at judging
    rw [acts, State.toVerdict]
    refine ⟨?_, ?_, ?_, State.verdict_state _ i, judging.judgedAs_of same (congrArg SlotRec.spin slot) rfl⟩
    · rw [State.verdict_slot_same]; exact judging.power
    · rw [State.verdict_slot_same]; simpa using free
    · rw [State.verdict_slot_same, judging.run]
  · have stands : T.haltEnded i p = T := by
      rcases idle with e | ⟨e, away⟩ | ⟨n, e, away⟩
      · rw [e, State.haltEnded]
      · rw [e, State.haltEnded]
        exact if_neg (by rwa [slot])
      · rw [e, State.haltEnded]
        refine if_neg fun acts => ?_
        obtain ⟨entry, halting⟩ : T.atEntry i n = true ∧ (T.slot i).cyclePhase = some .halting := by simpa using acts
        obtain ⟨running, entered, number⟩ := State.atEntry_iff.mp entry
        rw [slot] at running entered number halting
        rcases away with e | e | e | e
        · exact e number.symm
        · exact e running
        · simp [entered] at e
        · exact e halting
    rw [stands]

/-! ## The reply commands (R52, R64) -/

section
variable (awaited : (s.link l).awaiting s.now = some t)
include awaited

theorem exec_identReply {x : Identity} (request : t.request = .directed .ident p)
    (read : readReply t.request bytes = some (d, q)) (good : readIdentity q = some x) :
    exec (.identReply l bytes) s = .next (s.identTaken l t.slot x).finish := by
  rw [request] at read
  simp only [exec, execIdentReply, awaited, request, read, good]

theorem exec_phaseStartReply (request : t.request = .directed (.phaseStart n) p)
    (read : readReply t.request bytes = some (d, q)) :
    exec (.phaseStartReply l bytes) s = .next (s.phaseTaken l t.slot p).finish := by
  rw [request] at read
  simp only [exec, execPhaseStartReply, awaited, request, read]

theorem exec_haltReply (request : t.request = .directed .halt p) (read : readReply t.request bytes = some (d, q)) :
    exec (.haltReply l bytes) s = .next ((s.goodReply l t.slot).haltEnded t.slot p).finish := by
  rw [request] at read
  simp only [exec, execHaltReply, awaited, request, read]

end

end Sys2Proof.Machine

open Sys2Proof Sys2Proof.Machine

/-- Settles O23: each reply is read (`readReply_of_good`) and taken, by what the slot's state, zone and step entry make of
it. -/
theorem directedRepliesTaken : Obligations.DirectedRepliesTaken := by
  intro s l i e p d st intime status waits T
  have awaited {c : DirectedCode} (out : waits c) : (s.link l).awaiting s.now = some _ := Link.awaiting_of out rfl intime
  refine ⟨?_, fun n out => ?_, fun out => ?_⟩
  · intro serial m1 m0 c f1 f0 twenty out bytes
    have taken : exec (.identReply l bytes) s = .next (s.identTaken l i
        { serial := serial, model := be16 m1 m0, capacity := c.toNat, firmware := be16 f1 f0 }).finish :=
      exec_identReply (awaited out) rfl (readReply_of_good (by simp [twenty]) rfl
        (by simp [twenty, LinkRequest.replyLength]) status) (readIdentity_of twenty m1 m0 c f1 f0)
    refine ⟨fun away => ?_, fun identifying => ?_⟩
    · rw [taken, State.identTaken_of_not_identifying away]
    · rw [State.identTaken_of_identifying identifying] at taken
      refine ⟨_, taken, by simp [State.replied, State.sameBeyondSlots_refl], State.identified_identity _,
        fun tripped => ?_, fun untripped q y plan first noLoop => ?_⟩
      · rw [State.identified_of_tripped (s := s.replied l i) tripped]
        simp
      · have step : (s.replied l i).stepAt i 1 = some y := by simpa [State.stepAt, State.replied, plan] using first
        exact State.identified_slot_of_step (s := s.replied l i) untripped _ step noLoop
  · have taken := exec_phaseStartReply (awaited out) rfl (readReply_of_good (payload := []) (by simp) rfl rfl status)
    refine taken.trans (congrArg (fun u : State => Host.Outcome.next u.finish) ?_)
    cases p with
    | step entry =>
      have entry_iff : T.atEntry i entry = true ↔ Purpose.step entry = .step (s.slot i).stepEntry ∧
          (s.slot i).state = .running ∧ (s.slot i).stepEntered = true := by
        rw [State.atEntry_iff, Purpose.step.injEq]
        exact ⟨fun ⟨running, entered, number⟩ => ⟨number.symm, running, entered⟩,
          fun ⟨number, running, entered⟩ => ⟨running, entered, number.symm⟩⟩
      exact if_congr entry_iff rfl rfl
    | plain | zoneEnd => exact (if_neg (by simp)).symm
  · have taken : exec (.haltReply l (replyFrame 0x13 st [])) s = .next (T.haltEnded i p).finish :=
      exec_haltReply (awaited out) rfl (readReply_of_good (payload := []) (by simp) rfl rfl status)
    rw [taken]
    have counts : (T.linkSlot i).total = (s.linkSlot i).total := by simp [T, State.replied]
    exact counts ▸ State.haltOver_of (by simp [T, State.replied, State.sameBeyondSlots_refl]) rfl rfl
end

