-- ==== Sys2Proof/Proofs/Summaries.lean ====
section
/-! PROOFS. The SUMMARY transaction (R55, R66, R67): its blocks, and the end of its operation at the slot's verdict. -/

namespace Sys2Proof.Machine

variable {s T : State} {l : ShelfNo} {i : SlotNo} {n : Nat} {p : Purpose} {t : Transaction} {d : DriveState}
  {bytes q : List Byte} {op : SummaryOp} {ops : List SummaryOp}

/-! ## A summary operation that leaves its queue (R18, R66, R67) -/

/-- The slot as its verdict finds it once its summary operation is over: the outcome in its run record, its power off. -/
def State.summaryOver (s : State) (l : ShelfNo) (i : SlotNo) (f : RunRec → RunRec) : State :=
  ((s.modLink l Link.dropHead).modRun i f).powerOff i

theorem State.summaryComplete_eq (x : Summary) :
    s.summaryComplete l i x = (s.summaryOver l i fun r => { r with summary := some x }).verdict i := rfl

theorem State.summaryFails_eq :
    s.summaryFails l i = (s.summaryOver l i fun r => { r with summaryMissing := true }).verdict i := rfl

theorem State.summaryOver_given (s : State) (l : ShelfNo) (i : SlotNo) (f : RunRec → RunRec) :
    s.Given (s.summaryOver l i f) i (f (s.slot i).run) := by
  have link (k : ShelfNo) : (((s.modLink l Link.dropHead).modRun i f).link k).knows i = (s.link k).knows i ∧
      (((s.modLink l Link.dropHead).modRun i f).link k).directed = (s.link k).directed := by
    change ((s.modLink l Link.dropHead).link k).knows i = _ ∧ ((s.modLink l Link.dropHead).link k).directed = _
    rw [State.link_modLink]
    split
    · subst k; exact ⟨rfl, rfl⟩
    · exact ⟨rfl, rfl⟩
  have given := State.Given.powerOff (s := s) (v := (s.modLink l Link.dropHead).modRun i f) (i := i)
    (by simp [State.sameBeyondSlots_refl]) (by simp) rfl (fun k d m => by rwa [(link k).2] at m)
    (fun known => .inl ((link _).1.trans known))
  simpa [State.summaryOver] using given

/-! ## Good SUMMARY replies (R55, R66) -/

theorem exec_summaryReply {b : SummaryBlock} (awaited : (s.link l).awaiting s.now = some t)
    (queue : (s.link l).summary = op :: ops) (request : t.request = .summary n)
    (read : readReply t.request bytes = some (d, q)) (block : readBlock n q = some b) :
    exec (.summaryReply l bytes) s = .next (s.blockTaken l t.slot op b).finish := by
  rw [request] at read
  simp only [exec, execSummaryReply, awaited, request, read, queue, block]

/-- The head operation of a link replaced, after a good reply. -/
theorem State.replied_setHead (queue : (s.link l).summary = op :: ops) (x : SummaryOp) :
    (s.replied l i).modLink l (·.setHead x) =
      (s.replied l i).setLink l { s.link l with outstanding := none, summary := x :: ops } := by
  simp [State.modLink_eq, State.replied, Link.setHead, queue]

theorem readBlock_margins {b : Byte} (asked : b.toNat = n) (later : n ≠ 0) (m1 m2 m3 m4 : Byte) :
    readBlock n [b, m1, m2, m3, m4] = some (.margins [m1.toNat, m2.toNat, m3.toNat, m4.toNat]) := by
  simp only [readBlock]
  exact if_pos ⟨asked, later⟩

/-- A later block adds its margins, and completes the summary once they reach the last head (R66). -/
theorem State.blockTaken_margins {z : Block0} (first : op.block0 = some z) (ms : List Nat) :
    s.blockTaken l i op (.margins ms) =
      if z.headCount ≤ 4 * op.next then
        (s.replied l i).summaryComplete l i (z.summary (op.margins ++ ms.take (z.headCount - 4 * (op.next - 1))))
      else
        (s.replied l i).modLink l (·.setHead
          { op with next := op.next + 1, margins := op.margins ++ ms.take (z.headCount - 4 * (op.next - 1)) }) := by
  simp only [State.blockTaken, first]
  rfl

end Sys2Proof.Machine

open Sys2Proof Sys2Proof.Machine

/-- Settles O24: block 0 and a later block become the operation's progress, and the last block gives the slot up to its
verdict (`State.summaryOver_given`). -/
theorem summaryBlocksTaken : Obligations.SummaryBlocksTaken := by
  intro s l i e op ops d st intime status queue waits progress
  have awaited {n : Nat} (out : waits n) : (s.link l).awaiting s.now = some _ := Link.awaiting_of out rfl intime
  refine ⟨fun g1 g0 p1 p0 t h v out => ?_, ?_⟩
  · have read := readReply_of_good (r := .summary 0) (payload := [0, g1, g0, p1, p0, t, h, v]) (by simp) rfl rfl status
    refine (exec_summaryReply (awaited out) queue rfl read rfl).trans
      (congrArg (fun u : State => Host.Outcome.next u.finish) ?_)
    exact State.replied_setHead queue _
  · intro n z m1 m2 m3 m4 low high next first out bytes kept
    have number : (BitVec.ofNat 8 n).toNat = n := by rw [BitVec.toNat_ofNat]; omega
    have read := readReply_of_good (r := .summary n) (payload := [BitVec.ofNat 8 n, m1, m2, m3, m4]) (by simp) rfl
      (by simp [LinkRequest.replyLength]; omega) status
    have taken := exec_summaryReply (awaited out) queue rfl read
      (readBlock_margins number (Nat.ne_of_gt low) m1 m2 m3 m4)
    rw [State.blockTaken_margins first, next] at taken
    refine ⟨fun more => ?_, fun last => ?_⟩
    · rw [if_neg (Nat.not_le.mpr more), State.replied_setHead queue] at taken
      exact taken
    · rw [if_pos last, State.summaryComplete_eq] at taken
      have given := (s.replied l i).summaryOver_given l i fun r => { r with summary := some (z.summary kept) }
      have same : s.sameBeyondSlots (s.replied l i) := by simp [State.replied, State.sameBeyondSlots_refl]
      refine ⟨_, taken, by simpa using State.sameBeyondSlots_trans same given.same, ?_, ?_, State.verdict_state _ i, ?_,
        given.judgedAs_of same rfl (by simp [State.replied])⟩
      · rw [State.verdict_slot_same, given.run]; rfl
      · rw [State.verdict_slot_same]; exact given.power
      · rw [State.verdict_slot_same]; rfl
end

