-- ==== Sys2Proof/Proofs/Misses.lean ====
section
/-! PROOFS. The poll timeout of a transaction expires (R52): the counts, SILENT (R71), and what the code that missed asks
for (R64, R67). -/

namespace Sys2Proof.Machine

variable {s T : State} {l : ShelfNo} {i : SlotNo} {n : Nat} {p : Purpose} {t : Transaction} {op : SummaryOp}
  {ops : List SummaryOp} {r : LinkRequest} {c : EndCause}
  {total : Nat}

/-! ## The counts (R52, R71) -/

theorem exec_miss (out : (s.link l).outstanding = some t) (due : Time.reached s.now t.expiry = true) :
    exec (.miss l) s = .next (s.missed l t).finish := by
  simp only [exec, execMiss, out, due, if_true]

/-- Before the poll timeout is reached there is no miss (R52). -/
theorem exec_miss_early
    (early : ∀ t, (s.link l).outstanding = some t → Time.reached s.now t.expiry = false) : exec (.miss l) s = .next s := by
  simp only [exec, execMiss]
  cases out : (s.link l).outstanding with
  | none => rfl
  | some t => simp [early t out]

/-- The transaction over and both counts raised (R71). -/
def State.missCounted (s : State) (l : ShelfNo) (i : SlotNo) : State :=
  (s.setLink l { s.link l with outstanding := none }).setLinkSlot i
    { last := (s.linkSlot i).last, consecutive := min 255 ((s.linkSlot i).consecutive + 1),
      total := min 65535 ((s.linkSlot i).total + 1) }

theorem State.missed_eq :
    s.missed l t = ((s.missCounted l t.slot).judgeSilent l t.slot).codeMiss l t.slot t.request := rfl

@[simp] theorem State.missCounted_slot (j : SlotNo) : (s.missCounted l i).slot j = s.slot j := rfl
@[simp] theorem State.missCounted_link_same : (s.missCounted l i).link l = { s.link l with outstanding := none } := by
  simp [State.missCounted]
@[simp] theorem State.missCounted_linkSlot_same :
    (s.missCounted l i).linkSlot i =
      { last := (s.linkSlot i).last, consecutive := min 255 ((s.linkSlot i).consecutive + 1),
        total := min 65535 ((s.linkSlot i).total + 1) } := by
  simp [State.missCounted]

theorem State.same_missCounted (s : State) (l : ShelfNo) (i : SlotNo) : s.sameBeyondSlots (s.missCounted l i) := by
  simp [State.missCounted, State.sameBeyondSlots_refl]

/-! ## SILENT (R71) -/

theorem State.judgeSilent_of_limit (polled : (s.slot i).state.polled = true)
    (limit : (s.link l).settings.missLimit ≤ (s.linkSlot i).consecutive) : s.judgeSilent l i = s.endAtOnce i .silent := by
  simp [State.judgeSilent, polled, limit]

theorem State.judgeSilent_of_short (short : (s.linkSlot i).consecutive < (s.link l).settings.missLimit ∨
    (s.slot i).state.polled = false) : s.judgeSilent l i = s := by
  rcases short with e | e
  · simp [State.judgeSilent, Nat.not_le.mpr e]
  · simp [State.judgeSilent, e]

/-- A run ended straight to its verdict in a state that has the slot and the frame of `s` (R19). -/
theorem State.endAtOnce_reads (same : s.sameBeyondSlots T) (slot : T.slot i = s.slot i)
    (counts : (T.linkSlot i).total = total) :
    let u := T.endAtOnce i c
    s.sameBeyondSlots u ∧ (u.slot i).run.endCause = some c ∧ (u.slot i).power = .off ∧ (u.slot i).permit = .none ∧
      (u.slot i).run.summaryMissing = true ∧ ((u.slot i).state = .graded ∨ (u.slot i).state = .held) ∧
      u.judgedAs i s.sort { (s.slot i).run with endCause := some c, summaryMissing := true } (s.slot i).spin total := by
  obtain ⟨v, ended, given, free, -⟩ := T.endAtOnce_given i c
  rw [slot] at given
  rw [ended]
  refine ⟨by simpa using State.sameBeyondSlots_trans same given.same, ?_, ?_, ?_, ?_, State.verdict_state v i,
    given.judgedAs_of same (congrArg SlotRec.spin slot) counts⟩
  · rw [State.verdict_slot_same, given.run]
  · rw [State.verdict_slot_same]; exact given.power
  · rw [State.verdict_slot_same]; exact free
  · rw [State.verdict_slot_same, given.run]

/-- A run that has ended asks for nothing more (R64). -/
theorem State.codeMiss_of_ended (ended : (s.slot i).state = .graded ∨ (s.slot i).state = .held)
    (request : ∀ n, r ≠ .summary n) : s.codeMiss l i r = s := by
  have away (st : SlotState) (e : st ≠ .graded ∧ st ≠ .held) : (s.slot i).state ≠ st := by
    rintro rfl
    exact ended.elim e.1 e.2
  have noEntry (n : Nat) : ¬ s.atEntry i n = true := fun e => away .running (by decide) (State.atEntry_iff.mp e).1
  cases r with
  | status => rfl
  | summary n => exact absurd rfl (request n)
  | directed c p =>
    cases c with
    | ident => exact if_neg (away .identifying (by decide))
    | phaseStart n =>
      cases p with
      | step entry => exact if_neg (noEntry entry)
      | plain | zoneEnd => rfl
    | halt =>
      cases p with
      | plain => rfl
      | step entry =>
        refine if_neg fun acts => noEntry entry ?_
        obtain ⟨at_entry, -⟩ := Bool.and_eq_true_iff.mp acts
        exact at_entry
      | zoneEnd => exact if_neg (away .ending (by decide))

/-! ## What the code asks for (R43, R64) -/

/-- A missed PHASE START is asked for again at the step entry that asked for it (R43). -/
theorem State.directedMiss_phaseStart :
    s.directedMiss i (.phaseStart n) p =
      if p = .step (s.slot i).stepEntry ∧ (s.slot i).state = .running ∧ (s.slot i).stepEntered = true then
        (s.setSlot i { s.slot i with phaseArmed := false }).askLink i (.phaseStart n) p
      else s := by
  cases p with
  | plain | zoneEnd => exact (if_neg (by simp)).symm
  | step entry =>
    by_cases acts : s.atEntry i entry = true
    · obtain ⟨running, entered, number⟩ := State.atEntry_iff.mp acts
      refine (if_pos acts).trans ((if_pos ⟨by rw [number], running, entered⟩).trans ?_).symm
      rw [← number]
      rfl
    · refine (if_neg acts).trans (if_neg ?_).symm
      rintro ⟨number, running, entered⟩
      exact acts (State.atEntry_iff.mpr ⟨running, entered, (Purpose.step.inj number).symm⟩)

/-! ## A missed summary block (R67) -/

/-- The link after a missed block: the gap over, and the miss counted in the head operation (R67; log entry 57). -/
def State.blockMissed (s : State) (l : ShelfNo) (op : SummaryOp) : State :=
  s.modLink l fun x => (x.setHead { op with misses := min 15 (op.misses + 1) }).endGap

theorem State.summaryMiss_eq (queue : (s.link l).summary = op :: ops) :
    s.summaryMiss l i =
      if (s.link l).settings.missLimit ≤ min 15 (op.misses + 1) then (s.blockMissed l op).summaryFails l i
      else s.blockMissed l op := by
  simp only [State.summaryMiss, queue]
  rfl

theorem Link.leave_phase (x : Link) (i : SlotNo) : (x.leave i).phase = x.phase ∧ (x.leave i).gapCount = x.gapCount := by
  unfold Link.leave; split <;> exact ⟨rfl, rfl⟩

/-- The operation's end leaves the phase of the frame as it is. -/
theorem State.summaryOver_phase (s : State) (l : ShelfNo) (i : SlotNo) (f : RunRec → RunRec) :
    ((s.summaryOver l i f).link l).phase = (s.link l).phase ∧
      ((s.summaryOver l i f).link l).gapCount = (s.link l).gapCount := by
  have dropped : ((s.modLink l Link.dropHead).modRun i f).link l = (s.link l).dropHead := by
    change (s.modLink l Link.dropHead).link l = _
    simp
  by_cases own : l = shelfOf i
  · have left := ((s.link l).dropHead).leave_phase i
    subst own
    rw [State.summaryOver, State.powerOff_link_same, dropped]
    exact left
  · rw [State.summaryOver, State.powerOff_link_ne _ _ own, dropped]
    exact ⟨rfl, rfl⟩

/-- The operation that fails by a missed block gives its slot up to the verdict, and its link to WAIT (R67). -/
theorem State.summaryFails_reads (same : s.sameBeyondSlots T) (slot : T.slot i = s.slot i)
    (counts : (T.linkSlot i).total = total) :
    let u := (T.blockMissed l op).summaryFails l i
    s.sameBeyondSlots u ∧ (u.slot i).run.summaryMissing = true ∧ (u.slot i).power = .off ∧
      ((u.slot i).state = .graded ∨ (u.slot i).state = .held) ∧
      u.judgedAs i s.sort { (s.slot i).run with summaryMissing := true } (s.slot i).spin total ∧
      (u.link l).phase = .wait ∧ (u.link l).gapCount = 0 := by
  let B := T.blockMissed l op
  have sameB : s.sameBeyondSlots B := by simpa [B, State.blockMissed] using same
  have slotB : B.slot i = s.slot i := slot
  have given := B.summaryOver_given l i fun r => { r with summaryMissing := true }
  obtain ⟨phase, gap⟩ := B.summaryOver_phase l i fun r => { r with summaryMissing := true }
  have waits : (B.link l).phase = .wait ∧ (B.link l).gapCount = 0 := by simp [B, State.blockMissed, Link.endGap]
  rw [slotB] at given
  rw [State.summaryFails_eq]
  refine ⟨by simpa using State.sameBeyondSlots_trans sameB given.same, ?_, ?_, State.verdict_state _ i,
    given.judgedAs_of sameB (congrArg SlotRec.spin slot) counts, ?_, ?_⟩
  · rw [State.verdict_slot_same, given.run]
  · rw [State.verdict_slot_same]; exact given.power
  · rw [State.verdict_link, phase, waits.1]
  · rw [State.verdict_link, gap, waits.2]

end Sys2Proof.Machine

open Sys2Proof Sys2Proof.Machine

/-- Settles O25: the counts (`State.missCounted`), SILENT at the limit (`State.endAtOnce_reads`), short of it what the code
that missed asks for, and the summary operation that fails (`State.summaryFails_reads`). -/
theorem missCountsAndEnds : Obligations.MissCountsAndEnds := by
  refine ⟨fun s l early => exec_miss_early early, ?_⟩
  intro s l t out due i counts T
  have missed : exec (.miss l) s = .next ((T.judgeSilent l i).codeMiss l i t.request).finish := exec_miss out due
  have same : s.sameBeyondSlots T := s.same_missCounted l i
  have link : T.link l = { s.link l with outstanding := none } := State.missCounted_link_same
  have counted : T.linkSlot i = counts := State.missCounted_linkSlot_same
  have total : (T.linkSlot i).total = counts.total := congrArg LinkSlot.total counted
  have frame : s.sameBeyondSlots ((T.judgeSilent l i).codeMiss l i t.request) :=
    (s.same_missed s l t).mpr s.sameBeyondSlots_refl
  have slot : T.slot i = s.slot i := rfl
  have step : T.currentStep i = s.currentStep i := rfl
  -- From here on `T` is any state with these records: unfolding it further costs much and tells nothing.
  clear_value T counts i
  have short (e : counts.consecutive < (s.link l).settings.missLimit ∨ (s.slot i).state.polled = false) :
      T.judgeSilent l i = T := State.judgeSilent_of_short (by rw [counted, link, slot]; exact e)
  refine ⟨?_, fun request polled limit => ?_, fun request e => ?_, fun c p request e => ⟨?_, ?_, ?_⟩,
    fun n op ops request ending queue => ?_⟩
  · have kept : T.RepliesStand ((T.judgeSilent l i).codeMiss l i t.request) :=
      (State.RepliesStand.refl T).judgeSilent.codeMiss
    exact ⟨_, missed, frame, kept.idle l (by rw [link]), (kept.counts i).trans counted⟩
  · have silent : T.judgeSilent l i = T.endAtOnce i .silent :=
      State.judgeSilent_of_limit (by rw [slot, polled]) (by rw [counted, link]; exact limit)
    obtain ⟨frame, cause, power, permit, missing, ended, judged⟩ := State.endAtOnce_reads (c := .silent) same slot total
    rw [silent, State.codeMiss_of_ended ended request] at missed
    exact ⟨_, missed, frame, cause, power, permit, missing, ended, judged⟩
  · rw [short e, request] at missed
    exact missed
  · rintro rfl
    rw [short e, request] at missed
    rw [missed, ← slot]
    rfl
  · rintro n rfl
    rw [short e, request] at missed
    refine missed.trans (congrArg (fun u : State => Host.Outcome.next u.finish) ?_)
    rw [State.codeMiss, State.directedMiss_phaseStart, slot]
  · rintro rfl
    rw [short e, request] at missed
    rw [missed, ← total]
    exact State.haltOver_of same slot step
  · have unpolled : T.judgeSilent l i = T := short (.inr (by rw [ending]; rfl))
    have head : (T.link l).summary = op :: ops := by rw [link]; exact queue
    rw [unpolled, request, State.codeMiss, State.summaryMiss_eq head, link] at missed
    refine ⟨fun fails => ?_, fun more => ?_⟩
    · rw [if_pos fails] at missed
      exact ⟨_, missed, State.summaryFails_reads same slot total⟩
    · rw [if_neg (Nat.not_le.mpr more)] at missed
      refine missed.trans (congrArg (fun u : State => Host.Outcome.next u.finish) ?_)
      rw [State.blockMissed, State.modLink_eq, link]
      simp [Link.setHead, Link.endGap, queue]
end

