-- ==== Sys2Proof/Proofs/ZoneFrames.lean ====
section
/-! PROOFS. The zone records beside the other blocks: no operation of SC, HP or CM writes a zone, and what an event at
a zone does to the shelf leaves every other block's records alone (chapter 4). -/

namespace Sys2Proof.Machine

variable {s t u : State} {i : SlotNo} {z : ShelfNo}

/-! ## Frames around the zones -/

theorem State.zones_of_same (e : s.sameBeyondSlots t) : t.zones = s.zones := by
  obtain ⟨-, -, -, zones, -⟩ := e
  exact zones

theorem State.zones_of_cartons (e : s.sameBeyondCartons t) : t.zones = s.zones := by
  obtain ⟨-, -, -, -, -, -, -, -, -, zones, -⟩ := e
  exact zones

theorem State.zone_of_zones (e : t.zones = s.zones) (z : ShelfNo) : t.zone z = s.zone z := by
  simp only [State.zone, e]

theorem State.zone_of_same (e : s.sameBeyondSlots t) (z : ShelfNo) : t.zone z = s.zone z :=
  State.zone_of_zones (State.zones_of_same e) z

/-- An operation of which the frame lemmas say that it keeps any frame keeps its own. -/
theorem State.same_of_iff (e : s.sameBeyondSlots t ↔ s.sameBeyondSlots s) : s.sameBeyondSlots t :=
  e.mpr s.sameBeyondSlots_refl

theorem State.modZone_eq (s : State) (z : ShelfNo) (f : Zone → Zone) : s.modZone z f = s.setZone z (f (s.zone z)) := rfl

/-- A zone written on both sides of a frame. -/
theorem State.same_setZone (e : s.sameBeyondSlots t) (z : ShelfNo) (x : Zone) :
    (s.setZone z x).sameBeyondSlots (t.setZone z x) := by
  obtain ⟨clock, spin, lines, zones, doses, table, rules, sort, cartons, ring, straps, pending⟩ := e
  exact ⟨clock, spin, lines, by simp [zones], doses, table, rules, sort, cartons, ring, straps, pending⟩

/-- Of two writes of one zone, with no more than the slots' side changed after each, the second stands. -/
theorem State.same_setZone_trans {x y : Zone} (e : (s.setZone z x).sameBeyondSlots t)
    (g : (t.setZone z y).sameBeyondSlots u) : (s.setZone z y).sameBeyondSlots u := by
  have again := State.same_setZone e z y
  rw [State.setZone_setZone] at again
  exact State.sameBeyondSlots_trans again g

/-- The written zone stands where no more than the slots' side has changed. -/
theorem State.zone_same_setZone {x : Zone} (e : (s.setZone z x).sameBeyondSlots t) : t.zone z = x := by
  rw [State.zone_of_same e, State.zone_setZone_same]

theorem State.zone_ne_setZone {x : Zone} {y : ShelfNo} (e : (s.setZone z x).sameBeyondSlots t) (n : y ≠ z) :
    t.zone y = s.zone y := by
  rw [State.zone_of_same e, State.zone_setZone_ne _ _ n]

/-! ## Operations that write no zone -/

@[simp] theorem State.enterVacant_zones (c : Option EndCause) : (s.enterVacant i c).zones = s.zones :=
  (State.zones_of_same (s.same_enterVacant i c) :)
@[simp] theorem State.startRun_zones (rerun : Bool) : (s.startRun i rerun).zones = s.zones :=
  (State.zones_of_same (s.same_startRun i rerun) :)
@[simp] theorem State.teardown_zones : (s.teardown i).zones = s.zones := (State.zones_of_same (s.same_teardown i) :)
@[simp] theorem State.enter_zones (st : SlotState) (o : Option HoldReason) : (s.enter i st o).zones = s.zones := by
  simp [State.enter, State.modSlot_eq]
@[simp] theorem State.enterHeld_zones (why : HoldReason) : (s.enterHeld i why).zones = s.zones := s.enter_zones _ _
@[simp] theorem State.dropPlan_zones : (s.dropPlan i).zones = s.zones :=
  State.zones_of_same (State.same_of_iff (s.same_dropPlan s i))
@[simp] theorem State.withdrawOrder_zones : (s.withdrawOrder i).zones = s.zones := rfl
@[simp] theorem State.engage_zones : (s.engage i).zones = s.zones := rfl
@[simp] theorem State.enterSeated_zones : (s.enterSeated i).zones = s.zones := by
  simp only [State.enterSeated]
  split <;> simp
@[simp] theorem State.credit_zones : (s.credit i).zones = s.zones := by
  unfold State.credit
  split <;> rfl
@[simp] theorem State.tickSlot_zones : (s.tickSlot i).zones = s.zones :=
  (State.zones_of_same (State.same_of_iff ((s.credit i).same_tickStep (s.credit i) i))).trans State.credit_zones

/-! ## The handler port (chapter 8) -/

variable {o : Order} {c : CurrentOrder}

@[simp] theorem State.endAtCarton_zones : (s.endAtCarton o).zones = s.zones :=
  State.zones_of_cartons ((s.cartons_endAtCarton_iff s o).mpr s.sameBeyondCartons_refl)
@[simp] theorem State.handshakeOver_zones : (s.handshakeOver o).zones = s.zones :=
  State.zones_of_cartons ((s.cartons_handshakeOver_iff s o).mpr s.sameBeyondCartons_refl)
@[simp] theorem State.countIn_zones (b : LaneNo) : (s.countIn i b).zones = s.zones :=
  State.zones_of_cartons ((s.cartons_countIn_iff s i b).mpr s.sameBeyondCartons_refl)
@[simp] theorem State.portFault_zones (why : FaultReason) : (s.portFault why o).zones = s.zones := by
  simp [State.portFault]
@[simp] theorem State.endHandshake_zones (x : PortOutcome) : (s.endHandshake c x).zones = s.zones :=
  State.zones_of_same (State.same_of_iff (State.same_endHandshake x))
@[simp] theorem State.orderBack_zones (why : HoldReason) : (s.orderBack o why).zones = s.zones := by
  unfold State.orderBack
  split
  · simp only [State.extractBack]
    split <;> simp
  · simp only [State.insertBack]
    split <;> simp
@[simp] theorem State.orderFails_zones (e : HandlerEvent) (why : HoldReason) :
    (s.orderFails o e why).zones = s.zones := by
  simp [State.orderFails, State.handlerNotice]
@[simp] theorem State.confirm_zones : (s.confirm c).zones = s.zones := by
  simp only [State.confirm, State.endHandshake_zones, State.orderConfirmed]
  split <;> simp
@[simp] theorem State.takeDone_zones : (s.takeDone c).zones = s.zones := by
  simp only [State.takeDone]
  split <;> simp
@[simp] theorem State.takeFail_zones : (s.takeFail c).zones = s.zones := by simp [State.takeFail]
@[simp] theorem State.takeOutcome_zones (x : PortOutcome) : (s.takeOutcome c x).zones = s.zones := by
  unfold State.takeOutcome
  split
  · simp
  · split <;> simp
@[simp] theorem State.takeAccept_zones : (s.takeAccept c).zones = s.zones := by
  unfold State.takeAccept State.readLines
  (repeat' split) <;> simp
@[simp] theorem State.raiseOffer_zones : (s.raiseOffer c).zones = s.zones := by
  simp only [State.raiseOffer]
  split <;> simp
@[simp] theorem State.orderReturned_zones : (s.orderReturned o).zones = s.zones := by
  simp only [State.orderReturned]
  (repeat' split) <;> simp
@[simp] theorem State.acceptOver_zones : (s.acceptOver c).zones = s.zones := by
  simp only [State.acceptOver, State.handlerNotice]
  split <;> simp
@[simp] theorem State.dispatch_zones (n : Nat) : (s.dispatch o n).zones = s.zones := by
  simp only [State.dispatch]
  (repeat' split) <;> simp [State.unload, State.reserve, State.modSlot_eq]
@[simp] theorem State.arbitrate_zones : s.arbitrate.zones = s.zones := by
  unfold State.arbitrate State.arbiter
  (repeat' split) <;> simp
@[simp] theorem State.finish_zones : s.finish.zones = s.zones := by
  simp [State.finish, State.advanceLinks]

/-! ## The seat (R5 to R7) -/

@[simp] theorem State.rawSeat_zones (level : Seat) : (s.rawSeat i level).zones = s.zones := by
  simp only [State.rawSeat]
  (repeat' split) <;> simp [State.modSlot_eq]
@[simp] theorem State.seatEvidence_zones : (s.seatEvidence i).zones = s.zones := by
  unfold State.seatEvidence
  (repeat' split) <;> simp
@[simp] theorem State.seatClosed_zones : (s.seatClosed i).zones = s.zones := by
  unfold State.seatClosed
  (repeat' split) <;> simp
@[simp] theorem State.seatOpened_zones : (s.seatOpened i).zones = s.zones := by
  unfold State.seatOpened
  split <;> simp
@[simp] theorem State.debounceOver_zones : (s.debounceOver i).zones = s.zones := by
  simp only [State.debounceOver]
  (repeat' split) <;> simp [State.modSlot_eq]

end Sys2Proof.Machine
end

