-- ==== Sys2Proof/Proofs/ZoneEvents.lean ====
section
/-! PROOFS. What an event makes of the record of its zone: a cause that comes or leaves, a trip with its grace, the
player's moves (R76 to R93); and that each leaves the blocks beyond the slots' side as they are. -/

namespace Sys2Proof.Machine

variable {s t u : State} {i : SlotNo} {z : ShelfNo} {c : Cause} {x : Zone}

/-! ## The shelf told (R22) -/

theorem State.same_shelfTrip (s : State) (z : ShelfNo) : s.sameBeyondSlots (s.onShelf z State.slotTrip) :=
  State.same_of_iff (s.same_onShelf s z _ fun u i => s.same_slotTrip u i)

theorem State.same_shelfGrace (s : State) (z : ShelfNo) : s.sameBeyondSlots (s.onShelf z State.slotGrace) :=
  State.same_of_iff (s.same_onShelf s z _ fun u i => s.same_slotGrace u i)

theorem State.same_shelfResume (s : State) (z : ShelfNo) : s.sameBeyondSlots (s.onShelf z State.slotResume) :=
  State.same_of_iff (s.same_onShelf s z _ fun u i => s.same_slotResume u i)

@[simp] theorem State.same_notifyTrip (s t : State) (z : ShelfNo) :
    s.sameBeyondSlots (t.notifyTrip z) ↔ s.sameBeyondSlots t := by
  unfold State.notifyTrip
  split <;> simp

/-! ## The expiry of a grace, and ZONE RESUME (R92, R93) -/

theorem State.graceOver_eq (tripped : (s.zone z).state = .tripped) :
    s.graceOver z = (s.setZone z { s.zone z with grace := some .expired }).onShelf z State.slotGrace := if_pos tripped

theorem State.same_graceOver (tripped : (s.zone z).state = .tripped) :
    (s.setZone z { s.zone z with grace := some .expired }).sameBeyondSlots (s.graceOver z) := by
  rw [State.graceOver_eq tripped]
  exact State.same_shelfGrace _ z

theorem State.same_resumeZone (s : State) (z : ShelfNo) :
    (s.setZone z ((s.zone z).resume s.now)).sameBeyondSlots (s.resumeZone z) := State.same_shelfResume _ z

/-! ## A trip (R89, R92) -/

/-- A zone tripped by a cause, with its grace: running, or expired at once for a setting of 0. -/
def Zone.tripped (x : Zone) (c : Cause) (time : Count32) (now : Time) : Zone :=
  { x.cut c time with
    grace := some
      (if x.settings.graceMin = 0 then .expired else .running (Time.after now (x.settings.graceMin * 60000))) }

/-- The state at a trip once the shelf's slots have been told of it, before the grace. -/
def State.shelfTripped (s : State) (z : ShelfNo) (c : Cause) : State :=
  (s.setZone z ((s.zone z).cut c s.line.rackTime)).onShelf z State.slotTrip

theorem State.same_shelfTripped (s : State) (z : ShelfNo) (c : Cause) :
    (s.setZone z ((s.zone z).cut c s.line.rackTime)).sameBeyondSlots (s.shelfTripped z c) := State.same_shelfTrip _ z

theorem State.now_of_same (e : s.sameBeyondSlots t) : t.now = s.now := by
  obtain ⟨clock, -⟩ := e
  exact congrArg Clock.ms clock

/-- The grace of a trip: it runs, or the runs of the shelf end at once (R92). -/
theorem State.startGrace_shelfTripped (s : State) (z : ShelfNo) (c : Cause) :
    (s.shelfTripped z c).startGrace z =
      if (s.zone z).settings.graceMin = 0 then
        ((s.shelfTripped z c).setZone z ((s.zone z).tripped c s.line.rackTime s.now)).onShelf z State.slotGrace
      else (s.shelfTripped z c).setZone z ((s.zone z).tripped c s.line.rackTime s.now) := by
  have zone : (s.shelfTripped z c).zone z = (s.zone z).cut c s.line.rackTime :=
    State.zone_same_setZone (s.same_shelfTripped z c)
  have now : (s.shelfTripped z c).now = s.now := (State.now_of_same (s.same_shelfTripped z c) :)
  let running : Zone :=
    { (s.zone z).cut c s.line.rackTime with
      grace := some (.running (Time.after s.now ((s.zone z).settings.graceMin * 60000))) }
  have starts : (s.shelfTripped z c).startGrace z =
      if (s.zone z).settings.graceMin = 0 then ((s.shelfTripped z c).setZone z running).graceOver z
      else (s.shelfTripped z c).setZone z running := by
    simp only [State.startGrace, State.modZone_eq, zone, now]
    rfl
  rw [starts]
  by_cases none : (s.zone z).settings.graceMin = 0
  · rw [if_pos none, if_pos none, State.graceOver_eq (by simp [running, Zone.cut]), State.zone_setZone_same,
      State.setZone_setZone]
    simp [running, Zone.tripped, none]
  · rw [if_neg none, if_neg none]
    simp [running, Zone.tripped, none]

theorem State.same_startGrace (s : State) (z : ShelfNo) (c : Cause) :
    (s.setZone z ((s.zone z).tripped c s.line.rackTime s.now)).sameBeyondSlots
      ((s.shelfTripped z c).startGrace z) := by
  refine State.same_setZone_trans (s.same_shelfTripped z c) ?_
  rw [State.startGrace_shelfTripped]
  split
  · exact State.same_shelfGrace _ z
  · exact State.sameBeyondSlots_refl _

theorem State.tripZone_eq (s : State) (z : ShelfNo) (c : Cause) :
    s.tripZone z c = ((s.shelfTripped z c).startGrace z).notifyTrip z := rfl

/-- The notice of a trip comes after the slots' ones (R89). -/
theorem State.tripZone_notifies (s : State) (z : ShelfNo) (c : Cause) :
    s.tripZone z c = ((s.shelfTripped z c).startGrace z).notify
      (.zoneTrip z c (s.zone z).causes (s.zone z).causes s.line.rackTime) := by
  have zone := State.zone_same_setZone (s.same_startGrace z c)
  rw [State.tripZone_eq, State.notifyTrip, zone]
  rfl

theorem State.same_tripZone (s : State) (z : ShelfNo) (c : Cause) :
    (s.setZone z ((s.zone z).tripped c s.line.rackTime s.now)).sameBeyondSlots (s.tripZone z c) := by
  rw [State.tripZone_eq, State.same_notifyTrip]
  exact s.same_startGrace z c

/-! ## Causes that come and leave (R78, R89 to R91) -/

/-- A zone to which a cause comes: it trips in RUN, and takes the cause into its trip record in TRIPPED. -/
def Zone.gains (x : Zone) (c : Cause) (time : Count32) (now : Time) : Zone :=
  if x.causes.has c then x
  else
    match x.state with
    | .off => { x with causes := x.causes.add c }
    | .run => { x with causes := x.causes.add c }.tripped c time now
    | .tripped => { x with causes := x.causes.add c, trip := x.trip.map (·.see c) }

/-- A zone that a cause leaves. -/
def Zone.loses (x : Zone) (c : Cause) : Zone := { x with causes := x.causes.remove c }

theorem Causes.add_of_has {a : Causes} (present : a.has c = true) : a.add c = a := by
  cases c <;> (simp only [Causes.has] at present; simp [Causes.add, ← present])

theorem Causes.remove_of_not_has {a : Causes} (absent : a.has c = false) : a.remove c = a := by
  cases c <;> (simp only [Causes.has] at absent; simp [Causes.remove, ← absent])

theorem Zone.gains_of_has (present : x.causes.has c = true) (time : Count32) (now : Time) : x.gains c time now = x :=
  if_pos present

theorem Zone.gains_of_run (absent : x.causes.has c = false) (run : x.state = .run) (time : Count32) (now : Time) :
    x.gains c time now = { x with causes := x.causes.add c }.tripped c time now := by
  simp only [Zone.gains, absent, run]
  rfl

theorem Zone.loses_of_not_has (absent : x.causes.has c = false) : x.loses c = x := by
  rw [Zone.loses, Causes.remove_of_not_has absent]

section
variable (x) (c : Cause) (time : Count32) (now : Time)

@[simp] theorem Zone.gains_causes : (x.gains c time now).causes = x.causes.add c := by
  unfold Zone.gains
  split
  · rw [Causes.add_of_has ‹_›]
  · split <;> rfl
@[simp] theorem Zone.gains_air : (x.gains c time now).air = x.air := by unfold Zone.gains; (repeat' split) <;> rfl
@[simp] theorem Zone.gains_sensor : (x.gains c time now).sensor = x.sensor := by
  unfold Zone.gains; (repeat' split) <;> rfl
@[simp] theorem Zone.gains_reading : (x.gains c time now).reading = x.reading := by
  unfold Zone.gains; (repeat' split) <;> rfl
@[simp] theorem Zone.gains_fanSpeed : (x.gains c time now).fanSpeed = x.fanSpeed := by
  unfold Zone.gains; (repeat' split) <;> rfl
@[simp] theorem Zone.gains_fanCount : (x.gains c time now).fanCount = x.fanCount := by
  unfold Zone.gains; (repeat' split) <;> rfl
@[simp] theorem Zone.gains_lowWindows : (x.gains c time now).lowWindows = x.lowWindows := by
  unfold Zone.gains; (repeat' split) <;> rfl
@[simp] theorem Zone.gains_windowOver : (x.gains c time now).windowOver = x.windowOver := by
  unfold Zone.gains; (repeat' split) <;> rfl

end

theorem State.addCause_of_has (present : (s.zone z).causes.has c = true) : s.addCause z c = s := if_pos present

/-- In OFF a cause that comes is present, and no more (R89). -/
theorem State.addCause_of_off (absent : (s.zone z).causes.has c = false) (off : (s.zone z).state = .off) :
    s.addCause z c = s.setZone z { s.zone z with causes := (s.zone z).causes.add c } := by
  simp [State.addCause, absent, off, State.modZone_eq]

/-- In RUN a cause that comes trips the zone (R89). -/
theorem State.addCause_of_run (absent : (s.zone z).causes.has c = false) (run : (s.zone z).state = .run) :
    s.addCause z c = (s.setZone z { s.zone z with causes := (s.zone z).causes.add c }).tripZone z c := by
  simp [State.addCause, absent, run, State.modZone_eq]

/-- In TRIPPED a cause that comes joins the trip record, with a ZONE_TRIP notice (R90). -/
theorem State.addCause_of_tripped {r : TripRec} (absent : (s.zone z).causes.has c = false)
    (tripped : (s.zone z).state = .tripped) (record : (s.zone z).trip = some r) :
    s.addCause z c =
      (s.setZone z { s.zone z with causes := (s.zone z).causes.add c, trip := some (r.see c) }).notify
        (.zoneTrip z r.first ((s.zone z).causes.add c) (r.see c).seen r.time) := by
  simp [State.addCause, absent, tripped, record, State.modZone_eq, State.notifyTrip, TripRec.see]

theorem State.same_addCause (s : State) (z : ShelfNo) (c : Cause) :
    (s.setZone z ((s.zone z).gains c s.line.rackTime s.now)).sameBeyondSlots (s.addCause z c) := by
  cases has : (s.zone z).causes.has c with
  | true =>
    rw [State.addCause_of_has has, Zone.gains_of_has has, State.setZone_zone]
    exact s.sameBeyondSlots_refl
  | false =>
    cases state : (s.zone z).state with
    | off =>
      rw [State.addCause_of_off has state]
      simp [Zone.gains, has, state, State.sameBeyondSlots_refl]
    | run =>
      have trips := State.same_tripZone (s.setZone z { s.zone z with causes := (s.zone z).causes.add c }) z c
      rw [State.zone_setZone_same, State.setZone_setZone] at trips
      rw [State.addCause_of_run has state, Zone.gains_of_run has state]
      exact trips
    | tripped => simp [State.addCause, Zone.gains, has, state, State.modZone_eq, State.sameBeyondSlots_refl]

/-- A cause leaves with a ZONE_CLEAR notice where it is the last to leave a TRIPPED zone (R91). -/
theorem State.removeCause_of_has (present : (s.zone z).causes.has c = true) :
    s.removeCause z c =
      match (s.zone z).state, ((s.zone z).causes.remove c).isEmpty, (s.zone z).trip with
      | .tripped, true, some r =>
        (s.setZone z ((s.zone z).loses c)).notify (.zoneClear z r.first r.seen s.line.rackTime)
      | _, _, _ => s.setZone z ((s.zone z).loses c) := by
  simp only [State.removeCause, present, if_true, State.modZone_eq, State.zone_setZone_same]
  rfl

theorem State.removeCause_of_not_has (absent : (s.zone z).causes.has c = false) : s.removeCause z c = s := by
  simp [State.removeCause, absent]

/-- In TRIPPED the last cause to leave queues ZONE_CLEAR (R91). -/
theorem State.removeCause_of_tripped {r : TripRec} (tripped : (s.zone z).state = .tripped)
    (record : (s.zone z).trip = some r) :
    s.removeCause z c =
      if (s.zone z).causes.isEmpty = false ∧ ((s.zone z).loses c).causes.isEmpty = true then
        (s.setZone z ((s.zone z).loses c)).notify (.zoneClear z r.first r.seen s.line.rackTime)
      else s.setZone z ((s.zone z).loses c) := by
  cases has : (s.zone z).causes.has c with
  | false =>
    have stays := Zone.loses_of_not_has has
    rw [State.removeCause_of_not_has has, stays, State.setZone_zone, if_neg]
    rintro ⟨some, none⟩
    simp [some] at none
  | true =>
    have some : (s.zone z).causes.isEmpty = false := by
      cases c <;> (simp only [Causes.has] at has; simp [Causes.isEmpty, has])
    rw [State.removeCause_of_has has, tripped, record]
    cases left : ((s.zone z).causes.remove c).isEmpty with
    | true => simp [some, Zone.loses, left]
    | false => simp [Zone.loses, left]

theorem State.same_removeCause (s : State) (z : ShelfNo) (c : Cause) :
    (s.setZone z ((s.zone z).loses c)).sameBeyondSlots (s.removeCause z c) := by
  cases has : (s.zone z).causes.has c with
  | false =>
    rw [State.removeCause_of_not_has has, Zone.loses_of_not_has has, State.setZone_zone]
    exact s.sameBeyondSlots_refl
  | true =>
    rw [State.removeCause_of_has has]
    split <;> simp [State.sameBeyondSlots_refl]

@[simp] theorem State.removeCause_rackTime (s : State) (z : ShelfNo) (c : Cause) :
    (s.removeCause z c).line.rackTime = s.line.rackTime := by
  simp only [State.removeCause]
  split
  · split
    · unfold State.notify
      split <;> rfl
    · rfl
  · rfl

end Sys2Proof.Machine
end

