-- ==== Sys2Proof/Proofs/ZoneStates.lean ====
section
/-! PROOFS. Every zone stays as its state says (R75, R85, R87, R89, R92): first what each rule makes of one zone record,
then each command, which changes the zone records by these rules alone. -/

namespace Sys2Proof.Machine

/-! ## One zone record -/

section
variable {x : Zone}

theorem Zone.asState_off (off : x.state = .off) :
    x.asState ↔ x.heater = .off ∧ x.player = none ∧ x.setpoint = none ∧ x.duty = 0 ∧ x.prevDuty = 0 ∧
      x.pendingDuty = none ∧ x.control = none ∧ x.periodEnd = none ∧ x.onEnd = none ∧ x.staged = none ∧ x.trip = none ∧
      x.grace = none := by
  simp only [Zone.asState, off]

theorem Zone.asState_run (run : x.state = .run) : x.asState ↔ x.trip = none ∧ x.grace = none := by
  simp only [Zone.asState, run]

theorem Zone.asState_tripped (tripped : x.state = .tripped) :
    x.asState ↔ x.heater = .off ∧ x.duty = 0 ∧ x.prevDuty = 0 ∧ x.pendingDuty = none ∧ x.control = none ∧
      x.periodEnd = none ∧ x.onEnd = none ∧ x.trip.isSome ∧ x.grace.isSome := by
  simp only [Zone.asState, tripped]

theorem Zone.asState_of_off (off : x.state = .off) (h : x.heater = .off ∧ x.player = none ∧ x.setpoint = none ∧
    x.duty = 0 ∧ x.prevDuty = 0 ∧ x.pendingDuty = none ∧ x.control = none ∧ x.periodEnd = none ∧ x.onEnd = none ∧
    x.staged = none ∧ x.trip = none ∧ x.grace = none) : x.asState := (Zone.asState_off off).mpr h

theorem Zone.asState_of_run (run : x.state = .run) (h : x.trip = none ∧ x.grace = none) : x.asState :=
  (Zone.asState_run run).mpr h

theorem Zone.asState_of_tripped (tripped : x.state = .tripped) (h : x.heater = .off ∧ x.duty = 0 ∧ x.prevDuty = 0 ∧
    x.pendingDuty = none ∧ x.control = none ∧ x.periodEnd = none ∧ x.onEnd = none ∧ x.trip.isSome ∧ x.grace.isSome) :
    x.asState := (Zone.asState_tripped tripped).mpr h

/-- Outside TRIPPED no trip is recorded and no grace runs (R75). -/
theorem Zone.asState.untripped (h : x.asState) (untripped : x.state ≠ .tripped) : x.trip = none ∧ x.grace = none := by
  cases state : x.state with
  | off =>
    obtain ⟨-, -, -, -, -, -, -, -, -, -, trip, grace⟩ := (Zone.asState_off state).mp h
    exact ⟨trip, grace⟩
  | run => exact (Zone.asState_run state).mp h
  | tripped => exact absurd state untripped

/-- In OFF and TRIPPED a rule that gives the heater no new state keeps it off. -/
theorem Zone.asState_heaterOff (h : x.asState) : Zone.asState { x with heater := .off, onEnd := none } := by
  cases state : x.state with
  | off =>
    obtain ⟨-, player, setpoint, duty, prev, pending, control, period, -, rest⟩ := (Zone.asState_off state).mp h
    exact Zone.asState_of_off rfl ⟨rfl, player, setpoint, duty, prev, pending, control, period, rfl, rest⟩
  | run => exact Zone.asState_of_run rfl ((Zone.asState_run state).mp h)
  | tripped =>
    obtain ⟨-, duty, prev, pending, control, period, -, rest⟩ := (Zone.asState_tripped state).mp h
    exact Zone.asState_of_tripped rfl ⟨rfl, duty, prev, pending, control, period, rfl, rest⟩

/-! ### The player (R81 to R83) -/

/-- The zone with other profiles, another player and another setpoint: what the player's rules change. -/
def Zone.replayed (x : Zone) (active staged : Option Profile) (player : Option Player) (setpoint : Option Nat) : Zone :=
  { x with active := active, staged := staged, player := player, setpoint := setpoint }

/-- The player's rules lead from `x` to `y`. -/
def Zone.Replays (x y : Zone) : Prop := ∃ active staged player setpoint, y = x.replayed active staged player setpoint

theorem Zone.Replays.refl (x : Zone) : x.Replays x := ⟨_, _, _, _, rfl⟩

theorem Zone.Replays.trans {x y w : Zone} (a : x.Replays y) (b : y.Replays w) : x.Replays w := by
  obtain ⟨_, _, _, _, rfl⟩ := a
  obtain ⟨_, _, _, _, rfl⟩ := b
  exact ⟨_, _, _, _, rfl⟩

/-- Outside OFF a zone's player and setpoint are free (R75). -/
theorem Zone.asState.replays {y : Zone} (h : x.asState) (on : x.state ≠ .off) (e : x.Replays y) : y.asState := by
  obtain ⟨active, staged, player, setpoint, rfl⟩ := e
  cases state : x.state with
  | off => exact absurd state on
  | run => exact Zone.asState_of_run state ((Zone.asState_run state).mp h)
  | tripped => exact Zone.asState_of_tripped state ((Zone.asState_tripped state).mp h)

theorem Zone.replays_enterSegment (x : Zone) (n : Nat) : x.Replays (x.enterSegment n) := by
  unfold Zone.enterSegment
  split
  · exact .refl x
  · split
    · exact .refl x
    · split
      · exact ⟨_, _, _, _, rfl⟩
      · exact ⟨_, _, _, _, rfl⟩

theorem Zone.replays_boundary (x : Zone) : x.Replays x.boundary := by
  unfold Zone.boundary
  split
  · exact .trans ⟨_, _, _, _, rfl⟩ (Zone.replays_enterSegment _ 1)
  · split
    · split
      · exact x.replays_enterSegment _
      · split
        · exact x.replays_enterSegment 1
        · exact ⟨_, _, _, _, rfl⟩
    · exact .refl x

theorem Zone.replays_endTest (x : Zone) : x.Replays x.endTest := by
  unfold Zone.endTest
  split
  · split
    · exact x.replays_boundary
    · exact .refl x
  · exact .refl x

theorem Zone.replays_playerTick (x : Zone) : x.Replays x.playerTick := by
  unfold Zone.playerTick
  split
  · split
    · dsimp only
      split
      · exact .trans ⟨_, _, _, _, rfl⟩ (Zone.replays_endTest _)
      · exact ⟨_, _, _, _, rfl⟩
    · exact .trans ⟨_, _, _, _, rfl⟩ (Zone.replays_endTest _)
    · exact .refl x
  · exact .refl x

/-- PROFILE LOAD moves the player of a zone in OFF not at all (R81). -/
theorem Zone.asState.takeProfile (h : x.asState) (p : Profile) : (x.takeProfile p).asState := by
  unfold Zone.takeProfile
  split
  · rename_i off
    exact Zone.asState_of_off off ((Zone.asState_off off).mp h)
  · rename_i on
    split
    · split
      · exact h.replays on (.trans ⟨_, _, _, _, rfl⟩ (Zone.replays_enterSegment _ 1))
      · exact h.replays on ⟨_, _, _, _, rfl⟩
    · exact h.replays on ⟨_, _, _, _, rfl⟩

/-! ### Changes of state (R84, R85, R89, R93) -/

/-- RUN asks for no more than that no trip is recorded and no grace runs. -/
theorem Zone.asState_ran (trip : x.trip = none) (grace : x.grace = none) (now : Time) : (x.run now).asState :=
  Zone.asState_of_run rfl ⟨trip, grace⟩

theorem Zone.asState_resume (x : Zone) (now : Time) : (x.resume now).asState := Zone.asState_ran rfl rfl now

theorem Zone.asState.start (h : x.asState) (off : x.state = .off) (now : Time) : (x.start now).asState := by
  obtain ⟨active, staged, player, setpoint, entered⟩ := Zone.replays_enterSegment { x with setpoint := x.air } 1
  obtain ⟨trip, grace⟩ := h.untripped (by simp [off])
  rw [Zone.start, entered]
  exact Zone.asState_ran trip grace now

theorem Zone.asState_toOff (x : Zone) : x.toOff.asState :=
  Zone.asState_of_off rfl ⟨rfl, rfl, rfl, rfl, rfl, rfl, rfl, rfl, rfl, rfl, rfl, rfl⟩

theorem Zone.asState_of_trip (x : Zone) (c : Cause) (time : Count32) (now : Time) : (x.tripped c time now).asState :=
  Zone.asState_of_tripped rfl ⟨rfl, rfl, rfl, rfl, rfl, rfl, rfl, rfl, rfl⟩

/-! ### Causes and control (R86, R87, R90 to R92) -/

theorem Zone.asState.gains (h : x.asState) (c : Cause) (time : Count32) (now : Time) :
    (x.gains c time now).asState := by
  unfold Zone.gains
  split
  · exact h
  · split
    · rename_i off
      exact Zone.asState_of_off off ((Zone.asState_off off).mp h)
    · exact Zone.asState_of_trip _ c time now
    · rename_i tripped
      obtain ⟨heater, duty, prev, pending, control, period, onEnd, trip, grace⟩ := (Zone.asState_tripped tripped).mp h
      exact Zone.asState_of_tripped tripped
        ⟨heater, duty, prev, pending, control, period, onEnd, by simpa using trip, grace⟩

theorem Zone.asState.graceExpired (h : x.asState) (tripped : x.state = .tripped) :
    Zone.asState { x with grace := some .expired } := by
  obtain ⟨heater, duty, prev, pending, control, period, onEnd, trip, -⟩ := (Zone.asState_tripped tripped).mp h
  exact Zone.asState_of_tripped tripped ⟨heater, duty, prev, pending, control, period, onEnd, trip, rfl⟩

theorem Zone.asState.control2s (h : x.asState) (run : x.state = .run) (now : Time) : (x.control2s now).asState :=
  Zone.asState_of_run run ((Zone.asState_run run).mp h)

theorem Zone.asState.startPeriod (h : x.asState) (run : x.state = .run) (now : Time) : (x.startPeriod now).asState :=
  Zone.asState_of_run run ((Zone.asState_run run).mp h)

end

/-! ## The operations of the part -/

theorem State.tickSlots_zones (t : State) (l : List SlotNo) : (l.foldl State.tickSlot t).zones = t.zones := by
  induction l generalizing t with
  | nil => rfl
  | cons i l ih => rw [List.foldl_cons, ih, State.tickSlot_zones]

theorem State.allWithdrawn_zones (t : State) (l : List SlotNo) : (l.foldl State.withdrawn t).zones = t.zones := by
  induction l generalizing t with
  | nil => rfl
  | cons i l ih => rw [List.foldl_cons, ih, State.withdrawn, State.enterHeld_zones, State.withdrawOrder_zones]

theorem State.barBin_zones (t : State) (b : LaneNo) : (t.barBin b).zones = t.zones := by
  rw [State.barBin, State.allWithdrawn_zones]
  rfl

/-- `State.zonesAsState` as a structure, so that no state is unfolded to see what is said of it. -/
structure State.ZonesKept (s : State) : Prop where
  asState : s.zonesAsState

namespace State.ZonesKept

variable {s t u : State} {z : ShelfNo}

/-- An operation that writes no zone. -/
theorem of_zones (h : t.ZonesKept) (e : u.zones = t.zones) : u.ZonesKept :=
  ⟨fun z => State.zone_of_zones e z ▸ h.asState z⟩

/-- An operation of SC, by its frame. -/
theorem slots (h : t.ZonesKept) (e : t.sameBeyondSlots u ↔ t.sameBeyondSlots t) : u.ZonesKept :=
  h.of_zones (State.zones_of_same (State.same_of_iff e))

theorem setZone {x : Zone} (h : t.ZonesKept) (k : x.asState) : (t.setZone z x).ZonesKept := .mk fun y => by
  by_cases e : y = z
  · subst e
    rwa [State.zone_setZone_same]
  · rw [State.zone_setZone_ne _ _ e]
    exact h.asState y

theorem modZone {f : Zone → Zone} (h : t.ZonesKept) (k : (t.zone z).asState → (f (t.zone z)).asState) :
    (t.modZone z f).ZonesKept := h.setZone (k (h.asState z))

/-- An event at a zone, by the zone it leaves. -/
theorem at_zone {x : Zone} (h : t.ZonesKept) (k : x.asState) (e : (t.setZone z x).sameBeyondSlots u) :
    u.ZonesKept := (h.setZone k).of_zones (State.zones_of_same e)

theorem finish (h : t.ZonesKept) : t.finish.ZonesKept := h.of_zones (by simp)

/-! ### Zone events (R76 to R79, R83, R92, R93) -/

theorem addCause (h : t.ZonesKept) (c : Cause) : (t.addCause z c).ZonesKept :=
  h.at_zone ((h.asState z).gains c _ _) (t.same_addCause z c)

theorem removeCause (h : t.ZonesKept) (c : Cause) : (t.removeCause z c).ZonesKept :=
  h.at_zone (x := (t.zone z).loses c) (h.asState z) (t.same_removeCause z c)

theorem goodReading (h : t.ZonesKept) (v : Nat) : (t.goodReading z v).ZonesKept := by
  have good := (h.modZone (z := z) (f := fun x => { x with air := some v, sensor := .good, reading := false })
    id).removeCause (z := z) .sensor
  simp only [State.goodReading, State.judgeOverLimit]
  split
  · exact good.addCause _
  · split
    · exact good.removeCause _
    · exact good

theorem badReading (h : t.ZonesKept) : (t.badReading z).ZonesKept := (h.modZone id).addCause _

theorem windowEnd (h : t.ZonesKept) : (t.windowEnd z).ZonesKept := by
  have ended : (t.modZone z Zone.endWindow).ZonesKept := h.modZone id
  simp only [State.windowEnd]
  split
  · exact ended.removeCause _
  · split
    · exact ended.addCause _
    · exact ended

theorem graceOver (h : t.ZonesKept) : (t.graceOver z).ZonesKept := by
  by_cases tripped : (t.zone z).state = .tripped
  · exact h.at_zone ((h.asState z).graceExpired tripped) (State.same_graceOver tripped)
  · rwa [State.graceOver, if_neg tripped]

theorem resumeZone (h : t.ZonesKept) : (t.resumeZone z).ZonesKept :=
  h.at_zone (Zone.asState_resume _ _) (t.same_resumeZone z)

theorem tickZone (h : t.ZonesKept) (z : ShelfNo) : (t.tickZone z).ZonesKept := by
  unfold State.tickZone
  split
  · rename_i run
    exact h.modZone fun k => k.replays (by simp [run]) (Zone.replays_playerTick _)
  · exact h

theorem tickSlots (h : t.ZonesKept) (l : List SlotNo) : (l.foldl State.tickSlot t).ZonesKept :=
  h.of_zones (t.tickSlots_zones l)

theorem tickZones (h : t.ZonesKept) (l : List ShelfNo) : (l.foldl State.tickZone t).ZonesKept := by
  induction l generalizing t with
  | nil => exact h
  | cons z l ih => exact ih (h.tickZone z)

theorem minute (h : t.ZonesKept) : t.minute.ZonesKept := (h.tickSlots allSlots).tickZones allShelves

/-! ### Requests and the line port (R189, R192, R200) -/

theorem served (h : t.ZonesKept) (g : t.Served u) : u.ZonesKept := by
  cases g with
  | unchanged => exact h
  | opened i p => exact h.slots (by simp [State.openSlot])
  | started i p | rerun i p =>
    refine h.of_zones ((State.startRun_zones _).trans ?_)
    exact State.zones_of_same (State.same_of_iff (t.same_assignPlan t i p))
  | suspended i =>
    refine h.slots ?_
    simp only [State.suspend]
    split <;> simp
  | continued i =>
    refine h.slots ?_
    unfold State.continueSlot
    split <;> simp
  | ended i => exact h.slots (t.same_endWithSummary t i _)
  | aborted i u takes =>
    refine h.of_zones ?_
    unfold State.abortSlot at takes
    split at takes
    · split at takes
      · cases takes
        simp
      · cases takes
    case h_7 =>
      cases takes
      exact State.zones_of_same (State.same_of_iff (by simp [State.abortEnding]))
    case h_8 =>
      cases takes
      simp
    case h_9 => cases takes
    all_goals
      cases takes
      exact State.zones_of_same (State.same_of_iff (t.same_endAtOnce t i _))
  | released i b => exact h.slots (by simp [State.releaseSlot])
  | spinSet x =>
    have set : State.ZonesKept { t with spin := x } := h.of_zones rfl
    exact set.slots (State.same_testGrants _ _)
  | planLoaded | linkSet | dosesSet | rulesSet | watchCleared | sortSet | portSet | portReset | binSet | maskSet
  | timeSet =>
    exact h.of_zones rfl
  | profileLoaded z p => exact h.modZone fun k => k.takeProfile p
  | zoneStarted z off => exact h.modZone fun k => k.start off _
  | zoneStopped z => exact h.modZone fun _ => Zone.asState_toOff _
  | zoneResumed z => exact h.resumeZone
  | zoneSet z x => exact h.modZone id
  | barred b => exact h.of_zones (t.barBin_zones b)
  | recordsReleased n x =>
    exact h.of_zones (State.zones_of_cartons (by simp [State.releaseRecords, State.sameBeyondCartons_refl]))

theorem serveHead (h : t.ZonesKept) : t.serveHead.ZonesKept := by
  unfold State.serveHead
  split
  · exact h
  · split
    · rename_i r rest _
      have taken : (t.setLine { t.line with requests := rest }).ZonesKept := h.of_zones rfl
      have answered := taken.served (r.answer_served _)
      exact answered.of_zones rfl
    · exact h

theorem arrive (h : t.ZonesKept) (r : Request) : (t.arrive r).ZonesKept := by
  have placed : (t.setLine (t.line.place r)).ZonesKept := h.of_zones rfl
  exact placed.serveHead.finish

/-- RESTART turns every zone off (R95). -/
theorem restart (t : State) : t.restart.ZonesKept := .mk fun z => by
  have off (u : State) : u.restartSlots.restartLinks.restartZones.restartRecords.restartLine.zone z =
      (u.zone z).toOff := by
    simp [State.zone, State.restartLine, State.restartRecords, State.restartZones, State.restartLinks,
      State.restartSlots]
  rw [State.restart, off]
  exact Zone.asState_toOff _

theorem frameOut (h : t.ZonesKept) : t.frameOut.ZonesKept := by
  have after (u : State) (x : AfterSent) (g : u.ZonesKept) : (u.afterSent x).ZonesKept := by
    cases x with
    | nothing => exact g
    | newRate r => exact g.of_zones rfl
    | restart => exact restart u
  unfold State.frameOut
  split
  · have sent : (t.setLine { t.line with sending := none }).ZonesKept := h.of_zones rfl
    exact (after _ _ sent).serveHead.finish
  · exact h

theorem receive (h : t.ZonesKept) (b : Byte) : (t.receive b).ZonesKept := by
  have lapsed : t.lapse.ZonesKept := h.of_zones rfl
  simp only [State.receive]
  split
  · split
    · exact lapsed.of_zones rfl
    · exact lapsed.of_zones rfl
  · simp only [State.collect]
    split
    · exact lapsed.of_zones rfl
    · split
      · exact lapsed.of_zones rfl
      · split
        · unfold State.frameTaken
          split
          · have hunting : (t.lapse.setLine t.lapse.line.hunt).ZonesKept := lapsed.of_zones rfl
            exact hunting.arrive _
          · exact lapsed.of_zones rfl
        · exact lapsed.of_zones rfl

theorem receiveAll (h : t.ZonesKept) (bytes : List Byte) : (t.receiveAll bytes).ZonesKept := by
  unfold State.receiveAll
  induction bytes generalizing t with
  | nil => exact h
  | cons b bytes ih => exact ih (h.receive b)

/-! ### Commands -/

/-- An event that is taken where a condition holds, and is discarded elsewhere (R4). -/
theorem taken {p : Prop} [Decidable p] (yes : p → s.ZonesKept) (no : t.ZonesKept) :
    (if p then s else t).ZonesKept := by
  split
  · exact yes ‹_›
  · exact no

/-- A reply on a link, where one is awaited (R52). -/
theorem reply {x : Option Transaction} {f : Transaction → State} (h : t.ZonesKept) (hf : ∀ y, (f y).ZonesKept) :
    (match x with | some y => f y | none => t).ZonesKept := by
  split
  · exact hf _
  · exact h

/-- An event at the handler port in a state with an order current (R146). -/
theorem atPort {x : Option CurrentOrder} {f : CurrentOrder → State} (h : t.ZonesKept)
    (hf : ∀ y, (f y).ZonesKept) : (match x with | some y => f y | none => t).ZonesKept := by
  split
  · exact hf _
  · exact h

theorem badReply {l : ShelfNo} {bytes : List Byte} (h : t.ZonesKept) : (t.badReply l bytes).ZonesKept := by
  unfold State.badReply
  split
  · exact h.of_zones rfl
  · exact h.of_zones rfl

end State.ZonesKept

/-- Every command keeps every zone as its state says. -/
theorem exec_zonesKept (c : Instr) (s : State) (h : s.ZonesKept) : ∃ t, exec c s = .next t ∧ t.ZonesKept := by
  cases c with
  | powerOn x => exact ⟨_, rfl, .mk (State.ofInputs_zonesAsState x)⟩
  | restartEffect x =>
    have sampled : (s.setStraps x).ZonesKept := h.of_zones rfl
    exact ⟨_, rfl, .taken (fun _ => sampled.frameOut) h⟩
  | lineRateChange => exact ⟨_, rfl, .taken (fun _ => h.frameOut) h⟩
  | frameReceived bytes => exact ⟨_, rfl, h.receiveAll bytes⟩
  | lineGap => exact ⟨_, rfl, .taken (fun _ => h.of_zones rfl) h⟩
  | lineBreak | framingDiscard => exact ⟨_, rfl, h.of_zones rfl⟩
  | frameSent => exact ⟨_, rfl, h.frameOut⟩
  | startByte | lengthDiscard => exact ⟨_, rfl, h.receive _⟩
  | secondTick =>
    refine ⟨_, rfl, .mk fun z => ?_⟩
    have ticked : (mapEach Zone.second s.zones)[z] = (s.zone z).second := by simp [State.zone]
    change Zone.asState (mapEach Zone.second s.zones)[z]
    rw [ticked]
    exact h.asState z
  | doseMinuteTick =>
    have ticked : State.ZonesKept { s with clock := s.clock.minute } := h.of_zones rfl
    exact ⟨_, rfl, ticked.minute.finish⟩
  | rawSeatChange slot level => exact ⟨_, rfl, State.ZonesKept.finish (h.of_zones (by simp))⟩
  | seatDebounceExpiry slot => exact ⟨_, rfl, .taken (fun _ => (h.of_zones State.debounceOver_zones).finish) h⟩
  | readySeen slot => exact ⟨_, rfl, .taken (fun _ => (h.slots (s.same_readyHigh s slot)).finish) h⟩
  | spinLimitExpiry slot => exact ⟨_, rfl, .taken (fun _ => (h.slots (s.same_endAtOnce s slot _)).finish) h⟩
  | overcurrentLineActive slot active =>
    have leveled : (s.setOvercurrent slot active).ZonesKept := h.of_zones rfl
    exact ⟨_, rfl, .taken (fun _ => (leveled.slots (State.same_takeOvercurrent _ _ slot)).finish) leveled⟩
  | inrushBlankingEnd slot =>
    have ended : (s.modSlot slot fun r => { r with blanking := none }).ZonesKept := h.of_zones rfl
    exact ⟨_, rfl, .taken
      (fun _ => .taken (fun _ => (ended.slots (State.same_takeOvercurrent _ _ slot)).finish) ended) h⟩
  | stepTimeLimit slot =>
    refine ⟨_, rfl, ?_⟩
    split
    · exact .taken (fun _ => (h.slots (s.same_testLimit s slot _)).finish) h
    · exact h
  | cycleOffTimeExpiry slot => exact ⟨_, rfl, .taken (fun _ => (h.slots (s.same_offTimeOver s slot)).finish) h⟩
  | frameStart | poll | directedTransaction | summaryTransaction => exact ⟨_, rfl, .taken (fun _ => h.of_zones rfl) h⟩
  | statusReply =>
    refine ⟨_, rfl, h.reply fun y => ?_⟩
    split
    · split
      · exact (h.slots (s.same_statusTaken s _ _ _)).finish
      · exact h.badReply
    · exact h.badReply
  | identReply =>
    refine ⟨_, rfl, h.reply fun y => ?_⟩
    split
    · split
      · exact (h.slots (s.same_identTaken s _ _ _)).finish
      · exact h.badReply
    · exact h.badReply
  | phaseStartReply =>
    refine ⟨_, rfl, h.reply fun y => ?_⟩
    split
    · exact (h.slots (s.same_phaseTaken s _ _ _)).finish
    · exact h.badReply
  | haltReply =>
    refine ⟨_, rfl, h.reply fun y => ?_⟩
    split
    · exact (h.slots (by simp)).finish
    · exact h.badReply
  | summaryReply =>
    refine ⟨_, rfl, h.reply fun y => ?_⟩
    split
    · split
      · exact (h.slots (s.same_blockTaken s _ _ _ _)).finish
      · exact h.badReply
    · exact h.badReply
  | miss link => exact ⟨_, rfl, h.reply fun y => .taken (fun _ => (h.slots (s.same_missed s link y)).finish) h⟩
  | airSensorRead => exact ⟨_, rfl, (State.ZonesKept.taken (fun _ => h.goodReading _) h.badReading).finish⟩
  | sensorNoResponse => exact ⟨_, rfl, h.badReading.finish⟩
  | cutoffChange => exact ⟨_, rfl, (State.ZonesKept.taken (fun _ => h.addCause _) (h.removeCause _)).finish⟩
  | tachEdge => exact ⟨_, rfl, h.modZone id⟩
  | fanWindowEnd => exact ⟨_, rfl, h.windowEnd.finish⟩
  | segmentEnd zone =>
    refine ⟨_, rfl, .taken (fun may => h.modZone fun k => ?_) h⟩
    obtain ⟨run, -⟩ : (s.zone zone).state = .run ∧ _ := by simpa using may
    exact k.replays (by simp [run]) (Zone.replays_endTest _)
  | controlInterval => exact ⟨_, rfl, .taken (fun run => h.modZone fun k => k.control2s run _) h⟩
  | pwmPeriodStart => exact ⟨_, rfl, .taken (fun run => h.modZone fun k => k.startPeriod run _) h⟩
  | pwmOnTimeEnd => exact ⟨_, rfl, .taken (fun _ => h.modZone Zone.asState_heaterOff) h⟩
  | tripGraceExpiry => exact ⟨_, rfl, .taken (fun _ => h.graceOver.finish) h⟩
  | orderDispatch => exact ⟨_, rfl, h.finish⟩
  | handlerReadyRise =>
    have high : (s.setPort { s.port with readyLine := true }).ZonesKept := h.of_zones rfl
    exact ⟨_, rfl, high.finish⟩
  | deskewExpiry | acceptTimeout | evidenceTimeout => exact ⟨_, rfl, h.atPort fun c => .finish (h.of_zones (by simp))⟩
  | handlerAccept =>
    have high : (s.setPort { s.port with acceptLine := true }).ZonesKept := h.of_zones rfl
    exact ⟨_, rfl, high.atPort fun c => .finish (high.of_zones (by simp))⟩
  | handlerDone =>
    have high : (s.setPort { s.port with doneLine := true }).ZonesKept := h.of_zones rfl
    exact ⟨_, rfl, high.atPort fun c => .taken (fun _ => .finish (high.of_zones (by simp))) high⟩
  | handlerFail =>
    have high : (s.setPort { s.port with failLine := true }).ZonesKept := h.of_zones rfl
    exact ⟨_, rfl, high.atPort fun c => .taken (fun _ => .finish (high.of_zones (by simp))) high⟩
  | completionTimeout => exact ⟨_, rfl, h.atPort fun c => .finish (h.of_zones (by simp))⟩
  | handlerLineDrop line =>
    have low : (s.setPort (s.port.setLow line)).ZonesKept := h.of_zones rfl
    exact ⟨_, rfl, low.atPort fun c => .taken (fun _ => .finish (low.of_zones (by simp [State.portIdle]))) low⟩
  | releaseTimeout => exact ⟨_, rfl, h.atPort fun c => .finish (h.of_zones (by simp))⟩
  | cartonPresentRise lane =>
    exact ⟨_, rfl, .finish (h.of_zones (State.zones_of_cartons (by simp [State.sameBeyondCartons_refl])))⟩
  | cartonPresentDrop lane =>
    refine ⟨_, rfl, .finish (h.of_zones (State.zones_of_cartons (s := s) (t := s.presentDrop lane) ?_))⟩
    simp only [State.presentDrop]
    split <;> simp [State.sameBeyondCartons_refl]
  | unknown => exact ⟨_, rfl, h.arrive _⟩
  | slotOpen | slotStart | slotSuspend | slotContinue | slotEnd | slotAbort | slotRelease | slotRerun | spinSettings
  | slotQuery | planLoad | planRead | linkConfig | profileLoad | zoneStart | zoneStop | zoneResume | zoneSettings
  | zoneQuery | doseTableLoad | watchLoad | watchClear | weightsLoad | gradeMapLoad | faultTableLoad | gradeMapRead
  | binBar | binUnbar | sortProbe | handlerSettings | handlerReset | queueQuery | binConfig | binQuery | manifestRead
  | manifestRelease | lineConfig | noticeMask | setTime | rackQuery | restart => exact ⟨_, rfl, h.arrive _⟩

end Sys2Proof.Machine

open Sys2Proof Sys2Proof.Machine

/-- Settles O57: a step carries out a command, which keeps every zone as its state says, or idles, which touches no
zone. -/
theorem stepKeepsZonesAsState : Obligations.StepKeepsZonesAsState := by
  intro s t asState step
  rcases step_cases step with ⟨c, rest, -, run⟩ | ⟨-, rfl⟩
  · obtain ⟨u, run', kept⟩ := exec_zonesKept c { s with pending := rest } ⟨asState⟩
    obtain rfl : u = t := by simpa using run'.symm.trans run
    exact kept.asState
  · rcases s.idle_eq with ⟨c, e⟩ | e
    · exact e ▸ asState
    · exact e ▸ asState
end

