-- ==== Sys2Proof/Proofs/ZoneReadings.lean ====
section
/-! PROOFS. The sensor readings and the cutoff input (R76 to R78), by the zone record each leaves. -/

namespace Sys2Proof.Machine

variable {s t u : State} {z : ShelfNo} {c : Cause} {v : Nat}

/-- What an event leaves as it was but for one zone and the slots' side, with the zones of its outcome put in. -/
theorem State.same_with_zones {x : Zone} (e : (s.setZone z x).sameBeyondSlots u) :
    State.sameBeyondSlots { s with zones := u.zones } u := by
  have zones := State.zones_of_same e
  rw [zones]
  exact e

/-! ## The readings (R76, R77) -/

/-- A zone at a good reading: SENSOR has left it, and OVER_LIMIT is not yet judged. -/
def Zone.sensed (x : Zone) (v : Nat) : Zone :=
  Zone.loses { x with air := some v, sensor := .good, reading := false } .sensor

/-- The state at a good reading, before OVER_LIMIT is judged. -/
def State.sensed (s : State) (z : ShelfNo) (v : Nat) : State :=
  (s.modZone z fun x => { x with air := some v, sensor := .good, reading := false }).removeCause z .sensor

theorem State.same_sensed (s : State) (z : ShelfNo) (v : Nat) :
    (s.setZone z ((s.zone z).sensed v)).sameBeyondSlots (s.sensed z v) := by
  have leaves := State.same_removeCause
    (s.modZone z fun x => { x with air := some v, sensor := .good, reading := false }) z .sensor
  rw [State.modZone_eq, State.setZone_setZone, State.zone_setZone_same] at leaves
  exact leaves

@[simp] theorem State.sensed_zone (s : State) (z : ShelfNo) (v : Nat) :
    (s.sensed z v).zone z = (s.zone z).sensed v := State.zone_same_setZone (s.same_sensed z v)

@[simp] theorem State.sensed_now (s : State) (z : ShelfNo) (v : Nat) : (s.sensed z v).now = s.now :=
  (State.now_of_same (s.same_sensed z v) :)

@[simp] theorem State.sensed_rackTime (s : State) (z : ShelfNo) (v : Nat) :
    (s.sensed z v).line.rackTime = s.line.rackTime := by
  rw [State.sensed, State.removeCause_rackTime]
  rfl

theorem State.goodReading_above (above : (s.zone z).settings.tripLimit < v) :
    s.goodReading z v = (s.sensed z v).addCause z .overLimit := by
  rw [State.goodReading, ← State.sensed, State.judgeOverLimit, State.sensed_zone]
  exact if_pos above

theorem State.goodReading_below (below : v + 50 ≤ (s.zone z).settings.tripLimit) :
    s.goodReading z v = (s.sensed z v).removeCause z .overLimit := by
  rw [State.goodReading, ← State.sensed, State.judgeOverLimit, State.sensed_zone]
  exact (if_neg (show ¬ (s.zone z).settings.tripLimit < v by omega)).trans (if_pos below)

theorem State.goodReading_between (low : v ≤ (s.zone z).settings.tripLimit)
    (high : (s.zone z).settings.tripLimit < v + 50) : s.goodReading z v = s.sensed z v := by
  rw [State.goodReading, ← State.sensed, State.judgeOverLimit, State.sensed_zone]
  exact (if_neg (show ¬ (s.zone z).settings.tripLimit < v by omega)).trans
    (if_neg (show ¬ v + 50 ≤ (s.zone z).settings.tripLimit by omega))

/-- A zone after a good reading, by its band. -/
def Zone.read (x : Zone) (v : Nat) (time : Count32) (now : Time) : Zone :=
  if x.settings.tripLimit < v then (x.sensed v).gains .overLimit time now
  else if v + 50 ≤ x.settings.tripLimit then (x.sensed v).loses .overLimit
  else x.sensed v

theorem State.same_goodReading (s : State) (z : ShelfNo) (v : Nat) :
    (s.setZone z ((s.zone z).read v s.line.rackTime s.now)).sameBeyondSlots (s.goodReading z v) := by
  have sensed := s.same_sensed z v
  unfold Zone.read
  split
  · rename_i above
    have comes := (s.sensed z v).same_addCause z .overLimit
    rw [State.sensed_zone, State.sensed_rackTime, State.sensed_now] at comes
    rw [State.goodReading_above above]
    exact State.same_setZone_trans sensed comes
  · split
    · rename_i below
      have leaves := (s.sensed z v).same_removeCause z .overLimit
      rw [State.sensed_zone] at leaves
      rw [State.goodReading_below below]
      exact State.same_setZone_trans sensed leaves
    · rename_i low high
      rw [State.goodReading_between (Nat.le_of_not_lt low) (Nat.lt_of_not_le high)]
      exact sensed

/-- A zone at a reading that failed: the sensor FAULT, and SENSOR still to come. -/
def Zone.missed (x : Zone) : Zone := { x with sensor := .fault, reading := false }

theorem State.same_badReading (s : State) (z : ShelfNo) :
    (s.setZone z ((s.zone z).missed.gains .sensor s.line.rackTime s.now)).sameBeyondSlots (s.badReading z) := by
  have comes := (s.setZone z (s.zone z).missed).same_addCause z .sensor
  rw [State.zone_setZone_same, State.setZone_setZone] at comes
  exact comes

/-! ## Their commands -/

theorem exec_airSensorRead_good (s : State) (z : ShelfNo) (good : v ≤ 1500) :
    exec (.airSensorRead z (v : Int)) s = .next (s.goodReading z v).finish := by
  have inRange : 0 ≤ (v : Int) ∧ (v : Int) ≤ (Config.tempTop : Int) := ⟨Int.natCast_nonneg v, by exact_mod_cast good⟩
  exact congrArg (fun t : State => Host.Outcome.next t.finish) (if_pos inRange)

theorem exec_airSensorRead_bad (s : State) (z : ShelfNo) {v : Int} (bad : v < 0 ∨ 1500 < v) :
    exec (.airSensorRead z v) s = .next (s.badReading z).finish := by
  have outside : ¬ (0 ≤ v ∧ v ≤ (Config.tempTop : Int)) := by
    simp only [Config.tempTop]
    omega
  exact congrArg (fun t : State => Host.Outcome.next t.finish) (if_neg outside)

theorem exec_sensorNoResponse (s : State) (z : ShelfNo) :
    exec (.sensorNoResponse z) s = .next (s.badReading z).finish := rfl

theorem exec_cutoffActive (s : State) (z : ShelfNo) :
    exec (.cutoffChange z true) s = .next (s.addCause z .cutoff).finish := rfl

theorem exec_cutoffInactive (s : State) (z : ShelfNo) :
    exec (.cutoffChange z false) s = .next (s.removeCause z .cutoff).finish := rfl

/-! ## What they make of the zone -/

theorem Zone.read_causes (x : Zone) (v : Nat) (time : Count32) (now : Time) :
    (x.read v time now).causes =
      { x.causes with
        sensor := false
        overLimit :=
          if x.settings.tripLimit < v then true
          else if v + 50 ≤ x.settings.tripLimit then false else x.causes.overLimit } := by
  unfold Zone.read
  split
  · rw [Zone.gains_causes]
    rfl
  · split
    · rfl
    · rfl

theorem Zone.read_sensor (x : Zone) (v : Nat) (time : Count32) (now : Time) :
    (x.read v time now).air = some v ∧ (x.read v time now).sensor = .good ∧ (x.read v time now).reading = false := by
  unfold Zone.read
  split
  · rw [Zone.gains_air, Zone.gains_sensor, Zone.gains_reading]
    exact ⟨rfl, rfl, rfl⟩
  · split
    · exact ⟨rfl, rfl, rfl⟩
    · exact ⟨rfl, rfl, rfl⟩

/-- The state and the trip record of a zone that takes the cutoff input's new level. -/
theorem Zone.gains_state {x : Zone} (quiet : x.state ≠ .run) (c : Cause) (time : Count32) (now : Time) :
    (x.gains c time now).state = x.state := by
  unfold Zone.gains
  split
  · rfl
  · split
    · rfl
    · exact absurd ‹_› quiet
    · rfl

theorem Zone.gains_trip {x : Zone} (tripped : x.state = .tripped) (absent : x.causes.has c = false) (time : Count32)
    (now : Time) : (x.gains c time now).trip = x.trip.map (·.see c) := by
  simp [Zone.gains, absent, tripped]

end Sys2Proof.Machine

open Sys2Proof Sys2Proof.Machine

/-- Settles O27: a good reading takes SENSOR away and then judges OVER_LIMIT, any other makes SENSOR present; each by
the one zone it writes. -/
theorem sensorReadingsTaken : Obligations.SensorReadingsTaken := by
  intro s z
  refine ⟨fun v good => ?_, fun c bad => ?_⟩
  · have read := s.same_goodReading z v
    obtain ⟨air, sensor, reading⟩ := (s.zone z).read_sensor v s.line.rackTime s.now
    refine ⟨_, exec_airSensorRead_good s z good, State.same_with_zones read, ?_⟩
    rw [State.zone_same_setZone read]
    exact ⟨air, sensor, reading, Zone.read_causes .., fun y ne => State.zone_ne_setZone read ne⟩
  · have read := s.same_badReading z
    have run : exec c s = .next (s.badReading z).finish := by
      rcases bad with ⟨v, bad, rfl⟩ | rfl
      · exact exec_airSensorRead_bad s z bad
      · exact exec_sensorNoResponse s z
    refine ⟨_, run, State.same_with_zones read, ?_⟩
    rw [State.zone_same_setZone read]
    exact ⟨Zone.gains_air .., Zone.gains_sensor .., Zone.gains_reading .., Zone.gains_causes ..,
      fun y ne => State.zone_ne_setZone read ne⟩

/-- Settles O28: the input's level reaches the zone as CUTOFF coming or leaving. -/
theorem cutoffFollowsInput : Obligations.CutoffFollowsInput := by
  intro s z active
  have comes := s.same_addCause z .cutoff
  have leaves := s.same_removeCause z .cutoff
  have zoneComes := State.zone_same_setZone comes
  have zoneLeaves := State.zone_same_setZone leaves
  refine ⟨?_, ?_, ?_, ?_⟩
  · cases active with
    | true =>
      refine ⟨_, exec_cutoffActive s z, State.same_with_zones comes, ?_, fun y ne => State.zone_ne_setZone comes ne⟩
      rw [zoneComes, Zone.gains_causes]
      rfl
    | false =>
      refine ⟨_, exec_cutoffInactive s z, State.same_with_zones leaves, ?_, fun y ne => State.zone_ne_setZone leaves ne⟩
      rw [zoneLeaves]
      rfl
  · rintro run rfl absent
    refine ⟨_, exec_cutoffActive s z, ?_⟩
    rw [zoneComes, Zone.gains_of_run (c := .cutoff) absent run]
    exact ⟨rfl, rfl⟩
  · intro quiet
    cases active with
    | true =>
      obtain quiet : (s.zone z).state ≠ .run := quiet.resolve_right (by simp)
      refine ⟨_, exec_cutoffActive s z, ?_⟩
      rw [zoneComes, Zone.gains_state quiet]
    | false =>
      refine ⟨_, exec_cutoffInactive s z, ?_⟩
      rw [zoneLeaves]
      rfl
  · rintro tripped rfl absent
    refine ⟨_, exec_cutoffActive s z, ?_⟩
    rw [zoneComes, Zone.gains_trip (c := .cutoff) tripped absent]
    rfl
end

