-- ==== Sys2Proof/Proofs/ZoneControl.lean ====
section
/-! PROOFS. The player's segments, the fan, the control law and the PWM of one zone (R79, R81 to R83, R86, R87). -/

namespace Sys2Proof.Machine

variable {s : State} {z : ShelfNo} {x : Zone} {p q : Profile} {w : Player} {g : Segment} {n : Nat}

/-! ## Segments (R81 to R83) -/

theorem Zone.enterSegment_holds (active : x.active = some p) (segment : p.segments[n - 1]? = some g)
    (there : g.rate = 0 ∨ x.setpoint = some g.target) :
    x.enterSegment n =
      { x with setpoint := some g.target, player := some { segment := n, sub := .hold, hold := 0 } } := by
  simp only [Zone.enterSegment, active, segment]
  exact if_pos there

theorem Zone.enterSegment_ramps (active : x.active = some p) (segment : p.segments[n - 1]? = some g)
    (ramps : g.rate ≠ 0) (away : x.setpoint ≠ some g.target) :
    x.enterSegment n = { x with player := some { segment := n, sub := .ramp, hold := 0 } } := by
  simp only [Zone.enterSegment, active, segment]
  exact if_neg (not_or.mpr ⟨ramps, away⟩)

/-- A staged profile takes over at the boundary (R81). -/
theorem Zone.boundary_staged (staged : x.staged = some q) :
    x.boundary = { x with active := some q, staged := none }.enterSegment 1 := by
  rw [Zone.boundary, staged]

section
variable (active : x.active = some p) (player : x.player = some w) (staged : x.staged = none)
include active player staged

theorem Zone.boundary_next (more : w.segment < p.segments.length) : x.boundary = x.enterSegment (w.segment + 1) := by
  simp only [Zone.boundary, staged, active, player]
  exact if_pos more

theorem Zone.boundary_loop (last : p.segments.length ≤ w.segment) (loop : p.loop = true) :
    x.boundary = x.enterSegment 1 := by
  simp only [Zone.boundary, staged, active, player]
  exact (if_neg (Nat.not_lt_of_le last)).trans (if_pos loop)

theorem Zone.boundary_finished (last : p.segments.length ≤ w.segment) (once : p.loop = false) :
    x.boundary = { x with player := some { w with sub := .finished } } := by
  simp only [Zone.boundary, staged, active, player]
  exact (if_neg (Nat.not_lt_of_le last)).trans (if_neg (by simp [once]))

end

/-- A hold with its time counted comes to the boundary (R83). -/
theorem Zone.endTest_held (active : x.active = some p) (player : x.player = some w)
    (segment : p.segments[w.segment - 1]? = some g) (hold : w.sub = .hold) (ended : g.hold ≤ w.hold) :
    x.endTest = x.boundary := by
  simp only [Zone.endTest, Zone.segment, active, player, segment]
  exact if_pos ⟨hold, ended⟩

theorem exec_segmentEnd (run : (s.zone z).state = .run) (player : (s.zone z).player = some w) (hold : w.sub = .hold)
    (counted : 1 ≤ w.hold) : exec (.segmentEnd z) s = .next (s.setZone z (s.zone z).endTest) := by
  have held : ((s.zone z).state = .run && (s.zone z).heldOnce) = true := by
    simp [run, Zone.heldOnce, player, hold, counted]
  exact congrArg Host.Outcome.next (if_pos held)

/-! ## The fan (R79) -/

/-- A zone after a fan window: FAN_LOW comes with the third low window in a row, and leaves at one that is not low. -/
def Zone.windowed (x : Zone) (time : Count32) (now : Time) : Zone :=
  if x.endWindow.lowWindows = 0 then x.endWindow.loses .fanLow
  else if x.endWindow.lowWindows = 3 then x.endWindow.gains .fanLow time now
  else x.endWindow

theorem State.windowEnd_notLow (notLow : (s.zone z).endWindow.lowWindows = 0) :
    s.windowEnd z = (s.setZone z (s.zone z).endWindow).removeCause z .fanLow := by
  rw [State.windowEnd, State.modZone_eq, State.zone_setZone_same]
  exact if_pos notLow

theorem State.windowEnd_third (third : (s.zone z).endWindow.lowWindows = 3) :
    s.windowEnd z = (s.setZone z (s.zone z).endWindow).addCause z .fanLow := by
  rw [State.windowEnd, State.modZone_eq, State.zone_setZone_same]
  exact (if_neg (by simp [third])).trans (if_pos third)

theorem State.windowEnd_low (low : (s.zone z).endWindow.lowWindows ≠ 0)
    (early : (s.zone z).endWindow.lowWindows ≠ 3) : s.windowEnd z = s.setZone z (s.zone z).endWindow := by
  rw [State.windowEnd, State.modZone_eq, State.zone_setZone_same]
  exact (if_neg low).trans (if_neg early)

theorem State.same_windowEnd (s : State) (z : ShelfNo) :
    (s.setZone z ((s.zone z).windowed s.line.rackTime s.now)).sameBeyondSlots (s.windowEnd z) := by
  unfold Zone.windowed
  split
  · rename_i notLow
    have leaves := (s.setZone z (s.zone z).endWindow).same_removeCause z .fanLow
    rw [State.zone_setZone_same, State.setZone_setZone] at leaves
    rwa [State.windowEnd_notLow notLow]
  · split
    · rename_i third
      have comes := (s.setZone z (s.zone z).endWindow).same_addCause z .fanLow
      rw [State.zone_setZone_same, State.setZone_setZone] at comes
      rwa [State.windowEnd_third third]
    · rename_i low early
      rw [State.windowEnd_low low early]
      exact State.sameBeyondSlots_refl _

theorem exec_fanWindowEnd (s : State) (z : ShelfNo) : exec (.fanWindowEnd z) s = .next (s.windowEnd z).finish := rfl

theorem Zone.endWindow_low (low : x.fanCount * 30 < x.settings.fanMin) :
    x.endWindow.lowWindows = min 3 (x.lowWindows + 1) := if_pos low

theorem Zone.endWindow_notLow (notLow : x.settings.fanMin ≤ x.fanCount * 30) : x.endWindow.lowWindows = 0 :=
  if_neg (Nat.not_lt_of_le notLow)

/-- What a fan window leaves of the fan's counts, whatever becomes of FAN_LOW. -/
theorem Zone.windowed_counts (x : Zone) (time : Count32) (now : Time) :
    (x.windowed time now).fanSpeed = some (x.fanCount * 30) ∧ (x.windowed time now).fanCount = 0 ∧
      (x.windowed time now).windowOver = false ∧ (x.windowed time now).lowWindows = x.endWindow.lowWindows := by
  unfold Zone.windowed
  split
  · exact ⟨rfl, rfl, rfl, rfl⟩
  · split
    · rw [Zone.gains_fanSpeed, Zone.gains_fanCount, Zone.gains_windowOver, Zone.gains_lowWindows]
      exact ⟨rfl, rfl, rfl, rfl⟩
    · exact ⟨rfl, rfl, rfl, rfl⟩

theorem Zone.windowed_notLow_causes (notLow : x.settings.fanMin ≤ x.fanCount * 30) (time : Count32) (now : Time) :
    (x.windowed time now).causes = { x.causes with fanLow := false } := by
  rw [Zone.windowed, if_pos (Zone.endWindow_notLow notLow)]
  rfl

theorem Zone.windowed_low_causes (low : x.fanCount * 30 < x.settings.fanMin) (time : Count32) (now : Time) :
    (x.windowed time now).causes =
      { x.causes with fanLow := if 3 ≤ x.lowWindows + 1 then true else x.causes.fanLow } := by
  have count := Zone.endWindow_low low
  rw [Zone.windowed, if_neg (by omega)]
  split
  · rw [if_pos (by omega), Zone.gains_causes]
    rfl
  · rw [if_neg (by omega)]
    rfl

/-! ## Control and PWM (R86, R87) -/

theorem exec_controlInterval (run : (s.zone z).state = .run) :
    exec (.controlInterval z) s = .next (s.setZone z ((s.zone z).control2s s.now)) :=
  congrArg Host.Outcome.next (if_pos run)

theorem exec_pwmPeriodStart (run : (s.zone z).state = .run) :
    exec (.pwmPeriodStart z) s = .next (s.setZone z ((s.zone z).startPeriod s.now)) :=
  congrArg Host.Outcome.next (if_pos run)

theorem exec_pwmOnTimeEnd (runs : (s.zone z).onEnd.isSome = true) :
    exec (.pwmOnTimeEnd z) s = .next (s.setZone z { s.zone z with heater := .off, onEnd := none }) :=
  congrArg Host.Outcome.next (if_pos runs)

end Sys2Proof.Machine

open Sys2Proof Sys2Proof.Machine

/-- Settles O32: SEGMENT_END is the boundary for a hold counted up to its time, and the boundary goes by the staged
profile, the segments left and the loop flag. -/
theorem segmentsFollowOn : Obligations.SegmentsFollowOn := by
  intro s z p w g
  refine ⟨fun run active player hold counted segment ended => ?_, fun active player => ?_, fun n active segment => ?_⟩
  · rw [exec_segmentEnd run player hold counted, Zone.endTest_held active player segment hold ended]
    refine ⟨fun q staged => ?_, fun staged more => ?_, fun staged last loop => ?_, fun staged last once => ?_⟩
    · rw [Zone.boundary_staged staged]
    · rw [Zone.boundary_next active player staged more]
    · rw [Zone.boundary_loop active player staged last loop]
    · rw [Zone.boundary_finished active player staged last once]
  · exact ⟨fun q staged => Zone.boundary_staged staged,
      fun staged more => Zone.boundary_next active player staged more,
      fun staged last loop => Zone.boundary_loop active player staged last loop,
      fun staged last once => Zone.boundary_finished active player staged last once⟩
  · exact ⟨fun there => Zone.enterSegment_holds active segment there,
      fun ramps away => Zone.enterSegment_ramps active segment ramps away⟩

/-- Settles O31: the fan window by the zone it leaves, and the control law and the PWM as the rules write them. -/
theorem fanAndHeaterDriven : Obligations.FanAndHeaterDriven := by
  intro s z
  have window := s.same_windowEnd z
  have zone := State.zone_same_setZone window
  obtain ⟨speed, count, ended, windows⟩ := (s.zone z).windowed_counts s.line.rackTime s.now
  refine ⟨rfl, ⟨_, exec_fanWindowEnd s z, ?_⟩, fun run => exec_controlInterval run, fun run => exec_pwmPeriodStart run,
    fun runs => exec_pwmOnTimeEnd runs⟩
  rw [zone]
  refine ⟨window, speed, count, ended, fun low => ⟨?_, ?_⟩, fun notLow => ⟨?_, ?_⟩⟩
  · rw [windows, Zone.endWindow_low low]
  · exact Zone.windowed_low_causes low _ _
  · rw [windows, Zone.endWindow_notLow notLow]
  · exact Zone.windowed_notLow_causes notLow _ _
end

