-- ==== Sys2Proof/Proofs/ZoneRequests.lean ====
section
/-! PROOFS. The requests to a zone: ZONE START, ZONE STOP, ZONE settings and PROFILE LOAD (R80, R81, R84, R85, R88). -/

namespace Sys2Proof.Machine

variable {s t : State} {z : ShelfNo} {x : Zone} {tag zone : Byte} {body : List Byte} {a : Answer}

theorem State.withZone_of (h : ofNum 4 zone.toNat = some z) (f : ShelfNo → State × Answer) :
    s.withZone zone f = f z := by
  simp [State.withZone, h]

theorem State.withZone_outside (h : ofNum 4 zone.toNat = none) (f : ShelfNo → State × Answer) :
    s.withZone zone f = s.refuse .range := by
  simp [State.withZone, h]

theorem exec_zoneStart (ready : s.ready) (e : serveZoneStart body s = (t, a)) :
    exec (.zoneStart tag body) s = .next (t.answered tag .zoneStart a) :=
  congrArg Host.Outcome.next (State.request_serves (c := .zoneStart) ready e)

theorem exec_zoneStop (ready : s.ready) (e : serveZoneStop body s = (t, a)) :
    exec (.zoneStop tag body) s = .next (t.answered tag .zoneStop a) :=
  congrArg Host.Outcome.next (State.request_serves (c := .zoneStop) ready e)

theorem exec_zoneResume (ready : s.ready) (e : serveZoneResume body s = (t, a)) :
    exec (.zoneResume tag body) s = .next (t.answered tag .zoneResume a) :=
  congrArg Host.Outcome.next (State.request_serves (c := .zoneResume) ready e)

theorem exec_zoneSettings (ready : s.ready) (e : serveZoneSettings body s = (t, a)) :
    exec (.zoneSettings tag body) s = .next (t.answered tag .zoneSettings a) :=
  congrArg Host.Outcome.next (State.request_serves (c := .zoneSettings) ready e)

theorem exec_profileLoad (ready : s.ready) (e : serveProfileLoad body s = (t, a)) :
    exec (.profileLoad tag body) s = .next (t.answered tag .profileLoad a) :=
  congrArg Host.Outcome.next (State.request_serves (c := .profileLoad) ready e)

/-! ## Starting (R84) -/

/-- The PWM period of a zone that enters RUN has no on-time: its duty is 0 (R84, R87). -/
theorem Zone.run_eq (x : Zone) (now : Time) :
    x.run now =
      { x with
        state := .run, acc := 0, prevDuty := 0, duty := 0, pendingDuty := none, heater := .off, onEnd := none
        control := some (now + 2000#32)
        periodEnd := some (now + BitVec.ofNat 32 x.settings.pwmMs) } := by
  simp [Zone.run, Zone.startPeriod, Time.after, Config.controlMs]

/-- A start from the air enters segment 1 (R84, R82). -/
theorem Zone.enterFirst_of_air {p : Profile} {g : Segment} {gs : List Segment} (active : x.active = some p)
    (segments : p.segments = g :: gs) :
    { x with setpoint := x.air }.enterSegment 1 =
      { x with
        setpoint := if g.rate = 0 then some g.target else x.air
        player := some
          { segment := 1, sub := if g.rate = 0 ∨ x.air = some g.target then .hold else .ramp, hold := 0 } } := by
  have first : p.segments[1 - 1]? = some g := by simp [segments]
  by_cases there : g.rate = 0 ∨ x.air = some g.target
  · rw [Zone.enterSegment_holds (x := { x with setpoint := x.air }) active first there, if_pos there]
    by_cases still : g.rate = 0
    · rw [if_pos still]
    · rw [if_neg still, there.resolve_left still]
  · obtain ⟨ramps, away⟩ := not_or.mp there
    rw [Zone.enterSegment_ramps (x := { x with setpoint := x.air }) active first ramps away, if_neg there, if_neg ramps]

theorem serveZoneStart_of (named : ofNum 4 zone.toNat = some z) :
    serveZoneStart [zone] s =
      if (s.zone z).state ≠ .off then s.refuse .state
      else if (s.zone z).active.isNone then s.refuse .range
      else if (s.zone z).causes.isEmpty then (s.setZone z ((s.zone z).start s.now), Answer.accept [])
      else s.refuseCause z := State.withZone_of named _

theorem serveZoneStop_of (named : ofNum 4 zone.toNat = some z) :
    serveZoneStop [zone] s =
      if (s.zone z).state = .run then (s.setZone z (s.zone z).toOff, Answer.accept []) else s.refuse .state :=
  State.withZone_of named _

/-! ## Settings (R88) -/

theorem takeNat_clamped_iff (lo hi n : Nat) : (takeNat lo hi n).clamped = false ↔ lo ≤ n ∧ n ≤ hi := by
  simp [takeNat]

/-- The reply of a request with tuning values, whichever way they are seen to stand as sent (R190). -/
theorem Answer.taken_eq {clamped : Bool} {whole : Prop} [Decidable whole] (h : clamped = false ↔ whole)
    (taken : List Byte) : Answer.taken clamped taken [] =
      if whole then Answer.accept [] else { body := 2 :: taken, after := .nothing } := by
  cases clamped with
  | false => rw [if_pos (h.mp rfl)]; rfl
  | true =>
    rw [if_neg fun k => by simpa using h.mpr k, ← List.append_nil (2 :: taken)]
    rfl

/-- ZONE settings as taken (R88). -/
def ZoneSettings.taken (kp ki : Byte) (w f t : Nat) (g : Byte) : ZoneSettings :=
  { kp := kp.toNat, ki := ki.toNat, pwmMs := max 250 (min 4000 w), fanMin := max 0 (min 9000 f)
    tripLimit := max 300 (min 1200 t), graceMin := max 0 (min 60 g.toNat) }

theorem u8_toNat (b : Byte) : u8 b.toNat = [b] := by simp [u8]

/-- The reply to ZONE settings (R190). -/
theorem ZoneSettings.reply (zone kp ki : Byte) (w f t : Nat) (g : Byte) :
    Answer.taken
        ((takeNat 250 4000 w).clamped || (takeNat 0 9000 f).clamped || (takeNat 300 1200 t).clamped ||
          (takeNat 0 60 g.toNat).clamped)
        (zone :: (ZoneSettings.taken kp ki w f t g).bytes) [] =
      if 250 ≤ w ∧ w ≤ 4000 ∧ f ≤ 9000 ∧ 300 ≤ t ∧ t ≤ 1200 ∧ g.toNat ≤ 60 then Answer.accept []
      else
        { body := [2, zone, kp, ki] ++ u16 (max 250 (min 4000 w)) ++ u16 (max 0 (min 9000 f)) ++
            u16 (max 300 (min 1200 t)) ++ u8 (max 0 (min 60 g.toNat))
          after := .nothing } := by
  rw [Answer.taken_eq (whole := 250 ≤ w ∧ w ≤ 4000 ∧ f ≤ 9000 ∧ 300 ≤ t ∧ t ≤ 1200 ∧ g.toNat ≤ 60)]
  · simp [ZoneSettings.bytes, ZoneSettings.taken, u8_toNat]
  · simp only [Bool.or_eq_false_iff, takeNat_clamped_iff, Nat.zero_le, true_and, and_assoc]

theorem serveZoneSettings_of {kp ki w1 w0 f1 f0 t1 t0 g : Byte} (named : ofNum 4 zone.toNat = some z) :
    serveZoneSettings [zone, kp, ki, w1, w0, f1, f0, t1, t0, g] s =
      (s.setZone z
        { s.zone z with settings := ZoneSettings.taken kp ki (be16 w1 w0) (be16 f1 f0) (be16 t1 t0) g },
        Answer.taken
          ((takeNat 250 4000 (be16 w1 w0)).clamped || (takeNat 0 9000 (be16 f1 f0)).clamped ||
            (takeNat 300 1200 (be16 t1 t0)).clamped || (takeNat 0 60 g.toNat).clamped)
          (zone :: (ZoneSettings.taken kp ki (be16 w1 w0) (be16 f1 f0) (be16 t1 t0) g).bytes) []) :=
  State.withZone_of named _

/-! ## Profiles (R80, R81) -/

/-- A segment as PROFILE LOAD takes it (R80). -/
def Segment.clamp (g : Segment) : Segment := { target := min 1500 g.target, rate := min 500 g.rate, hold := g.hold }

/-- The segment does not stand as it was sent. -/
def Segment.cut (g : Segment) : Bool := 1500 < g.target || 500 < g.rate

/-- The segment's fields fit two bytes each. -/
def Segment.sendable (g : Segment) : Prop := g.target ≤ 65535 ∧ g.rate ≤ 65535 ∧ g.hold ≤ 65535

theorem be16_bytes {n : Nat} (fits : n ≤ 65535) : be16 (BitVec.ofNat 8 (n / 256)) (BitVec.ofNat 8 n) = n := by
  simp only [be16, BitVec.toNat_ofNat]
  omega

theorem readSegment_bytes {g : Segment} (fits : g.sendable) :
    readSegment g.bytes = some { value := g.clamp, clamped := g.cut } := by
  obtain ⟨target, rate, hold⟩ := fits
  change some (_ : Taken Segment) = _
  rw [be16_bytes target, be16_bytes rate, be16_bytes hold]
  simp only [takeNat, clampNat, Config.tempTop, Segment.clamp, Segment.cut, Nat.zero_max, Nat.not_lt_zero, decide_false,
    Bool.false_or]
  rfl

theorem readSegments_bytes {sent : List Segment} (fits : ∀ g ∈ sent, g.sendable) :
    readSegments (sent.map Segment.bytes) =
      some { value := sent.map Segment.clamp, clamped := sent.any Segment.cut } := by
  induction sent with
  | nil => rfl
  | cons g sent ih =>
    simp only [List.map_cons, readSegments, readSegment_bytes (fits g (by simp)), ih fun k m => fits k (by simp [m]),
      List.any_cons]

theorem pieces_segments (sent : List Segment) :
    pieces 6 sent.length (sent.map Segment.bytes).flatten = sent.map Segment.bytes := by
  induction sent with
  | nil => rfl
  | cons g sent ih =>
    have first : (g.bytes ++ (sent.map Segment.bytes).flatten).take 6 = g.bytes := List.take_left (l₁ := g.bytes)
    have others : (g.bytes ++ (sent.map Segment.bytes).flatten).drop 6 = (sent.map Segment.bytes).flatten :=
      List.drop_left (l₁ := g.bytes)
    rw [List.map_cons, List.flatten_cons, List.length_cons, pieces, first, others, ih]

theorem length_segments (sent : List Segment) : (sent.map Segment.bytes).flatten.length = 6 * sent.length := by
  induction sent with
  | nil => rfl
  | cons g sent ih =>
    have six : g.bytes.length = 6 := rfl
    rw [List.map_cons, List.flatten_cons, List.length_append, ih, List.length_cons, six]
    omega

theorem Segment.clamp_eq_iff (g : Segment) : g.clamp = g ↔ g.cut = false := by
  cases g
  simp [Segment.clamp, Segment.cut]

theorem map_clamp_eq_iff (sent : List Segment) : sent.map Segment.clamp = sent ↔ sent.any Segment.cut = false := by
  induction sent with
  | nil => simp
  | cons g sent ih =>
    rw [List.map_cons, List.cons_eq_cons, Segment.clamp_eq_iff, ih, List.any_cons, Bool.or_eq_false_iff]

theorem flag_flagOf (b : Byte) : flag (flagOf b) = [if b = 0 then 0 else 1] := by
  by_cases zero : b = 0
  · subst zero
    rfl
  · have set : flagOf b = true := bne_iff_ne.mpr zero
    rw [set, if_neg zero]
    rfl

/-- The segments of a PROFILE LOAD are as many as its count says (R203). -/
theorem serveProfileLoad_counted {sent : List Segment} {loop : Byte} (short : sent.length < 256) :
    serveProfileLoad (zone :: BitVec.ofNat 8 sent.length :: loop :: (sent.map Segment.bytes).flatten) s =
      s.withZone zone fun z =>
        if sent.length < 1 ∨ 16 < sent.length then s.refuse .range
        else
          match readSegments (sent.map Segment.bytes) with
          | none => s.refuse .length
          | some x =>
            (s.modZone z fun y => y.takeProfile { segments := x.value, loop := flagOf loop },
              Answer.taken x.clamped
                (zone :: BitVec.ofNat 8 sent.length :: flag (flagOf loop) ++
                  (x.value.map Segment.bytes).flatten) []) := by
  have count : (BitVec.ofNat 8 sent.length).toNat = sent.length := by
    rw [BitVec.toNat_ofNat]
    omega
  simp only [serveProfileLoad, count, length_segments, pieces_segments]
  exact if_neg (by simp)

theorem serveProfileLoad_of {sent : List Segment} {loop : Byte} (named : ofNum 4 zone.toNat = some z)
    (fits : ∀ g ∈ sent, g.sendable) (some : 1 ≤ sent.length) (few : sent.length ≤ 16) :
    serveProfileLoad (zone :: BitVec.ofNat 8 sent.length :: loop :: (sent.map Segment.bytes).flatten) s =
      (s.setZone z ((s.zone z).takeProfile { segments := sent.map Segment.clamp, loop := flagOf loop }),
        if sent.map Segment.clamp = sent then Answer.accept []
        else
          { body := [2, zone, BitVec.ofNat 8 sent.length, if loop = 0 then 0 else 1] ++
              ((sent.map Segment.clamp).map Segment.bytes).flatten
            after := .nothing }) := by
  rw [serveProfileLoad_counted (by omega), State.withZone_of named, if_neg (by omega), readSegments_bytes fits]
  dsimp only
  rw [Answer.taken_eq (map_clamp_eq_iff sent).symm, flag_flagOf]
  rfl

/-- Where an accepted profile goes (R81). -/
theorem Zone.takeProfile_eq (x : Zone) (p : Profile) :
    x.takeProfile p =
      if x.state = .off then { x with active := some p }
      else if x.player.map (·.sub) = some .finished then { x with active := some p }.enterSegment 1
      else { x with staged := some p } := by
  unfold Zone.takeProfile
  split
  · rw [if_pos ‹_›]
  · rw [if_neg ‹_›]
    split
    · simp [*]
    · simp [*]

end Sys2Proof.Machine

open Sys2Proof Sys2Proof.Machine

/-- Settles O33: each check in its order, and the zone's record where all of them pass. -/
theorem zoneStartsAndStops : Obligations.ZoneStartsAndStops := by
  intro s tag zone ready
  refine ⟨fun outside => ⟨exec_zoneStart ready (State.withZone_outside outside _),
    exec_zoneStop ready (State.withZone_outside outside _)⟩, fun z named => ?_⟩
  have start := serveZoneStart_of (s := s) named
  have stop := serveZoneStop_of (s := s) named
  refine ⟨fun on => ?_, fun off empty => ?_, fun off loaded causes => ?_, fun p g gs off active segments causes => ?_,
    fun halted => ?_, fun run => ?_⟩
  · exact exec_zoneStart ready (start.trans (if_pos on))
  · exact exec_zoneStart ready (start.trans ((if_neg (by simpa using off)).trans (if_pos (by simp [empty]))))
  · exact exec_zoneStart ready (start.trans ((if_neg (by simpa using off)).trans
      ((if_neg (by simpa using loaded)).trans (if_neg (by simp [causes])))))
  · refine (exec_zoneStart ready (start.trans ((if_neg (by simpa using off)).trans
      ((if_neg (by simp [active])).trans (if_pos causes))))).trans ?_
    rw [Zone.start, Zone.enterFirst_of_air active segments, Zone.run_eq]
  · exact exec_zoneStop ready (stop.trans (if_neg halted))
  · exact exec_zoneStop ready (stop.trans (if_pos run))

/-- Settles O34: the bytes are read back as the values sent, each clamped to its range, and the reply tells whether any
was. -/
theorem zoneTablesTaken : Obligations.ZoneTablesTaken := by
  intro s tag zone ready
  refine ⟨fun kp ki w1 w0 f1 f0 t1 t0 g => ⟨fun outside => ?_, fun z named => ?_⟩,
    fun sent loop fits short => ⟨fun refused => ?_, fun z named some few => ?_⟩, fun count loop rest wrong => ?_⟩
  · exact exec_zoneSettings ready (State.withZone_outside outside _)
  · refine (exec_zoneSettings ready (serveZoneSettings_of named)).trans ?_
    rw [ZoneSettings.reply]
    rfl
  · refine exec_profileLoad ready ((serveProfileLoad_counted short).trans ?_)
    cases named : ofNum 4 zone.toNat with
    | none => exact State.withZone_outside named _
    | some z =>
      have count := refused.resolve_left (by simp [named])
      rw [State.withZone_of named, if_pos (by omega)]
      rfl
  · refine (exec_profileLoad ready (serveProfileLoad_of named (loop := loop) fits some few)).trans ?_
    rw [Zone.takeProfile_eq]
    rfl
  · exact exec_profileLoad ready (if_pos wrong)
end

