-- ==== Sys2Proof/Proofs/ShelfSlots.lean ====
section
/-! PROOFS. A zone event at every slot of a shelf (R22): what the operations of one slot keep, and with it what a slot
finds before its turn and what is left of its own turn at the end. -/

namespace Sys2Proof.Machine

variable {s t u : State} {i j : SlotNo} {z : ShelfNo}

/-! ## What the operations of one slot keep -/

/-- A property of states that stands through every write that SC makes for slot `j`: of its record, of the notices that
are not a zone's, of the plan counts, of the permit queue, of its link and of the handler's orders. -/
structure State.StableAt (j : SlotNo) (P : State → Prop) : Prop where
  modSlot : ∀ {t : State} (f : SlotRec → SlotRec), P t → P (t.modSlot j f)
  notify : ∀ {t : State} {b : NoticeBody}, b.kind ≠ .zoneTrip → P t → P (t.notify b)
  uncountPlan : ∀ {t : State} (p : PlanNo), P t → P (t.uncountPlan p)
  queue : ∀ {t : State} (q : List SlotNo), P t → P { t with permitQueue := q }
  leaveLink : ∀ {t : State}, P t → P (t.leaveLink j)
  askLink : ∀ {t : State} (c : DirectedCode) (p : Purpose), P t → P (t.askLink j c p)
  askSummary : ∀ {t : State}, P t → P (t.askSummary j)
  setPort : ∀ {t : State} (x : Port), P t → P (t.setPort x)

namespace State.StableAt

variable {P : State → Prop} (k : State.StableAt j P)
include k

theorem modRun (f : RunRec → RunRec) (h : P t) : P (t.modRun j f) := k.modSlot _ h

theorem enter (st : SlotState) (o : Option HoldReason) (h : P t) : P (t.enter j st o) :=
  k.notify (by simp [NoticeBody.kind]) (k.modSlot _ h)

theorem dropPlan (h : P t) : P (t.dropPlan j) := by
  unfold State.dropPlan
  split
  · exact k.uncountPlan _ (k.modSlot _ h)
  · exact h

theorem recordEnd (c : EndCause) (h : P t) : P (t.recordEnd j c) := k.modSlot _ (k.dropPlan (k.modRun _ h))
theorem powerOff (h : P t) : P (t.powerOff j) := k.leaveLink (k.modSlot _ h)
theorem clearPermit (h : P t) : P (t.clearPermit j) := k.queue _ (k.modSlot _ h)
theorem grant (h : P t) : P (t.grant j) := k.queue _ (k.modSlot _ h)

theorem verdict (h : P t) : P (t.verdict j) := by
  have told : P (t.told j) := by
    unfold State.told
    exact k.modRun _ (k.notify (by simp [NoticeBody.kind]) (k.modRun _ h))
  rcases t.verdict_cases j with ⟨b, -, e⟩ | ⟨-, e⟩
  · rw [e]
    exact k.setPort _ (k.enter _ _ told)
  · rw [e]
    exact k.enter _ _ told

theorem toVerdict (h : P t) : P (t.toVerdict j) := k.verdict (k.modRun _ (k.powerOff h))

theorem checkOvercurrent (h : P t) : P (t.checkOvercurrent j) := by
  have ends {u : State} (h : P u) : P (u.overcurrentEnd j) := by
    unfold State.overcurrentEnd
    split
    · exact k.toVerdict (k.recordEnd _ h)
    · split
      · exact k.verdict (k.modRun _ h)
      · exact h
  unfold State.checkOvercurrent
  split
  · exact ends (k.clearPermit (k.powerOff h))
  · exact h

theorem beginStep (n : Nat) (h : P t) : P (t.beginStep j n) := k.modSlot _ h
theorem askPhase (n : Nat) (h : P t) : P (t.askPhase j n) := k.askLink _ _ (k.modSlot _ h)
theorem beginCycle (h : P t) : P (t.beginCycle j) := k.askLink _ _ (k.modSlot _ h)

/-- A trip is told to a slot with no permit moved (R22). -/
theorem slotTrip (h : P t) : P (t.slotTrip j) := by
  unfold State.slotTrip
  split
  · split
    · exact k.modRun _ h
    · exact k.askLink _ _ (k.enter _ _ h)
  · exact k.modRun _ h
  · exact h

end State.StableAt

/-- A chain of step entries keeps what each of them keeps (R38). -/
theorem enterChain_keeps {P : State → Prop} (once : ∀ t n, P t → P (t.enterOnce i n).1) (k : Nat)
    {x : State × Option Nat} (h : P x.1) : P (enterChain i k x).1 := by
  induction k generalizing x with
  | zero =>
    obtain ⟨t, _ | n⟩ := x
    · exact h
    · exact once t n h
  | succ k ih =>
    obtain ⟨t, _ | n⟩ := x
    · exact h
    · exact ih (ih h)

/-- A property that stands through the writes for slot `j` and through the grant test (R10). -/
structure State.GrantedAt (j : SlotNo) (P : State → Prop) : Prop where
  stable : State.StableAt j P
  grants : ∀ {t : State}, P t → P t.testGrants

namespace State.GrantedAt

variable {P : State → Prop} (k : State.GrantedAt j P)
include k

theorem dropPermit (h : P t) : P (t.dropPermit j) := by
  unfold State.dropPermit
  split
  · exact h
  · exact k.stable.clearPermit h
  · exact k.grants (k.stable.clearPermit h)

theorem endAtOnce (c : EndCause) (h : P t) : P (t.endAtOnce j c) :=
  k.stable.toVerdict (k.dropPermit (k.stable.powerOff (k.stable.recordEnd c h)))

theorem endWithSummary (c : EndCause) (h : P t) : P (t.endWithSummary j c) := by
  unfold State.endWithSummary
  split
  · exact k.endAtOnce c h
  · exact k.stable.askSummary (k.stable.askLink _ _ (k.stable.enter _ _ (k.stable.recordEnd c h)))

theorem endByZone (h : P t) : P (t.endByZone j) := by
  unfold State.endByZone
  split
  · exact k.stable.askLink _ _ (k.stable.enter _ _ (k.stable.recordEnd _ h))
  · exact k.endAtOnce _ h

theorem slotGrace (h : P t) : P (t.slotGrace j) := by
  unfold State.slotGrace
  split
  · exact k.endByZone h
  · exact k.endByZone h
  · exact k.endByZone h
  · exact k.endByZone h
  · split
    · exact k.endByZone h
    · exact h
  · exact h

theorem enterOnce (n : Nat) (h : P t) : P (t.enterOnce j n).1 := by
  unfold State.enterOnce
  split
  · exact k.endWithSummary _ h
  · exact k.stable.beginStep n h
  · exact k.stable.beginStep n h
  · exact k.stable.askPhase _ (k.stable.beginStep n h)
  · exact k.stable.beginCycle (k.stable.beginStep n h)
  · split
    · exact k.stable.modSlot (fun r => r.setLoop n (r.loopCount n + 1)) (k.stable.beginStep n h)
    · exact k.stable.modSlot (fun r => r.setLoop n 0) (k.stable.beginStep n h)

theorem resumeStep (h : P t) : P (t.resumeStep j) := by
  unfold State.resumeStep
  split
  · split
    · exact k.stable.askPhase _ h
    · split
      · exact k.stable.askLink _ _ h
      · exact h
    · exact h
  · exact enterChain_keeps (fun _ n h => k.enterOnce n h) _ h

theorem spinAgain (h : P t) : P (t.spinAgain j) :=
  k.grants (k.stable.queue _ (k.stable.modSlot _ (k.stable.modSlot _ h)))

theorem slotResume (h : P t) : P (t.slotResume j) := by
  unfold State.slotResume
  split
  · exact k.resumeStep (k.stable.enter _ _ (k.stable.modRun _ h))
  · exact k.stable.modRun _ h
  · dsimp only
    split
    · exact k.spinAgain (k.stable.modRun _ h)
    · exact k.stable.modRun _ h
  · exact h

end State.GrantedAt

/-! ## The slots of a shelf, in their order (R22) -/

theorem mem_slotsOfShelf : i ∈ slotsOfShelf z ↔ shelfOf i = z := by
  simp [slotsOfShelf, allSlots]

theorem nodup_slotsOfShelf (z : ShelfNo) : (slotsOfShelf z).Nodup := (List.nodup_finRange 40).filter _

/-- What every slot of a list keeps stands at its end. -/
theorem State.foldl_keeps {P : State → Prop} {f : State → SlotNo → State} {l : List SlotNo}
    (each : ∀ j ∈ l, ∀ t, P t → P (f t j)) (h : P s) : P (l.foldl f s) := by
  induction l generalizing s with
  | nil => exact h
  | cons j l ih => exact ih (fun k m => each k (.tail j m)) (each j (.head l) s h)

/-- A slot of the shelf has its turn once: others come before it and others after it. -/
theorem State.onShelf_turn (s : State) (f : State → SlotNo → State) (own : shelfOf i = z) :
    ∃ before after : List SlotNo, s.onShelf z f = after.foldl f (f (before.foldl f s) i) ∧
      (∀ j ∈ before, i ≠ j) ∧ (∀ j ∈ after, i ≠ j) := by
  obtain ⟨before, after, split⟩ := List.append_of_mem (mem_slotsOfShelf.mpr own)
  have once := nodup_slotsOfShelf z
  rw [split, List.nodup_middle, List.nodup_cons, List.mem_append, not_or] at once
  obtain ⟨⟨first, last⟩, -⟩ := once
  refine ⟨before, after, ?_, fun j m e => first (e ▸ m), fun j m e => last (e ▸ m)⟩
  rw [State.onShelf, split, List.foldl_append, List.foldl_cons]

/-- A slot of another shelf has no turn. -/
theorem State.onShelf_keeps {P : State → Prop} {f : State → SlotNo → State}
    (each : ∀ j, shelfOf j = z → ∀ t, P t → P (f t j)) (h : P s) : P (s.onShelf z f) :=
  State.foldl_keeps (fun j m => each j (mem_slotsOfShelf.mp m)) h

end Sys2Proof.Machine
end

