-- ==== Sys2Proof/Proofs/ShelfTurns.lean ====
section
/-! PROOFS. What a zone event at the other slots of a shelf leaves of one slot (R10, R22): all but its permit, which the
grant test may give it; and which notices wait for a zone's trip. -/

namespace Sys2Proof.Machine

variable {s t u : State} {i j : SlotNo} {z : ShelfNo} {x : Link}

/-! ## One slot beside the operations of others -/

/-- Every overcurrent line is inactive. -/
def State.quiet (s : State) : Prop := ∀ i : SlotNo, s.overcurrent[i] = false

theorem State.quiet.of_same (q : s.quiet) (e : s.sameBeyondSlots t) : t.quiet := by
  obtain ⟨-, -, lines, -⟩ := e
  intro i
  rw [lines]
  exact q i

/-- Two records of a slot that differ in its permit alone: power and the timers of a spin capture come with it (R11). -/
def SlotRec.Regranted (a b : SlotRec) : Prop :=
  ∃ permit power at_ limit blanking,
    b = { a with permit := permit, power := power, grantedAt := at_, spinLimit := limit, blanking := blanking }

theorem SlotRec.Regranted.refl (a : SlotRec) : a.Regranted a := ⟨_, _, _, _, _, rfl⟩

theorem SlotRec.Regranted.trans {a b c : SlotRec} (x : a.Regranted b) (y : b.Regranted c) : a.Regranted c := by
  obtain ⟨_, _, _, _, _, rfl⟩ := x
  obtain ⟨_, _, _, _, _, rfl⟩ := y
  exact ⟨_, _, _, _, _, rfl⟩

/-- From `s` to `t` the operations of other slots have left slot `i` its record but for its permit, its link has kept it
and what is asked for it, and the plans have kept their steps. -/
structure State.Apart (s : State) (i : SlotNo) (t : State) : Prop where
  same : s.sameBeyondSlots t
  slot : (s.slot i).Regranted (t.slot i)
  knows : ∀ l, (t.link l).knows i = (s.link l).knows i
  directed : ∀ l, ∀ d ∈ (s.link l).directed, d.slot = i → d ∈ (t.link l).directed
  summary : ∀ l, ∀ op ∈ (s.link l).summary, op.slot = i → op ∈ (t.link l).summary
  steps : ∀ p, (t.plan p).steps = (s.plan p).steps

theorem Link.mem_leave_directed {d : Directed} (m : d ∈ x.directed) (n : d.slot ≠ j) : d ∈ (x.leave j).directed := by
  unfold Link.leave
  split
  · simp [m, n]
  · exact m

theorem Link.mem_leave_summary {op : SummaryOp} (m : op ∈ x.summary) (n : op.slot ≠ j) : op ∈ (x.leave j).summary := by
  unfold Link.leave
  split
  · simp [m, n]
  · exact m

theorem Link.mem_ask_directed {d : Directed} (m : d ∈ x.directed) (n : d.slot ≠ j) (c : DirectedCode) (p : Purpose) :
    d ∈ (x.ask j c p).directed := by
  simp only [Link.ask]
  split
  · split
    · exact List.mem_map.mpr ⟨d, m, if_neg n⟩
    · exact List.mem_append_left _ m
  · exact m

@[simp] theorem Link.askSummary_directed (x : Link) (j : SlotNo) : (x.askSummary j).directed = x.directed := by
  unfold Link.askSummary
  split <;> rfl

theorem Link.mem_askSummary {op : SummaryOp} (m : op ∈ x.summary) (j : SlotNo) : op ∈ (x.askSummary j).summary := by
  unfold Link.askSummary
  split
  · exact m
  · exact List.mem_append_left _ m

namespace State.Apart

theorem refl (s : State) (i : SlotNo) : s.Apart i s :=
  ⟨s.sameBeyondSlots_refl, .refl _, fun _ => rfl, fun _ _ m _ => m, fun _ _ m _ => m, fun _ => rfl⟩

theorem trans (a : s.Apart i t) (b : t.Apart i u) : s.Apart i u where
  same := State.sameBeyondSlots_trans a.same b.same
  slot := a.slot.trans b.slot
  knows l := (b.knows l).trans (a.knows l)
  directed l d m own := b.directed l d (a.directed l d m own) own
  summary l op m own := b.summary l op (a.summary l op m own) own
  steps p := (b.steps p).trans (a.steps p)

/-- An operation that touches no link. -/
theorem of_links (same : s.sameBeyondSlots t) (slot : (s.slot i).Regranted (t.slot i)) (links : t.links = s.links)
    (steps : ∀ p, (t.plan p).steps = (s.plan p).steps) : s.Apart i t := by
  have link (l : ShelfNo) : t.link l = s.link l := by simp only [State.link, links]
  exact ⟨same, slot, fun l => by rw [link], fun l d m _ => by rwa [link], fun l op m _ => by rwa [link], steps⟩

/-- An operation of one link. -/
theorem modLink {l : ShelfNo} {f : Link → Link} (knows : ∀ x, (f x).knows i = x.knows i)
    (directed : ∀ x, ∀ d ∈ x.directed, d.slot = i → d ∈ (f x).directed)
    (summary : ∀ x, ∀ op ∈ x.summary, op.slot = i → op ∈ (f x).summary) : s.Apart i (s.modLink l f) where
  same := s.sameBeyondSlots_refl
  slot := .refl _
  knows k := by
    rw [State.link_modLink]
    split
    · subst k; exact knows _
    · rfl
  directed k d m own := by
    rw [State.link_modLink]
    split
    · subst k; exact directed _ d m own
    · exact m
  summary k op m own := by
    rw [State.link_modLink]
    split
    · subst k; exact summary _ op m own
    · exact m
  steps _ := rfl

/-- The operations of another slot. -/
theorem stable (s : State) (n : i ≠ j) : State.StableAt j (s.Apart i) where
  modSlot {t} f a := a.trans
    (.of_links t.sameBeyondSlots_refl (by rw [t.slot_modSlot_ne f n]; exact .refl _) rfl fun _ => rfl)
  notify _ a := a.trans (.of_links (by simp [State.sameBeyondSlots_refl]) (by simpa using .refl _) (by simp) (by simp))
  uncountPlan {t} p a := a.trans <| .of_links t.sameBeyondSlots_refl (.refl _) rfl fun q => by
    by_cases e : q = p
    · subst e; simp [State.uncountPlan]
    · rw [State.uncountPlan, t.plan_setPlan_ne _ e]
  queue {t} _ a := a.trans (.of_links t.sameBeyondSlots_refl (.refl _) rfl fun _ => rfl)
  leaveLink a := a.trans <| .modLink (fun x => Link.leave_knows_ne j i x n)
    (fun _ _ m own => Link.mem_leave_directed m (own ▸ n)) fun _ _ m own => Link.mem_leave_summary m (own ▸ n)
  askLink c p a := a.trans <| .modLink (fun _ => by simp) (fun _ _ m own => Link.mem_ask_directed m (own ▸ n) c p)
    fun _ _ m _ => by simpa using m
  askSummary a := a.trans <| .modLink (fun _ => by simp) (fun _ _ m _ => by simpa using m)
    fun _ _ m _ => Link.mem_askSummary m j
  setPort {t} _ a := a.trans (.of_links t.sameBeyondSlots_refl (.refl _) rfl fun _ => rfl)

/-- A grant to whichever slot (R11). -/
theorem grant (s : State) (i j : SlotNo) : s.Apart i (s.grant j) := by
  refine .of_links (by simp [State.sameBeyondSlots_refl]) ?_ rfl fun _ => rfl
  by_cases e : i = j
  · subst e
    rw [State.grant_slot_same]
    exact ⟨_, _, _, _, _, rfl⟩
  · have other : (s.grant j).slot i = s.slot i := (State.Beside.grant e).slot
    rw [other]
    exact .refl _

/-- With every line inactive the grant test takes no run from anyone (R10, R13). -/
theorem grants (q : s.quiet) (k : Nat) : s.Apart i (Machine.grants k s) := by
  induction k generalizing s with
  | zero => exact .refl s i
  | succ k ih =>
    unfold Machine.grants
    split
    · exact .refl s i
    · rename_i j rest _
      split
      · have granted := Apart.grant s i j
        rw [State.checkOvercurrent_of_inactive (q.of_same granted.same j)]
        exact granted.trans (ih (q.of_same granted.same))
      · exact .refl s i

theorem granted (q : s.quiet) (n : i ≠ j) : State.GrantedAt j (s.Apart i) where
  stable := stable s n
  grants a := a.trans (.grants (q.of_same a.same) 41)

/-! ### What of the slot stands -/

variable (a : s.Apart i t)
include a

theorem state : (t.slot i).state = (s.slot i).state := by obtain ⟨_, _, _, _, _, e⟩ := a.slot; rw [e]
theorem run : (t.slot i).run = (s.slot i).run := by obtain ⟨_, _, _, _, _, e⟩ := a.slot; rw [e]
theorem plan : (t.slot i).plan = (s.slot i).plan := by obtain ⟨_, _, _, _, _, e⟩ := a.slot; rw [e]
theorem step : (t.slot i).step = (s.slot i).step := by obtain ⟨_, _, _, _, _, e⟩ := a.slot; rw [e]
theorem stepClock : (t.slot i).stepClock = (s.slot i).stepClock := by obtain ⟨_, _, _, _, _, e⟩ := a.slot; rw [e]
theorem doseStart : (t.slot i).doseStart = (s.slot i).doseStart := by obtain ⟨_, _, _, _, _, e⟩ := a.slot; rw [e]
theorem cyclePhase : (t.slot i).cyclePhase = (s.slot i).cyclePhase := by obtain ⟨_, _, _, _, _, e⟩ := a.slot; rw [e]
theorem phaseArmed : (t.slot i).phaseArmed = (s.slot i).phaseArmed := by obtain ⟨_, _, _, _, _, e⟩ := a.slot; rw [e]
theorem stepEntered : (t.slot i).stepEntered = (s.slot i).stepEntered := by obtain ⟨_, _, _, _, _, e⟩ := a.slot; rw [e]
theorem stepEntry : (t.slot i).stepEntry = (s.slot i).stepEntry := by obtain ⟨_, _, _, _, _, e⟩ := a.slot; rw [e]
theorem cycleOffLink : (t.slot i).cycleOffLink = (s.slot i).cycleOffLink := by
  obtain ⟨_, _, _, _, _, e⟩ := a.slot; rw [e]; rfl

theorem currentStep : t.currentStep i = s.currentStep i := State.currentStep_congr a.plan a.step a.steps

theorem stepAt (n : Nat) : t.stepAt i n = s.stepAt i n := by
  unfold State.stepAt
  rw [a.plan]
  cases (s.slot i).plan with
  | none => rfl
  | some p => cases n with
    | zero => rfl
    | succ n => simp only [a.steps p]

theorem dose : t.dose i = s.dose i := by
  obtain ⟨-, -, -, -, doses, -⟩ := a.same
  simp only [State.dose, doses]

end State.Apart

/-! ## A slot's turn among the others (R22) -/

/-- A slot of the shelf finds its own record as it stood at the event, and its own turn is what the event leaves it. -/
theorem State.onShelf_apart {f : State → SlotNo → State} (q : s.quiet)
    (each : ∀ {P : State → Prop} {j}, State.GrantedAt j P → ∀ {t}, P t → P (f t j))
    (same : ∀ (t : State) (j : SlotNo), t.sameBeyondSlots (f t j)) (own : shelfOf i = z) :
    ∃ a : State, s.Apart i a ∧ (f a i).Apart i (s.onShelf z f) := by
  obtain ⟨before, after, turn, first, last⟩ := s.onShelf_turn f own
  have found : s.Apart i (before.foldl f s) :=
    State.foldl_keeps (P := s.Apart i) (fun j m _ => each (State.Apart.granted q (first j m))) (.refl s i)
  refine ⟨_, found, ?_⟩
  rw [turn]
  have calm : (f (before.foldl f s) i).quiet := (q.of_same found.same).of_same (same _ i)
  exact State.foldl_keeps (P := (f (before.foldl f s) i).Apart i)
    (fun j m _ => each (State.Apart.granted calm (last j m))) (.refl _ i)

/-- A slot of another shelf keeps its record but for its permit. -/
theorem State.onShelf_apart_elsewhere {f : State → SlotNo → State} (q : s.quiet)
    (each : ∀ {P : State → Prop} {j}, State.GrantedAt j P → ∀ {t}, P t → P (f t j)) (elsewhere : shelfOf i ≠ z) :
    s.Apart i (s.onShelf z f) :=
  State.onShelf_keeps (P := s.Apart i)
    (fun _ at_ _ => each (State.Apart.granted q fun e => elsewhere ((congrArg shelfOf e).trans at_))) (.refl s i)

/-! ## Notices of a trip (R89, R195) -/

/-- The notices of a kind in the queue. -/
def Line.noticesOf (x : Line) (k : NoticeKind) : List Notice := x.notices.filter (·.body.kind = k)

/-- No ZONE_TRIP notice has come or gone or changed, and neither the mask nor the rack time has changed. -/
structure State.TripsUntold (s t : State) : Prop where
  mask : t.line.mask = s.line.mask
  rackTime : t.line.rackTime = s.line.rackTime
  notices : t.line.noticesOf .zoneTrip = s.line.noticesOf .zoneTrip

theorem countDrop_kind (n : Notice) : n.countDrop.body.kind = n.body.kind := by
  unfold Notice.countDrop
  split
  · simp [NoticeBody.kind, *]
  · rfl

theorem countDrop_of_not_overflow {n : Notice} (other : n.body.kind ≠ .overflow) : n.countDrop = n := by
  unfold Notice.countDrop
  split
  · rename_i e
    exact absurd (by rw [e]; rfl) other
  · rfl

/-- A notice of another kind leaves those of a kind as they wait, OVERFLOW's own count apart (R195, R196). -/
theorem placeNotice_others {b : NoticeBody} {k : NoticeKind} (other : b.kind ≠ k) (counts : k ≠ .overflow)
    (time : Count32) (ns : List Notice) :
    (placeNotice b time ns).filter (·.body.kind = k) = ns.filter (·.body.kind = k) := by
  have merged (ns : List Notice) :
      (mergeNotice b time ns).filter (·.body.kind = k) = ns.filter (·.body.kind = k) := by
    induction ns with
    | nil => rfl
    | cons n ns ih =>
      unfold mergeNotice
      split
      · rename_i sameAs
        have kind : n.body.kind = b.kind := by
          simp only [Notice.sameAs, Bool.and_eq_true, decide_eq_true_eq] at sameAs
          exact sameAs.1
        simp [Notice.replacedBy, kind, other]
      · rw [List.filter_cons, List.filter_cons, ih]
  have dropped (ns : List Notice) :
      (ns.map Notice.countDrop).filter (·.body.kind = k) = ns.filter (·.body.kind = k) := by
    induction ns with
    | nil => rfl
    | cons n ns ih =>
      by_cases own : n.body.kind = k
      · have stands : n.countDrop = n := countDrop_of_not_overflow (own ▸ counts)
        simp [stands, own, ih]
      · simp [countDrop_kind, own, ih]
  unfold placeNotice
  split
  · exact merged ns
  · split
    · simp [other]
    · unfold dropNotice
      split
      · exact dropped ns
      · simp [NoticeBody.kind, counts.symm]

namespace State.TripsUntold

theorem refl (s : State) : s.TripsUntold s := ⟨rfl, rfl, rfl⟩

theorem of_line (a : s.TripsUntold t) (e : u.line = t.line) : s.TripsUntold u :=
  ⟨e ▸ a.mask, e ▸ a.rackTime, e ▸ a.notices⟩

theorem notify {b : NoticeBody} (a : s.TripsUntold t) (other : b.kind ≠ .zoneTrip) : s.TripsUntold (t.notify b) := by
  unfold State.notify
  split
  · exact a
  · exact ⟨a.mask, a.rackTime, (placeNotice_others other (by simp) _ _).trans a.notices⟩

theorem stable (s : State) (j : SlotNo) : State.StableAt j s.TripsUntold where
  modSlot _ a := a.of_line rfl
  notify other a := a.notify other
  uncountPlan _ a := a.of_line rfl
  queue _ a := a.of_line rfl
  leaveLink a := a.of_line rfl
  askLink _ _ a := a.of_line rfl
  askSummary a := a.of_line rfl
  setPort _ a := a.of_line rfl

theorem grants (a : s.TripsUntold t) (k : Nat) : s.TripsUntold (Machine.grants k t) := by
  induction k generalizing t with
  | zero => exact a
  | succ k ih =>
    unfold Machine.grants
    split
    · exact a
    · rename_i j _ _
      split
      · exact ih ((stable s j).checkOvercurrent ((stable s j).grant a))
      · exact a

theorem granted (s : State) (j : SlotNo) : State.GrantedAt j s.TripsUntold where
  stable := stable s j
  grants a := a.grants 41

end State.TripsUntold

end Sys2Proof.Machine
end

