-- ==== Sys2Proof/Proofs/ZoneTrips.lean ====
section
/-! PROOFS. A cause that comes to a zone or leaves it, by each of its events (R76 to R79, R89 to R92), and the slots of
the shelf in a trip (R22). -/

namespace Sys2Proof.Machine

variable {s t u : State} {i j : SlotNo} {z : ShelfNo} {c : Cause} {e : Instr} {x y : Zone}

/-! ## A trip at a slot (R22) -/

theorem State.slotTrip_of_idle (running : (s.slot i).state ≠ .running) (review : (s.slot i).state ≠ .review) :
    s.slotTrip i = s := by
  unfold State.slotTrip
  split
  · exact absurd ‹_› running
  · exact absurd ‹_› review
  · rfl

theorem State.slotTrip_of_flagged
    (at_ : (s.slot i).state = .running ∧ (s.slot i).cycleOffLink = true ∨ (s.slot i).state = .review) :
    s.slotTrip i = s.modRun i fun r => { r with zonePaused := true } := by
  rcases at_ with ⟨running, off⟩ | review
  · simp only [State.slotTrip, running]
    exact if_pos off
  · simp only [State.slotTrip, review]

theorem State.slotTrip_of_onLink (running : (s.slot i).state = .running) (on : (s.slot i).cycleOffLink = false) :
    s.slotTrip i = (s.enter i .paused none).askLink i .halt .plain := by
  simp only [State.slotTrip, running]
  exact if_neg (by simp [on])

theorem State.slotTrip_slot_ne (s : State) (n : i ≠ j) : (s.slotTrip j).slot i = s.slot i := by
  unfold State.slotTrip
  split
  · split
    · exact s.slot_modSlot_ne _ n
    · exact s.enter_slot_ne j i .paused none n
  · exact s.slot_modSlot_ne _ n
  · rfl

/-- In a trip a slot of the shelf finds its record as it stood, and its own turn is what the trip makes of it. -/
theorem State.shelfTrip_turn (s : State) (own : shelfOf i = z) :
    ∃ a : State, s.Apart i a ∧ a.slot i = s.slot i ∧ (a.slotTrip i).Apart i (s.onShelf z State.slotTrip) ∧
      (s.onShelf z State.slotTrip).slot i = (a.slotTrip i).slot i := by
  have kept {l : List SlotNo} (b : State) (others : ∀ j ∈ l, i ≠ j) :
      b.Apart i (l.foldl State.slotTrip b) ∧ (l.foldl State.slotTrip b).slot i = b.slot i :=
    State.foldl_keeps (P := fun t => b.Apart i t ∧ t.slot i = b.slot i)
      (fun j m t h => ⟨(State.Apart.stable b (others j m)).slotTrip h.1, (t.slotTrip_slot_ne (others j m)).trans h.2⟩)
      ⟨.refl b i, rfl⟩
  obtain ⟨before, after, turn, first, last⟩ := s.onShelf_turn State.slotTrip own
  obtain ⟨found, slot⟩ := kept s first
  obtain ⟨left, rest⟩ := kept ((before.foldl State.slotTrip s).slotTrip i) last
  exact ⟨_, found, slot, turn ▸ left, turn ▸ rest⟩

theorem State.shelfTrip_slot_elsewhere (s : State) (elsewhere : shelfOf i ≠ z) :
    (s.onShelf z State.slotTrip).slot i = s.slot i :=
  State.onShelf_keeps (P := fun t => t.slot i = s.slot i)
    (fun j at_ t h => (t.slotTrip_slot_ne fun e => elsewhere (by rw [e, at_])).trans h) rfl

/-- What a trip makes of the slots of its shelf (R22). -/
theorem State.shelfTrip_slot (s : State) (own : shelfOf i = z) :
    ((s.slot i).state = .running → (s.slot i).cycleOffLink = false →
      (s.onShelf z State.slotTrip).slot i = { s.slot i with state := .paused, hold := none } ∧
        ((s.link z).knows i = true →
          ∃ d ∈ ((s.onShelf z State.slotTrip).link z).directed, d.slot = i ∧ d.code = .halt)) ∧
    ((s.slot i).state = .running ∧ (s.slot i).cycleOffLink = true ∨ (s.slot i).state = .review →
      (s.onShelf z State.slotTrip).slot i = { s.slot i with run := { (s.slot i).run with zonePaused := true } }) ∧
    ((s.slot i).state ≠ .running → (s.slot i).state ≠ .review →
      (s.onShelf z State.slotTrip).slot i = s.slot i) := by
  obtain ⟨a, found, slot, left, rest⟩ := s.shelfTrip_turn own
  refine ⟨fun running on => ?_, fun at_ => ?_, fun running review => ?_⟩
  · have pauses : a.slotTrip i = (a.enter i .paused none).askLink i .halt .plain :=
      State.slotTrip_of_onLink (slot ▸ running) (slot ▸ on)
    refine ⟨?_, fun known =>
      ⟨{ slot := i, code := .halt, purpose := .plain }, left.directed z _ ?_ rfl, rfl, rfl⟩⟩
    · rw [rest, pauses, ← slot]
      exact a.enter_slot_same i .paused none
    · rw [pauses, State.askLink, own, State.link_modLink_same]
      exact Link.ask_mem (by rw [State.enter_link, found.knows, known]) .halt .plain
  · rw [rest, State.slotTrip_of_flagged (slot ▸ at_), ← slot]
    simp
  · rw [rest, State.slotTrip_of_idle (slot ▸ running) (slot ▸ review), slot]

/-! ## The expiry of a grace at a slot (R19, R22) -/

/-- The run waits for its zone (R22). -/
def SlotRec.waitsForZone (r : SlotRec) : Prop :=
  r.state = .powering ∨ r.state = .identifying ∨ r.state = .paused ∨ r.state = .review ∨
    (r.state = .running ∧ r.run.zonePaused = true)

/-- The slot's run has ended ZONE_TRIP (R17, R19). -/
def SlotRec.endedByZone (r : SlotRec) : Prop :=
  r.run.endCause = some .zoneTrip ∧ r.plan = none ∧ (r.state = .ending ∨ r.state = .graded ∨ r.state = .held)

theorem State.endByZone_ended (s : State) (i : SlotNo) : ((s.endByZone i).slot i).endedByZone := by
  unfold State.endByZone
  split
  · simp [SlotRec.endedByZone, State.askLink]
  · obtain ⟨v, ends, given, -, plan⟩ := s.endAtOnce_given i .zoneTrip
    rw [ends]
    refine ⟨?_, ?_, .inr (v.verdict_state i)⟩
    · rw [State.verdict_slot_same, given.run]
    · rw [State.verdict_slot_same]
      exact plan

theorem State.slotGrace_of_waits (waits : (s.slot i).waitsForZone) : s.slotGrace i = s.endByZone i := by
  rcases waits with at_ | at_ | at_ | at_ | ⟨at_, flagged⟩
  · simp only [State.slotGrace, at_]
  · simp only [State.slotGrace, at_]
  · simp only [State.slotGrace, at_]
  · simp only [State.slotGrace, at_]
  · simp only [State.slotGrace, at_]
    exact if_pos flagged

theorem State.slotGrace_of_over (ended : (s.slot i).state.runs = false) : s.slotGrace i = s := by
  cases state : (s.slot i).state with
  | powering | identifying | running | paused | review => simp [state, SlotState.runs] at ended
  | vacant | loadWait | seating | seated | ending | graded | held | unloading => simp only [State.slotGrace, state]

theorem State.Apart.waitsForZone (a : s.Apart i t) (waits : (s.slot i).waitsForZone) : (t.slot i).waitsForZone := by
  rwa [SlotRec.waitsForZone, a.state, a.run]

theorem State.Apart.endedByZone (a : s.Apart i t) (ended : (s.slot i).endedByZone) : (t.slot i).endedByZone := by
  rwa [SlotRec.endedByZone, a.state, a.run, a.plan]

theorem State.shelfGrace_turn (q : s.quiet) (own : shelfOf i = z) :
    ∃ a : State, s.Apart i a ∧ (a.slotGrace i).Apart i (s.onShelf z State.slotGrace) :=
  State.onShelf_apart q (fun k _ h => k.slotGrace h)
    (fun t j => State.same_of_iff (t.same_slotGrace t j)) own

/-- The runs that wait for the zone end with its grace (R22, R92). -/
theorem State.shelfGrace_ends (q : s.quiet) (own : shelfOf i = z) (waits : (s.slot i).waitsForZone) :
    ((s.onShelf z State.slotGrace).slot i).endedByZone := by
  obtain ⟨a, found, left⟩ := State.shelfGrace_turn q own
  refine left.endedByZone ?_
  rw [State.slotGrace_of_waits (found.waitsForZone waits)]
  exact a.endByZone_ended i

/-- Without a run in the shelf a slot keeps its state, plan and run record at the expiry. -/
theorem State.shelfGrace_apart (q : s.quiet) (away : shelfOf i ≠ z ∨ (s.slot i).state.runs = false) :
    s.Apart i (s.onShelf z State.slotGrace) := by
  by_cases own : shelfOf i = z
  · have idle := away.resolve_left (not_not.mpr own)
    obtain ⟨a, found, left⟩ := State.shelfGrace_turn q own
    rw [State.slotGrace_of_over (by rw [found.state, idle])] at left
    exact found.trans left
  · exact State.onShelf_apart_elsewhere q (fun k _ h => k.slotGrace h) own

/-- A run of the shelf that a trip has reached waits for the zone (R22). -/
theorem State.shelfTrip_waits (s : State) (own : shelfOf i = z) (runs : (s.slot i).state.runs = true) :
    ((s.onShelf z State.slotTrip).slot i).waitsForZone := by
  obtain ⟨paused, flagged, idle⟩ := s.shelfTrip_slot own
  cases state : (s.slot i).state with
  | running =>
    cases off : (s.slot i).cycleOffLink with
    | true => rw [flagged (.inl ⟨state, off⟩)]; simp [SlotRec.waitsForZone, state]
    | false => rw [(paused state off).1]; simp [SlotRec.waitsForZone]
  | review => rw [flagged (.inr state)]; simp [SlotRec.waitsForZone, state]
  | powering | identifying | paused =>
    rw [idle (by simp [state]) (by simp [state])]
    simp [SlotRec.waitsForZone, state]
  | vacant | loadWait | seating | seated | ending | graded | held | unloading => simp [state, SlotState.runs] at runs

/-! ## Causes that leave (R77 to R79, R91) -/

/-- The zone's record is `y` once causes have left it; the last one to leave a TRIPPED zone queues ZONE_CLEAR (R91). -/
def State.shed (s : State) (z : ShelfNo) (y : Zone) : State :=
  match (s.zone z).state, (s.zone z).trip with
  | .tripped, some r =>
    if (s.zone z).causes.isEmpty = false ∧ y.causes.isEmpty = true then
      (s.setZone z y).notify (.zoneClear z r.first r.seen s.line.rackTime)
    else s.setZone z y
  | _, _ => s.setZone z y

theorem State.shed_of_tripped {r : TripRec} (tripped : (s.zone z).state = .tripped)
    (record : (s.zone z).trip = some r) :
    s.shed z y =
      if (s.zone z).causes.isEmpty = false ∧ y.causes.isEmpty = true then
        (s.setZone z y).notify (.zoneClear z r.first r.seen s.line.rackTime)
      else s.setZone z y := by
  simp only [State.shed, tripped, record]

theorem State.shed_of_unrecorded (unrecorded : ∀ r, (s.zone z).state = .tripped → (s.zone z).trip ≠ some r) :
    s.shed z y = s.setZone z y := by
  unfold State.shed
  split
  · exact absurd ‹_› (unrecorded _ ‹_›)
  · rfl

theorem State.shed_of_not_tripped (untripped : (s.zone z).state ≠ .tripped) : s.shed z y = s.setZone z y :=
  State.shed_of_unrecorded fun _ h => absurd h untripped

/-- With the causes as they are none has left. -/
theorem State.shed_of_causes (causes : y.causes = (s.zone z).causes) : s.shed z y = s.setZone z y := by
  unfold State.shed
  split
  · exact if_neg fun h => by simp [causes, h.1] at h
  · rfl

/-- Where no trip is recorded a cause that leaves has no notice (R91). -/
theorem State.removeCause_of_unrecorded (unrecorded : ∀ r, (s.zone z).state = .tripped → (s.zone z).trip ≠ some r) :
    s.removeCause z c = s.setZone z ((s.zone z).loses c) := by
  cases has : (s.zone z).causes.has c with
  | false => rw [State.removeCause_of_not_has has, Zone.loses_of_not_has has, State.setZone_zone]
  | true =>
    rw [State.removeCause_of_has has]
    split
    · exact absurd ‹_› (unrecorded _ ‹_›)
    · rfl

theorem Causes.remove_empty {a : Causes} (empty : a.isEmpty = true) (c : Cause) : a.remove c = a := by
  refine Causes.remove_of_not_has ?_
  cases c <;> (simp [Causes.isEmpty] at empty; simp [Causes.has, empty])

/-- One more cause leaves. -/
theorem State.shed_removeCause (state : y.state = (s.zone z).state) (trip : y.trip = (s.zone z).trip)
    (fewer : (s.zone z).causes.isEmpty = true → y.causes.isEmpty = true) :
    (s.shed z y).removeCause z c = s.shed z (y.loses c) := by
  by_cases recorded : ∃ r, (s.zone z).state = .tripped ∧ (s.zone z).trip = some r
  · obtain ⟨r, tripped, record⟩ := recorded
    have next := State.removeCause_of_tripped (s := s.setZone z y) (z := z) (c := c) (r := r) (by simp [state, tripped])
      (by simp [trip, record])
    rw [State.shed_of_tripped tripped record, State.shed_of_tripped tripped record]
    cases empty : y.causes.isEmpty with
    | true =>
      have stays : y.loses c = y := by rw [Zone.loses, Causes.remove_empty empty]
      have gone (t : State) (at_ : t.zone z = y) : t.removeCause z c = t := by
        rw [State.removeCause_of_not_has]
        rw [at_]
        cases c <;> (simp [Causes.isEmpty] at empty; simp [Causes.has, empty])
      rw [stays, empty]
      split
      · exact gone _ (by simp)
      · exact gone _ (by simp)
    | false =>
      have some : (s.zone z).causes.isEmpty = false := by
        cases before : (s.zone z).causes.isEmpty with
        | false => rfl
        | true => simp [fewer before] at empty
      rw [if_neg (by simp), next]
      simp [some, empty]
  · have unrecorded : ∀ r, (s.zone z).state = .tripped → (s.zone z).trip ≠ some r :=
      fun r tripped record => recorded ⟨r, tripped, record⟩
    rw [State.shed_of_unrecorded unrecorded, State.shed_of_unrecorded unrecorded, State.removeCause_of_unrecorded]
    · simp
    · simpa [state, trip] using unrecorded

/-- One cause leaves a zone whose record an event has changed, causes, state and trip record apart. -/
theorem State.setZone_removeCause (state : x.state = (s.zone z).state) (trip : x.trip = (s.zone z).trip)
    (causes : x.causes = (s.zone z).causes) : (s.setZone z x).removeCause z c = s.shed z (x.loses c) := by
  rw [← State.shed_of_causes causes, State.shed_removeCause state trip (by simp [causes])]

theorem State.sensed_eq (s : State) (z : ShelfNo) (v : Nat) : s.sensed z v = s.shed z ((s.zone z).sensed v) :=
  State.setZone_removeCause (x := { s.zone z with air := some v, sensor := .good, reading := false }) rfl rfl rfl

theorem Causes.remove_isEmpty {a : Causes} (empty : a.isEmpty = true) (c : Cause) : (a.remove c).isEmpty = true := by
  rwa [Causes.remove_empty empty]

theorem State.causesLeave_runs (leave : s.causesLeave z e y) : exec e s = .next (s.shed z y).finish := by
  rcases leave with ⟨rfl, rfl⟩ | ⟨v, good, still, rfl, rfl⟩ | ⟨rfl, notLow, rfl⟩
  · have leaves := State.setZone_removeCause (s := s) (z := z) (x := s.zone z) (c := .cutoff) rfl rfl rfl
    rw [State.setZone_zone] at leaves
    rw [exec_cutoffInactive, leaves]
    rfl
  · rw [exec_airSensorRead_good s z good]
    by_cases below : v + 50 ≤ (s.zone z).settings.tripLimit
    · rw [State.goodReading_below below, State.sensed_eq, if_pos below,
        State.shed_removeCause (y := (s.zone z).sensed v) rfl rfl fun empty => Causes.remove_isEmpty empty .sensor]
      rfl
    · have judged : s.goodReading z v = s.sensed z v := by
        by_cases above : (s.zone z).settings.tripLimit < v
        · have present : (s.zone z).causes.overLimit = true := still.resolve_left (by omega)
          rw [State.goodReading_above above, State.addCause_of_has]
          rw [State.sensed_zone]
          exact present
        · exact State.goodReading_between (by omega) (by omega)
      rw [judged, State.sensed_eq, if_neg below]
      rfl
  · have leaves := State.setZone_removeCause (s := s) (z := z) (x := (s.zone z).endWindow) (c := .fanLow) rfl rfl rfl
    rw [exec_fanWindowEnd, State.windowEnd_notLow (Zone.endWindow_notLow notLow), leaves]
    rw [Zone.loses, Zone.endWindow, if_neg (Nat.not_lt_of_le notLow)]
    rfl

/-! ## Causes that come (R76 to R79, R89) -/

/-- A cause, absent till then, comes to a zone by an event: in a state `t` in which the zone is `x`, which has taken
the rest of the event, and which is `s` but for the notice of a last cause that the same event has taken away. -/
structure State.CauseArrives (s : State) (z : ShelfNo) (e : Instr) (c : Cause) (y : Zone) (t : State) (x : Zone) :
    Prop where
  runs : exec e s = .next ((t.setZone z x).addCause z c).finish
  absent : x.causes.has c = false
  gained : y = { x with causes := x.causes.add c }
  state : x.state = (s.zone z).state
  trip : x.trip = (s.zone z).trip
  untripped : (s.zone z).state ≠ .tripped → t = s
  tripped : ∀ r, (s.zone z).state = .tripped → (s.zone z).trip = some r →
    t =
      if c = .overLimit ∧
          (s.zone z).causes = { overLimit := false, cutoff := false, fanLow := false, sensor := true } then
        s.notify (.zoneClear z r.first r.seen s.line.rackTime)
      else s

/-- An event that takes no cause away. -/
theorem State.CauseArrives.of_same (runs : exec e s = .next ((s.setZone z x).addCause z c).finish)
    (absent : x.causes.has c = false) (gained : y = { x with causes := x.causes.add c })
    (state : x.state = (s.zone z).state) (trip : x.trip = (s.zone z).trip) (other : c ≠ .overLimit) :
    s.CauseArrives z e c y s x :=
  ⟨runs, absent, gained, state, trip, fun _ => rfl, fun _ _ _ => (if_neg fun h => other h.1).symm⟩

theorem State.sensed_of_not_tripped {v : Nat} (untripped : (s.zone z).state ≠ .tripped) :
    s.sensed z v = s.setZone z ((s.zone z).sensed v) := by
  rw [State.sensed_eq, State.shed_of_not_tripped untripped]

/-- A good reading with OVER_LIMIT absent clears a TRIPPED zone where SENSOR was its only cause (R77, R91). -/
theorem State.sensed_of_recorded {v : Nat} {r : TripRec} (tripped : (s.zone z).state = .tripped)
    (record : (s.zone z).trip = some r) (absent : (s.zone z).causes.overLimit = false) :
    s.sensed z v =
      (if (s.zone z).causes = { overLimit := false, cutoff := false, fanLow := false, sensor := true } then
        s.notify (.zoneClear z r.first r.seen s.line.rackTime)
      else s).setZone z ((s.zone z).sensed v) := by
  have last : ((s.zone z).causes.isEmpty = false ∧ ((s.zone z).sensed v).causes.isEmpty = true) ↔
      (s.zone z).causes = { overLimit := false, cutoff := false, fanLow := false, sensor := true } := by
    change _ ∧ ((s.zone z).causes.remove .sensor).isEmpty = true ↔ _
    generalize (s.zone z).causes = causes at absent ⊢
    obtain ⟨overLimit, cutoff, fanLow, sensor⟩ := causes
    obtain rfl : overLimit = false := absent
    cases cutoff <;> cases fanLow <;> cases sensor <;> decide
  rw [State.sensed_eq, State.shed_of_tripped tripped record]
  simp only [last]
  split
  · exact (State.notify_setZone ..).symm
  · rfl

theorem State.causeComes_arrives (comes : s.causeComes z e c y) : ∃ t x, s.CauseArrives z e c y t x := by
  cases c with
  | cutoff =>
    obtain ⟨rfl, absent, rfl⟩ := comes
    refine ⟨s, s.zone z, .of_same ?_ absent rfl rfl rfl (by simp)⟩
    rw [State.setZone_zone, exec_cutoffActive]
  | sensor =>
    obtain ⟨event, absent, rfl⟩ := comes
    refine ⟨s, (s.zone z).missed, .of_same ?_ absent rfl rfl rfl (by simp)⟩
    rcases event with rfl | ⟨v, bad, rfl⟩
    · exact exec_sensorNoResponse s z
    · exact exec_airSensorRead_bad s z bad
  | fanLow =>
    obtain ⟨rfl, absent, low, third, rfl⟩ := comes
    have windows : (s.zone z).endWindow.lowWindows = 3 := by
      rw [Zone.endWindow_low low]
      omega
    refine ⟨s, (s.zone z).endWindow, .of_same ?_ absent ?_ rfl rfl (by simp)⟩
    · rw [exec_fanWindowEnd, State.windowEnd_third windows]
    · rw [← windows]
      rfl
  | overLimit =>
    obtain ⟨absent, v, good, above, rfl, with_⟩ := comes
    have gained : y = { (s.zone z).sensed v with causes := ((s.zone z).sensed v).causes.add .overLimit } := with_
    have state : ((s.zone z).sensed v).state = (s.zone z).state := rfl
    have trip : ((s.zone z).sensed v).trip = (s.zone z).trip := rfl
    have runs : exec (.airSensorRead z (v : Int)) s = .next ((s.sensed z v).addCause z .overLimit).finish := by
      rw [exec_airSensorRead_good s z good, State.goodReading_above above]
    by_cases tripped : (s.zone z).state = .tripped
    · cases record : (s.zone z).trip with
      | none =>
        refine ⟨s.sensed z v, (s.zone z).sensed v, ?_, absent, gained, state, trip, fun h => absurd tripped h,
          fun r _ h => ?_⟩
        · rw [← State.sensed_zone, State.setZone_zone, runs]
        · simp [record] at h
      | some r =>
        rw [State.sensed_of_recorded tripped record absent] at runs
        refine ⟨_, (s.zone z).sensed v, runs, absent, gained, state, trip, fun h => absurd tripped h, fun r' _ h => ?_⟩
        obtain rfl : r = r' := Option.some.inj (record.symm.trans h)
        simp
    · rw [State.sensed_of_not_tripped tripped] at runs
      exact ⟨s, (s.zone z).sensed v, runs, absent, gained, state, trip, fun _ => rfl, fun r h => absurd h tripped⟩

/-- An event that brings a cause to a zone in OFF or RUN finds the zones as they were. -/
theorem State.CauseArrives.runs_untripped (a : s.CauseArrives z e c y t x) (untripped : (s.zone z).state ≠ .tripped) :
    exec e s = .next ((s.setZone z x).addCause z c).finish := by
  have runs := a.runs
  rwa [a.untripped untripped] at runs

/-! ## The trip of a zone in RUN (R89, R92) -/

/-- The state of a rack in which a zone has just been cut off: the slots' side is as it was. -/
def State.cutOff (s : State) (z : ShelfNo) (c : Cause) (y : Zone) : State := s.setZone z (y.cut c s.line.rackTime)

theorem State.shelfTripped_setZone (s : State) (z : ShelfNo) (c : Cause) (y : Zone) :
    (s.setZone z y).shelfTripped z c = (s.cutOff z c y).onShelf z State.slotTrip := by
  rw [State.shelfTripped, State.zone_setZone_same, State.setZone_setZone]
  rfl

/-- With a grace the trip ends with the slots as it has told them. -/
theorem State.startGrace_of_grace (grace : y.settings.graceMin ≠ 0) :
    ((s.setZone z y).shelfTripped z c).startGrace z =
      ((s.cutOff z c y).onShelf z State.slotTrip).setZone z (y.tripped c s.line.rackTime s.now) := by
  rw [State.startGrace_shelfTripped, State.zone_setZone_same, if_neg grace, State.shelfTripped_setZone]
  rfl

/-- With a grace of 0 the trip goes on to its expiry. -/
theorem State.startGrace_of_none (none : y.settings.graceMin = 0) :
    ((s.setZone z y).shelfTripped z c).startGrace z =
      (((s.cutOff z c y).onShelf z State.slotTrip).setZone z (y.tripped c s.line.rackTime s.now)).onShelf z
        State.slotGrace := by
  rw [State.startGrace_shelfTripped, State.zone_setZone_same, if_pos none, State.shelfTripped_setZone]
  rfl

/-- Until its own notice a trip leaves the notices of trips alone. -/
theorem State.startGrace_untold (s : State) (z : ShelfNo) (c : Cause) (y : Zone) :
    s.TripsUntold (((s.setZone z y).shelfTripped z c).startGrace z) := by
  have cut : s.TripsUntold (s.cutOff z c y) := (State.TripsUntold.refl s).of_line rfl
  have told : s.TripsUntold ((s.cutOff z c y).onShelf z State.slotTrip) :=
    State.onShelf_keeps (fun j _ _ => (State.TripsUntold.stable s j).slotTrip) cut
  by_cases none : y.settings.graceMin = 0
  · rw [State.startGrace_of_none none]
    exact State.onShelf_keeps (fun j _ _ => (State.TripsUntold.granted s j).slotGrace) (told.of_line rfl)
  · rw [State.startGrace_of_grace none]
    exact told.of_line rfl

/-- The runs of the shelf end in a trip without a grace, and every other slot keeps its state, plan and run. -/
theorem State.startGrace_ends (quiet : s.quiet) (none : y.settings.graceMin = 0) (i : SlotNo) :
    let v := ((s.setZone z y).shelfTripped z c).startGrace z
    (shelfOf i = z → (s.slot i).state.runs = true → (v.slot i).endedByZone) ∧
      (shelfOf i ≠ z ∨ (s.slot i).state.runs = false →
        (v.slot i).state = (s.slot i).state ∧ (v.slot i).plan = (s.slot i).plan ∧ (v.slot i).run = (s.slot i).run) := by
  rw [State.startGrace_of_none none]
  have calm : ((s.cutOff z c y).onShelf z State.slotTrip).quiet :=
    State.quiet.of_same (s := s.cutOff z c y) quiet (State.same_shelfTrip _ z)
  refine ⟨fun own runs => ?_, fun away => ?_⟩
  · exact State.shelfGrace_ends (by exact calm) own (State.shelfTrip_waits (s.cutOff z c y) own runs)
  · have slot : ((s.cutOff z c y).onShelf z State.slotTrip).slot i = s.slot i := by
      by_cases own : shelfOf i = z
      · have idle : (s.slot i).state.runs = false := away.resolve_left (not_not.mpr own)
        obtain ⟨-, -, stays⟩ := (s.cutOff z c y).shelfTrip_slot own
        refine stays (fun running => ?_) (fun review => ?_)
        · rw [show (s.slot i).state = .running from running] at idle
          cases idle
        · rw [show (s.slot i).state = .review from review] at idle
          cases idle
      · exact State.shelfTrip_slot_elsewhere _ own
    have stands := State.shelfGrace_apart (z := z) (i := i)
      (s := ((s.cutOff z c y).onShelf z State.slotTrip).setZone z (y.tripped c s.line.rackTime s.now)) (by exact calm)
      (by rw [State.slot_setZone, slot]; exact away)
    rw [stands.state, stands.plan, stands.run, State.slot_setZone, slot]
    exact ⟨rfl, rfl, rfl⟩

end Sys2Proof.Machine

open Sys2Proof Sys2Proof.Machine

/-- Settles O29: a cause arrives (`State.causeComes_arrives`) and trips a zone in RUN, with the shelf's slots told in
their turns; causes that leave are shed (`State.causesLeave_runs`). -/
theorem tripPausesShelf : Obligations.TripPausesShelf := by
  refine ⟨fun s z e c y comes => ?_, fun s z e y leave => ⟨fun untripped => ?_, fun r tripped record => ?_⟩⟩
  · obtain ⟨t, x, arrives⟩ := State.causeComes_arrives comes
    have zone (w : State) : (w.setZone z x).zone z = x := w.zone_setZone_same z x
    have absent (w : State) : ((w.setZone z x).zone z).causes.has c = false := by rw [zone, arrives.absent]
    have state (w : State) : ((w.setZone z x).zone z).state = (s.zone z).state := by rw [zone, arrives.state]
    refine ⟨fun off => ?_, fun run => ?_, fun r tripped record => ?_⟩
    · rw [arrives.runs_untripped (by simp [off]), State.addCause_of_off (absent s) ((state s).trans off), zone,
        State.setZone_setZone, ← arrives.gained]
    · have trips : exec e s = .next ((s.setZone z y).tripZone z c).finish := by
        rw [arrives.runs_untripped (by simp [run]), State.addCause_of_run (absent s) ((state s).trans run), zone,
          State.setZone_setZone, ← arrives.gained]
      have same := (s.setZone z y).same_tripZone z c
      have told := (s.setZone z y).tripZone_notifies z c
      have untold := s.startGrace_untold z c y
      rw [State.zone_setZone_same, State.setZone_setZone] at same
      rw [State.zone_setZone_same] at told
      have slot (i : SlotNo) : ((s.setZone z y).tripZone z c).slot i =
          (((s.setZone z y).shelfTripped z c).startGrace z).slot i := by rw [told, State.notify_slot]
      refine ⟨_, _, trips, same, told, untold.mask, untold.rackTime, untold.notices, fun grace => ?_,
        fun none quiet i => ?_⟩
      · have ends := State.startGrace_of_grace (s := s) (z := z) (c := c) grace
        have link (l : ShelfNo) : ((s.setZone z y).tripZone z c).link l =
            ((s.cutOff z c y).onShelf z State.slotTrip).link l := by rw [told, State.notify_link, ends]; rfl
        have slots (i : SlotNo) : ((s.setZone z y).tripZone z c).slot i =
            ((s.cutOff z c y).onShelf z State.slotTrip).slot i := by rw [slot, ends]; rfl
        refine ⟨fun i elsewhere => ?_, fun i own => ?_⟩
        · rw [slots]
          exact (s.cutOff z c y).shelfTrip_slot_elsewhere elsewhere
        · rw [slots, link]
          exact (s.cutOff z c y).shelfTrip_slot own
      · rw [slot]
        exact State.startGrace_ends quiet none i
    · have seen : (r.see c).seen =
          { overLimit := r.seen.overLimit || c = .overLimit, cutoff := r.seen.cutoff || c = .cutoff
            fanLow := r.seen.fanLow || c = .fanLow, sensor := r.seen.sensor || c = .sensor } := by
        cases c <;> simp [TripRec.see, Causes.add]
      have gained : y.causes = x.causes.add c := by rw [arrives.gained]
      rw [arrives.runs, State.addCause_of_tripped (r := r) (absent t) ((state t).trans tripped)
        (by rw [zone, arrives.trip, record]), zone, State.setZone_setZone,
        arrives.tripped r tripped record, ← gained, seen]
      rw [arrives.gained, TripRec.see, ← seen]
      rfl
  · rw [State.causesLeave_runs leave, State.shed_of_not_tripped untripped]
  · rw [State.causesLeave_runs leave, State.shed_of_tripped tripped record]
end

