-- ==== Sys2Proof/Proofs/ShelfResumes.lean ====
section
/-! PROOFS. The expiry of a grace and ZONE RESUME at a shelf (R19, R22, R92, R93), with the steps the slots come back to
(R37, R50). -/

namespace Sys2Proof.Machine

variable {s t u : State} {i : SlotNo} {z : ShelfNo} {n acc : Nat} {y : PlanStep}

/-! ## A step entered again (R37, R43, R48) -/

theorem Link.askSummary_has (x : Link) (i : SlotNo) : ∃ op ∈ (x.askSummary i).summary, op.slot = i := by
  unfold Link.askSummary
  split
  · rename_i waits
    simpa using waits
  · exact ⟨SummaryOp.begin i, by simp, rfl⟩

theorem State.askPhase_mem (known : (s.link (shelfOf i)).knows i = true) (phase : Nat) :
    { slot := i, code := .phaseStart phase, purpose := .step (s.slot i).stepEntry } ∈
      ((s.askPhase i phase).link (shelfOf i)).directed := by
  rw [State.askPhase, State.askLink, State.link_modLink_same]
  exact Link.ask_mem known _ _

theorem State.askCycleHalt_mem (known : (s.link (shelfOf i)).knows i = true) :
    { slot := i, code := .halt, purpose := .step (s.slot i).stepEntry } ∈
      ((s.askCycleHalt i).link (shelfOf i)).directed := by
  rw [State.askCycleHalt, State.askLink, State.link_modLink_same]
  exact Link.ask_mem known _ _

/-- The entry of a step by itself, from RUNNING with the drive on its link. -/
theorem State.enterStep_enters (running : (s.slot i).state = .running) (on : (s.slot i).cycleOffLink = false)
    (n : Nat) : s.stepEnteredAt (s.enterStep i n) i n (s.dose i).acc := by
  unfold State.stepEnteredAt
  cases step : s.stepAt i n with
  | none =>
    have once : s.enterOnce i n = (s.endWithSummary i .complete, none) := by simp only [State.enterOnce, step]
    rw [State.enterStep_of_done (by rw [once]), once, State.endWithSummary_of_onLink on]
    refine ⟨by simp [State.runEnded], by simp [State.runEnded], by simp [State.runEnded], ?_⟩
    rw [State.runEnded, State.link_modLink_same]
    exact Link.askSummary_has _ i
  | some y =>
    cases y with
    | loop target count => trivial
    | baseline =>
      rw [State.enterStep_slot_same step (by simp)]
      exact ⟨running, rfl, rfl, rfl, rfl, rfl, rfl, rfl, fun _ => trivial⟩
    | soak target limit act =>
      rw [State.enterStep_slot_same step (by simp)]
      exact ⟨running, rfl, rfl, rfl, rfl, rfl, rfl, rfl, fun _ => trivial⟩
    | exercise phase target limit act =>
      have once : s.enterOnce i n = ((s.beginStep i n).askPhase i phase, none) := by simp only [State.enterOnce, step]
      rw [State.enterStep_slot_same step (by simp)]
      refine ⟨running, rfl, rfl, rfl, rfl, rfl, rfl, rfl, fun known =>
        ⟨{ slot := i, code := .phaseStart phase, purpose := .step ((s.slot i).stepEntry + 1) }, ?_, rfl, rfl, rfl⟩⟩
      have asked := State.askPhase_mem (s := s.beginStep i n) known phase
      rw [State.beginStep_slot_same] at asked
      rw [State.enterStep_of_done (by rw [once]), once]
      exact asked
    | cycle off =>
      have once : s.enterOnce i n = ((s.beginStep i n).beginCycle i, none) := by simp only [State.enterOnce, step]
      rw [State.enterStep_slot_same step (by simp)]
      refine ⟨running, rfl, rfl, rfl, rfl, rfl, rfl, rfl, fun known =>
        ⟨{ slot := i, code := .halt, purpose := .step ((s.slot i).stepEntry + 1) }, ?_, rfl, rfl, rfl⟩⟩
      have asked := State.askCycleHalt_mem
        (s := (s.beginStep i n).modSlot i fun r => { r with cyclePhase := some .halting }) known
      rw [State.slot_modSlot_same, State.beginStep_slot_same] at asked
      rw [State.enterStep_of_done (by rw [once]), once]
      exact asked

/-- The entry seen from an earlier state of the slot and after the turns of others. -/
theorem State.stepEnteredAt_of {w v : State} (entered : w.stepEnteredAt v i n acc) (step : s.stepAt i n = w.stepAt i n)
    (plan : (s.slot i).plan = (w.slot i).plan)
    (knows : (s.link (shelfOf i)).knows i = (w.link (shelfOf i)).knows i) (a : v.Apart i u) :
    s.stepEnteredAt u i n acc := by
  unfold State.stepEnteredAt at entered ⊢
  rw [step]
  cases at_ : w.stepAt i n with
  | none =>
    rw [at_] at entered
    obtain ⟨state, cause, gone, op, m, own⟩ := entered
    exact ⟨a.state.trans state, by rw [a.run, cause], a.plan.trans gone, op, a.summary _ op m own, own⟩
  | some y =>
    rw [at_] at entered
    have keeps {q : DirectedCode} : (∃ d ∈ (v.link (shelfOf i)).directed,
          d.slot = i ∧ d.code = q ∧ d.purpose = .step (v.slot i).stepEntry) →
        ∃ d ∈ (u.link (shelfOf i)).directed, d.slot = i ∧ d.code = q ∧ d.purpose = .step (u.slot i).stepEntry := by
      rintro ⟨d, m, own, code, purpose⟩
      exact ⟨d, a.directed _ d m own, own, code, by rw [a.stepEntry, purpose]⟩
    cases y with
    | loop target count => trivial
    | baseline | soak =>
      obtain ⟨state, plan', at_step, clock, dose, armed, begun, phase, -⟩ := entered
      exact ⟨a.state.trans state, (a.plan.trans plan').trans plan.symm, a.step.trans at_step, a.stepClock.trans clock,
        a.doseStart.trans dose, a.phaseArmed.trans armed, a.stepEntered.trans begun, a.cyclePhase.trans phase,
        fun _ => trivial⟩
    | exercise | cycle =>
      obtain ⟨state, plan', at_step, clock, dose, armed, begun, phase, asks⟩ := entered
      exact ⟨a.state.trans state, (a.plan.trans plan').trans plan.symm, a.step.trans at_step, a.stepClock.trans clock,
        a.doseStart.trans dose, a.phaseArmed.trans armed, a.stepEntered.trans begun, a.cyclePhase.trans phase,
        fun known => keeps (asks (knows ▸ known))⟩

@[simp] theorem SlotRec.beginStep_run (r : SlotRec) (n acc : Nat) : (r.beginStep n acc).run = r.run := rfl
@[simp] theorem SlotRec.setLoop_run (r : SlotRec) (n c : Nat) : (r.setLoop n c).run = r.run := rfl

theorem State.enterOnce_zonePaused (clear : (s.slot i).run.zonePaused = false) (n : Nat) :
    (((s.enterOnce i n).1).slot i).run.zonePaused = false := by
  unfold State.enterOnce
  split
  · cases off : (s.slot i).cycleOffLink with
    | false => simpa [State.endWithSummary_of_onLink off, State.runEnded] using clear
    | true =>
      obtain ⟨v, ends, given, -⟩ := s.endAtOnce_given i .complete
      have atOnce : s.endWithSummary i .complete = v.verdict i := (if_pos off).trans ends
      dsimp only
      rw [atOnce, State.verdict_slot_same, given.run]
      exact clear
  · simpa [State.beginStep_slot_same] using clear
  · simpa [State.beginStep_slot_same] using clear
  · simpa [State.askPhase_slot_same, State.beginStep_slot_same] using clear
  · simpa [State.beginCycle, State.askCycleHalt, State.askLink, State.beginStep_slot_same] using clear
  · split
    · simpa [State.beginStep_slot_same] using clear
    · simpa [State.beginStep_slot_same] using clear

theorem State.enterStep_zonePaused (clear : (s.slot i).run.zonePaused = false) (n : Nat) :
    ((s.enterStep i n).slot i).run.zonePaused = false := by
  unfold State.enterStep
  generalize Config.chainDoublings = doublings
  exact enterChain_keeps (P := fun t => (t.slot i).run.zonePaused = false)
    (fun _ n h => State.enterOnce_zonePaused h n) doublings clear

/-! ## A slot back in RUNNING (R22, R50) -/

/-- The slot in RUNNING with its flag clear, before its step goes on. -/
def State.backInRun (s : State) (i : SlotNo) : State :=
  (s.modRun i fun r => { r with zonePaused := false }).enter i .running none

theorem State.backInRun_slot (s : State) (i : SlotNo) :
    (s.backInRun i).slot i =
      { s.slot i with state := .running, hold := none, run := { (s.slot i).run with zonePaused := false } } := by
  simp [State.backInRun]

theorem State.backInRun_link (s : State) (i : SlotNo) (l : ShelfNo) : (s.backInRun i).link l = s.link l := by
  simp [State.backInRun]

theorem State.backInRun_currentStep (s : State) (i : SlotNo) : (s.backInRun i).currentStep i = s.currentStep i :=
  State.currentStep_congr (by rw [s.backInRun_slot]) (by rw [s.backInRun_slot]) fun p => by simp [State.backInRun]

theorem State.backInRun_stepAt (s : State) (i : SlotNo) (n : Nat) : (s.backInRun i).stepAt i n = s.stepAt i n := by
  simp [State.stepAt, State.backInRun]

theorem State.backInRun_dose (s : State) (i : SlotNo) : (s.backInRun i).dose i = s.dose i := by
  simp [State.backInRun, State.enter]

/-- A step entered before the pause goes on as it stood, an EXERCISE step with its phase asked for once more (R50). -/
theorem State.resumeStep_slot (entered : (s.slot i).stepEntered = true) :
    (s.resumeStep i).slot i =
      { s.slot i with
        phaseArmed := if (s.currentStep i).any PlanStep.isExercise then false else (s.slot i).phaseArmed } := by
  rw [State.resumeStep, if_pos entered]
  split
  · rename_i step
    rw [State.askPhase_slot_same, step]
    rfl
  · rename_i step
    have same : { s.slot i with
        phaseArmed := if (s.currentStep i).any PlanStep.isExercise then false else (s.slot i).phaseArmed } =
        s.slot i := by simp [step, PlanStep.isExercise]
    rw [same]
    split
    · rfl
    · rfl
  · rename_i other _
    rw [if_neg]
    intro exercise
    cases step : s.currentStep i with
    | none => simp [step] at exercise
    | some y =>
      cases y with
      | exercise phase target limit act => exact other phase target limit act step
      | baseline | soak | cycle | loop => simp [step, PlanStep.isExercise] at exercise

theorem State.resumeStep_of_exercise {phase limit : Nat} {target : Option Nat} {act : LimitAction}
    (entered : (s.slot i).stepEntered = true) (step : s.currentStep i = some (.exercise phase target limit act)) :
    s.resumeStep i = s.askPhase i phase := by
  simp only [State.resumeStep, entered, step, if_true]

theorem State.resumeStep_of_halting {off : Nat} (entered : (s.slot i).stepEntered = true)
    (step : s.currentStep i = some (.cycle off)) (halting : (s.slot i).cyclePhase = some .halting) :
    s.resumeStep i = s.askCycleHalt i := by
  simp only [State.resumeStep, entered, step, if_true]
  exact if_pos halting

theorem State.resumeStep_of_new (new : (s.slot i).stepEntered = false) (step : (s.slot i).step = some n) :
    s.resumeStep i = s.enterStep i n := by
  simp only [State.resumeStep, new, step]
  rfl

/-! ## ZONE RESUME at the slots (R22) -/

theorem State.slotResume_of_paused (paused : (s.slot i).state = .paused) :
    s.slotResume i = (s.backInRun i).resumeStep i := by
  simp only [State.slotResume, paused]
  rfl

theorem State.slotResume_of_review (review : (s.slot i).state = .review) :
    s.slotResume i = s.modRun i fun r => { r with zonePaused := false } := by
  simp only [State.slotResume, review]

theorem State.slotResume_of_waiting (running : (s.slot i).state = .running)
    (waiting : (s.slot i).cyclePhase = some .waiting) :
    s.slotResume i = (s.modRun i fun r => { r with zonePaused := false }).spinAgain i := by
  simp only [State.slotResume, running]
  exact if_pos waiting

/-- The spin-up begun again (R48). -/
theorem State.spinAgain_slot (q : s.quiet) (i : SlotNo) :
    SlotRec.Regranted { s.slot i with cyclePhase := some .spinning } ((s.spinAgain i).slot i) := by
  let asked : State :=
    { (s.modSlot i fun r => { r with cyclePhase := some .spinning }).modSlot i fun r =>
        { r with permit := .queued } with
      permitQueue := s.permitQueue ++ [i] }
  have granted : asked.Apart i (s.spinAgain i) := State.Apart.grants (s := asked) q 41
  have slot : asked.slot i = { s.slot i with cyclePhase := some .spinning, permit := .queued } := by
    have same : asked.slot i =
      ((s.modSlot i fun r => { r with cyclePhase := some .spinning }).modSlot i fun r =>
        { r with permit := .queued }).slot i := rfl
    rw [same, State.slot_modSlot_same, State.slot_modSlot_same]
  refine .trans ?_ granted.slot
  rw [slot]
  exact ⟨_, _, _, _, _, rfl⟩

theorem State.shelfResume_turn (q : s.quiet) (own : shelfOf i = z) :
    ∃ a : State, s.Apart i a ∧ (a.slotResume i).Apart i (s.onShelf z State.slotResume) :=
  State.onShelf_apart q (fun k _ h => k.slotResume h)
    (fun t j => State.same_of_iff (t.same_slotResume t j)) own

/-- A slot of the shelf that was PAUSED at a step it had entered is back at it (R50). -/
theorem State.shelfResume_slot_entered (q : s.quiet) (own : shelfOf i = z) (paused : (s.slot i).state = .paused)
    (entered : (s.slot i).stepEntered = true) :
    SlotRec.Regranted
      { s.slot i with
        state := .running, hold := none, run := { (s.slot i).run with zonePaused := false }
        phaseArmed := if (s.currentStep i).any PlanStep.isExercise then false else (s.slot i).phaseArmed }
      ((s.onShelf z State.slotResume).slot i) := by
  obtain ⟨a, found, left⟩ := State.shelfResume_turn q own
  have begun : ((a.backInRun i).slot i).stepEntered = true := by rw [State.backInRun_slot, found.stepEntered, entered]
  refine .trans ?_ left.slot
  rw [State.slotResume_of_paused (found.state.trans paused), State.resumeStep_slot begun, State.backInRun_slot,
    State.backInRun_currentStep, found.currentStep]
  obtain ⟨_, _, _, _, _, slot⟩ := found.slot
  rw [slot]
  exact ⟨_, _, _, _, _, rfl⟩

/-- What the step of such a slot asks for once more, where the link still knows the slot (R43, R48). -/
theorem State.shelfResume_asks (q : s.quiet) (own : shelfOf i = z) (paused : (s.slot i).state = .paused)
    (entered : (s.slot i).stepEntered = true) (known : (s.link z).knows i = true) :
    (∀ {phase target limit act}, s.currentStep i = some (.exercise phase target limit act) →
      { slot := i, code := .phaseStart phase, purpose := .step (s.slot i).stepEntry } ∈
        ((s.onShelf z State.slotResume).link z).directed) ∧
    (∀ {off}, s.currentStep i = some (.cycle off) → (s.slot i).cyclePhase = some .halting →
      { slot := i, code := .halt, purpose := .step (s.slot i).stepEntry } ∈
        ((s.onShelf z State.slotResume).link z).directed) := by
  subst own
  obtain ⟨a, found, left⟩ := State.shelfResume_turn q rfl
  have turn := State.slotResume_of_paused (found.state.trans paused)
  have begun : ((a.backInRun i).slot i).stepEntered = true := by rw [State.backInRun_slot, found.stepEntered, entered]
  have entry : ((a.backInRun i).slot i).stepEntry = (s.slot i).stepEntry := by
    rw [State.backInRun_slot, found.stepEntry]
  have current : (a.backInRun i).currentStep i = s.currentStep i := by
    rw [State.backInRun_currentStep, found.currentStep]
  have knows : ((a.backInRun i).link (shelfOf i)).knows i = true := by
    rw [State.backInRun_link, found.knows, known]
  refine ⟨fun step => left.directed _ _ ?_ rfl, fun step halting => left.directed _ _ ?_ rfl⟩
  · rw [turn, State.resumeStep_of_exercise begun (current.trans step), ← entry]
    exact State.askPhase_mem knows _
  · have phase : ((a.backInRun i).slot i).cyclePhase = some .halting := by
      rw [State.backInRun_slot, found.cyclePhase, halting]
    rw [turn, State.resumeStep_of_halting begun (current.trans step) phase, ← entry]
    exact State.askCycleHalt_mem knows

/-- A slot of the shelf that was PAUSED before a step enters it (R22, R50). -/
theorem State.shelfResume_enters (q : s.quiet) (own : shelfOf i = z) (paused : (s.slot i).state = .paused)
    (new : (s.slot i).stepEntered = false) (on : (s.slot i).cycleOffLink = false) (step : (s.slot i).step = some n) :
    s.stepEnteredAt (s.onShelf z State.slotResume) i n (s.dose i).acc ∧
      ((s.onShelf z State.slotResume).slot i).run.zonePaused = false := by
  obtain ⟨a, found, left⟩ := State.shelfResume_turn q own
  let w := a.backInRun i
  have slot : w.slot i =
      { a.slot i with state := .running, hold := none, run := { (a.slot i).run with zonePaused := false } } :=
    a.backInRun_slot i
  have turn : a.slotResume i = w.enterStep i n := by
    rw [State.slotResume_of_paused (found.state.trans paused),
      State.resumeStep_of_new (by rw [slot, found.stepEntered, new]) (by rw [slot, found.step, step])]
  have entered := State.enterStep_enters (s := w) (i := i) (by rw [slot])
    (by rw [slot]; exact found.cycleOffLink.trans on) n
  rw [State.backInRun_dose, found.dose] at entered
  rw [turn] at left
  refine ⟨State.stepEnteredAt_of entered ?_ ?_ ?_ left, ?_⟩
  · rw [a.backInRun_stepAt, found.stepAt]
  · rw [slot, found.plan]
  · rw [a.backInRun_link, found.knows]
  · rw [left.run]
    exact State.enterStep_zonePaused (by rw [slot]) n

/-- A slot of the shelf in REVIEW keeps its state (R22). -/
theorem State.shelfResume_review (q : s.quiet) (own : shelfOf i = z) (review : (s.slot i).state = .review) :
    ((s.onShelf z State.slotResume).slot i).state = .review ∧
      ((s.onShelf z State.slotResume).slot i).run.zonePaused = false := by
  obtain ⟨a, found, left⟩ := State.shelfResume_turn q own
  rw [State.slotResume_of_review (found.state.trans review)] at left
  rw [left.state, left.run]
  simpa using found.state.trans review

/-- A spin-up of the shelf that waited begins again (R48). -/
theorem State.shelfResume_waiting (q : s.quiet) (own : shelfOf i = z) (running : (s.slot i).state = .running)
    (waiting : (s.slot i).cyclePhase = some .waiting) :
    ((s.onShelf z State.slotResume).slot i).cyclePhase = some .spinning ∧
      ((s.onShelf z State.slotResume).slot i).run.zonePaused = false := by
  obtain ⟨a, found, left⟩ := State.shelfResume_turn q own
  rw [State.slotResume_of_waiting (found.state.trans running) (found.cyclePhase.trans waiting)] at left
  obtain ⟨_, _, _, _, _, slot⟩ :=
    State.spinAgain_slot (s := a.modRun i fun r => { r with zonePaused := false }) (q.of_same found.same) i
  rw [left.cyclePhase, left.run, slot]
  simp

/-! ## The commands -/

theorem exec_tripGraceExpiry {until_ : Time} (tripped : (s.zone z).state = .tripped)
    (grace : (s.zone z).grace = some (.running until_)) :
    exec (.tripGraceExpiry z) s = .next
      (((s.setZone z { s.zone z with grace := some .expired }).onShelf z State.slotGrace).finish) := by
  have runs : (s.zone z).graceRuns = true := by simp [Zone.graceRuns, grace]
  refine congrArg Host.Outcome.next ((if_pos runs).trans ?_)
  rw [State.graceOver_eq tripped]

theorem serveZoneResume_of {zone : Byte} (named : ofNum 4 zone.toNat = some z) :
    serveZoneResume [zone] s =
      if (s.zone z).state ≠ .tripped then s.refuse .state
      else if (s.zone z).causes.isEmpty then (s.resumeZone z, Answer.accept [])
      else s.refuseCause z := State.withZone_of named _

end Sys2Proof.Machine

open Sys2Proof Sys2Proof.Machine

/-- Settles O30: each slot of the shelf has its turn on its record as it stood, and the turns of the others leave it all
but its permit (`State.Apart`). -/
theorem shelfToldOfGraceAndResume : Obligations.ShelfToldOfGraceAndResume := by
  refine ⟨fun s z tripped quiet => ⟨fun e grace => ?_, fun tag zone ready named clear => ?_⟩, fun s tag zone ready =>
    ⟨fun outside => ?_, fun z named => ⟨fun other => ?_, fun tripped causes => ?_⟩⟩⟩
  · let base := s.setZone z { s.zone z with grace := some .expired }
    have same : base.sameBeyondSlots (base.onShelf z State.slotGrace) := State.same_shelfGrace base z
    have zone : (base.onShelf z State.slotGrace).zone z = { s.zone z with grace := some .expired } :=
      State.zone_same_setZone same
    refine ⟨_, exec_tripGraceExpiry tripped grace, ?_, zone, fun i own waits => ?_⟩
    · rw [zone]
      exact same
    · exact State.shelfGrace_ends (s := base) quiet own waits
  · let base := s.setZone z ((s.zone z).resume s.now)
    have resumed : s.resumeZone z = base.onShelf z State.slotResume := rfl
    have same : base.sameBeyondSlots (s.resumeZone z) := s.same_resumeZone z
    have record : (s.resumeZone z).zone z = (s.zone z).resume s.now := State.zone_same_setZone same
    have served := serveZoneResume_of (s := s) named
    rw [if_neg (by simp [tripped]), if_pos clear] at served
    refine ⟨_, exec_zoneResume ready served, ?_, ?_, fun i own => ⟨fun paused entered => ?_,
      fun n paused new on step => ?_, fun review => ?_, fun running waiting => ?_⟩⟩
    · rw [record]
      exact same
    · rw [record, Zone.resume, Zone.run_eq]
    · have asks := State.shelfResume_asks (s := base) quiet own paused entered
      have current : base.currentStep i = s.currentStep i := rfl
      obtain ⟨_, _, _, _, _, slot⟩ := State.shelfResume_slot_entered (s := base) quiet own paused entered
      rw [current] at slot asks
      rw [resumed, slot]
      refine ⟨rfl, rfl, rfl, rfl, rfl, rfl, rfl, rfl, rfl, ?_⟩
      cases step : s.currentStep i with
      | none => rfl
      | some y =>
        cases y with
        | exercise phase target limit act =>
          exact ⟨rfl, fun known => ⟨_, (asks known).1 step, rfl, rfl, rfl⟩⟩
        | cycle off =>
          exact ⟨rfl, fun halting known => ⟨_, (asks known).2 step halting, rfl, rfl, rfl⟩⟩
        | baseline | soak | loop => rfl
    · exact State.shelfResume_enters (s := base) quiet own paused new on step
    · exact State.shelfResume_review (s := base) quiet own review
    · exact State.shelfResume_waiting (s := base) quiet own running waiting
  · exact exec_zoneResume ready (State.withZone_outside outside _)
  · exact exec_zoneResume ready ((serveZoneResume_of named).trans (if_pos other))
  · exact exec_zoneResume ready ((serveZoneResume_of named).trans
      ((if_neg (by simp [tripped])).trans (if_neg (by simp [causes]))))
end

