-- ==== Sys2Proof/Proofs/CartonSizes.lean ====
section
/-! PROOFS. What CM does to the cartons and the manifest ring stays within their sizes (R166, R174, R177): first one
carton, then the ring with what is reserved of it, then each operation of CM. -/

namespace Sys2Proof.Machine

/-! ## One carton (R165, R166) -/

section
variable {c : Carton}

/-- What holds of a carton in every state: a capacity, staged or in force, is no 0, and bounds the fill (R165). -/
def Carton.sound (c : Carton) : Prop := 1 ≤ c.capacity ∧ (∀ n, c.staged = some n → 1 ≤ n) ∧ c.fill ≤ c.capacity

theorem Carton.withinCapacity_iff : c.withinCapacity ↔ c.sound ∧ (c.state = .opened → c.fill < c.capacity) := by
  simp only [Carton.withinCapacity, Carton.sound, and_assoc]

theorem Carton.withinCapacity.sound (h : c.withinCapacity) : c.sound := (Carton.withinCapacity_iff.mp h).1

theorem Carton.sound.of_shut (h : c.sound) (shut : c.state ≠ .opened) : c.withinCapacity :=
  Carton.withinCapacity_iff.mpr ⟨h, fun opened => absurd opened shut⟩

theorem Carton.sound.emptied (h : c.sound) : c.emptied.withinCapacity := by
  obtain ⟨capacity, staged, -⟩ := h
  exact ⟨capacity, staged, Nat.zero_le _, fun _ => capacity⟩

/-- A new carton is empty and takes the staged capacity (R167). -/
theorem Carton.sound.opening (h : c.sound) : c.opening.withinCapacity := by
  obtain ⟨capacity, staged, -⟩ := h
  have some : 1 ≤ c.staged.getD c.capacity := by
    cases e : c.staged with
    | none => exact capacity
    | some n => exact staged n e
  exact ⟨some, fun n e => (nomatch e), Nat.zero_le _, fun _ => some⟩

/-- A carton that takes the drive of an extraction under way: it has room, and it is OPEN, or its close is held (R166,
R169). -/
def Carton.receives (c : Carton) : Prop :=
  c.fill < c.capacity ∧ (c.state = .opened ∨ (c.state = .closing ∧ c.pendingClose = true))

/-- An extraction under way may fill its carton, and needs no more room than it has reserved. -/
theorem Carton.need_eq (c : Carton) : c.need = if c.fill + 1 = c.capacity then 2 else 1 := rfl

end

/-! ## The ring with its reservation (R174, R177) -/

/-- The cartons and the ring of `s` are within their sizes, with a reservation for lane `k`, or with none (R166, R174,
R177). -/
structure State.Stocked (s : State) (k : Option LaneNo) : Prop where
  cartons : ∀ b, (s.carton b).withinCapacity
  room : s.ring.records.length + s.ring.reserved ≤ Config.ringSize
  reserved : ∀ b, k = some b → (s.carton b).receives ∧
    ∃ r, s.ring.reservation = some r ∧ r.lane = b ∧ r.entries = (s.carton b).need
  unreserved : k = none → s.ring.reservation = none

/-- The lane of an order that is an extraction (R142). -/
def OrderKind.lane? : OrderKind → Option LaneNo
  | .insert => none
  | .extract b => some b

/-- The lane a port serves with a current order whose outcome is open (R177). -/
def Port.serves (p : Port) : Option LaneNo := p.live.bind (·.order.kind.lane?)

theorem OrderKind.lane?_eq_some {o : OrderKind} {b : LaneNo} : o.lane? = some b ↔ o = .extract b := by
  cases o <;> simp [OrderKind.lane?]

theorem Port.serves_eq_some {p : Port} {b : LaneNo} :
    p.serves = some b ↔ ∃ c, p.live = some c ∧ c.order.kind = .extract b := by
  simp only [Port.serves, Option.bind_eq_some_iff, OrderKind.lane?_eq_some]

theorem Port.serves_eq_none {p : Port} : p.serves = none ↔ ∀ c, p.live = some c → c.order.kind = .insert := by
  simp only [Port.serves, Option.bind_eq_none_iff]
  refine forall_congr' fun c => imp_congr_right fun _ => ?_
  cases c.order.kind <;> simp [OrderKind.lane?]

theorem State.cartonsWithinSizes_iff (s : State) : s.cartonsWithinSizes ↔ s.Stocked s.port.serves := by
  constructor
  · rintro ⟨cartons, room, current, rest⟩
    refine ⟨cartons, room, fun b e => ?_, fun e => rest (Port.serves_eq_none.mp e)⟩
    obtain ⟨c, live, kind⟩ := Port.serves_eq_some.mp e
    obtain ⟨fill, state, reservation⟩ := current c b live kind
    exact ⟨⟨fill, state⟩, reservation⟩
  · intro g
    refine ⟨g.cartons, g.room, fun c b live kind => ?_, fun e => g.unreserved (Port.serves_eq_none.mpr e)⟩
    obtain ⟨⟨fill, state⟩, reservation⟩ := g.reserved b (Port.serves_eq_some.mpr ⟨c, live, kind⟩)
    exact ⟨fill, state, reservation⟩

theorem Ring.reserved_of_none {r : Ring} (e : r.reservation = none) : r.reserved = 0 := by simp [Ring.reserved, e]

theorem Ring.reserved_of_some {r : Ring} {v : Reservation} (e : r.reservation = some v) : r.reserved = v.entries := by
  simp [Ring.reserved, e]

theorem Ring.free_eq (r : Ring) : r.free = Config.ringSize - r.records.length - r.reserved := rfl

/-- MANIFEST RELEASE adds no record (R180). -/
theorem recordsAfter_length_le (n : Nat) (rs : List ManifestRec) : (recordsAfter n rs).length ≤ rs.length := by
  induction rs with
  | nil => exact Nat.le_refl _
  | cons r rs ih =>
    unfold recordsAfter
    split
    · exact Nat.le_succ _
    · exact Nat.le_succ_of_le ih

/-! ## What an operation of CM reads and writes -/

section
variable (s : State) {b x : LaneNo}

@[simp] theorem State.judgeHighWater_carton : s.judgeHighWater.carton x = s.carton x := by
  simp only [State.judgeHighWater]; split <;> simp
@[simp] theorem State.judgeHighWater_records : s.judgeHighWater.ring.records = s.ring.records := by
  simp only [State.judgeHighWater]; split <;> simp
@[simp] theorem State.judgeHighWater_reservation : s.judgeHighWater.ring.reservation = s.ring.reservation := by
  simp only [State.judgeHighWater]; split <;> simp
@[simp] theorem State.writeRecord_carton (m : ManifestBody) : (s.writeRecord m).carton x = s.carton x := by
  simp [State.writeRecord]
@[simp] theorem State.writeRecord_length (m : ManifestBody) :
    (s.writeRecord m).ring.records.length = s.ring.records.length + 1 := by simp [State.writeRecord]
@[simp] theorem State.writeRecord_reservation (m : ManifestBody) :
    (s.writeRecord m).ring.reservation = s.ring.reservation := by simp [State.writeRecord]
@[simp] theorem State.writePaid_carton (m : ManifestBody) : (s.writePaid m).carton x = s.carton x := by
  simp [State.writePaid]
@[simp] theorem State.writePaid_length (m : ManifestBody) :
    (s.writePaid m).ring.records.length = s.ring.records.length + 1 := by simp [State.writePaid, Ring.pay]

@[simp] theorem State.notifyCarton_ring (e : CartonEvent) (c : Option (Nat × Nat × Nat)) :
    (s.notifyCarton b e c).ring = s.ring := by simp [State.notifyCarton]
@[simp] theorem State.openCarton_ring : (s.openCarton b).ring = s.ring := by simp [State.openCarton]
@[simp] theorem State.openCarton_carton_same : (s.openCarton b).carton b = (s.carton b).opening := by
  simp [State.openCarton, State.notifyCarton_carton]
theorem State.openCarton_carton_ne (away : x ≠ b) : (s.openCarton b).carton x = s.carton x := by
  simp [State.openCarton, State.notifyCarton_carton, State.carton_modCarton_ne _ _ away]

@[simp] theorem State.enterAbsent_ring (e : CartonEvent) (c : Option (Nat × Nat × Nat)) :
    (s.enterAbsent b e c).ring = s.ring := by
  simp only [State.enterAbsent]; split <;> simp
theorem State.enterAbsent_carton_ne (e : CartonEvent) (c : Option (Nat × Nat × Nat)) (away : x ≠ b) :
    (s.enterAbsent b e c).carton x = s.carton x := by
  simp only [State.enterAbsent]
  split <;> simp [State.openCarton_carton_ne _ away, State.notifyCarton_carton, State.carton_modCarton_ne _ _ away]

/-- A bin that enters ABSENT stays there, or opens a new carton (R166). -/
theorem State.enterAbsent_within (e : CartonEvent) (c : Option (Nat × Nat × Nat)) (sound : (s.carton b).sound) :
    ((s.enterAbsent b e c).carton b).withinCapacity := by
  have absent : Carton.sound { s.carton b with state := .absent, pendingClose := false } := sound
  simp only [State.enterAbsent]
  split
  · rw [State.openCarton_carton_same, State.notifyCarton_carton, State.carton_modCarton_same]
    exact absent.opening
  · rw [State.notifyCarton_carton, State.carton_modCarton_same]
    exact absent.of_shut (by simp)

theorem State.fullCarton_length : (s.fullCarton b).ring.records.length = s.ring.records.length + 1 := by
  simp only [State.fullCarton]; split <;> simp
theorem State.fullCarton_carton_ne (away : x ≠ b) : (s.fullCarton b).carton x = s.carton x := by
  simp only [State.fullCarton]
  split <;> simp [State.enterAbsent_carton_ne _ _ _ away, State.notifyCarton_carton, State.carton_modCarton_ne _ _ away]

/-- A full carton is OPEN no more (R168). -/
theorem State.fullCarton_within (sound : (s.carton b).sound) : ((s.fullCarton b).carton b).withinCapacity := by
  simp only [State.fullCarton]
  split
  · refine State.enterAbsent_within _ _ _ ?_
    rw [State.carton_modCarton_same, State.writePaid_carton]
    exact sound.emptied.sound
  · rw [State.notifyCarton_carton, State.carton_modCarton_same, State.writePaid_carton]
    exact Carton.sound.of_shut (c := { s.carton b with state := .changing }) sound (by simp)

end

/-! ## Each operation of CM -/

namespace State.Stocked

variable {s t u : State} {k : Option LaneNo} {b : LaneNo}

/-- A change beyond the cartons and the ring. -/
theorem frame (g : t.Stocked k) (cartons : u.cartons = t.cartons) (ring : u.ring = t.ring) : u.Stocked k := by
  have carton (b : LaneNo) : u.carton b = t.carton b := by simp only [State.carton, cartons]
  exact ⟨fun b => carton b ▸ g.cartons b, ring ▸ g.room, fun b e => by rw [carton, ring]; exact g.reserved b e,
    fun e => ring ▸ g.unreserved e⟩

theorem notify {n : NoticeBody} (g : t.Stocked k) : (t.notify n).Stocked k := g.frame (by simp) (by simp)
theorem notifyCarton {e : CartonEvent} {c : Option (Nat × Nat × Nat)} (g : t.Stocked k) :
    (t.notifyCarton b e c).Stocked k := g.notify

/-- A carton written: that of the extraction under way still takes its drive, with as much room needed (R177). -/
theorem modCarton {f : Carton → Carton} (g : t.Stocked k) (within : (f (t.carton b)).withinCapacity)
    (kept : k = some b → (f (t.carton b)).receives ∧ (f (t.carton b)).need = (t.carton b).need) :
    (t.modCarton b f).Stocked k := by
  refine ⟨fun x => ?_, g.room, fun x e => ?_, g.unreserved⟩
  · by_cases own : x = b
    · subst own
      rwa [State.carton_modCarton_same]
    · rw [State.carton_modCarton_ne _ _ own]
      exact g.cartons x
  · by_cases own : x = b
    · subst own
      obtain ⟨receives, need⟩ := kept e
      rw [State.carton_modCarton_same, need]
      exact ⟨receives, (g.reserved x e).2⟩
    · rw [State.carton_modCarton_ne _ _ own]
      exact g.reserved x e

/-- The cartons written in one bin that no extraction is under way to, and the ring left. -/
theorem atBin (g : t.Stocked k) (away : k ≠ some b) (within : (u.carton b).withinCapacity)
    (others : ∀ x, x ≠ b → u.carton x = t.carton x) (ring : u.ring = t.ring) : u.Stocked k := by
  refine ⟨fun x => ?_, ring ▸ g.room, fun x e => ?_, fun e => ring ▸ g.unreserved e⟩
  · by_cases own : x = b
    · exact own ▸ within
    · rw [others x own]
      exact g.cartons x
  · have other : x ≠ b := fun own => away (own ▸ e)
    rw [others x other, ring]
    exact g.reserved x e

theorem openCarton (g : t.Stocked k) (away : k ≠ some b) : (t.openCarton b).Stocked k :=
  g.atBin away (by simpa using (g.cartons b).sound.opening) (fun _ => State.openCarton_carton_ne t) (by simp)

theorem enterAbsent {e : CartonEvent} {c : Option (Nat × Nat × Nat)} (g : t.Stocked k) (away : k ≠ some b) :
    (t.enterAbsent b e c).Stocked k :=
  g.atBin away (State.enterAbsent_within t e c (g.cartons b).sound) (fun _ => State.enterAbsent_carton_ne t e c) (by simp)

/-- Records removed, or none, and the reservation left (R180). -/
theorem setRing {x : Ring} (g : t.Stocked k) (fewer : x.records.length ≤ t.ring.records.length)
    (reservation : x.reservation = t.ring.reservation) : (t.setRing x).Stocked k := by
  have reserved : x.reserved = t.ring.reserved := by simp only [Ring.reserved, reservation]
  refine ⟨g.cartons, ?_, fun b e => ?_, fun e => reservation.trans (g.unreserved e)⟩
  · have := g.room
    simp only [State.setRing_ring, reserved]
    omega
  · simp only [State.setRing_ring, reservation]
    exact g.reserved b e

theorem judgeHighWater (g : t.Stocked k) : t.judgeHighWater.Stocked k := by
  have judged {v : Bool} : (t.setRing { t.ring with above := v }).Stocked k := g.setRing (Nat.le_refl _) rfl
  simp only [State.judgeHighWater]
  split
  · exact judged.notify
  · exact judged

/-- A record written into an entry that is free and not reserved (R178). -/
theorem writeFree {m : ManifestBody} (g : t.Stocked k) (free : 1 ≤ t.ring.free) : (t.writeRecord m).Stocked k := by
  have reserved : (t.writeRecord m).ring.reserved = t.ring.reserved := by
    simp only [Ring.reserved, State.writeRecord_reservation]
  refine ⟨fun b => ?_, ?_, fun b e => ?_, fun e => ?_⟩
  · rw [State.writeRecord_carton]
    exact g.cartons b
  · rw [State.writeRecord_length, reserved]
    rw [Ring.free_eq] at free
    omega
  · rw [State.writeRecord_carton, State.writeRecord_reservation]
    exact g.reserved b e
  · rw [State.writeRecord_reservation]
    exact g.unreserved e

theorem closeShort (g : t.Stocked k) (away : k ≠ some b) (free : 1 ≤ t.ring.free) : (t.closeShort b).Stocked k := by
  have written : (t.writeRecord ((t.carton b).close b true)).Stocked k := g.writeFree free
  exact (written.modCarton (written.cartons b).sound.emptied fun e => absurd e away).enterAbsent away

/-- The bin of the extraction under way does not wait for space (R170, R178). -/
theorem serveBin (g : t.Stocked k) (b : LaneNo) : (t.serveBin b).Stocked k := by
  unfold State.serveBin
  split
  · rename_i waits
    simp only [Bool.and_eq_true, decide_eq_true_eq, Bool.not_eq_true'] at waits
    obtain ⟨⟨closing, unheld⟩, free⟩ := waits
    refine g.closeShort (fun e => ?_) free
    obtain ⟨⟨-, opened | ⟨-, held⟩⟩, -⟩ := g.reserved b e
    · rw [closing] at opened
      cases opened
    · rw [unheld] at held
      cases held
  · exact g

theorem serveFreed (g : t.Stocked k) : t.serveFreed.Stocked k := by
  unfold State.serveFreed
  induction allLanes generalizing t with
  | nil => exact g
  | cons b lanes ih => exact ih (g.serveBin b)

theorem takeUpClose (g : t.Stocked none) (b : LaneNo) : (t.takeUpClose b).Stocked none := by
  have taken : (t.modCarton b fun c => { c with pendingClose := false }).Stocked none :=
    g.modCarton (g.cartons b) (fun e => nomatch e)
  simp only [State.takeUpClose]
  split
  · exact (taken.enterAbsent (by simp)).serveFreed
  · split
    · exact taken.serveFreed.notifyCarton
    · exact taken.serveFreed

theorem endHeld (g : t.Stocked none) (b : LaneNo) : (t.endHeld b).Stocked none := by
  unfold State.endHeld
  split
  · exact g.takeUpClose b
  · exact g

/-- With nothing reserved it is enough that the records are within the ring (R177). -/
theorem of_release (cartons : ∀ b, (t.carton b).withinCapacity) (room : t.ring.records.length ≤ Config.ringSize) :
    t.release.Stocked none :=
  ⟨cartons, room, fun _ e => (nomatch e), fun _ => rfl⟩

theorem release (g : t.Stocked k) : t.release.Stocked none :=
  of_release g.cartons (Nat.le_trans (Nat.le_add_right _ _) g.room)

theorem endExtraction (g : t.release.Stocked none) (b : LaneNo) : (t.endExtraction b).Stocked none := by
  unfold State.endExtraction
  split
  · exact g.takeUpClose b
  · exact g.serveFreed

/-- The reservation of an extraction dispatched to a bin in OPEN with room in the ring (R147, R177). -/
theorem reserve {i : SlotNo} (g : t.Stocked none) (opened : (t.carton b).state = .opened)
    (free : (t.carton b).need ≤ t.ring.free) : (t.reserve i b).Stocked (some b) := by
  obtain ⟨-, -, -, fill⟩ := g.cartons b
  refine ⟨g.cartons, ?_, fun x e => ?_, fun e => (nomatch e)⟩
  · have none_reserved := Ring.reserved_of_none (g.unreserved rfl)
    have within := g.room
    rw [Ring.free_eq] at free
    change t.ring.records.length + (t.carton b).need ≤ Config.ringSize
    omega
  · obtain rfl := Option.some.inj e
    exact ⟨⟨fill opened, .inl opened⟩, _, rfl, rfl, rfl⟩

/-- A confirmed extraction writes no more records than it has reserved: one for the drive, and one for the carton that
the drive fills (R168, R177). -/
theorem countIn {i : SlotNo} (g : t.Stocked (some b)) : (t.countIn i b).Stocked none := by
  obtain ⟨⟨room, state⟩, r, reservation, -, entries⟩ := g.reserved b rfl
  obtain ⟨capacity, staged, -, -⟩ := g.cartons b
  have ring := g.room
  rw [Ring.reserved_of_some reservation, entries, Carton.need_eq] at ring
  let f : Carton → Carton := fun c => { c with fill := c.fill + 1 }
  have counted : Carton.sound (f (t.carton b)) := ⟨capacity, staged, room⟩
  have others (m : ManifestBody) {x : LaneNo} (away : x ≠ b) :
      ((t.modCarton b f).writePaid m).carton x = t.carton x := by
    rw [State.writePaid_carton, State.carton_modCarton_ne _ _ away]
  have own (m : ManifestBody) : ((t.modCarton b f).writePaid m).carton b = f (t.carton b) := by
    rw [State.writePaid_carton, State.carton_modCarton_same]
  simp only [State.countIn]
  split
  · rename_i full
    rw [own] at full
    rw [if_pos full] at ring
    refine (of_release (fun x => ?_) ?_).serveFreed
    · by_cases away : x = b
      · subst away
        exact State.fullCarton_within _ (by rw [own]; exact counted)
      · rw [State.fullCarton_carton_ne _ away, others _ away]
        exact g.cartons x
    · rw [State.fullCarton_length, State.writePaid_length]
      exact ring
  · rename_i spare
    rw [own] at spare
    rw [if_neg spare] at ring
    refine State.Stocked.endExtraction (of_release (fun x => ?_) ?_) b
    · by_cases away : x = b
      · subst away
        rw [own]
        exact Carton.withinCapacity_iff.mpr ⟨counted, fun _ => Nat.lt_of_le_of_ne room spare⟩
      · rw [others _ away]
        exact g.cartons x
    · rw [State.writePaid_length]
      exact ring

/-! ### The carton-present inputs, BIN CONFIG and MANIFEST RELEASE (R167, R169, R172, R180) -/

theorem presentRise (g : t.Stocked k) (b : LaneNo) : (t.presentRise b).Stocked k := by
  have raised : (t.modCarton b fun c => { c with present := true }).Stocked k :=
    g.modCarton (g.cartons b) fun e => ⟨(g.reserved b e).1, rfl⟩
  have shut (st : (t.carton b).state = .absent ∨ (t.carton b).state = .changing) : k ≠ some b := fun e => by
    obtain ⟨⟨-, opened | ⟨closing, -⟩⟩, -⟩ := g.reserved b e
    · rw [opened] at st
      simp at st
    · rw [closing] at st
      simp at st
  simp only [State.presentRise]
  split
  · exact raised.openCarton (shut (.inl ‹_›))
  · split
    · exact raised
    · exact raised.openCarton (shut (.inr ‹_›))
  · exact raised

/-- A carton in OPEN taken away: the close waits for an extraction under way to it (R169). -/
theorem cartonTaken (g : t.Stocked k) (serves : k = some b → t.extracting b = true) : (t.cartonTaken b).Stocked k := by
  have away (idle : ¬ t.extracting b = true) : k ≠ some b := fun e => idle (serves e)
  unfold State.cartonTaken
  split
  · refine State.Stocked.notifyCarton (g.modCarton ((g.cartons b).sound.of_shut (c := { t.carton b with
      state := .closing, pendingClose := true }) (by simp)) fun e => ?_)
    obtain ⟨⟨fill, -⟩, -⟩ := g.reserved b e
    exact ⟨⟨fill, .inr ⟨rfl, rfl⟩⟩, rfl⟩
  · rename_i idle
    split
    · exact g.enterAbsent (away idle)
    · split
      · exact g.closeShort (away idle) ‹_›
      · exact State.Stocked.notifyCarton (g.modCarton ((g.cartons b).sound.of_shut (c := { t.carton b with
          state := .closing, pendingClose := false }) (by simp)) fun e => absurd e (away idle))

theorem presentDrop (g : t.Stocked k) (serves : k = some b → t.extracting b = true) : (t.presentDrop b).Stocked k := by
  have dropped : (t.modCarton b fun c => { c with present := false }).Stocked k :=
    g.modCarton (g.cartons b) fun e => ⟨(g.reserved b e).1, rfl⟩
  simp only [State.presentDrop]
  split
  · exact dropped.cartonTaken serves
  · exact dropped

theorem config {capacity : Nat} {number : Option Nat} (g : t.Stocked k) (some : 1 ≤ capacity) :
    (t.modCarton b (·.config capacity number)).Stocked k := by
  refine g.modCarton ?_ fun e => ⟨(g.reserved b e).1, rfl⟩
  obtain ⟨inForce, -, fill⟩ := g.cartons b
  exact ⟨inForce, fun n e => Option.some.inj e ▸ some, fill⟩

theorem releaseRecords {number threshold : Option Nat} (g : t.Stocked k) :
    (t.releaseRecords number threshold).Stocked k := by
  have released : (t.setRing (t.ring.released number threshold)).Stocked k := by
    refine g.setRing ?_ rfl
    unfold Ring.released
    cases number with
    | none => exact Nat.le_refl _
    | some n => exact recordsAfter_length_le n _
  exact released.judgeHighWater.serveFreed

end State.Stocked

end Sys2Proof.Machine
end

