-- ==== Sys2Proof/Proofs/PortHeld.lean ====
section
/-! PROOFS. The operations of SC, SL, WU and ZC queue and withdraw orders, and leave the state of the handler port and
its current order as they are (R142, R146). -/

namespace Sys2Proof.Machine

variable {s : State} {i : SlotNo} {l z : ShelfNo}

/-! ## Slots (chapter 1) -/

@[simp] theorem State.joinOrder_hold (k : OrderKind) : (s.joinOrder k i).port.hold = s.port.hold := rfl
@[simp] theorem State.withdrawOrder_hold : (s.withdrawOrder i).port.hold = s.port.hold := rfl
@[simp] theorem State.enterHeld_hold (why : HoldReason) : (s.enterHeld i why).port.hold = s.port.hold := by
  simp [State.enterHeld]
@[simp] theorem State.verdict_hold : (s.verdict i).port.hold = s.port.hold := by
  rcases s.verdict_cases i with ⟨b, -, e⟩ | ⟨-, e⟩ <;> simp [e]
@[simp] theorem State.toVerdict_hold : (s.toVerdict i).port.hold = s.port.hold := by simp [State.toVerdict]
@[simp] theorem State.overcurrentEnd_hold : (s.overcurrentEnd i).port.hold = s.port.hold := by
  unfold State.overcurrentEnd; (repeat' split) <;> simp
@[simp] theorem State.checkOvercurrent_hold : (s.checkOvercurrent i).port.hold = s.port.hold := by
  unfold State.checkOvercurrent; split <;> simp
@[simp] theorem State.grants_hold (n : Nat) : (grants n s).port.hold = s.port.hold := by
  induction n generalizing s with
  | zero => rfl
  | succ n ih => unfold grants; (repeat' split) <;> simp [ih]
@[simp] theorem State.testGrants_hold : s.testGrants.port.hold = s.port.hold := State.grants_hold 41
@[simp] theorem State.joinPermit_hold : (s.joinPermit i).port.hold = s.port.hold := State.grants_hold 41
@[simp] theorem State.dropPermit_hold : (s.dropPermit i).port.hold = s.port.hold := by
  unfold State.dropPermit; split <;> simp
@[simp] theorem State.takeOvercurrent_hold : (s.takeOvercurrent i).port.hold = s.port.hold := by
  simp [State.takeOvercurrent]
@[simp] theorem State.endAtOnce_hold (c : EndCause) : (s.endAtOnce i c).port.hold = s.port.hold := by
  simp [State.endAtOnce]
@[simp] theorem State.endWithSummary_hold (c : EndCause) : (s.endWithSummary i c).port.hold = s.port.hold := by
  unfold State.endWithSummary; split <;> simp [State.askSummary, State.askLink]
@[simp] theorem State.endByZone_hold : (s.endByZone i).port.hold = s.port.hold := by
  unfold State.endByZone; split <;> simp [State.askLink]
@[simp] theorem State.startRun_hold (rerun : Bool) : (s.startRun i rerun).port.hold = s.port.hold := by
  simp [State.startRun]
@[simp] theorem State.enterSeated_hold : (s.enterSeated i).port.hold = s.port.hold := by
  simp only [State.enterSeated]; split <;> simp
@[simp] theorem State.teardown_hold : (s.teardown i).port.hold = s.port.hold := by
  simp only [State.teardown]; split <;> simp [State.leaveLink]

/-! ## Steps (chapter 2) -/

@[simp] theorem State.beginStep_hold (n : Nat) : (s.beginStep i n).port.hold = s.port.hold := rfl
@[simp] theorem State.askPhase_hold (n : Nat) : (s.askPhase i n).port.hold = s.port.hold := rfl
@[simp] theorem State.askCycleHalt_hold : (s.askCycleHalt i).port.hold = s.port.hold := rfl
@[simp] theorem State.enterOnce_hold (n : Nat) : (s.enterOnce i n).1.port.hold = s.port.hold := by
  unfold State.enterOnce; (repeat' split) <;> simp [State.beginCycle]
@[simp] theorem State.enterChain_hold (k : Nat) (x : State × Option Nat) :
    (enterChain i k x).1.port.hold = x.1.port.hold :=
  enterChain_keeps (P := fun t => t.port.hold = x.1.port.hold)
    (fun t n h => (State.enterOnce_hold (s := t) n).trans h) k rfl
@[simp] theorem State.enterStep_hold (n : Nat) : (s.enterStep i n).port.hold = s.port.hold := by simp [State.enterStep]
@[simp] theorem State.advance_hold : (s.advance i).port.hold = s.port.hold := by simp [State.advance]
@[simp] theorem State.takeLimit_hold (x : PlanStep) (target : Option Nat) (act : LimitAction) :
    (s.takeLimit i x target act).port.hold = s.port.hold := by
  unfold State.takeLimit State.haltLeftPhase
  (repeat' split) <;> simp [State.askLink]
@[simp] theorem State.testLimit_hold (x : PlanStep) : (s.testLimit i x).port.hold = s.port.hold := by
  unfold State.testLimit; (repeat' split) <;> simp
@[simp] theorem State.tickStep_hold : (s.tickStep i).port.hold = s.port.hold := by
  unfold State.tickStep State.testStep; (repeat' split) <;> simp
@[simp] theorem State.testReply_hold (x : LastStatus) : (s.testReply i x).port.hold = s.port.hold := by
  unfold State.testReply; (repeat' split) <;> simp
@[simp] theorem State.haltEnded_hold (p : Purpose) : (s.haltEnded i p).port.hold = s.port.hold := by
  unfold State.haltEnded; (repeat' split) <;> simp [State.cycleOff]
@[simp] theorem State.spinAgain_hold : (s.spinAgain i).port.hold = s.port.hold := by simp [State.spinAgain]
@[simp] theorem State.offTimeOver_hold : (s.offTimeOver i).port.hold = s.port.hold := by
  simp only [State.offTimeOver]; (repeat' split) <;> simp
@[simp] theorem State.returnToRun_hold : (s.returnToRun i).port.hold = s.port.hold := by
  unfold State.returnToRun State.resumeStep; (repeat' split) <;> simp
@[simp] theorem State.identified_hold (x : Identity) : (s.identified i x).port.hold = s.port.hold := by
  simp only [State.identified]; split <;> simp
@[simp] theorem State.readyHigh_hold : (s.readyHigh i).port.hold = s.port.hold := by
  simp only [State.readyHigh, State.startIdent, State.rejoin, State.joinLink, State.askLink]
  (repeat' split) <;> simp
@[simp] theorem State.slotTrip_hold : (s.slotTrip i).port.hold = s.port.hold := by
  unfold State.slotTrip; (repeat' split) <;> simp [State.askLink]
@[simp] theorem State.slotResume_hold : (s.slotResume i).port.hold = s.port.hold := by
  simp only [State.slotResume]; (repeat' split) <;> simp
@[simp] theorem State.slotGrace_hold : (s.slotGrace i).port.hold = s.port.hold := by
  unfold State.slotGrace; (repeat' split) <;> simp

/-! ## Watch rules and replies (chapters 3 and 6) -/

@[simp] theorem State.watchAct_hold (r : WatchRule) : (s.watchAct i r).port.hold = s.port.hold := by
  unfold State.watchAct State.watchSuspend State.watchReject; (repeat' split) <;> simp [State.askLink]
@[simp] theorem State.takeMatch_hold (w : FaultWord) : (s.takeMatch i w).port.hold = s.port.hold := by
  simp only [State.takeMatch, State.fillLatch, State.hitLatch, State.setLatch]
  (repeat' split) <;> simp
@[simp] theorem State.goodReply_hold : (s.goodReply l i).port.hold = s.port.hold := rfl
@[simp] theorem State.identTaken_hold (x : Identity) : (s.identTaken l i x).port.hold = s.port.hold := by
  simp only [State.identTaken]; split <;> simp
@[simp] theorem State.phaseTaken_hold (p : Purpose) : (s.phaseTaken l i p).port.hold = s.port.hold := by
  simp only [State.phaseTaken]; (repeat' split) <;> simp
@[simp] theorem State.statusTaken_hold (x : LastStatus) : (s.statusTaken l i x).port.hold = s.port.hold := by
  have fallback (u : State) : (u.writeFallback i x.grown).port.hold = u.port.hold := by
    unfold State.writeFallback; split <;> simp
  have watch (u : State) : (u.watchStep i x.fault).port.hold = u.port.hold := by
    unfold State.watchStep State.evaluate; split <;> simp
  have failed (u : State) : (u.failedStep i x.state).port.hold = u.port.hold := by
    unfold State.failedStep; split <;> simp
  have plan (u : State) : (u.planStep i x).port.hold = u.port.hold := by
    unfold State.planStep; split <;> simp
  simp [State.statusTaken, fallback, watch, failed, plan]
@[simp] theorem State.blockTaken_hold (op : SummaryOp) (b : SummaryBlock) :
    (s.blockTaken l i op b).port.hold = s.port.hold := by
  simp only [State.blockTaken, State.summaryComplete]; (repeat' split) <;> simp
@[simp] theorem State.missed_hold (x : Transaction) : (s.missed l x).port.hold = s.port.hold := by
  have silent (u : State) : (u.judgeSilent l x.slot).port.hold = u.port.hold := by
    unfold State.judgeSilent; split <;> simp
  have directed (u : State) (c : DirectedCode) (p : Purpose) : (u.directedMiss x.slot c p).port.hold = u.port.hold := by
    unfold State.directedMiss; (repeat' split) <;> simp [State.askLink]
  have summary (u : State) : (u.summaryMiss l x.slot).port.hold = u.port.hold := by
    simp only [State.summaryMiss, State.summaryFails]; (repeat' split) <;> simp
  unfold State.missed State.codeMiss
  split <;> simp [silent, directed, summary, State.endTransaction]

/-! ## Zones (chapter 4) -/

theorem State.foldl_hold {α : Type} {f : State → α → State} (each : ∀ t a, (f t a).port.hold = t.port.hold)
    (as : List α) : (as.foldl f s).port.hold = s.port.hold := by
  induction as generalizing s with
  | nil => rfl
  | cons a as ih => exact (ih (s := f s a)).trans (each s a)

@[simp] theorem State.shelfTrip_hold : (s.onShelf z State.slotTrip).port.hold = s.port.hold :=
  State.foldl_hold (fun _ _ => State.slotTrip_hold) _
@[simp] theorem State.shelfGrace_hold : (s.onShelf z State.slotGrace).port.hold = s.port.hold :=
  State.foldl_hold (fun _ _ => State.slotGrace_hold) _
@[simp] theorem State.shelfResume_hold : (s.onShelf z State.slotResume).port.hold = s.port.hold :=
  State.foldl_hold (fun _ _ => State.slotResume_hold) _
@[simp] theorem State.notifyTrip_hold : (s.notifyTrip z).port.hold = s.port.hold := by
  unfold State.notifyTrip; split <;> simp
@[simp] theorem State.graceOver_hold : (s.graceOver z).port.hold = s.port.hold := by
  unfold State.graceOver; split <;> simp
@[simp] theorem State.tripZone_hold (c : Cause) : (s.tripZone z c).port.hold = s.port.hold := by
  simp only [State.tripZone, State.startGrace]; split <;> simp
@[simp] theorem State.addCause_hold (c : Cause) : (s.addCause z c).port.hold = s.port.hold := by
  simp only [State.addCause]; (repeat' split) <;> simp
@[simp] theorem State.removeCause_hold (c : Cause) : (s.removeCause z c).port.hold = s.port.hold := by
  simp only [State.removeCause]; (repeat' split) <;> simp
@[simp] theorem State.resumeZone_hold : (s.resumeZone z).port.hold = s.port.hold := by simp [State.resumeZone]

/-! ## The handler's orders, on the slots' side (R23) -/

@[simp] theorem State.engage_hold : (s.engage i).port.hold = s.port.hold := rfl
@[simp] theorem State.orderBack_hold (o : Order) (why : HoldReason) : (s.orderBack o why).port.hold = s.port.hold := by
  simp only [State.orderBack, State.extractBack, State.insertBack]; (repeat' split) <;> simp
@[simp] theorem State.orderReturned_hold (o : Order) : (s.orderReturned o).port.hold = s.port.hold := by
  simp only [State.orderReturned]; (repeat' split) <;> simp
/-! ## Requests (R24 to R28, R136) -/

@[simp] theorem State.suspend_hold : (s.suspend i).port.hold = s.port.hold := by
  simp only [State.suspend]; split <;> simp [State.askLink]
@[simp] theorem State.continueSlot_hold : (s.continueSlot i).port.hold = s.port.hold := by
  unfold State.continueSlot; split <;> simp
@[simp] theorem State.barBin_hold (b : LaneNo) : (s.barBin b).port.hold = s.port.hold :=
  State.foldl_hold (fun _ _ => by simp [State.withdrawn]) _

end Sys2Proof.Machine
end

