-- ==== Sys2Proof/Proofs/DosesAndCartons.lean ====
section
/-! PROOFS. The doses stay within their cap, and the cartons and the ring within their sizes, through every command
(R103, R166, R174, R177). An event of the handler port ends the extraction under way, and with it the reservation,
before the port goes on; so the lane that is reserved is carried beside the port's state until the event is over. -/

namespace Sys2Proof.Machine

/-- From `s` to `t` the doses stay capped and the cartons within their sizes. In `t` the port has the state and the
current order `h`, and entries of the ring are reserved for lane `k`, or for none. -/
structure State.Bounded (s : State) (h : PortState × Option CurrentOrder) (k : Option LaneNo) (t : State) : Prop where
  hold : t.port.hold = h
  doses : s.dosesCapped → t.dosesCapped
  stock : s.cartonsWithinSizes → t.Stocked k

/-- From `s` to `t` the doses stay capped and the cartons within their sizes, with a reservation for the extraction that
is under way in `t` (R177). -/
def State.Sized (s t : State) : Prop := s.Bounded t.port.hold t.port.serves t

variable {s t u : State} {h : PortState × Option CurrentOrder} {k : Option LaneNo} {i : SlotNo} {z : ShelfNo}
  {b : LaneNo} {c : CurrentOrder} {o : Order} {st : PortState}

/-! ## The lane served and the port's state (R146, R177) -/

/-- The states of the port with an order whose outcome is open (R146). -/
def PortState.waits : PortState → Bool
  | .deskew | .offered | .inFlight | .checking => true
  | .idle | .confirming | .fault => false

theorem Port.live_eq (p : Port) : p.live = if p.state.waits then p.current else none := by
  unfold Port.live
  split <;> simp only [PortState.waits, *] <;> rfl

theorem Port.serves_of_hold {p q : Port} (e : p.hold = q.hold) : p.serves = q.serves := by
  obtain ⟨state, current⟩ := Prod.mk.injEq .. |>.mp e
  simp only [Port.serves, Port.live, state, current]

theorem Port.serves_of_waits {p : Port} (e : p.hold = (st, some c)) (waits : st.waits = true) :
    p.serves = c.order.kind.lane? := by
  obtain ⟨rfl, current⟩ := Prod.mk.injEq .. |>.mp e
  simp only [Port.serves, Port.live_eq, waits, current, if_true, Option.bind_some]

theorem Port.serves_of_settled {p : Port} (settled : p.state.waits = false) : p.serves = none := by
  simp [Port.serves, Port.live_eq, settled]

/-- The lane served is that of the current order. -/
theorem Port.current_of_serves {p : Port} (e : p.serves = some b) :
    ∃ c, p.current = some c ∧ c.order.kind = .extract b := by
  obtain ⟨c, live, kind⟩ := Port.serves_eq_some.mp e
  rw [Port.live_eq] at live
  split at live
  · exact ⟨c, live, kind⟩
  · cases live

theorem Port.currentIn_eq {p : Port} (e : p.currentIn st = some c) : p.hold = (st, some c) := by
  simp only [Port.currentIn] at e
  split at e
  · exact Port.hold_eq ‹_› e
  · cases e

/-- An eligible extraction has its bin in OPEN, and the entries it needs are free (R147). -/
theorem State.opened_of_eligible (e : t.eligible o = true) (kind : o.kind = .extract b) :
    (t.carton b).state = .opened ∧ (t.carton b).need ≤ t.ring.free := by
  simp only [State.eligible, State.orderTest, kind] at e
  split at e
  · cases e
  · split at e
    · cases e
    · split at e
      · cases e
      · split at e
        · cases e
        · exact ⟨not_not.mp ‹_›, Nat.not_lt.mp ‹_›⟩

/-! ## One dose record (R103) -/

/-- The cap binds the accumulator at every credit (R102, R103). -/
theorem DoseRec.credited_le (d : DoseRec) (x : DoseTable) (source : DoseSource) (temp : Option Nat) :
    (d.credited x source temp).acc ≤ Config.doseCap := Nat.min_le_left _ _

theorem State.dosesCapped.setDose {x : DoseRec} (g : t.dosesCapped) (le : x.acc ≤ Config.doseCap) :
    (t.setDose i x).dosesCapped := fun j => by
  by_cases own : j = i
  · subst own
    rwa [State.dose_setDose_same]
  · rw [State.dose_setDose_ne _ _ own]
    exact g j

theorem State.dosesCapped.of_doses (g : t.dosesCapped) (e : u.doses = t.doses) : u.dosesCapped := fun j => by
  simpa only [State.dose, e] using g j

theorem DoseRec.empty_le : DoseRec.empty.acc ≤ Config.doseCap := Nat.zero_le _

namespace State.Bounded

/-! ## Changes beside the cartons -/

/-- A change beyond the port's state, the dose records, the cartons and the ring. -/
theorem frame (g : s.Bounded h k t) (hold : u.port.hold = t.port.hold) (doses : u.doses = t.doses)
    (cartons : u.cartons = t.cartons) (ring : u.ring = t.ring) : s.Bounded h k u :=
  ⟨hold.trans g.hold, fun e => (g.doses e).of_doses doses, fun e => (g.stock e).frame cartons ring⟩

theorem notify {n : NoticeBody} (g : s.Bounded h k t) : s.Bounded h k (t.notify n) :=
  g.frame (by simp) (by simp) (by simp) (by simp)

/-- An operation of SC, by its frame. -/
theorem slots (g : s.Bounded h k t) (e : t.sameBeyondSlots u ↔ t.sameBeyondSlots t)
    (hold : u.port.hold = t.port.hold) : s.Bounded h k u := by
  obtain ⟨-, -, -, -, doses, -, -, -, cartons, ring, -, -⟩ := State.same_of_iff e
  exact g.frame hold doses cartons ring

/-- An operation of SC that empties a dose record, by its frame. -/
theorem emptied (g : s.Bounded h k t) (e : State.sameBeyondSlots { t with doses := t.doses.set i DoseRec.empty } u)
    (hold : u.port.hold = t.port.hold) : s.Bounded h k u := by
  have set : s.Bounded h k (t.setDose i DoseRec.empty) :=
    ⟨g.hold, fun e => (g.doses e).setDose DoseRec.empty_le, fun e => (g.stock e).frame rfl rfl⟩
  obtain ⟨-, -, -, -, doses, -, -, -, cartons, ring, -, -⟩ := e
  exact set.frame hold doses cartons ring

/-- An event at a zone, by its frame. -/
theorem zone {x : Zone} (g : s.Bounded h k t) (e : (t.setZone z x).sameBeyondSlots u)
    (hold : u.port.hold = t.port.hold) : s.Bounded h k u := by
  obtain ⟨-, -, -, -, doses, -, -, -, cartons, ring, -, -⟩ := e
  exact g.frame hold doses cartons ring

theorem setPort {x : Port} (g : s.Bounded h k t) : s.Bounded x.hold k (t.setPort x) :=
  ⟨rfl, g.doses, fun e => (g.stock e).frame rfl rfl⟩

/-- A rule of CM, by its frame and what it makes of the stock. -/
theorem cartons {k' : Option LaneNo} (g : s.Bounded h k t) (e : t.sameBeyondCartons u)
    (stock : t.Stocked k → u.Stocked k') : s.Bounded h k' u := by
  obtain ⟨-, -, -, -, -, -, -, -, -, -, doses, -, -, -, -, port, -⟩ := e
  exact ⟨by rw [port]; exact g.hold, fun e => (g.doses e).of_doses doses, fun e => stock (g.stock e)⟩

/-- The port's state and its current order are those of `h`, and the entries reserved are for the lane they serve. -/
theorem sized (g : s.Bounded h k t) (serves : t.port.serves = k) : s.Sized t := by
  obtain ⟨hold, doses, stock⟩ := g
  exact ⟨rfl, doses, serves ▸ stock⟩

theorem enterVacant {x : Option EndCause} (g : s.Bounded h k t) : s.Bounded h k (t.enterVacant i x) :=
  g.emptied (t.same_enterVacant i x) (by simp)
theorem startRun {again : Bool} (g : s.Bounded h k t) : s.Bounded h k (t.startRun i again) :=
  g.emptied (t.same_startRun i again) (by simp)
theorem teardown (g : s.Bounded h k t) : s.Bounded h k (t.teardown i) := g.emptied (t.same_teardown i) (by simp)
theorem enter {x : SlotState} {why : Option HoldReason} (g : s.Bounded h k t) : s.Bounded h k (t.enter i x why) :=
  g.slots (by simp) (by simp)
theorem withdrawOrder (g : s.Bounded h k t) : s.Bounded h k (t.withdrawOrder i) := g.slots (by simp) rfl
theorem dropPlan (g : s.Bounded h k t) : s.Bounded h k (t.dropPlan i) := g.slots (by simp) (by simp)
theorem modSlot {f : SlotRec → SlotRec} (g : s.Bounded h k t) : s.Bounded h k (t.modSlot i f) :=
  g.frame rfl rfl rfl rfl
theorem engage (g : s.Bounded h k t) : s.Bounded h k (t.engage i) := g.modSlot

theorem rawSeat {v : Seat} (g : s.Bounded h k t) : s.Bounded h k (t.rawSeat i v) := by
  simp only [State.rawSeat]
  split
  · exact g
  · split
    · exact g.modSlot.enter
    · exact g.modSlot

theorem enterSeated (g : s.Bounded h k t) : s.Bounded h k (t.enterSeated i) := by
  simp only [State.enterSeated]
  split
  · exact g.enter.startRun
  · exact g.enter

/-- A credit stays within the cap (R103). -/
theorem tickSlot (g : s.Bounded h k t) : s.Bounded h k (t.tickSlot i) := by
  have credited : s.Bounded h k (t.credit i) := by
    unfold State.credit
    split
    · exact ⟨g.hold, fun e => (g.doses e).setDose (DoseRec.credited_le _ _ _ _), fun e => (g.stock e).frame rfl rfl⟩
    · exact g
  exact credited.slots (State.same_tickStep _ _ i) State.tickStep_hold

/-- A function that keeps the bounds at every member of a list keeps them over the list. -/
theorem foldl {α : Type} {f : State → α → State} (each : ∀ (t : State) (a : α), s.Bounded h k t → s.Bounded h k (f t a))
    (as : List α) (g : s.Bounded h k t) : s.Bounded h k (as.foldl f t) := by
  induction as generalizing t with
  | nil => exact g
  | cons a as ih => exact ih (each t a g)

theorem minute (g : s.Bounded h k t) : s.Bounded h k t.minute := by
  refine foldl (fun u z g => ?_) _ (g.foldl (fun _ _ g => g.tickSlot) _)
  unfold State.tickZone
  split
  · exact g.frame rfl rfl rfl rfl
  · exact g

/-! ## Zone events (R76 to R79, R92, R93) -/

theorem addCause {x : Cause} (g : s.Bounded h k t) : s.Bounded h k (t.addCause z x) :=
  g.zone (t.same_addCause z x) (by simp)
theorem removeCause {x : Cause} (g : s.Bounded h k t) : s.Bounded h k (t.removeCause z x) :=
  g.zone (t.same_removeCause z x) (by simp)
theorem modZone {f : Zone → Zone} (g : s.Bounded h k t) : s.Bounded h k (t.modZone z f) := g.frame rfl rfl rfl rfl

theorem goodReading {v : Nat} (g : s.Bounded h k t) : s.Bounded h k (t.goodReading z v) := by
  simp only [State.goodReading, State.judgeOverLimit]
  split
  · exact g.modZone.removeCause.addCause
  · split
    · exact g.modZone.removeCause.removeCause
    · exact g.modZone.removeCause

theorem windowEnd (g : s.Bounded h k t) : s.Bounded h k (t.windowEnd z) := by
  simp only [State.windowEnd]
  split
  · exact g.modZone.removeCause
  · split
    · exact g.modZone.addCause
    · exact g.modZone

theorem graceOver (g : s.Bounded h k t) : s.Bounded h k (t.graceOver z) := by
  by_cases tripped : (t.zone z).state = .tripped
  · exact g.zone (State.same_graceOver tripped) (by simp)
  · rwa [State.graceOver, if_neg tripped]

/-! ## The current order's end (R157, R158, R160, R177) -/

/-- The reservation of an order that ends without a drive shipped is released (R177). -/
theorem endAtCarton (g : s.Bounded h o.kind.lane? t) : s.Bounded h none (t.endAtCarton o) := by
  refine g.cartons (by simp [State.sameBeyondCartons_refl]) fun stock => ?_
  unfold State.endAtCarton
  cases kind : o.kind with
  | insert => exact (kind ▸ stock : t.Stocked OrderKind.insert.lane?)
  | extract b => exact stock.release.endExtraction b

theorem orderBack {why : HoldReason} (g : s.Bounded h k t) : s.Bounded h k (t.orderBack o why) := by
  simp only [State.orderBack, State.extractBack, State.insertBack]
  split
  · split
    · exact g.engage.teardown
    · exact g.engage.enter
  · split
    · exact g.dropPlan.enterVacant
    · exact g.dropPlan.enter

theorem orderFails {e : HandlerEvent} {why : HoldReason} (g : s.Bounded h o.kind.lane? t) :
    s.Bounded h none (t.orderFails o e why) := g.endAtCarton.notify.orderBack

/-- A confirmed extraction is counted in with what it has reserved (R168, R177). -/
theorem orderConfirmed (g : s.Bounded h o.kind.lane? t) : s.Bounded h none (t.orderConfirmed o) := by
  unfold State.orderConfirmed
  cases kind : o.kind with
  | insert => exact (kind ▸ g : s.Bounded h OrderKind.insert.lane? t).enterSeated
  | extract b =>
    rw [kind] at g
    exact enterVacant (g.cartons (by simp [State.sameBeyondCartons_refl]) fun stock => stock.countIn)

/-! ## The handshake (R151 to R156) -/

/-- The port takes a state in which no order waits for its outcome. -/
theorem settle {x : Port} (g : s.Bounded h none t) (settled : x.state.waits = false) :
    s.Sized (t.setPort x) := g.setPort.sized (Port.serves_of_settled settled)

/-- The port is back in IDLE. -/
theorem idle {x : Option CurrentOrder} (g : s.Bounded (.idle, x) none t) : s.Sized t :=
  g.sized (Port.serves_of_settled (congrArg (PortState.waits ·.1) g.hold))

theorem portIdle (g : s.Bounded h k t) : s.Bounded (.idle, none) k t.portIdle := g.setPort (x := t.port.cleared .idle)

theorem endHandshake {x : PortOutcome} (g : s.Bounded h none t) : s.Sized (t.endHandshake c x) := by
  unfold State.endHandshake State.portIdle
  split
  · exact g.settle (by rfl)
  · split
    · exact g.settle (by rfl)
    · exact g.settle (by rfl)

theorem portFault {why : FaultReason} (g : s.Bounded h none t) : s.Sized (t.portFault why o) :=
  g.setPort.notify.sized (by rw [State.notify_port]; exact Port.serves_of_settled rfl)

/-- The port goes on with its current order. -/
theorem serve {x : Port} (g : s.Bounded h k t) (current : x.current = some c) (state : x.state = st := by rfl) :
    s.Bounded (st, some c) k (t.setPort x) := Port.hold_eq state current ▸ g.setPort

theorem current (g : s.Bounded (st, some c) k t) : t.port.current = some c := congrArg Prod.snd g.hold
theorem state (g : s.Bounded (st, some c) k t) : t.port.state = st := congrArg Prod.fst g.hold

theorem waiting (g : s.Bounded (st, some c) c.order.kind.lane? t) (waits : st.waits = true) : s.Sized t :=
  g.sized (Port.serves_of_waits g.hold waits)

theorem takeDone (g : s.Bounded (st, some c) c.order.kind.lane? t) : s.Sized (t.takeDone c) := by
  have checking := g.serve (x := { t.port with state := .checking, outcome := some .done, timer := none }) g.current
  simp only [State.takeDone]
  split
  · exact checking.orderConfirmed.endHandshake
  · exact waiting (st := .checking) (checking.serve g.current) rfl

theorem takeFail (g : s.Bounded h c.order.kind.lane? t) : s.Sized (t.takeFail c) := g.setPort.orderFails.endHandshake

theorem takeOutcome {x : PortOutcome} (g : s.Bounded (st, some c) c.order.kind.lane? t) :
    s.Sized (t.takeOutcome c x) := by
  unfold State.takeOutcome
  split
  · exact g.takeFail
  · split
    · exact g.takeFail
    · exact g.takeDone

theorem takeAccept (g : s.Bounded (st, some c) c.order.kind.lane? t) : s.Sized (t.takeAccept c) := by
  have flying := g.serve (x := { t.port with
    state := .inFlight, acceptTimeouts := 0
    timer := some { kind := .completion, expiry := Time.after t.now (c.settings.completionS * 1000) } }) g.current
  have still : s.Sized _ := flying.waiting rfl
  unfold State.takeAccept State.readLines
  split
  · split
    · exact flying.takeFail
    · split
      · exact flying.takeDone
      · exact still
  · exact still

theorem raiseOffer (g : s.Bounded (st, some c) c.order.kind.lane? t) : s.Sized (t.raiseOffer c) := by
  have offered := g.serve (x := { t.port with
    state := .offered, timer := some { kind := .accept, expiry := Time.after t.now (c.settings.acceptS * 1000) } })
    g.current
  simp only [State.raiseOffer]
  split
  · exact offered.takeAccept
  · exact offered.waiting rfl

theorem orderReturned (g : s.Bounded h k t) : s.Bounded h k (t.orderReturned o) := by
  simp only [State.orderReturned]
  split
  · split
    · exact g.engage.teardown
    · split
      · exact g.engage.withdrawOrder.enter
      · exact g.engage.enter
  · split
    · exact g.withdrawOrder.enterSeated
    · exact g

theorem acceptOver (g : s.Bounded h c.order.kind.lane? t) : s.Sized (t.acceptOver c) := by
  have returned (n : NoticeBody) := (g.setPort (x := { t.port.cleared .idle with
    queue := returnOrder c.order t.port.queue })).endAtCarton.notify (n := n) |>.orderReturned (o := c.order)
  simp only [State.acceptOver]
  split
  · exact (returned _).setPort.portFault
  · exact (returned _).settle (congrArg (PortState.waits ·.1) (returned _).hold)

/-- The completion timer expires (R160). -/
theorem completionOver (g : s.Bounded h c.order.kind.lane? t) :
    s.Sized (((t.setPort (t.port.cleared .idle)).orderFails c.order .completionTimeout .handlerTimeout).portFault
      .completionTimeout c.order) := g.setPort.orderFails.portFault

/-! ## Dispatch (R147 to R151) -/

theorem dispatch {n : Nat} (g : s.Bounded h none t) (eligible : t.eligible o = true) : s.Sized (t.dispatch o n) := by
  let c : CurrentOrder := { order := o, settings := t.port.settings }
  have begun := g.serve (c := c) (st := .deskew) (x := { t.port with
    queue := t.port.queue.filter (·.slot ≠ o.slot), current := some c, streak := n, state := .deskew }) rfl
  have under {u : State} (w : s.Bounded (.deskew, some c) o.kind.lane? u) :
      s.Sized (if c.settings.deskew = 0 then u.raiseOffer c
        else u.setPort { u.port with
          timer := some { kind := .deskew, expiry := Time.after u.now c.settings.deskew } }) := by
    split
    · exact raiseOffer (c := c) w
    · exact waiting (c := c) (st := .deskew) (w.serve w.current w.state) rfl
  unfold State.dispatch
  refine under ?_
  cases kind : o.kind with
  | insert => exact begun
  | extract b =>
    obtain ⟨opened, free⟩ := State.opened_of_eligible eligible kind
    have reserved : s.Bounded (.deskew, some c) (some b) _ :=
      begun.cartons (by simp [State.reserve, State.sameBeyondCartons_refl]) fun stock =>
        stock.reserve (i := o.slot) opened free
    exact reserved.modSlot.enter

end State.Bounded

namespace State.Sized

/-! ## Whole events -/

theorem refl (s : State) : s.Sized s := ⟨rfl, id, s.cartonsWithinSizes_iff.mp⟩

/-- What is left of the port's state and its current order, with the entries reserved, is the lane served. -/
theorem of_bounded (g : s.Bounded t.port.hold t.port.serves u) : s.Sized u := g.sized (Port.serves_of_hold g.hold)

theorem frame (g : s.Sized t) (hold : u.port.hold = t.port.hold) (doses : u.doses = t.doses)
    (cartons : u.cartons = t.cartons) (ring : u.ring = t.ring) : s.Sized u :=
  of_bounded (State.Bounded.frame g hold doses cartons ring)

theorem slots (g : s.Sized t) (e : t.sameBeyondSlots u ↔ t.sameBeyondSlots t) (hold : u.port.hold = t.port.hold) :
    s.Sized u := of_bounded (State.Bounded.slots g e hold)

theorem setLine {x : Line} (g : s.Sized t) : s.Sized (t.setLine x) := g.frame rfl rfl rfl rfl

theorem setPort {x : Port} (g : s.Sized t) (hold : x.hold = t.port.hold := by rfl) : s.Sized (t.setPort x) :=
  g.frame hold rfl rfl rfl

/-- A rule of CM with the port as it is. -/
theorem cartons (g : s.Sized t) (e : t.sameBeyondCartons u)
    (stock : t.Stocked t.port.serves → u.Stocked t.port.serves) : s.Sized u := of_bounded (State.Bounded.cartons g e stock)

/-- The port serves an order whose outcome is open. -/
theorem serving (g : s.Sized t) (e : t.port.currentIn st = some c) (waits : st.waits = true) :
    s.Bounded (st, some c) c.order.kind.lane? t := by
  have hold := Port.currentIn_eq e
  exact hold ▸ Port.serves_of_waits hold waits ▸ g

theorem settled (g : s.Sized t) (settled : t.port.state.waits = false) :
    s.Bounded t.port.hold none t := Port.serves_of_settled settled ▸ g

/-! ## The end of an event (R149, R192) -/

theorem arbitrate (g : s.Sized t) : s.Sized t.arbitrate := by
  unfold State.arbitrate
  split
  · rename_i idle
    have dispatched {o : Order} {n : Nat} {p : Order → Bool}
        (e : t.port.queue.find? (fun o => p o && t.eligible o) = some o) : s.Sized (t.dispatch o n) := by
      have found := List.find?_some e
      simp only [Bool.and_eq_true] at found
      exact (g.settled (by rw [idle]; rfl)).dispatch found.2
    unfold State.arbiter
    split
    · exact g.setPort
    · exact dispatched ‹_›
    · exact dispatched ‹_›
    · split
      · exact dispatched ‹_›
      · exact dispatched ‹_›
  · exact g

theorem finish (g : s.Sized t) : s.Sized t.finish := by
  have linked : s.Sized t.advanceLinks := g.frame rfl rfl rfl rfl
  exact linked.arbitrate.setLine

theorem of_finish (g : s.Bounded t.port.hold t.port.serves u) : s.Sized u.finish := (of_bounded g).finish

/-! ## The seat (R5 to R7) -/

theorem seatEvidence (g : s.Sized t) : s.Sized (t.seatEvidence i) := by
  unfold State.seatEvidence
  split
  · rename_i c current
    split
    · rename_i taken
      simp only [Bool.and_eq_true, decide_eq_true_eq] at taken
      obtain ⟨⟨checking, -⟩, -⟩ := taken
      have serving := g.serving (st := .checking) (c := c) (by simp [Port.currentIn, checking, current])
        rfl
      exact serving.orderConfirmed.endHandshake
    · exact g
  · exact g

theorem seatClosed (g : s.Sized t) : s.Sized (t.seatClosed i) := by
  have seated : s.Sized ((t.withdrawOrder i).enterSeated i) := of_bounded (State.Bounded.withdrawOrder g).enterSeated
  unfold State.seatClosed
  split
  · exact seated
  · exact seated
  · split
    · exact seated
    · exact g.seatEvidence
  · exact g.seatEvidence

theorem seatOpened (g : s.Sized t) : s.Sized (t.seatOpened i) := by
  unfold State.seatOpened
  split
  case h_10 => exact g.seatEvidence
  all_goals exact of_bounded (State.Bounded.teardown g)

theorem debounceOver (g : s.Sized t) : s.Sized (t.debounceOver i) := by
  have stable : s.Sized (t.modSlot i fun r => { r with debounce := none, seatStable := r.seatRaw }) :=
    g.frame rfl rfl rfl rfl
  simp only [State.debounceOver]
  split
  · split
    · split
      · exact of_bounded (State.Bounded.enter stable)
      · exact of_bounded (State.Bounded.enterVacant stable)
    · exact stable
  · split
    · exact stable.seatClosed
    · exact stable.seatOpened

/-! ## Requests served (R189) -/

theorem abortSlot (g : s.Sized t) (takes : t.abortSlot i = some u) : s.Sized u := by
  unfold State.abortSlot at takes
  split at takes
  · split at takes
    · cases takes
      exact of_bounded (State.Bounded.withdrawOrder g).dropPlan.enterVacant
    · cases takes
  case h_7 =>
    cases takes
    exact g.slots (by simp [State.abortEnding]) (by simp [State.abortEnding])
  case h_8 =>
    cases takes
    exact g.slots (by simp) (by simp)
  case h_9 => cases takes
  all_goals
    cases takes
    exact g.slots (State.same_endAtOnce t t i _) (by simp)

theorem served (g : s.Sized t) (e : t.Served u) : s.Sized u := by
  cases e with
  | unchanged => exact g
  | opened i p => exact g.slots (by simp [State.openSlot]) (by simp [State.openSlot])
  | started i p | rerun i p =>
    have assigned : s.Sized (t.assignPlan i p) := g.frame rfl rfl rfl rfl
    exact of_bounded (State.Bounded.startRun assigned)
  | suspended i =>
    refine g.slots ?_ (by simp)
    simp only [State.suspend]
    split <;> simp
  | continued i =>
    refine g.slots ?_ (by simp)
    unfold State.continueSlot
    split <;> simp
  | ended i => exact g.slots (by simp) (by simp)
  | aborted i u takes => exact g.abortSlot takes
  | released i b => exact g.slots (by simp [State.releaseSlot]) (by simp [State.releaseSlot])
  | spinSet x =>
    have set : s.Sized { t with spin := x } := g.frame rfl rfl rfl rfl
    exact set.slots (by simp) (by simp)
  | planLoaded | linkSet | profileLoaded | zoneStarted | zoneStopped | zoneSet | dosesSet | rulesSet | watchCleared
  | sortSet | portSet | maskSet | timeSet =>
    exact g.frame rfl rfl rfl rfl
  | zoneResumed z => exact of_bounded (State.Bounded.zone g (t.same_resumeZone z) (by simp))
  | barred b => 
    have set : s.Sized (t.setBar b true) := g.frame rfl rfl rfl rfl
    exact of_bounded (State.Bounded.foldl (fun _ _ g => g.withdrawOrder.enter) _ set)
  | portReset fault => exact (g.settled (by rw [fault]; rfl)).settle rfl
  | binSet b capacity number some =>
    exact g.cartons (by simp [State.sameBeyondCartons_refl]) fun stock => stock.config some
  | recordsReleased n x =>
    exact g.cartons (by simp [State.releaseRecords, State.sameBeyondCartons_refl]) fun stock => stock.releaseRecords

/-! ## The line port (chapter 10) -/

theorem serveHead (g : s.Sized t) : s.Sized t.serveHead := by
  unfold State.serveHead
  split
  · exact g
  · split
    · exact (g.setLine.served (Request.answer_served _ _)).setLine
    · exact g

theorem arrive {r : Request} (g : s.Sized t) : s.Sized (t.arrive r) := g.setLine.serveHead.finish

/-- HP at RESTART drops its current order, and CM ends its extraction; CM has no reservation left then (R145, R170). -/
theorem restartPort (g : s.Sized t) : s.Bounded (.idle, none) none t.restartPort.release := by
  have released {k : Option LaneNo} {u : State} (g : s.Bounded (.idle, none) k u) :
      s.Bounded (.idle, none) none u.release := g.cartons (by simp [State.sameBeyondCartons_refl]) fun stock => stock.release
  have dropped := State.Bounded.setPort (x := { t.port.cleared .idle with
    queue := [], acceptTimeouts := 0, streak := 0, fault := none }) g
  simp only [State.restartPort]
  split
  · rename_i c _
    unfold State.endAtCarton
    cases c.order.kind with
    | insert => exact released dropped
    | extract b =>
      exact released (dropped.cartons (k' := none) (by simp [State.sameBeyondCartons_refl]) fun stock =>
        stock.release.endExtraction b)
  · exact released dropped

/-- RESTART empties every dose record, and leaves the cartons and the ring as CM has them (R98, R201). -/
theorem restart (g : s.Sized t) : s.Sized t.restart := by
  have emptied : s.Sized (t.setLine { t.line with notices := [] }) := g.setLine
  obtain ⟨hold, -, stock⟩ := emptied.restartPort
  generalize e : (t.setLine { t.line with notices := [] }).restartPort.release = u at hold stock
  have port : t.restart.port = u.port := by rw [State.restart, e]; rfl
  refine State.Bounded.sized (h := (.idle, none)) (k := none) ⟨by rw [port, hold], fun _ i => ?_, fun within => ?_⟩ ?_
  · have record : t.restart.dose i = DoseRec.empty := by
      simp [State.restart, State.dose, State.restartLine, State.restartRecords]
    rw [record]
    exact DoseRec.empty_le
  · exact (stock within).frame (by rw [State.restart, e]; rfl) (by rw [State.restart, e]; rfl)
  · rw [port]
    exact Port.serves_of_settled (congrArg (PortState.waits ·.1) hold)

theorem frameOut (g : s.Sized t) : s.Sized t.frameOut := by
  have after (x : AfterSent) : s.Sized ((t.setLine { t.line with sending := none }).afterSent x) := by
    cases x with
    | nothing => exact g.setLine
    | newRate r => exact g.setLine.setLine
    | restart => exact g.setLine.restart
  unfold State.frameOut
  split
  · exact (after _).serveHead.finish
  · exact g

theorem receive {x : Byte} (g : s.Sized t) : s.Sized (t.receive x) := by
  have lapsed : s.Sized t.lapse := g.setLine
  simp only [State.receive]
  split
  · split
    · exact lapsed.setLine
    · exact lapsed
  · simp only [State.collect]
    split
    · exact lapsed
    · split
      · exact lapsed.setLine
      · split
        · unfold State.frameTaken
          split
          · exact lapsed.setLine.arrive
          · exact lapsed.setLine
        · exact lapsed.setLine

theorem receiveAll (g : s.Sized t) (bytes : List Byte) : s.Sized (t.receiveAll bytes) := by
  unfold State.receiveAll
  induction bytes generalizing t with
  | nil => exact g
  | cons x bytes ih => exact ih g.receive

/-! ## Commands -/

/-- An event that is taken where a condition holds, and is discarded elsewhere (R4). -/
theorem taken {p : Prop} [Decidable p] {v : State} (yes : p → s.Sized u) (no : s.Sized v) :
    s.Sized (if p then u else v) := by
  split
  · exact yes ‹_›
  · exact no

/-- An event that ends a drive's reply on a link, where one is awaited (R52). -/
theorem reply {x : Option Transaction} {f : Transaction → State} (g : s.Sized t) (hf : ∀ y, s.Sized (f y)) :
    s.Sized (match x with | some y => f y | none => t) := by
  split
  · exact hf _
  · exact g

theorem badReply {l : ShelfNo} {bytes : List Byte} (g : s.Sized t) : s.Sized (t.badReply l bytes) := by
  unfold State.badReply
  split
  · exact g.frame rfl rfl rfl rfl
  · exact g

/-- An event that ends a state of the handler port with an order current, whose outcome is open (R146). -/
theorem atPort {f : CurrentOrder → State} (g : s.Sized t) (k : s.Sized u) (waits : st.waits = true)
    (hf : ∀ c, s.Bounded (st, some c) c.order.kind.lane? t → s.Sized (f c)) :
    s.Sized (match t.port.currentIn st with | some c => f c | none => u) := by
  split
  · exact hf _ (g.serving ‹_› waits)
  · exact k

/-- An event that ends CONFIRMING, with nothing reserved (R156). -/
theorem confirming {f : CurrentOrder → State} (g : s.Sized t) (k : s.Sized u)
    (hf : ∀ c, s.Bounded (.confirming, some c) none t → s.Sized (f c)) :
    s.Sized (match t.port.currentIn .confirming with | some c => f c | none => u) := by
  split
  · rename_i e
    have hold := Port.currentIn_eq e
    exact hf _ (hold ▸ g.settled (congrArg (PortState.waits ·.1) hold))
  · exact k

end State.Sized

/-- The handshake over in CONFIRMING, CM takes up a close that was held for it (R142, R170). -/
theorem State.Bounded.handshakeOver (g : s.Bounded h none t) : s.Bounded h none (t.handshakeOver o) := by
  refine g.cartons (by simp [State.sameBeyondCartons_refl]) fun stock => ?_
  unfold State.handshakeOver
  split
  · exact stock.endHeld _
  · exact stock

/-- At power-on every dose is 0, and cartons and ring are empty (R98, R165, R174). -/
theorem State.sized_ofInputs (x : Inputs) (s : State) : s.Sized { State.ofInputs x with pending := s.pending } :=
  ⟨rfl, fun _ => State.ofInputs_dosesCapped x, fun _ =>
    ((State.cartonsWithinSizes_iff _).mp (State.ofInputs_cartonsWithinSizes x)).frame rfl rfl⟩

/-- Every command keeps the doses capped and the cartons within their sizes. -/
theorem exec_sized (c : Instr) (s : State) : ∃ t, exec c s = .next t ∧ s.Sized t := by
  have g := State.Sized.refl s
  have level {x : Port} (hold : x.hold = s.port.hold := by rfl) : s.Sized (s.setPort x) := g.setPort hold
  cases c with
  | powerOn x => exact ⟨_, rfl, s.sized_ofInputs x⟩
  | restartEffect straps =>
    have strapped : s.Sized (s.setStraps straps) := g.frame rfl rfl rfl rfl
    exact ⟨_, rfl, .taken (fun _ => strapped.frameOut) g⟩
  | lineRateChange => exact ⟨_, rfl, .taken (fun _ => g.frameOut) g⟩
  | frameReceived bytes => exact ⟨_, rfl, g.receiveAll bytes⟩
  | lineGap => exact ⟨_, rfl, .taken (fun _ => g.setLine) g⟩
  | lineBreak | framingDiscard => exact ⟨_, rfl, g.setLine⟩
  | frameSent => exact ⟨_, rfl, g.frameOut⟩
  | startByte | lengthDiscard => exact ⟨_, rfl, g.receive⟩
  | secondTick => exact ⟨_, rfl, g.frame rfl rfl rfl rfl⟩
  | doseMinuteTick =>
    have ticked : s.Sized { s with clock := s.clock.minute } := g.frame rfl rfl rfl rfl
    exact ⟨_, rfl, .of_finish (State.Bounded.minute ticked)⟩
  | rawSeatChange => exact ⟨_, rfl, .of_finish (State.Bounded.rawSeat g)⟩
  | seatDebounceExpiry => exact ⟨_, rfl, .taken (fun _ => g.debounceOver.finish) g⟩
  | readySeen slot =>
    exact ⟨_, rfl, .taken (fun _ => (g.slots (s.same_readyHigh s slot) State.readyHigh_hold).finish) g⟩
  | spinLimitExpiry slot =>
    exact ⟨_, rfl, .taken (fun _ => (g.slots (s.same_endAtOnce s slot _) (State.endAtOnce_hold _)).finish) g⟩
  | overcurrentLineActive slot active =>
    have leveled : s.Sized (s.setOvercurrent slot active) := g.frame rfl rfl rfl rfl
    exact ⟨_, rfl, .taken (fun _ =>
      (leveled.slots (State.same_takeOvercurrent _ _ slot) State.takeOvercurrent_hold).finish) leveled⟩
  | inrushBlankingEnd slot =>
    have unblanked : s.Sized (s.modSlot slot fun r => { r with blanking := none }) := g.frame rfl rfl rfl rfl
    exact ⟨_, rfl, .taken (fun _ => .taken (fun _ =>
      (unblanked.slots (State.same_takeOvercurrent _ _ slot) State.takeOvercurrent_hold).finish) unblanked) g⟩
  | stepTimeLimit slot =>
    refine ⟨_, rfl, ?_⟩
    split
    · exact .taken (fun _ => (g.slots (s.same_testLimit s slot _) (State.testLimit_hold _)).finish) g
    · exact g
  | cycleOffTimeExpiry slot =>
    exact ⟨_, rfl, .taken (fun _ => (g.slots (s.same_offTimeOver s slot) State.offTimeOver_hold).finish) g⟩
  | frameStart | poll | directedTransaction | summaryTransaction =>
    exact ⟨_, rfl, .taken (fun _ => g.frame rfl rfl rfl rfl) g⟩
  | statusReply =>
    refine ⟨_, rfl, g.reply fun y => ?_⟩
    split
    · split
      · exact (g.slots (s.same_statusTaken s _ _ _) (State.statusTaken_hold _)).finish
      · exact g.badReply
    · exact g.badReply
  | identReply =>
    refine ⟨_, rfl, g.reply fun y => ?_⟩
    split
    · split
      · exact (g.slots (s.same_identTaken s _ _ _) (State.identTaken_hold _)).finish
      · exact g.badReply
    · exact g.badReply
  | phaseStartReply =>
    refine ⟨_, rfl, g.reply fun y => ?_⟩
    split
    · exact (g.slots (s.same_phaseTaken s _ _ _) (State.phaseTaken_hold _)).finish
    · exact g.badReply
  | haltReply link =>
    refine ⟨_, rfl, g.reply fun y => ?_⟩
    split
    · have replied : s.Sized (s.goodReply link y.slot) := g.frame rfl rfl rfl rfl
      exact (replied.slots (State.same_haltEnded _ _ y.slot _) (State.haltEnded_hold _)).finish
    · exact g.badReply
  | summaryReply =>
    refine ⟨_, rfl, g.reply fun y => ?_⟩
    split
    · split
      · exact (g.slots (s.same_blockTaken s _ _ _ _) (State.blockTaken_hold _ _)).finish
      · exact g.badReply
    · exact g.badReply
  | miss link =>
    exact ⟨_, rfl, g.reply fun y =>
      .taken (fun _ => (g.slots (s.same_missed s link y) (State.missed_hold y)).finish) g⟩
  | airSensorRead =>
    exact ⟨_, rfl, (State.Sized.taken (fun _ => .of_bounded (State.Bounded.goodReading g))
      (.of_bounded (State.Bounded.modZone g).addCause)).finish⟩
  | sensorNoResponse => exact ⟨_, rfl, .of_finish (State.Bounded.modZone g).addCause⟩
  | cutoffChange =>
    exact ⟨_, rfl, (State.Sized.taken (fun _ => .of_bounded (State.Bounded.addCause g))
      (.of_bounded (State.Bounded.removeCause g))).finish⟩
  | tachEdge => exact ⟨_, rfl, g.frame rfl rfl rfl rfl⟩
  | fanWindowEnd => exact ⟨_, rfl, .of_finish (State.Bounded.windowEnd g)⟩
  | segmentEnd | controlInterval | pwmPeriodStart | pwmOnTimeEnd =>
    exact ⟨_, rfl, .taken (fun _ => g.frame rfl rfl rfl rfl) g⟩
  | tripGraceExpiry => exact ⟨_, rfl, .taken (fun _ => .of_finish (State.Bounded.graceOver g)) g⟩
  | orderDispatch => exact ⟨_, rfl, g.finish⟩
  | handlerReadyRise =>
    have ready : s.Sized (s.setPort { s.port with readyLine := true }) := level
    exact ⟨_, rfl, ready.finish⟩
  | deskewExpiry => exact ⟨_, rfl, g.atPort g rfl fun c k => k.raiseOffer.finish⟩
  | handlerAccept =>
    exact ⟨_, rfl, g.atPort level rfl fun c k =>
      (k.serve (by exact k.current) (by exact k.state)).takeAccept.finish⟩
  | acceptTimeout => exact ⟨_, rfl, g.atPort g rfl fun c k => k.acceptOver.finish⟩
  | handlerDone | handlerFail =>
    exact ⟨_, rfl, g.atPort level rfl fun c k =>
      .taken (fun _ => (k.serve (by exact k.current) (by exact k.state)).takeOutcome.finish) level⟩
  | evidenceTimeout =>
    exact ⟨_, rfl, g.atPort g rfl fun c k => k.orderFails.endHandshake.finish⟩
  | completionTimeout =>
    exact ⟨_, rfl, g.atPort g rfl fun c k => k.completionOver.finish⟩
  | handlerLineDrop line =>
    have low : s.Sized (s.setPort (s.port.setLow line)) := g.setPort (by cases line <;> rfl)
    refine ⟨_, rfl, g.confirming low fun c k => .taken (fun _ => State.Sized.finish ?_) low⟩
    exact (k.setPort (x := s.port.setLow line)).portIdle.handshakeOver.idle
  | releaseTimeout => exact ⟨_, rfl, g.confirming g fun c k => k.handshakeOver.portFault.finish⟩
  | cartonPresentRise lane =>
    exact ⟨_, rfl, (g.cartons (by simp [State.sameBeyondCartons_refl]) fun stock => stock.presentRise lane).finish⟩
  | cartonPresentDrop lane =>
    refine ⟨_, rfl, (g.cartons (u := s.presentDrop lane) ?_ fun stock => stock.presentDrop fun e => ?_).finish⟩
    · simp only [State.presentDrop]
      split <;> simp [State.sameBeyondCartons_refl]
    · obtain ⟨c, current, kind⟩ := Port.current_of_serves e
      simp [State.extracting, current, kind]
  | unknown => exact ⟨_, rfl, g.arrive⟩
  | slotOpen | slotStart | slotSuspend | slotContinue | slotEnd | slotAbort | slotRelease | slotRerun | spinSettings
  | slotQuery | planLoad | planRead | linkConfig | profileLoad | zoneStart | zoneStop | zoneResume | zoneSettings
  | zoneQuery | doseTableLoad | watchLoad | watchClear | weightsLoad | gradeMapLoad | faultTableLoad | gradeMapRead
  | binBar | binUnbar | sortProbe | handlerSettings | handlerReset | queueQuery | binConfig | binQuery | manifestRead
  | manifestRelease | lineConfig | noticeMask | setTime | rackQuery | restart => exact ⟨_, rfl, g.arrive⟩

/-- Every step keeps the doses capped and the cartons within their sizes, or idles. -/
theorem step_sized {s t : State} (run : step s = .next t) :
    (s.dosesCapped → t.dosesCapped) ∧ (s.cartonsWithinSizes → t.cartonsWithinSizes) := by
  rcases step_cases run with ⟨c, rest, -, run⟩ | ⟨-, rfl⟩
  · obtain ⟨u, run', kept⟩ := exec_sized c { s with pending := rest }
    obtain rfl : u = t := by simpa using run'.symm.trans run
    exact ⟨kept.doses, fun within => u.cartonsWithinSizes_iff.mpr (kept.stock within)⟩
  · rcases s.idle_eq with ⟨c, e⟩ | e
    · exact e ▸ ⟨id, id⟩
    · exact e ▸ ⟨id, id⟩

end Sys2Proof.Machine

open Sys2Proof Sys2Proof.Machine

/-- Settles O58: a step carries out a command (`exec_sized`), which keeps each of the two by itself, or idles. -/
theorem stepKeepsDosesAndCartons : Obligations.StepKeepsDosesAndCartons :=
  ⟨fun _ _ capped run => (step_sized run).1 capped, fun _ _ within run => (step_sized run).2 within⟩
end

