-- ==== Sys2Proof/Proofs/TableLoads.lean ====
section
/-! PROOFS. The table loads and WATCH CLEAR (R105, R118, R120, R132 to R134). A reader of entries gives back what the
writer of the same entries wrote, so a load answers with the table that now stands. -/

namespace Sys2Proof.Machine

variable {s t : State} {tag slot : Byte} {body : List Byte} {a : Answer} {i : SlotNo}

/-! ## The requests carried out -/

theorem State.withSlot_outside (h : ofNum 40 slot.toNat = none) (f : SlotNo → State × Answer) :
    s.withSlot slot f = s.refuse .range := by
  simp [State.withSlot, h]

theorem exec_weightsLoad (ready : s.ready) (e : serveWeightsLoad body s = (t, a)) :
    exec (.weightsLoad tag body) s = .next (t.answered tag .weightsLoad a) :=
  congrArg Host.Outcome.next (State.request_serves (c := .weightsLoad) ready e)

theorem exec_faultTableLoad (ready : s.ready) (e : serveFaultTableLoad body s = (t, a)) :
    exec (.faultTableLoad tag body) s = .next (t.answered tag .faultTableLoad a) :=
  congrArg Host.Outcome.next (State.request_serves (c := .faultTableLoad) ready e)

theorem exec_gradeMapLoad (ready : s.ready) (e : serveGradeMapLoad body s = (t, a)) :
    exec (.gradeMapLoad tag body) s = .next (t.answered tag .gradeMapLoad a) :=
  congrArg Host.Outcome.next (State.request_serves (c := .gradeMapLoad) ready e)

theorem exec_doseTableLoad (ready : s.ready) (e : serveDoseTableLoad body s = (t, a)) :
    exec (.doseTableLoad tag body) s = .next (t.answered tag .doseTableLoad a) :=
  congrArg Host.Outcome.next (State.request_serves (c := .doseTableLoad) ready e)

theorem exec_watchLoad (ready : s.ready) (e : serveWatchLoad body s = (t, a)) :
    exec (.watchLoad tag body) s = .next (t.answered tag .watchLoad a) :=
  congrArg Host.Outcome.next (State.request_serves (c := .watchLoad) ready e)

theorem exec_watchClear (ready : s.ready) (e : serveWatchClear body s = (t, a)) :
    exec (.watchClear tag body) s = .next (t.answered tag .watchClear a) :=
  congrArg Host.Outcome.next (State.request_serves (c := .watchClear) ready e)

/-! ## Entries of one size -/

theorem length_flatten_entries {n : Nat} {es : List (List Byte)} (size : ∀ e ∈ es, e.length = n) :
    es.flatten.length = n * es.length := by
  rw [List.length_flatten, List.map_congr_left size]
  simp [Nat.mul_comm]

theorem pieces_flatten {n : Nat} {es : List (List Byte)} (size : ∀ e ∈ es, e.length = n) :
    pieces n es.length es.flatten = es := by
  induction es with
  | nil => rfl
  | cons e es ih =>
    have len : e.length = n := size e (by simp)
    rw [List.flatten_cons, List.length_cons, pieces, List.take_left' len, List.drop_left' len,
      ih fun x m => size x (by simp [m])]

/-- Entries of one byte each. -/
theorem flatten_u8 {α : Type} (f : α → Nat) (xs : List α) :
    (xs.map fun x => u8 (f x)).flatten = xs.map fun x => BitVec.ofNat 8 (f x) := by
  induction xs with
  | nil => rfl
  | cons x xs ih => rw [List.map_cons, List.flatten_cons, ih]; rfl

/-- A vector built from its own list is itself, whatever stands for a missing entry. -/
theorem ofFn_getD {α : Type} {n : Nat} (v : Vector α n) (d : α) :
    (Vector.ofFn fun k : Fin n => v.toList.getD k.val d) = v := by
  ext k
  simp

/-! ## Weights (R132) -/

theorem serveWeightsLoad_short (len : body.length ≠ 6) : serveWeightsLoad body s = s.refuse .length := by
  unfold serveWeightsLoad
  split
  · simp at len
  · rfl

theorem serveWeightsLoad_of (d p u m h f : Byte) :
    serveWeightsLoad [d, p, u, m, h, f] s =
      ({ s with
        sort := { s.sort with
          weights :=
            { wd := d.toNat, ws := p.toNat, wu := u.toNat, wm := m.toNat, wh := h.toNat, floor := f.toNat } } },
        Answer.accept [d, p, u, m, h, f]) := by
  simp [serveWeightsLoad, Weights.bytes, u8_toNat]

/-! ## The fault table (R134) -/

theorem readBin_byte (b : Bin) : readBin (BitVec.ofNat 8 b.val) = some b := by
  have val : (BitVec.ofNat 8 b.val).toNat = b.val := by
    rw [BitVec.toNat_ofNat]
    omega
  simp [readBin, val]

theorem readBins_bytes (bs : List Bin) : readBins (bs.map fun b => BitVec.ofNat 8 b.val) = some bs := by
  induction bs with
  | nil => rfl
  | cons b bs ih => rw [List.map_cons, readBins, readBin_byte, ih]

theorem readBins_outside {b : Byte} (sent : b ∈ body) (large : 12 < b.toNat) : readBins body = none := by
  induction body with
  | nil => simp at sent
  | cons c body ih =>
    rcases List.mem_cons.mp sent with rfl | sent
    · have unread : readBin b = none := dif_neg (by omega)
      rw [readBins, unread]
    · rw [readBins, ih sent]
      cases readBin c <;> rfl

theorem serveFaultTableLoad_short (len : body.length ≠ 12) : serveFaultTableLoad body s = s.refuse .length :=
  if_pos len

theorem serveFaultTableLoad_outside {b : Byte} (len : body.length = 12) (sent : b ∈ body) (large : 12 < b.toNat) :
    serveFaultTableLoad body s = s.refuse .range := by
  rw [serveFaultTableLoad, if_neg (not_not.mpr len), readBins_outside sent large]

theorem serveFaultTableLoad_of (v : Vector Bin 12) :
    serveFaultTableLoad (v.toList.map fun b => BitVec.ofNat 8 b.val) s =
      ({ s with sort := { s.sort with faults := v } },
        Answer.accept (v.toList.map fun b => BitVec.ofNat 8 b.val)) := by
  rw [serveFaultTableLoad, if_neg (by simp), readBins_bytes]
  simp only [ofFn_getD, flatten_u8]

/-! ## The grade map (R133) -/

/-- A band as GRADE MAP LOAD takes it. -/
def Band.bytes (b : Band) : List Byte := u16 b.lower ++ u8 b.bin.val

theorem bandsBytes_eq (m : List Band) :
    bandsBytes m = BitVec.ofNat 8 m.length :: (m.map Band.bytes).flatten := by
  rw [← List.length_map (as := m) (f := Band.bytes)]
  rfl

theorem Band.length_bytes {m : List Band} : ∀ e ∈ m.map Band.bytes, e.length = 3 := by
  simp [Band.bytes, u16, u8]

theorem readBands_bytes {m : List Band} (fits : ∀ b ∈ m, b.lower ≤ 65535) :
    readBands (m.map Band.bytes) = some m := by
  induction m with
  | nil => rfl
  | cons b m ih =>
    have first : readBand b.bytes = some b := by
      change (readBin (BitVec.ofNat 8 b.bin.val)).map _ = _
      rw [readBin_byte, be16_bytes (fits b (by simp))]
      rfl
    rw [List.map_cons, readBands, first, ih fun x mem => fits x (by simp [mem])]

/-- Bounds in order as R133 says it: at most 1000, strictly descending, the last 0. -/
def boundsInOrder (m : List Band) : Prop :=
  (∀ b ∈ m, b.lower ≤ 1000) ∧ m.Pairwise (fun a b => b.lower < a.lower) ∧ m.getLast?.map (·.lower) = some 0

theorem boundsInOrder_cons_cons (b c : Band) (m : List Band) :
    boundsInOrder (b :: c :: m) ↔ (b.lower ≤ 1000 ∧ c.lower < b.lower) ∧ boundsInOrder (c :: m) := by
  have : IsTrans Band fun a b => b.lower < a.lower := ⟨fun _ _ _ xy yz => yz.trans xy⟩
  simp only [boundsInOrder, List.forall_mem_cons (l := c :: m), List.pairwise_cons_cons_iff_of_trans,
    List.getLast?_cons_cons]
  tauto

theorem bandsInOrder_iff (m : List Band) : bandsInOrder m = true ↔ boundsInOrder m := by
  induction m using bandsInOrder.induct with
  | case1 => simp [bandsInOrder, boundsInOrder]
  | case2 b =>
    simp only [bandsInOrder, boundsInOrder, beq_iff_eq, List.mem_singleton, forall_eq, List.pairwise_singleton,
      List.getLast?_singleton, Option.map_some, Option.some.injEq, true_and]
    omega
  | case3 b c m ih => simp [bandsInOrder, boundsInOrder_cons_cons, ih]

/-- A well-formed GRADE MAP LOAD, up to the order of its bounds. -/
theorem serveGradeMapLoad_of {m : List Band} (some : 1 ≤ m.length) (few : m.length ≤ 8)
    (fits : ∀ b ∈ m, b.lower ≤ 65535) :
    serveGradeMapLoad (bandsBytes m) s =
      if (m.all fun b => decide (b.lower ≤ 1000)) = true ∧ bandsInOrder m = true then
        ({ s with sort := { s.sort with map := m } }, Answer.accept (bandsBytes m))
      else s.refuse .range := by
  have count : (BitVec.ofNat 8 m.length).toNat = m.length := by
    rw [BitVec.toNat_ofNat]
    omega
  have len := length_flatten_entries (Band.length_bytes (m := m))
  have cut := pieces_flatten (Band.length_bytes (m := m))
  rw [List.length_map] at len cut
  conv_lhs => rw [bandsBytes_eq]
  simp only [serveGradeMapLoad, count, len, cut, readBands_bytes fits]
  rw [if_neg (by simp), if_neg (by omega)]

theorem serveGradeMapLoad_ordered {m : List Band} (some : 1 ≤ m.length) (few : m.length ≤ 8)
    (fits : ∀ b ∈ m, b.lower ≤ 65535) (order : boundsInOrder m) :
    serveGradeMapLoad (bandsBytes m) s =
      ({ s with sort := { s.sort with map := m } }, Answer.accept (bandsBytes m)) := by
  rw [serveGradeMapLoad_of some few fits, if_pos ⟨by simpa using order.1, (bandsInOrder_iff m).mpr order⟩]

theorem serveGradeMapLoad_disordered {m : List Band} (some : 1 ≤ m.length) (few : m.length ≤ 8)
    (fits : ∀ b ∈ m, b.lower ≤ 65535) (disorder : ¬ boundsInOrder m) :
    serveGradeMapLoad (bandsBytes m) s = s.refuse .range := by
  rw [serveGradeMapLoad_of some few fits, if_neg fun k => disorder ((bandsInOrder_iff m).mp k.2)]

/-! ## The dose table (R105) -/

theorem Answer.taken_head (clamped : Bool) (taken data : List Byte) :
    (Answer.taken clamped taken data).body.head? = some 1 ↔ clamped = false := by
  cases clamped <;> simp [Answer.taken, u8]

theorem serveDoseTableLoad_short (len : body.length ≠ 18) : serveDoseTableLoad body s = s.refuse .length := by
  unfold serveDoseTableLoad
  split
  · rename_i b1 b0 tail
    have two := congrArg List.length tail
    simp only [List.length_drop, List.length_cons, List.length_nil] at two
    omega
  · rfl

theorem serveDoseTableLoad_of {ws : List Byte} (b1 b0 : Byte) (len : ws.length = 16) :
    serveDoseTableLoad (ws ++ [b1, b0]) s =
      let x : DoseTable :=
        { weights := Vector.ofFn fun n => (ws.getD n.val 0).toNat, base := max 200 (min 800 (be16 b1 b0)) }
      ({ s with doseTable := x }, Answer.taken (takeNat 200 800 (be16 b1 b0)).clamped x.bytes []) := by
  have weights (n : Fin 16) : (ws ++ [b1, b0]).getD n.val 0 = ws.getD n.val 0 :=
    List.getD_append _ _ _ _ (by omega)
  simp only [serveDoseTableLoad, List.drop_left' len, weights]
  rfl

/-! ## Watch rules (R118) -/

theorem readSpecs_bytes (xs : List Spec) : readSpecs (xs.map fun x => BitVec.ofNat 8 x.byte) = some xs := by
  induction xs with
  | nil => rfl
  | cons x xs ih =>
    have first : readSpec (BitVec.ofNat 8 x.byte) = some x := by cases x <;> rfl
    rw [List.map_cons, readSpecs, first, ih]

theorem WatchRule.bytes_eq (r : WatchRule) :
    r.bytes = (if r.enabled then 1 else 0) :: BitVec.ofNat 8 r.mode.byte :: BitVec.ofNat 8 r.action.byte ::
      BitVec.ofNat 8 (match r.cls with | some c => num c | none => 0) ::
      r.specs.toList.map fun x => BitVec.ofNat 8 x.byte := by
  rw [WatchRule.bytes, flatten_u8]
  cases r.enabled <;> rfl

theorem WatchRule.length_bytes {rs : List WatchRule} : ∀ e ∈ rs.map WatchRule.bytes, e.length = 20 := by
  simp [WatchRule.bytes_eq]

theorem ofNum_class (c : WatchClass) : ofNum 7 (BitVec.ofNat 8 (num c)).toNat = some c := by
  revert c
  decide

/-- A rule with a class exactly where its action takes one reads back as it was written. -/
theorem readRule_bytes {r : WatchRule} (formed : r.action = .reject ↔ r.cls ≠ none) :
    readRule r.bytes = some r := by
  obtain ⟨enabled, mode, action, cls, specs⟩ := r
  have asked : flagOf (if enabled then 1 else 0) = enabled := by cases enabled <;> rfl
  have matched : (if BitVec.ofNat 8 mode.byte = 1 then some WatchMode.all
      else if BitVec.ofNat 8 mode.byte = 2 then some WatchMode.any else none) = some mode := by
    cases mode <;> rfl
  rw [WatchRule.bytes_eq, readRule]
  simp only [asked, matched, readSpecs_bytes]
  cases action with
  | note | suspend =>
    have absent : cls = none := by simpa using formed
    subst absent
    simp [WatchAction.byte]
  | reject =>
    obtain ⟨c, rfl⟩ := Option.ne_none_iff_exists'.mp (formed.mp rfl)
    simp only [ofNum_class]
    simp [WatchAction.byte]

theorem readRules_bytes {rs : List WatchRule} (formed : ∀ r ∈ rs, (r.action = .reject ↔ r.cls ≠ none)) :
    readRules (rs.map WatchRule.bytes) = some rs := by
  induction rs with
  | nil => rfl
  | cons r rs ih =>
    rw [List.map_cons, readRules, readRule_bytes (formed r (by simp)), ih fun x mem => formed x (by simp [mem])]

theorem serveWatchLoad_short (len : body.length ≠ 160) : serveWatchLoad body s = s.refuse .length :=
  if_pos len

theorem serveWatchLoad_of {rules : Vector WatchRule 8}
    (formed : ∀ n : Fin 8, (rules[n].action = .reject ↔ rules[n].cls ≠ none)) :
    serveWatchLoad (rules.toList.map WatchRule.bytes).flatten s =
      ({ s with rules := rules }, Answer.accept (rules.toList.map WatchRule.bytes).flatten) := by
  have each : ∀ r ∈ rules.toList, (r.action = .reject ↔ r.cls ≠ none) := fun r mem => by
    obtain ⟨n, lt, rfl⟩ := Vector.mem_iff_getElem.mp (Vector.mem_toList_iff.mp mem)
    exact formed ⟨n, lt⟩
  have len := length_flatten_entries (WatchRule.length_bytes (rs := rules.toList))
  have cut := pieces_flatten (WatchRule.length_bytes (rs := rules.toList))
  rw [List.length_map, Vector.length_toList] at len cut
  rw [serveWatchLoad, if_neg (not_not.mpr len), cut, readRules_bytes each]
  simp only [ofFn_getD]

/-! ## WATCH CLEAR (R120) -/

theorem serveWatchClear_outside (h : ofNum 40 slot.toNat = none) : serveWatchClear [slot] s = s.refuse .range :=
  State.withSlot_outside h _

theorem serveWatchClear_of (named : ofNum 40 slot.toNat = some i) :
    serveWatchClear [slot] s =
      (s.setWatch i { prior := (s.watch i).prior, latch := none }, Answer.accept (latchBytes (s.watch i).latch)) :=
  State.withSlot_of named _

end Sys2Proof.Machine

open Sys2Proof Sys2Proof.Machine

/-- Settles O40: each load reads its table back from the bytes it is sent as, or stops at its first failing check. -/
theorem tableLoadsReplaceWhole : Obligations.TableLoadsReplaceWhole := by
  unfold Obligations.TableLoadsReplaceWhole
  intro s tag ready
  refine ⟨fun d p u m h f => exec_weightsLoad ready (serveWeightsLoad_of d p u m h f),
    fun _ len => exec_weightsLoad ready (serveWeightsLoad_short len),
    fun t => exec_faultTableLoad ready (serveFaultTableLoad_of t),
    fun _ len => exec_faultTableLoad ready (serveFaultTableLoad_short len),
    fun _ _ len sent large => exec_faultTableLoad ready (serveFaultTableLoad_outside len sent large),
    fun m some few fits =>
      ⟨fun order => exec_gradeMapLoad ready (serveGradeMapLoad_ordered some few fits order),
        fun disorder => exec_gradeMapLoad ready (serveGradeMapLoad_disordered some few fits disorder)⟩,
    fun ws b1 b0 len => ⟨_, exec_doseTableLoad ready (serveDoseTableLoad_of b1 b0 len), ?_⟩,
    fun _ len => exec_doseTableLoad ready (serveDoseTableLoad_short len),
    fun _ len => exec_watchLoad ready (serveWatchLoad_short len),
    fun _ formed => exec_watchLoad ready (serveWatchLoad_of formed),
    fun _ none => exec_watchClear ready (serveWatchClear_outside none),
    fun _ _ named => exec_watchClear ready (serveWatchClear_of named)⟩
  exact (Answer.taken_head _ _ _).trans (takeNat_clamped_iff _ _ _)
end

