-- ==== Sys2Proof/Proofs/WatchRules.lean ====
section
/-! PROOFS. When a watch rule matches, and which rule wins (R108, R109, R112). The outcomes of a rule hold one value for
each spec that is tested, so ALL and ANY over them are ALL and ANY over the specs that are not IGNORE. -/

namespace Sys2Proof.Machine

variable {x : Spec} {p c : Bool} {r : WatchRule} {prior current : FaultWord}

/-! ## One spec (R108) -/

/-- The table of R108: where a tested spec is true. -/
def Spec.Holds (x : Spec) (prior current : Bool) : Prop :=
  match x with
  | .ignore => False
  | .set => current = true
  | .clear => current = false
  | .changed => prior ≠ current
  | .rose => prior = false ∧ current = true
  | .fell => prior = true ∧ current = false

theorem Spec.test_eq_none_iff : x.test p c = none ↔ x = .ignore := by
  cases x with
  | ignore => exact iff_of_true rfl rfl
  | set | clear | changed | rose | fell => exact iff_of_false (Option.some_ne_none _) Spec.noConfusion

theorem Spec.test_eq_some_true_iff : x.test p c = some true ↔ x.Holds p c := by
  cases x with
  | ignore => exact iff_of_false (Option.some_ne_none _).symm id
  | set | clear | changed | rose | fell => simp [Spec.test, Spec.Holds]

/-- A spec that is not IGNORE is tested, and is false where it does not hold. -/
theorem Spec.holds_of_ne_ignore_iff :
    (x ≠ .ignore → x.Holds p c) ↔ ∀ b, x.test p c = some b → b = true := by
  rw [← Spec.test_eq_some_true_iff (p := p), ne_eq, ← Spec.test_eq_none_iff (p := p) (c := c)]
  cases x.test p c with
  | none => simp
  | some b => simp

theorem Spec.Holds.ne_ignore (h : x.Holds p c) : x ≠ .ignore := by
  rintro rfl
  exact h

/-! ## The specs of a rule (R109) -/

/-- Spec `n` of the rule is true of its fault condition in the two words. -/
def WatchRule.SpecHolds (r : WatchRule) (prior current : FaultWord) (n : Fin 16) : Prop :=
  (r.specs[n]).Holds (prior.getLsbD n.val) (current.getLsbD n.val)

theorem WatchRule.mem_outcomes {b : Bool} : b ∈ r.outcomes prior current ↔
    ∃ n : Fin 16, (r.specs[n]).test (prior.getLsbD n.val) (current.getLsbD n.val) = some b := by
  simp only [WatchRule.outcomes, List.mem_filterMap, List.mem_finRange, true_and]

theorem WatchRule.outcomes_isEmpty : (r.outcomes prior current).isEmpty = false ↔
    ∃ n : Fin 16, r.specs[n] ≠ .ignore := by
  rw [List.isEmpty_eq_false_iff, WatchRule.outcomes, ne_eq, List.filterMap_eq_nil_iff]
  simp only [List.mem_finRange, true_imp_iff, Spec.test_eq_none_iff, not_forall, ne_eq]

theorem WatchRule.outcomes_all : (r.outcomes prior current).all id = true ↔
    ∀ n : Fin 16, r.specs[n] ≠ .ignore → r.SpecHolds prior current n := by
  simp only [List.all_eq_true, WatchRule.mem_outcomes, WatchRule.SpecHolds, Spec.holds_of_ne_ignore_iff, id_eq]
  exact ⟨fun all n b tested => all b ⟨n, tested⟩, fun each b ⟨n, tested⟩ => each n b tested⟩

theorem WatchRule.outcomes_any : (r.outcomes prior current).any id = true ↔
    ∃ n : Fin 16, r.specs[n] ≠ .ignore ∧ r.SpecHolds prior current n := by
  have tested (n : Fin 16) : r.specs[n] ≠ .ignore ∧ r.SpecHolds prior current n ↔ r.SpecHolds prior current n :=
    and_iff_right_of_imp Spec.Holds.ne_ignore
  rw [exists_congr tested]
  simp only [List.any_eq_true, id_eq, exists_eq_right, WatchRule.mem_outcomes, WatchRule.SpecHolds,
    Spec.test_eq_some_true_iff]

/-! ## The rule and the winner (R109, R112) -/

theorem WatchRule.isMatch_all (mode : r.mode = .all) : r.isMatch prior current = true ↔
    r.enabled = true ∧ (∃ n : Fin 16, r.specs[n] ≠ .ignore) ∧
      ∀ n : Fin 16, r.specs[n] ≠ .ignore → r.SpecHolds prior current n := by
  simp only [WatchRule.isMatch, mode, Bool.and_eq_true, Bool.not_eq_true', WatchRule.outcomes_isEmpty,
    WatchRule.outcomes_all, and_assoc]

theorem WatchRule.isMatch_any (mode : r.mode = .any) : r.isMatch prior current = true ↔
    r.enabled = true ∧ (∃ n : Fin 16, r.specs[n] ≠ .ignore) ∧
      ∃ n : Fin 16, r.specs[n] ≠ .ignore ∧ r.SpecHolds prior current n := by
  simp only [WatchRule.isMatch, mode, Bool.and_eq_true, Bool.not_eq_true', WatchRule.outcomes_isEmpty,
    WatchRule.outcomes_any, and_assoc]

/-- The search runs through the rules in the order of their numbers. -/
theorem State.winner_eq_some_iff {s : State} {n : RuleNo} : s.winner prior current = some n ↔
    (s.rules[n]).isMatch prior current = true ∧ ∀ m < n, (s.rules[m]).isMatch prior current = false := by
  rw [State.winner, ← Fin.find?_eq_find?_finRange, Fin.find?_eq_some_iff]

end Sys2Proof.Machine

open Sys2Proof Sys2Proof.Machine

/-- Settles O36: mode by mode for the match, and by the order of the search for the winner. -/
theorem watchRuleMatches : Obligations.WatchRuleMatches := by
  unfold Obligations.WatchRuleMatches
  refine ⟨fun r prior current => ?_, fun s prior current n => State.winner_eq_some_iff⟩
  cases mode : r.mode with
  | all => exact WatchRule.isMatch_all mode
  | any => exact WatchRule.isMatch_any mode
end

