-- ==== Sys2Proof/Proofs/BinBars.lean ====
section
/-! PROOFS. BIN BAR and BIN UNBAR (R136 to R138). A bar withdraws its bin's queued orders one slot at a time, so what it
does to the queue and to each slot is an induction over the slots withdrawn. -/

namespace Sys2Proof.Machine

variable {s t : State} {tag bin : Byte} {body : List Byte} {a : Answer} {i : SlotNo} {b : LaneNo}

/-! ## Orders withdrawn (R136, R137) -/

/-- A slot whose order a bar has withdrawn: HELD, with every record it has kept (R137). -/
def SlotRec.barHeld (r : SlotRec) : SlotRec := { r with state := .held, hold := some .withdrawn }

theorem State.withdrawn_queue (s : State) (i : SlotNo) :
    (s.withdrawn i).port.queue = s.port.queue.filter (·.slot ≠ i) := by
  simp [State.withdrawn, State.enterHeld, State.withdrawOrder]

theorem State.withdrawn_slot_same (s : State) (i : SlotNo) : (s.withdrawn i).slot i = (s.slot i).barHeld := by
  simp [State.withdrawn, State.enterHeld, State.withdrawOrder, SlotRec.barHeld]

theorem State.withdrawn_slot_ne {j : SlotNo} (s : State) (h : j ≠ i) : (s.withdrawn i).slot j = s.slot j := by
  rw [State.withdrawn, State.enterHeld, State.enter_slot_ne _ _ _ _ _ h, State.withdrawOrder, State.slot_setPort]

theorem State.allWithdrawn_queue (l : List SlotNo) (s : State) :
    (l.foldl State.withdrawn s).port.queue = s.port.queue.filter (·.slot ∉ l) := by
  induction l generalizing s with
  | nil => simp
  | cons i l ih =>
    rw [List.foldl_cons, ih, State.withdrawn_queue, List.filter_filter]
    simp [Bool.and_comm]

theorem State.allWithdrawn_slot_of_notMem {l : List SlotNo} (s : State) (out : i ∉ l) :
    (l.foldl State.withdrawn s).slot i = s.slot i := by
  induction l generalizing s with
  | nil => rfl
  | cons j l ih =>
    obtain ⟨ne, out⟩ := not_or.mp (List.mem_cons.not.mp out)
    rw [List.foldl_cons, ih _ out, s.withdrawn_slot_ne ne]

/-- A slot named twice is HELD as one named once is. -/
theorem State.allWithdrawn_slot_of_mem {l : List SlotNo} (s : State) (m : i ∈ l) :
    (l.foldl State.withdrawn s).slot i = (s.slot i).barHeld := by
  induction l generalizing s with
  | nil => cases m
  | cons j l ih =>
    rw [List.foldl_cons]
    have first : (s.withdrawn j).slot i = if i = j then (s.slot i).barHeld else s.slot i := by
      split
      case isTrue e => rw [e, s.withdrawn_slot_same]
      case isFalse ne => exact s.withdrawn_slot_ne ne
    by_cases later : i ∈ l
    · rw [ih _ later, first]
      split <;> rfl
    · have e : i = j := (List.mem_cons.mp m).resolve_right later
      rw [State.allWithdrawn_slot_of_notMem _ later, first, if_pos e]

/-! ## BIN BAR as a whole (R136) -/

theorem State.barBin_same (s : State) (b : LaneNo) : (s.setBar b true).sameBeyondSlots (s.barBin b) :=
  (State.same_foldl _ _ _ (fun u i => by simp [State.withdrawn]) _).mpr (State.sameBeyondSlots_refl _)

/-! ## The requests carried out -/

theorem exec_binBar (ready : s.ready) (e : serveBinBar body s = (t, a)) :
    exec (.binBar tag body) s = .next (t.answered tag .binBar a) :=
  congrArg Host.Outcome.next (State.request_serves (c := .binBar) ready e)

theorem exec_binUnbar (ready : s.ready) (e : serveBinUnbar body s = (t, a)) :
    exec (.binUnbar tag body) s = .next (t.answered tag .binUnbar a) :=
  congrArg Host.Outcome.next (State.request_serves (c := .binUnbar) ready e)

/-- The number read from a byte writes back as that byte (R202). -/
theorem u8_num_of_ofNum {n : Nat} {k : Fin n} {x : Byte} (named : ofNum n x.toNat = some k) : u8 (num k) = [x] := by
  have e : num k = x.toNat := by
    unfold ofNum at named
    split at named
    case isTrue within =>
      cases named
      exact Nat.sub_add_cancel within.1
    case isFalse => cases named
  rw [e, u8_toNat]

theorem serveBinBar_outside (none : ofNum 12 bin.toNat = none) : serveBinBar [bin] s = s.refuse .range := by
  simp only [serveBinBar, none]

theorem serveBinUnbar_outside (none : ofNum 12 bin.toNat = none) : serveBinUnbar [bin] s = s.refuse .range := by
  simp only [serveBinUnbar, none]

theorem serveBinBar_of (named : ofNum 12 bin.toNat = some b) :
    serveBinBar [bin] s = (s.barBin b,
      Answer.accept ([bin] ++ counted ((s.queuedTo b).map fun i => u8 (num i)) ++ opt8 ((s.currentTo b).map num))) := by
  simp only [serveBinBar, named, u8_num_of_ofNum named]

theorem serveBinUnbar_of (named : ofNum 12 bin.toNat = some b) :
    serveBinUnbar [bin] s = (s.setBar b false, Answer.accept [bin]) := by
  simp only [serveBinUnbar, named, u8_num_of_ofNum named]

end Sys2Proof.Machine

open Sys2Proof Sys2Proof.Machine

/-- Settles O41: the bar is `State.barBin`, read in the queue and in the slots by induction over the slots withdrawn. -/
theorem binBarsSetAndCleared : Obligations.BinBarsSetAndCleared := by
  unfold Obligations.BinBarsSetAndCleared
  intro s tag bin ready
  refine ⟨fun none => ⟨exec_binBar ready (serveBinBar_outside none), exec_binUnbar ready (serveBinUnbar_outside none)⟩,
    fun b named => ⟨⟨s.barBin b, exec_binBar ready (serveBinBar_of named), s.barBin_same b,
      State.allWithdrawn_queue _ _, fun i m => State.allWithdrawn_slot_of_mem _ m,
      fun i out => State.allWithdrawn_slot_of_notMem _ out⟩,
      exec_binUnbar ready (serveBinUnbar_of named)⟩⟩
end

