-- ==== Sys2Proof/Proofs/PortOrders.lean ====
section
/-! PROOFS. What SC does at the handler port is to queue and withdraw orders: the rest of the port stands (R143, R144).
The grant test, once for all that it keeps, and the slots with an inactive line, which it takes no run from (R10, R13). -/

namespace Sys2Proof.Machine

variable {s t : State} {i j : SlotNo} {o : Order}

/-! ## The grant test (R10) -/

/-- What every turn of the grant test keeps, the grant test keeps. -/
theorem grants_induct {P : State → Prop}
    (turn : ∀ t j, s.sameBeyondSlots t → P t → P ((t.grant j).checkOvercurrent j)) (n : Nat) (h : P s) :
    P (grants n s) := by
  suffices ∀ t, s.sameBeyondSlots t → P t → P (grants n t) from this s s.sameBeyondSlots_refl h
  induction n with
  | zero => exact fun _ _ h => h
  | succ n ih =>
    intro t same h
    unfold grants
    split
    · exact h
    · split
      · exact ih _ (by simpa using same) (turn t _ same h)
      · exact h

/-- With every line inactive the grant test leaves the port as it is. -/
theorem State.quiet.grants_port (q : s.quiet) (n : Nat) : (grants n s).port = s.port := by
  refine grants_induct (P := fun t => t.port = s.port) (fun t j same e => ?_) n rfl
  have line : (t.grant j).overcurrent[j] = false := q.of_same same j
  rw [State.checkOvercurrent_of_inactive line, State.grant_port, e]

/-! ## The port but for its orders (R142, R145) -/

/-- The port but for its queue and the counts of the orders that have joined it. -/
def Port.besideOrders (p : Port) : Port := { p with queue := [], nextNumber := 0, joined := 0 }

theorem Port.fields_of_besideOrders {p q : Port} (e : q.besideOrders = p.besideOrders) :
    q.state = p.state ∧ q.current = p.current ∧ q.timer = p.timer ∧ q.outcome = p.outcome ∧ q.fault = p.fault ∧
      q.readyLine = p.readyLine ∧ q.doneLine = p.doneLine ∧ q.failLine = p.failLine := by
  simp only [Port.besideOrders, Port.mk.injEq] at e
  tauto

@[simp] theorem State.joinOrder_besideOrders (k : OrderKind) :
    (s.joinOrder k i).port.besideOrders = s.port.besideOrders := rfl
@[simp] theorem State.withdrawOrder_besideOrders : (s.withdrawOrder i).port.besideOrders = s.port.besideOrders := rfl
@[simp] theorem State.verdict_besideOrders : (s.verdict i).port.besideOrders = s.port.besideOrders := by
  rcases s.verdict_cases i with ⟨b, -, e⟩ | ⟨-, e⟩ <;> simp [e]
@[simp] theorem State.checkOvercurrent_besideOrders :
    (s.checkOvercurrent i).port.besideOrders = s.port.besideOrders := by
  unfold State.checkOvercurrent State.overcurrentEnd State.toVerdict
  (repeat' split) <;> simp
@[simp] theorem State.grants_besideOrders (n : Nat) : (grants n s).port.besideOrders = s.port.besideOrders :=
  grants_induct (P := fun t => t.port.besideOrders = s.port.besideOrders) (fun t j _ e => by simpa using e) n rfl
@[simp] theorem State.dropPermit_besideOrders : (s.dropPermit i).port.besideOrders = s.port.besideOrders := by
  unfold State.dropPermit State.testGrants; split <;> simp
@[simp] theorem State.enterSeated_besideOrders : (s.enterSeated i).port.besideOrders = s.port.besideOrders := by
  rw [State.enterSeated_eq]
  split
  · simp
  · obtain ⟨t, e, -, port, -⟩ := (s.enter i .seated none).startRun_grants i
    simp [e, port]
@[simp] theorem State.teardown_besideOrders : (s.teardown i).port.besideOrders = s.port.besideOrders := by
  simp only [State.teardown]; split <;> simp [State.leaveLink]
@[simp] theorem State.engage_port : (s.engage i).port = s.port := rfl
@[simp] theorem State.orderBack_besideOrders (why : HoldReason) :
    (s.orderBack o why).port.besideOrders = s.port.besideOrders := by
  simp only [State.orderBack, State.extractBack, State.insertBack, State.enterHeld]; (repeat' split) <;> simp
@[simp] theorem State.orderReturned_besideOrders : (s.orderReturned o).port.besideOrders = s.port.besideOrders := by
  simp only [State.orderReturned, State.enterHeld]; (repeat' split) <;> simp

/-! ## Slots with an inactive line (R13) -/

/-- A turn of the grant test at a slot with an inactive line grants the slot, and no more (R11). -/
theorem State.turn_of_inactive (inactive : s.overcurrent[i] = false) : (s.grant i).checkOvercurrent i = s.grant i := by
  have line : (s.grant i).overcurrent[i] = false := inactive
  exact State.checkOvercurrent_of_inactive line

/-- A property of a slot with an inactive line that a grant of it keeps, and a turn of another slot, the grant test
keeps. -/
theorem grants_induct_inactive {P : State → Prop} (inactive : s.overcurrent[i] = false)
    (own : ∀ t, P t → P (t.grant i)) (other : ∀ t j, i ≠ j → P t → P ((t.grant j).checkOvercurrent j)) (n : Nat)
    (h : P s) : P (grants n s) := by
  refine grants_induct (fun t j same h => ?_) n h
  obtain ⟨-, -, lines, -⟩ := same
  by_cases e : i = j
  · subst e
    rw [State.turn_of_inactive (by rw [lines]; exact inactive)]
    exact own t h
  · exact other t j e h

/-- The grant test reads no seat. -/
theorem State.grants_seatRaw (inactive : s.overcurrent[i] = false) (n : Nat) :
    ((grants n s).slot i).seatRaw = (s.slot i).seatRaw := by
  refine grants_induct_inactive (P := fun t => (t.slot i).seatRaw = (s.slot i).seatRaw) inactive (fun t e => ?_)
    (fun t j other e => ?_) n rfl
  · rw [State.grant_slot_same, e]
  · rw [((State.Beside.grant other).trans (State.Beside.checkOvercurrent other)).slot, e]

/-- The grant test queues no order for a slot with an inactive line. -/
theorem State.grants_unordered (inactive : s.overcurrent[i] = false) (n : Nat)
    (unordered : ∀ o ∈ s.port.queue, o.slot ≠ i) : ∀ o ∈ (grants n s).port.queue, o.slot ≠ i := by
  refine grants_induct_inactive (P := fun t => ∀ o ∈ t.port.queue, o.slot ≠ i) inactive (fun _ unordered => unordered)
    (fun t j other unordered o m own => ?_) n unordered
  exact unordered o ((State.checkOvercurrent_spares (s := t.grant j) other).orders o m own) own

/-- A slot with an inactive line seated, on to its run where it has a plan: its seat, and the orders queued (R6, R15). -/
theorem State.enterSeated_orders (inactive : s.overcurrent[i] = false) (unordered : ∀ o ∈ s.port.queue, o.slot ≠ i) :
    ((s.enterSeated i).slot i).seatRaw = (s.slot i).seatRaw ∧ (∀ o ∈ (s.enterSeated i).port.queue, o.slot ≠ i) ∧
      ((s.slot i).plan = none ∨ s.quiet → (s.enterSeated i).port = s.port) := by
  rw [State.enterSeated_eq]
  split
  · exact ⟨by simp, by simpa using unordered, by simp⟩
  · rename_i plan
    obtain ⟨t, run, lines, port, seat⟩ : ∃ t : State, (s.enter i .seated none).startRun i false = grants 41 t ∧
        t.overcurrent = s.overcurrent ∧ t.port = s.port ∧ (t.slot i).seatRaw = (s.slot i).seatRaw :=
      ⟨_, rfl, by simp [State.enter], by simp, by simp [State.enter, State.slot, State.modSlot, State.setSlot]⟩
    have inactive : t.overcurrent[i] = false := by rw [lines]; exact inactive
    rw [run]
    refine ⟨(State.grants_seatRaw inactive 41).trans seat, State.grants_unordered inactive 41 (port ▸ unordered), fun q => ?_⟩
    have quiet : t.quiet := fun j => by rw [lines]; exact q.resolve_left plan j
    rw [quiet.grants_port, port]

end Sys2Proof.Machine
end

