-- ==== Sys2Proof/Proofs/ExtractionEnds.lean ====
section
/-! PROOFS. The end of an extraction at CM (R168, R170): what it does to the cartons and the ring does not depend on the
handler port, it leaves no reservation, and every record written stays. -/

namespace Sys2Proof.Machine

variable {s t : State} {b : LaneNo} {i : SlotNo} {x : Port}

/-! ## Each operation of CM and a write of the port -/

theorem State.ite_setPort {p : Prop} [Decidable p] :
    (if p then s else t).setPort x = if p then s.setPort x else t.setPort x := by split <;> rfl

theorem State.judgeHighWater_setPort : s.judgeHighWater.setPort x = (s.setPort x).judgeHighWater := by
  simp only [State.judgeHighWater, State.ite_setPort, State.notify_setPort, State.setRing_setPort]
  rfl

theorem State.writeRecord_setPort (m : ManifestBody) : (s.writeRecord m).setPort x = (s.setPort x).writeRecord m := by
  simp only [State.writeRecord, State.judgeHighWater_setPort, State.setRing_setPort]
  rfl

theorem State.modCarton_setPort (f : Carton → Carton) : (s.modCarton b f).setPort x = (s.setPort x).modCarton b f := rfl

theorem State.notifyCarton_setPort (e : CartonEvent) (c : Option (Nat × Nat × Nat)) :
    (s.notifyCarton b e c).setPort x = (s.setPort x).notifyCarton b e c := by simp [State.notifyCarton]

theorem State.enterAbsent_setPort (e : CartonEvent) (c : Option (Nat × Nat × Nat)) :
    (s.enterAbsent b e c).setPort x = (s.setPort x).enterAbsent b e c := by
  simp only [State.enterAbsent, State.openCarton, State.ite_setPort, State.notifyCarton_setPort,
    State.modCarton_setPort, State.notifyCarton_carton]
  rfl

theorem State.serveFreed_setPort : s.serveFreed.setPort x = (s.setPort x).serveFreed := by
  have serveBin (u : State) (b : LaneNo) : (u.serveBin b).setPort x = (u.setPort x).serveBin b := by
    simp only [State.serveBin, State.closeShort, State.ite_setPort, State.enterAbsent_setPort, State.modCarton_setPort,
      State.writeRecord_setPort]
    rfl
  unfold State.serveFreed
  generalize allLanes = lanes
  induction lanes generalizing s with
  | nil => rfl
  | cons b lanes ih => rw [List.foldl_cons, List.foldl_cons, ih, serveBin]

/-- CM serves its bins whatever the port holds. -/
theorem State.carton_serveFreed_setPort : (s.setPort x).serveFreed.carton b = s.serveFreed.carton b := by
  rw [← State.serveFreed_setPort, State.carton_setPort]

theorem State.takeUpClose_setPort : (s.takeUpClose b).setPort x = (s.setPort x).takeUpClose b := by
  simp only [State.takeUpClose, State.ite_setPort, State.serveFreed_setPort, State.enterAbsent_setPort,
    State.notifyCarton_setPort, State.modCarton_setPort]
  rw [← State.modCarton_setPort, State.carton_serveFreed_setPort]
  rfl

theorem State.endExtraction_setPort : (s.endExtraction b).setPort x = (s.setPort x).endExtraction b := by
  simp only [State.endExtraction, State.ite_setPort, State.takeUpClose_setPort, State.serveFreed_setPort]
  rfl

theorem State.fullCarton_setPort : (s.fullCarton b).setPort x = (s.setPort x).fullCarton b := by
  simp only [State.fullCarton, State.writePaid, State.ite_setPort, State.enterAbsent_setPort, State.modCarton_setPort,
    State.writeRecord_setPort, State.notifyCarton_setPort]
  rfl

theorem State.countIn_setPort : (s.countIn i b).setPort x = (s.setPort x).countIn i b := by
  have paid (u : State) (m : ManifestBody) : (u.writePaid m).setPort x = (u.setPort x).writePaid m :=
    State.writeRecord_setPort m
  have release (u : State) : u.release.setPort x = (u.setPort x).release := rfl
  simp only [State.countIn, State.ite_setPort, State.serveFreed_setPort, release, State.fullCarton_setPort,
    State.endExtraction_setPort, paid, State.modCarton_setPort, State.writePaid_carton]
  rfl

/-! ## The reservation and the records (R174, R177) -/

/-- From `s` to `t` no reservation has been made, and no record has gone. -/
structure State.RingGrows (s t : State) : Prop where
  reservation : t.ring.reservation = s.ring.reservation
  records : ∀ r ∈ s.ring.records, r ∈ t.ring.records

namespace State.RingGrows

theorem of_ring (e : t.ring = s.ring) : s.RingGrows t := ⟨by rw [e], by rw [e]; exact fun _ m => m⟩

theorem trans {u : State} (g : s.RingGrows t) (k : t.RingGrows u) : s.RingGrows u :=
  ⟨k.reservation.trans g.reservation, fun r m => k.records r (g.records r m)⟩

theorem writeRecord (m : ManifestBody) : s.RingGrows (s.writeRecord m) :=
  ⟨by simp, fun r k => by simp [State.writeRecord, k]⟩

theorem serveFreed : s.RingGrows s.serveFreed := by
  have serveBin (u : State) (b : LaneNo) : u.RingGrows (u.serveBin b) := by
    unfold State.serveBin
    split
    · exact (writeRecord ((u.carton b).close b true)).trans (of_ring (by simp [State.closeShort]))
    · exact of_ring rfl
  unfold State.serveFreed
  generalize allLanes = lanes
  induction lanes generalizing s with
  | nil => exact of_ring rfl
  | cons b lanes ih => exact (serveBin s b).trans ih

theorem takeUpClose : s.RingGrows (s.takeUpClose b) := by
  have taken : s.RingGrows (s.modCarton b fun c => { c with pendingClose := false }) := of_ring rfl
  simp only [State.takeUpClose]
  split
  · exact (taken.trans (of_ring (by simp))).trans serveFreed
  · split
    · exact (taken.trans serveFreed).trans (of_ring (by simp))
    · exact taken.trans serveFreed

end State.RingGrows

theorem State.endExtraction_grows : s.release.RingGrows (s.endExtraction b) := by
  unfold State.endExtraction
  split
  · exact .takeUpClose
  · exact .serveFreed

/-- The end of an extraction leaves no reservation (R177). -/
theorem State.endExtraction_reservation : (s.endExtraction b).ring.reservation = none :=
  State.endExtraction_grows.reservation

theorem State.fullCarton_records {r : ManifestRec} (m : r ∈ s.ring.records) : r ∈ (s.fullCarton b).ring.records := by
  simp only [State.fullCarton, State.writePaid]
  split <;> simp [State.writeRecord, Ring.pay, m]

/-- The drive's record is in the ring after the count-in, and no reservation is (R168, R175, R177). -/
theorem State.countIn_ring (s : State) (i : SlotNo) (b : LaneNo) :
    (s.countIn i b).ring.reservation = none ∧
      { number := s.ring.next, time := s.line.rackTime
        body := (s.setCarton b { s.carton b with fill := (s.carton b).fill + 1 }).shipped i b } ∈
        (s.countIn i b).ring.records := by
  have ends {u : State} {r : ManifestRec} (m : r ∈ u.ring.records) :
      let v := if (u.carton b).fill = (u.carton b).capacity then (u.fullCarton b).release.serveFreed
        else u.endExtraction b
      v.ring.reservation = none ∧ r ∈ v.ring.records := by
    dsimp only
    split
    · obtain ⟨reservation, records⟩ := State.RingGrows.serveFreed (s := (u.fullCarton b).release)
      exact ⟨reservation, records r (State.fullCarton_records m)⟩
    · exact ⟨State.endExtraction_reservation, State.endExtraction_grows.records r m⟩
  refine ends ?_
  simp [State.writePaid, State.writeRecord, Ring.pay, State.modCarton]

end Sys2Proof.Machine
end

