-- ==== Sys2Proof/Proofs/Handshakes.lean ====
section
/-! PROOFS. HANDLER RESET and HANDLER settings (R162, R163), OFFER and ACCEPT (R151, R152), and the end of an interlocked
handshake (R156). -/

namespace Sys2Proof.Machine

variable {s t : State} {tag : Byte} {body : List Byte} {a : Answer} {c : CurrentOrder} {st : PortState}

/-! ## Requests at the port (R162, R163) -/

theorem exec_handlerReset (ready : s.ready) (e : serveHandlerReset body s = (t, a)) :
    exec (.handlerReset tag body) s = .next (t.answered tag .handlerReset a) :=
  congrArg Host.Outcome.next (State.request_serves (c := .handlerReset) ready e)

theorem exec_handlerSettings (ready : s.ready) (e : serveHandlerSettings body s = (t, a)) :
    exec (.handlerSettings tag body) s = .next (t.answered tag .handlerSettings a) :=
  congrArg Host.Outcome.next (State.request_serves (c := .handlerSettings) ready e)

theorem serveHandlerReset_refused (state : s.port.state ≠ .fault) : serveHandlerReset [] s = s.refuse .state := by
  unfold serveHandlerReset
  cases e : s.port.state with
  | fault => exact absurd e state
  | idle | deskew | offered | inFlight | checking | confirming => rfl

theorem serveHandlerReset_of {why : FaultReason} (state : s.port.state = .fault) (fault : s.port.fault = some why) :
    serveHandlerReset [] s =
      (s.setPort { s.port with state := .idle, fault := none, acceptTimeouts := 0 }, Answer.accept (u8 why.byte)) := by
  simp only [serveHandlerReset, state, fault]

/-- HANDLER settings as taken (R163). -/
def PortSettings.taken (m : PortMode) (d a : Byte) (c : Nat) : PortSettings :=
  { mode := m, deskew := min 15 d.toNat, acceptS := max 1 (min 60 a.toNat), completionS := max 5 (min 300 c) }

theorem readMode_eq_none {mode : Byte} (m1 : mode ≠ 1) (m2 : mode ≠ 2) : readMode mode = none := by
  rw [readMode, if_neg m1, if_neg m2]

/-- A mode that is known reads back as the byte that was sent. -/
theorem readMode_of {mode : Byte} (known : mode = 1 ∨ mode = 2) :
    readMode mode = some (if mode = 1 then .interlocked else .strobed) ∧
      u8 (if mode = 1 then PortMode.interlocked else .strobed).byte = [mode] := by
  rcases known with rfl | rfl <;> exact ⟨rfl, rfl⟩

theorem serveHandlerSettings_outside {mode d a c1 c0 : Byte} (m1 : mode ≠ 1) (m2 : mode ≠ 2) :
    serveHandlerSettings [mode, d, a, c1, c0] s = s.refuse .range := by
  simp only [serveHandlerSettings, readMode_eq_none m1 m2]

theorem serveHandlerSettings_of {mode d a c1 c0 : Byte} {m : PortMode} (named : readMode mode = some m)
    (byte : u8 m.byte = [mode]) :
    serveHandlerSettings [mode, d, a, c1, c0] s =
      let c := be16 c1 c0
      let x := PortSettings.taken m d a c
      (s.setPort { s.port with settings := x },
        if d.toNat ≤ 15 ∧ 1 ≤ a.toNat ∧ a.toNat ≤ 60 ∧ 5 ≤ c ∧ c ≤ 300 then Answer.accept []
        else { body := [2, mode] ++ u8 x.deskew ++ u8 x.acceptS ++ u16 x.completionS, after := .nothing }) := by
  have whole := Answer.taken_eq
    (clamped := (takeNat 0 15 d.toNat).clamped || (takeNat 1 60 a.toNat).clamped || (takeNat 5 300 (be16 c1 c0)).clamped)
    (whole := d.toNat ≤ 15 ∧ 1 ≤ a.toNat ∧ a.toNat ≤ 60 ∧ 5 ≤ be16 c1 c0 ∧ be16 c1 c0 ≤ 300)
    (by simp only [Bool.or_eq_false_iff, takeNat_clamped_iff, Nat.zero_le, true_and, and_assoc])
  simp only [serveHandlerSettings, named, whole, PortSettings.bytes, byte]
  simp [PortSettings.taken, takeNat, clampNat]

/-! ## OFFER and ACCEPT (R151, R152) -/

theorem Port.currentIn_of {p : Port} (state : p.state = st) : p.currentIn st = p.current := if_pos state

theorem Port.currentIn_away {p : Port} (state : p.state ≠ st) : p.currentIn st = none := if_neg state

/-- The handler's outcome lines stand in no way of an order that goes in flight: they are low, or the mode waits for a
rise (R154; log entry 23). -/
def Port.unread (p : Port) (c : CurrentOrder) : Prop :=
  c.settings.mode = .strobed ∨ (p.doneLine = false ∧ p.failLine = false)

/-- The port with its order in flight (R152). -/
def Port.accepted (p : Port) (now : Time) (c : CurrentOrder) : Port :=
  { p with
    state := .inFlight, acceptTimeouts := 0
    timer := some { kind := .completion, expiry := now + BitVec.ofNat 32 (c.settings.completionS * 1000) } }

theorem State.readLines_of_unread (unread : s.port.unread c) : s.readLines c = s := by
  unfold State.readLines
  rcases unread with strobed | ⟨done, fail⟩
  · exact if_neg (by simp [strobed])
  · simp [done, fail]

theorem State.takeAccept_of_unread (unread : s.port.unread c) :
    s.takeAccept c = s.setPort (s.port.accepted s.now c) :=
  State.readLines_of_unread (s := s.setPort (s.port.accepted s.now c)) unread

/-- The port with OFFER high (R151). -/
def Port.offers (p : Port) (now : Time) (c : CurrentOrder) : Port :=
  { p with
    state := .offered
    timer := some { kind := .accept, expiry := now + BitVec.ofNat 32 (c.settings.acceptS * 1000) } }

theorem State.raiseOffer_eq (s : State) (c : CurrentOrder) :
    s.raiseOffer c =
      if s.port.acceptLine then (s.setPort (s.port.offers s.now c)).takeAccept c
      else s.setPort (s.port.offers s.now c) := rfl

theorem State.raiseOffer_waits (low : s.port.acceptLine = false) :
    s.raiseOffer c = s.setPort (s.port.offers s.now c) := by
  rw [State.raiseOffer_eq, if_neg (Bool.eq_false_iff.mp low)]

/-- An ACCEPT still high as OFFER rises is taken (R152). -/
theorem State.raiseOffer_taken (high : s.port.acceptLine = true) (unread : s.port.unread c) :
    s.raiseOffer c = s.setPort (s.port.accepted s.now c) := by
  rw [State.raiseOffer_eq, if_pos high, State.takeAccept_of_unread (by exact unread)]
  rfl

theorem exec_deskewExpiry (state : s.port.state = .deskew) (current : s.port.current = some c) :
    exec .deskewExpiry s = .next (s.raiseOffer c).finish := by
  change execDeskewExpiry s = _
  simp only [execDeskewExpiry, (Port.currentIn_of state).trans current]

/-! ## The end of an interlocked handshake (R156) -/

theorem exec_handlerLineDrop {line : HandlerLine} {o : PortOutcome} (state : s.port.state = .confirming)
    (current : s.port.current = some c) (outcome : s.port.outcome = some o) :
    exec (.handlerLineDrop line) s =
      .next (if o.line = line then
          ((s.setPort ((s.port.setLow line).cleared .idle)).handshakeOver c.order).finish
        else s.setPort (s.port.setLow line)) := by
  change execHandlerLineDrop line s = _
  simp only [execHandlerLineDrop, (Port.currentIn_of state).trans current, outcome, Option.any_some, decide_eq_true_eq]
  rfl

theorem exec_releaseTimeout (state : s.port.state = .confirming) (current : s.port.current = some c) :
    exec .releaseTimeout s = .next ((s.handshakeOver c.order).portFault .releaseTimeout c.order).finish := by
  change execReleaseTimeout s = _
  simp only [execReleaseTimeout, (Port.currentIn_of state).trans current]

theorem State.handshakeOver_insert {o : Order} (kind : o.kind = .insert) : s.handshakeOver o = s := by
  simp only [State.handshakeOver, kind]

/-- CM takes up a close held for the extraction whose handshake is over (R142, R170). -/
theorem State.handshakeOver_extract {o : Order} {b : LaneNo} (kind : o.kind = .extract b) :
    s.handshakeOver o =
      if (s.carton b).state = .closing ∧ (s.carton b).pendingClose = true then s.takeUpClose b else s := by
  simp only [State.handshakeOver, kind, State.endHeld, Bool.and_eq_true, decide_eq_true_eq]

theorem State.sameBeyondCartons.port (e : s.sameBeyondCartons t) : t.port = s.port := by
  rw [State.sameBeyondCartons_eq s t e]

end Sys2Proof.Machine

open Sys2Proof Sys2Proof.Machine

/-- Settles O47: both requests stop at their first failing check, or write the port and answer. -/
theorem handlerControlTaken : Obligations.HandlerControlTaken := by
  unfold Obligations.HandlerControlTaken
  intro s tag ready
  refine ⟨fun state => exec_handlerReset ready (serveHandlerReset_refused state),
    fun why state fault => exec_handlerReset ready (serveHandlerReset_of state fault),
    fun mode d a c1 c0 => ⟨fun m1 m2 => exec_handlerSettings ready (serveHandlerSettings_outside m1 m2),
      fun known => ?_⟩⟩
  obtain ⟨named, byte⟩ := readMode_of known
  exact exec_handlerSettings ready (serveHandlerSettings_of named byte)

/-- Settles O43: ACCEPT and OFFER with no outcome line to be read (`State.takeAccept_of_unread`,
`State.raiseOffer_taken`), and the drop or the timeout that ends CONFIRMING, with CM's part in it
(`State.handshakeOver_extract`). -/
theorem handshakeFollowsLines : Obligations.HandshakeFollowsLines := by
  unfold Obligations.HandshakeFollowsLines
  intro s low
  have drops (line : HandlerLine) : low line = s.port.setLow line := by cases line <;> rfl
  refine ⟨fun state => ?_, fun c current unread => ⟨fun state => ?_, fun state accept => ?_, fun state accept => ?_⟩,
    fun line state => ?_, fun state c current => ?_⟩
  · change execHandlerAccept s = _
    simp only [execHandlerAccept, Port.currentIn_away state]
  · change execHandlerAccept s = _
    simp only [execHandlerAccept, (Port.currentIn_of state).trans current]
    rw [State.takeAccept_of_unread (by exact unread)]
    rfl
  · rw [exec_deskewExpiry state current, State.raiseOffer_waits accept]
    rfl
  · rw [exec_deskewExpiry state current, State.raiseOffer_taken accept unread]
    rfl
  · rw [drops]
    change execHandlerLineDrop line s = _
    simp only [execHandlerLineDrop, Port.currentIn_away state]
  · intro ended
    have taken (x : Port) : (s.setPort x).handshakeOver c.order = ended (s.setPort x) := by
      cases kind : c.order.kind with
      | insert => simp only [State.handshakeOver_insert kind, ended, kind]
      | extract b => simp only [State.handshakeOver_extract kind, ended, kind]; rfl
    have self : s.handshakeOver c.order = ended s := taken s.port
    refine ⟨fun o outcome => ?_, ?_⟩
    · intro line
      have own : o.line = line := by cases o <;> rfl
      refine ⟨?_, fun other away => ?_⟩
      · rw [exec_handlerLineDrop state current outcome, if_pos own, taken, drops]
        rfl
      · rw [exec_handlerLineDrop state current outcome, if_neg (own ▸ away.symm), drops]
    · have port : (ended s).port = s.port := by
        rw [← self]
        exact State.sameBeyondCartons.port ((State.cartons_handshakeOver_iff s s c.order).mpr s.sameBeyondCartons_refl)
      rw [exec_releaseTimeout state current, self, State.portFault, port]
      rfl
end

