-- ==== Sys2Proof/Proofs/Outcomes.lean ====
section
/-! PROOFS. DONE for an order in flight, judged by the seat: confirmed at once, or waited for in CHECKING (R154, R155,
R157). -/

namespace Sys2Proof.Machine

variable {s u : State} {c : CurrentOrder} {i : SlotNo} {b : LaneNo}

/-! ## DONE (R154, R155, R157) -/

/-- The port once DONE has been taken, with its outcome not yet applied (R154, R155). -/
def Port.reportsDone (p : Port) : Port :=
  { p with doneLine := true, state := .checking, outcome := some .done, timer := none }

/-- DONE taken in IN_FLIGHT: interlocked with FAIL low, or strobed at its rise (R154). -/
theorem exec_handlerDone (state : s.port.state = .inFlight) (current : s.port.current = some c)
    (taken : (c.settings.mode = .interlocked ∧ s.port.failLine = false) ∨
      (c.settings.mode = .strobed ∧ s.port.doneLine = false)) :
    exec .handlerDone s = .next ((s.setPort { s.port with doneLine := true }).takeDone c).finish := by
  have reads : c.reads s.port.doneLine = true := by
    rcases taken with ⟨mode, -⟩ | ⟨mode, low⟩ <;> simp [CurrentOrder.reads, *]
  have done : (s.setPort { s.port with doneLine := true }).takeOutcome c .done =
      (s.setPort { s.port with doneLine := true }).takeDone c := by
    refine if_neg ?_
    rcases taken with ⟨-, low⟩ | ⟨mode, -⟩ <;> simp [*]
  change execHandlerDone s = _
  simp only [execHandlerDone, (Port.currentIn_of state).trans current, reads, if_true, done]

theorem State.takeDone_confirms (holds : s.evidence c.order = true) :
    (s.setPort { s.port with doneLine := true }).takeDone c = (s.setPort s.port.reportsDone).confirm c :=
  if_pos holds

theorem State.takeDone_waits (fails : s.evidence c.order = false) :
    (s.setPort { s.port with doneLine := true }).takeDone c =
      s.setPort { s.port.reportsDone with
        timer := some { kind := .evidence, expiry := s.now + BitVec.ofNat 32 (2 * s.spin.debounceMs) } } :=
  if_neg (Bool.eq_false_iff.mp fails)

/-- What the port shows after a handshake ended by DONE, with the line high (R156). -/
def State.DoneEnded (s u : State) (c : CurrentOrder) : Prop :=
  (c.settings.mode = .strobed → u.port.state = .idle ∧ u.port.current = none ∧ u.port.timer = none) ∧
    (c.settings.mode = .interlocked → u.port.state = .confirming ∧ u.port.outcome = some .done ∧
      u.port.timer = some { kind := .release, expiry := s.now + BitVec.ofNat 32 (c.settings.acceptS * 1000) })

theorem State.HandshakeOver.doneEnded (ended : (s.setPort s.port.reportsDone).HandshakeOver u c) : s.DoneEnded u c := by
  obtain ⟨idle, confirming⟩ := ended
  exact ⟨fun mode => idle (.inl mode), fun mode => confirming mode rfl⟩

end Sys2Proof.Machine

open Sys2Proof Sys2Proof.Machine

/-- Settles O44: without the evidence the port waits (`State.takeDone_waits`), and with it the order is confirmed
(`State.confirm_extract`, `State.confirm_insert`), which CM does the same whatever the port holds
(`State.countIn_setPort`). -/
theorem doneJudgedBySeat : Obligations.DoneJudgedBySeat := by
  unfold Obligations.DoneJudgedBySeat
  intro s c state current taken i ended
  rw [exec_handlerDone state current taken]
  refine ⟨fun fails => ?_, fun b kind opened => ?_, fun kind closed inactive => ?_⟩
  · rw [State.takeDone_waits fails]
    rfl
  · have holds : s.evidence c.order = true := by simp [State.evidence, kind, opened, i]
    obtain ⟨handshake, same, record, ring, cartons⟩ :=
      State.confirm_extract (s := s.setPort s.port.reportsDone) (i := i) kind rfl
    rw [← State.countIn_setPort] at ring cartons
    obtain ⟨unreserved, written⟩ := s.countIn_ring i b
    rw [State.takeDone_confirms holds]
    rw [State.setPort_ring] at ring
    rw [← ring] at unreserved written
    rw [State.slot_setPort, opened] at record
    exact ⟨_, rfl, handshake.doneEnded, same, record, unreserved, ⟨_, written, rfl, rfl, rfl⟩, ring, cartons⟩
  · have holds : s.evidence c.order = true := by simp [State.evidence, kind, closed, i]
    obtain ⟨handshake, same, state', plan, -⟩ :=
      State.confirm_insert (s := s.setPort s.port.reportsDone) (i := i) kind rfl inactive
    rw [State.takeDone_confirms holds]
    exact ⟨_, rfl, handshake.doneEnded, same, state', plan⟩
end

