-- ==== Sys2Proof/Proofs/DrivesGivenBack.lean ====
section
/-! PROOFS. The ends of an order other than confirmation (R154, R155, R158, R160): CM's part, the slot's part, and what
the port shows. -/

namespace Sys2Proof.Machine

variable {s t u : State} {c : CurrentOrder} {o : Order} {why : HoldReason} {i j : SlotNo} {b : LaneNo} {x : Port}

/-! ## A slot torn down (R7) -/

theorem State.teardown_slot_same (s : State) (i : SlotNo) :
    (s.teardown i).slot i =
      SlotRec.empty (s.slot i).seatRaw (s.slot i).seatStable (s.slot i).debounce (s.slot i).stepEntry := by
  obtain ⟨empty, -⟩ := s.torn_reads i
  rw [State.teardown_eq, State.enterVacant_slot_same, empty]

/-- A slot outside the permit scheme goes alone (R10). -/
theorem State.teardown_slot_ne (free : (s.slot i).permit = .none) (away : j ≠ i) :
    (s.teardown i).slot j = s.slot j := by
  have detached : (s.detached i).slot j = s.slot j := by
    have off : ((s.powerOff i).slot i).permit = .none := by simpa using free
    have stays : (s.powerOff i).dropPermit i = s.powerOff i := by simp only [State.dropPermit, off]
    rw [State.detached, stays]
    exact (State.Beside.powerOff away).slot
  rw [State.teardown_eq, State.enterVacant_slot_ne _ _ _ _ away, State.torn]
  split
  · rw [(State.Beside.recordEnd away _).slot, detached]
  · exact detached

/-! ## The slot's side (R158) -/

theorem State.orderBack_extract_closed (kind : o.kind = .extract b) (closed : (s.slot o.slot).seatStable = .closed) :
    s.orderBack o why = (s.engage o.slot).enterHeld o.slot why := by
  simp [State.orderBack, kind, State.extractBack, closed]

theorem State.orderBack_extract_opened (kind : o.kind = .extract b) (opened : (s.slot o.slot).seatStable = .opened) :
    s.orderBack o why = (s.engage o.slot).teardown o.slot := by
  simp [State.orderBack, kind, State.extractBack, opened]

theorem State.orderBack_insert_closed (kind : o.kind = .insert) (closed : (s.slot o.slot).seatStable = .closed) :
    s.orderBack o why = (s.dropPlan o.slot).enter o.slot .seated none := by
  simp [State.orderBack, kind, State.insertBack, closed]

theorem State.orderBack_insert_opened (kind : o.kind = .insert) (opened : (s.slot o.slot).seatStable = .opened) :
    s.orderBack o why = (s.dropPlan o.slot).enterVacant o.slot ((s.dropPlan o.slot).slot o.slot).run.endCause := by
  simp [State.orderBack, kind, State.insertBack, opened]

/-- The order given back touches no other slot, where its own is outside the permit scheme. -/
theorem State.orderBack_slot_ne (free : (s.slot o.slot).permit = .none) (away : j ≠ o.slot) :
    (s.orderBack o why).slot j = s.slot j := by
  have engaged : (s.engage o.slot).slot j = s.slot j := s.slot_modSlot_ne _ away
  have dropped : (s.dropPlan o.slot).slot j = s.slot j := (State.Beside.dropPlan away).slot
  cases kind : o.kind with
  | extract b =>
    cases seat : (s.slot o.slot).seatStable with
    | closed => rw [State.orderBack_extract_closed kind seat, State.enterHeld, State.enter_slot_ne _ _ _ _ _ away, engaged]
    | opened =>
      rw [State.orderBack_extract_opened kind seat, State.teardown_slot_ne (by rw [State.engage_slot_same]; exact free) away,
        engaged]
  | insert =>
    cases seat : (s.slot o.slot).seatStable with
    | closed => rw [State.orderBack_insert_closed kind seat, State.enter_slot_ne _ _ _ _ _ away, dropped]
    | opened => rw [State.orderBack_insert_opened kind seat, State.enterVacant_slot_ne _ _ _ _ away, dropped]

/-- The two states agree beyond the slots, but that the dose record of one slot may have been emptied. -/
def State.SameButDose (s t : State) (i : SlotNo) : Prop :=
  s.sameBeyondSlots t ∨ State.sameBeyondSlots { s with doses := s.doses.set i DoseRec.empty } t

theorem State.SameButDose.same (e : s.SameButDose t i) : State.sameBeyondSlots { s with doses := t.doses } t := by
  rcases e with ⟨h1, h2, h3, h4, h5, h6, h7, h8, h9, h10, h11, h12⟩ | ⟨h1, h2, h3, h4, h5, h6, h7, h8, h9, h10, h11, h12⟩ <;>
    exact ⟨h1, h2, h3, h4, rfl, h6, h7, h8, h9, h10, h11, h12⟩

theorem State.SameButDose.dose (e : s.SameButDose t i) (away : j ≠ i) : t.dose j = s.dose j := by
  rcases e with ⟨-, -, -, -, doses, -⟩ | ⟨-, -, -, -, doses, -⟩
  · simp only [State.dose, doses]
  · have cleared : t.dose j = (s.setDose i DoseRec.empty).dose j := by simp only [State.dose, doses, State.setDose]
    rw [cleared, State.dose_setDose_ne _ _ away]

theorem State.orderBack_same (s : State) (o : Order) (why : HoldReason) :
    s.SameButDose (s.orderBack o why) o.slot := by
  cases kind : o.kind with
  | extract b =>
    cases seat : (s.slot o.slot).seatStable with
    | closed =>
      rw [State.orderBack_extract_closed kind seat]
      exact .inl (by simp [State.engage, State.sameBeyondSlots_refl])
    | opened =>
      rw [State.orderBack_extract_opened kind seat]
      exact .inr ((s.engage o.slot).same_teardown o.slot)
  | insert =>
    have dropped : s.sameBeyondSlots (s.dropPlan o.slot) := by simp [State.sameBeyondSlots_refl]
    cases seat : (s.slot o.slot).seatStable with
    | closed =>
      rw [State.orderBack_insert_closed kind seat]
      exact .inl (by simpa using dropped)
    | opened =>
      rw [State.orderBack_insert_opened kind seat]
      exact .inr (State.same_enterVacant_of dropped _)

/-! ## An order given back (R158, R160) -/

/-- An order of `s` has ended unconfirmed in `u`: CM has ended an extraction, an insertion's plan is dropped, and the slot
is held or seated, or empty, by its seat (R158). -/
structure State.GivenBack (s u : State) (o : Order) (why : HoldReason) : Prop where
  same : State.sameBeyondSlots { s with doses := u.doses, ring := u.ring, cartons := u.cartons } u
  others : ∀ j, j ≠ o.slot → u.dose j = s.dose j ∧ ((s.slot o.slot).permit = .none → u.slot j = s.slot j)
  extract : ∀ b, o.kind = .extract b → u.ring.reservation = none ∧
    u.ring = (s.endExtraction b).ring ∧ u.cartons = (s.endExtraction b).cartons ∧
    ((s.slot o.slot).seatStable = .closed →
      u.slot o.slot = { s.slot o.slot with latch := .engaged, state := .held, hold := some why }) ∧
    ((s.slot o.slot).seatStable = .opened →
      u.slot o.slot =
        SlotRec.empty (s.slot o.slot).seatRaw .opened (s.slot o.slot).debounce (s.slot o.slot).stepEntry)
  insert : o.kind = .insert → u.ring = s.ring ∧ u.cartons = s.cartons ∧
    (∀ p, (s.slot o.slot).plan = some p → (u.plan p).refs = (s.plan p).refs - 1) ∧
    ((s.slot o.slot).seatStable = .closed →
      u.slot o.slot = { s.slot o.slot with plan := none, state := .seated, hold := none }) ∧
    ((s.slot o.slot).seatStable = .opened →
      u.slot o.slot =
        SlotRec.empty (s.slot o.slot).seatRaw .opened (s.slot o.slot).debounce (s.slot o.slot).stepEntry)

namespace State.GivenBack

/-- What the order found at the port is nothing to its slot, nor to CM. -/
theorem of_setPort (g : (s.setPort x).GivenBack u o why) : s.GivenBack u o why :=
  ⟨g.same, g.others, fun b kind => by
    have ended := g.extract b kind
    rw [← State.endExtraction_setPort] at ended
    exact ended, g.insert⟩

theorem setPort (g : s.GivenBack u o why) : s.GivenBack (u.setPort x) o why := ⟨g.same, g.others, g.extract, g.insert⟩

theorem notify (g : s.GivenBack u o why) (n : NoticeBody) : s.GivenBack (u.notify n) o why := by
  unfold State.notify
  split
  · exact g
  · exact ⟨g.same, g.others, g.extract, g.insert⟩

theorem endHandshake (g : s.GivenBack u o why) (p : PortOutcome) : s.GivenBack (u.endHandshake c p) o why := by
  unfold State.endHandshake
  split
  · exact g.setPort
  · split
    · exact g.setPort
    · exact g.setPort

end State.GivenBack

/-- What CM does at the end of an order leaves every slot, plan and dose record as it was. -/
theorem State.sameBeyondCartons.reads (e : s.sameBeyondCartons t) :
    (∀ j, t.slot j = s.slot j) ∧ (∀ p, t.plan p = s.plan p) ∧ (∀ j, t.dose j = s.dose j) := by
  rw [State.sameBeyondCartons_eq s t e]
  exact ⟨fun _ => rfl, fun _ => rfl, fun _ => rfl⟩

theorem State.sameBeyondCartons.sort (e : s.sameBeyondCartons t) : t.sort = s.sort := by
  rw [State.sameBeyondCartons_eq s t e]

/-- The two frames, one after the other. -/
theorem State.sameBeyondCartons.trans_slots {d : Vector DoseRec 40} (e : s.sameBeyondCartons t)
    (k : State.sameBeyondSlots { t with doses := d } u) :
    State.sameBeyondSlots { s with doses := d, ring := u.ring, cartons := u.cartons } u := by
  obtain ⟨clock, spin, lines, zones, doses, table, rules, sort, -, -, straps, pending⟩ := k
  rw [State.sameBeyondCartons_eq s t e] at clock spin lines zones table rules sort straps pending
  exact ⟨clock, spin, lines, zones, doses, table, rules, sort, rfl, rfl, straps, pending⟩

/-- CM's part and the slot's part of an end in one. -/
theorem State.orderFails_givenBack (s : State) (o : Order) (e : HandlerEvent) (why : HoldReason) :
    s.GivenBack (s.orderFails o e why) o why := by
  obtain ⟨n, fails⟩ : ∃ n, s.orderFails o e why = ((s.endAtCarton o).notify n).orderBack o why := ⟨_, rfl⟩
  rw [fails]
  generalize ended : (s.endAtCarton o).notify n = t
  have frame : s.sameBeyondCartons t := by
    simpa [← ended] using s.sameBeyondCartons_refl
  obtain ⟨slot, plan, dose⟩ := frame.reads
  have back := t.orderBack_same o why
  obtain ⟨cartons, ring⟩ : (t.orderBack o why).cartons = (s.endAtCarton o).cartons ∧
      (t.orderBack o why).ring = (s.endAtCarton o).ring := by
    obtain ⟨-, -, -, -, -, -, -, -, cartons, ring, -⟩ := back.same
    exact ⟨cartons.trans (by simp [← ended]), ring.trans (by simp [← ended])⟩
  refine ⟨frame.trans_slots back.same, fun j away => ⟨(back.dose away).trans (dose j), fun free => ?_⟩,
    fun b kind => ?_, fun kind => ?_⟩
  · rw [State.orderBack_slot_ne (by rw [slot]; exact free) away, slot]
  · have atCarton : s.endAtCarton o = s.endExtraction b := by simp only [State.endAtCarton, kind]
    rw [atCarton] at cartons ring
    refine ⟨by rw [ring]; exact State.endExtraction_reservation, ring, cartons, fun closed => ?_, fun opened => ?_⟩
    · rw [State.orderBack_extract_closed kind (by rw [slot]; exact closed), State.enterHeld, State.enter_slot_same,
        State.engage_slot_same, slot]
    · rw [State.orderBack_extract_opened kind (by rw [slot]; exact opened), State.teardown_slot_same,
        State.engage_slot_same, slot, ← opened]
  · have atCarton : s.endAtCarton o = s := by simp only [State.endAtCarton, kind]
    rw [atCarton] at cartons ring
    refine ⟨ring, cartons, fun p assigned => ?_,
      fun closed => ?_, fun opened => ?_⟩
    · have counted : ((t.dropPlan o.slot).plan p).refs = (s.plan p).refs - 1 := by
        rw [t.dropPlan_of_some _ (by rw [slot]; exact assigned), State.plan_setPlan_same, plan]
      cases seat : (t.slot o.slot).seatStable with
      | closed => rw [State.orderBack_insert_closed kind seat, State.enter_plan, counted]
      | opened => rw [State.orderBack_insert_opened kind seat, State.enterVacant_plan, counted]
    · rw [State.orderBack_insert_closed kind (by rw [slot]; exact closed), State.enter_slot_same,
        State.dropPlan_slot_same, slot]
    · rw [State.orderBack_insert_opened kind (by rw [slot]; exact opened), State.enterVacant_slot_same,
        State.dropPlan_slot_same, slot, ← opened]

/-- What an end does at the port is to queue and withdraw orders. -/
theorem State.orderFails_port (s : State) (o : Order) (e : HandlerEvent) (why : HoldReason) :
    (s.orderFails o e why).port.besideOrders = s.port.besideOrders := by
  have carton : (s.endAtCarton o).port = s.port :=
    ((State.cartons_endAtCarton_iff s s o).mpr s.sameBeyondCartons_refl).port
  simp [State.orderFails, State.handlerNotice, carton]

/-! ## The ends of a handshake (R156) -/

theorem State.endHandshake_strobed {p : PortOutcome} (mode : c.settings.mode = .strobed) :
    s.endHandshake c p = s.portIdle := by
  simp only [State.endHandshake, mode]

theorem State.endHandshake_low {p : PortOutcome} (mode : c.settings.mode = .interlocked)
    (low : s.port.outcomeLine p = false) : s.endHandshake c p = s.portIdle := by
  simp [State.endHandshake, mode, low]

theorem State.endHandshake_high {p : PortOutcome} (mode : c.settings.mode = .interlocked)
    (high : s.port.outcomeLine p = true) :
    s.endHandshake c p = s.setPort { s.port with
      state := .confirming, outcome := some p
      timer := some { kind := .release, expiry := s.now + BitVec.ofNat 32 (c.settings.acceptS * 1000) } } := by
  simp only [State.endHandshake, mode, high]
  rfl

/-! ## FAIL, the end of the evidence time, the completion timeout (R154, R155, R160) -/

/-- The port once FAIL has been taken, with its outcome not yet applied (R154, R158). -/
def Port.reportsFail (p : Port) : Port := { p with failLine := true, outcome := some .fail, timer := none }

theorem exec_handlerFail (state : s.port.state = .inFlight) (current : s.port.current = some c)
    (taken : c.settings.mode = .interlocked ∨ s.port.failLine = false) :
    exec .handlerFail s =
      .next (((s.setPort s.port.reportsFail).orderFails c.order .fail .handlerFail).endHandshake c .fail).finish := by
  have reads : c.reads s.port.failLine = true := by
    rcases taken with mode | low <;> simp [CurrentOrder.reads, *]
  change execHandlerFail s = _
  simp only [execHandlerFail, (Port.currentIn_of state).trans current, reads, if_true]
  rfl

theorem exec_evidenceTimeout (state : s.port.state = .checking) (current : s.port.current = some c) :
    exec .evidenceTimeout s =
      .next ((s.orderFails c.order .unconfirmed .extractUnconfirmed).endHandshake c .done).finish := by
  change execEvidenceTimeout s = _
  simp only [execEvidenceTimeout, (Port.currentIn_of state).trans current]

theorem exec_completionTimeout (state : s.port.state = .inFlight) (current : s.port.current = some c) :
    exec .completionTimeout s =
      .next (((s.setPort (s.port.cleared .idle)).orderFails c.order .completionTimeout .handlerTimeout).portFault
        .completionTimeout c.order).finish := by
  change execCompletionTimeout s = _
  simp only [execCompletionTimeout, (Port.currentIn_of state).trans current]

end Sys2Proof.Machine

open Sys2Proof Sys2Proof.Machine

/-- Settles O45: each of the three events gives the order back (`State.orderFails_givenBack`) and differs in what the port
shows after it. -/
theorem ordersEndUnconfirmed : Obligations.OrdersEndUnconfirmed := by
  unfold Obligations.OrdersEndUnconfirmed
  intro s c e why current event i
  rcases event with ⟨rfl, rfl, state, taken⟩ | ⟨rfl, rfl, state⟩ | ⟨rfl, rfl, state⟩
  · have given := ((s.setPort s.port.reportsFail).orderFails_givenBack c.order .fail .handlerFail).of_setPort.endHandshake
      (c := c) .fail
    have port := (s.setPort s.port.reportsFail).orderFails_port c.order .fail .handlerFail
    obtain ⟨-, -, -, -, -, -, -, high⟩ := Port.fields_of_besideOrders port
    refine ⟨_, exec_handlerFail state current taken, given.same, given.others, nofun, fun _ mode => ?_,
      fun _ mode => ?_, nofun, given.extract, given.insert⟩
    · rw [State.endHandshake_strobed mode]
      exact ⟨rfl, rfl⟩
    · rw [State.endHandshake_high (p := .fail) mode high]
      exact ⟨rfl, rfl⟩
  · have given := (s.orderFails_givenBack c.order .unconfirmed .extractUnconfirmed).endHandshake (c := c) .done
    have port := s.orderFails_port c.order .unconfirmed .extractUnconfirmed
    obtain ⟨-, -, -, -, -, -, line, -⟩ := Port.fields_of_besideOrders port
    have now : (s.orderFails c.order .unconfirmed .extractUnconfirmed).now = s.now :=
      congrArg Clock.ms (s.orderFails_givenBack c.order .unconfirmed .extractUnconfirmed).same.1
    refine ⟨_, exec_evidenceTimeout state current, given.same, given.others, nofun, fun _ mode => ?_, nofun,
      fun _ mode => ⟨fun high => ?_, fun low => ?_⟩, given.extract, given.insert⟩
    · rw [State.endHandshake_strobed mode]
      exact ⟨rfl, rfl⟩
    · rw [State.endHandshake_high (p := .done) mode (line.trans high), now]
      exact ⟨rfl, rfl, rfl⟩
    · rw [State.endHandshake_low (p := .done) mode (line.trans low)]
      exact ⟨rfl, rfl, rfl⟩
  · have given := ((s.setPort (s.port.cleared .idle)).orderFails_givenBack c.order .completionTimeout
      .handlerTimeout).of_setPort
    refine ⟨_, exec_completionTimeout state current, (given.setPort.notify _).same, (given.setPort.notify _).others,
      fun _ => ?_, fun k => absurd rfl k, nofun, nofun, (given.setPort.notify _).extract,
      (given.setPort.notify _).insert⟩
    rw [State.portFault, State.notify_port]
    exact ⟨rfl, rfl, rfl, rfl⟩

end

