-- ==== Sys2Proof/Proofs/AcceptTimeouts.lean ====
section
/-! PROOFS. The accept timeout (R153): the order returns to its place by age, its slot moves by its kind, its seat and the
bar of its bin, and the third timeout in a row puts the port in FAULT (R161). -/

namespace Sys2Proof.Machine

variable {s t u x : State} {c : CurrentOrder} {o : Order} {i : SlotNo} {b : LaneNo}

/-! ## The queue (R144) -/

/-- The order stands behind the orders no younger than it, and ahead of the next one, which is. -/
theorem returnOrder_place (o : Order) (q : List Order) : ∃ before after, q = before ++ after ∧
    returnOrder o q = before ++ o :: after ∧ (∀ x ∈ before, x.age ≤ o.age) ∧
      (∀ x, after.head? = some x → o.age < x.age) := by
  induction q with
  | nil => exact ⟨[], [], rfl, rfl, by simp, by simp⟩
  | cons y q ih =>
    unfold returnOrder
    split
    · exact ⟨[], y :: q, rfl, rfl, by simp, by simpa⟩
    · obtain ⟨before, after, whole, placed, older, younger⟩ := ih
      exact ⟨y :: before, after, by rw [whole, List.cons_append], by rw [placed, List.cons_append],
        List.forall_mem_cons.mpr ⟨by omega, older⟩, younger⟩

theorem returnOrder_filter (o : Order) (q : List Order) :
    (returnOrder o q).filter (·.slot ≠ o.slot) = q.filter (·.slot ≠ o.slot) := by
  obtain ⟨before, after, rfl, placed, -⟩ := returnOrder_place o q
  simp [placed]

/-- A slot outside the permit scheme is torn down with its own orders withdrawn, and no other touched (R7, R144). -/
theorem State.teardown_queue (free : (s.slot i).permit = .none) :
    (s.teardown i).port.queue = s.port.queue.filter (·.slot ≠ i) := by
  have off : ((s.powerOff i).slot i).permit = .none := by simpa using free
  have stays : (s.powerOff i).dropPermit i = s.powerOff i := by simp only [State.dropPermit, off]
  have detached : (s.detached i).port.queue = s.port.queue.filter (·.slot ≠ i) := by rw [State.detached, stays]; rfl
  rw [State.teardown_eq, State.enterVacant_port, State.torn]
  split
  · rw [State.recordEnd_port, detached]
  · exact detached

/-! ## The slot's side (R153, R137) -/

theorem State.orderReturned_opened (kind : o.kind = .extract b) (opened : (s.slot o.slot).seatStable = .opened) :
    s.orderReturned o = (s.engage o.slot).teardown o.slot := by
  simp [State.orderReturned, kind, opened]

theorem State.orderReturned_barred (kind : o.kind = .extract b) (closed : (s.slot o.slot).seatStable = .closed)
    (barred : s.sort.barred[b] = true) :
    s.orderReturned o = ((s.engage o.slot).withdrawOrder o.slot).enterHeld o.slot .withdrawn := by
  simp [State.orderReturned, kind, closed, State.barred, barred]

theorem State.orderReturned_graded (kind : o.kind = .extract b) (closed : (s.slot o.slot).seatStable = .closed)
    (unbarred : s.sort.barred[b] = false) : s.orderReturned o = (s.engage o.slot).enter o.slot .graded none := by
  simp [State.orderReturned, kind, closed, State.barred, unbarred]

theorem State.orderReturned_seated (kind : o.kind = .insert) (closed : (s.slot o.slot).seatStable = .closed) :
    s.orderReturned o = (s.withdrawOrder o.slot).enterSeated o.slot := by
  simp [State.orderReturned, kind, closed]

theorem State.orderReturned_waits (kind : o.kind = .insert) (opened : (s.slot o.slot).seatStable = .opened) :
    s.orderReturned o = s := by
  simp [State.orderReturned, kind, opened]

/-- A slot seated, on to its run where it has a plan, empties its dose record at the run start alone (R6, R15). -/
theorem State.same_enterSeated (s : State) (i : SlotNo) :
    State.sameBeyondSlots { s with doses := if (s.slot i).plan = none then s.doses else s.doses.set i DoseRec.empty }
      (s.enterSeated i) := by
  have entered : s.sameBeyondSlots (s.enter i .seated none) := (s.same_enter s i _ _).mpr s.sameBeyondSlots_refl
  rw [State.enterSeated_eq]
  split
  · exact entered
  · exact State.sameBeyondSlots_trans (State.same_doses entered) ((s.enter i .seated none).same_startRun i false)

/-- The dose record is emptied by a teardown and by a run start, and by nothing else. -/
theorem State.same_orderReturned (s : State) (o : Order) :
    State.sameBeyondSlots
      { s with
        doses :=
          if (o.kind = .insert ∧ ((s.slot o.slot).seatStable = .opened ∨ (s.slot o.slot).plan = none)) ∨
              (o.kind ≠ .insert ∧ (s.slot o.slot).seatStable = .closed) then s.doses
          else s.doses.set o.slot DoseRec.empty } (s.orderReturned o) := by
  cases kind : o.kind with
  | extract b =>
    cases seat : (s.slot o.slot).seatStable with
    | opened =>
      have torn : State.sameBeyondSlots { s with doses := s.doses.set o.slot DoseRec.empty }
          ((s.engage o.slot).teardown o.slot) := (s.engage o.slot).same_teardown o.slot
      simpa [State.orderReturned_opened kind seat] using torn
    | closed =>
      have engaged : s.sameBeyondSlots (s.engage o.slot) := s.sameBeyondSlots_refl
      cases bar : s.sort.barred[b] with
      | true => simpa [State.orderReturned_barred kind seat bar] using engaged
      | false => simpa [State.orderReturned_graded kind seat bar] using engaged
  | insert =>
    cases seat : (s.slot o.slot).seatStable with
    | opened => simpa [State.orderReturned_waits kind seat] using s.sameBeyondSlots_refl
    | closed =>
      have seated : State.sameBeyondSlots
          { s with doses := if (s.slot o.slot).plan = none then s.doses else s.doses.set o.slot DoseRec.empty }
          ((s.withdrawOrder o.slot).enterSeated o.slot) := (s.withdrawOrder o.slot).same_enterSeated o.slot
      simpa [State.orderReturned_seated kind seat] using seated

/-! ## The slot's side after CM's part (R153)

`x` is `t` with CM's part of the timeout done, before the slot moves. -/

section
variable (frame : t.sameBeyondCartons x)
include frame

theorem State.orderReturned_frame :
    State.sameBeyondSlots
      { t with
        doses :=
          if (o.kind = .insert ∧ ((t.slot o.slot).seatStable = .opened ∨ (t.slot o.slot).plan = none)) ∨
              (o.kind ≠ .insert ∧ (t.slot o.slot).seatStable = .closed) then t.doses
          else t.doses.set o.slot DoseRec.empty
        ring := (x.orderReturned o).ring, cartons := (x.orderReturned o).cartons } (x.orderReturned o) := by
  obtain ⟨slot, -, -⟩ := frame.reads
  have doses : x.doses = t.doses := by rw [State.sameBeyondCartons_eq _ _ frame]
  refine frame.trans_slots ?_
  rw [← doses, ← slot]
  exact x.same_orderReturned o

/-- An extraction returned to a barred bin is withdrawn (R137). -/
theorem State.orderReturned_barred_reads (kind : o.kind = .extract b) (closed : (t.slot o.slot).seatStable = .closed)
    (barred : t.sort.barred[b] = true) :
    (x.orderReturned o).slot o.slot =
        { t.slot o.slot with latch := .engaged, state := .held, hold := some .withdrawn } ∧
      ∀ q ∈ (x.orderReturned o).port.queue, q.slot ≠ o.slot := by
  obtain ⟨slot, -, -⟩ := frame.reads
  rw [← slot] at closed ⊢
  rw [← frame.sort] at barred
  rw [State.orderReturned_barred kind closed barred]
  exact ⟨by simp [State.enterHeld, State.withdrawOrder, State.engage_slot_same],
    by simp [State.enterHeld, State.withdrawOrder]⟩

/-- An extraction returned to a bin not barred waits again. -/
theorem State.orderReturned_graded_reads (kind : o.kind = .extract b) (closed : (t.slot o.slot).seatStable = .closed)
    (unbarred : t.sort.barred[b] = false) :
    (x.orderReturned o).slot o.slot = { t.slot o.slot with latch := .engaged, state := .graded, hold := none } ∧
      (x.orderReturned o).port = t.port := by
  obtain ⟨slot, -, -⟩ := frame.reads
  rw [← slot] at closed ⊢
  rw [← frame.sort] at unbarred
  rw [State.orderReturned_graded kind closed unbarred]
  exact ⟨by rw [State.enter_slot_same, State.engage_slot_same], by rw [State.enter_port, State.engage_port, frame.port]⟩

/-- An extraction returned whose drive has gone: the slot is torn down (R7). -/
theorem State.orderReturned_opened_reads (kind : o.kind = .extract b) (opened : (t.slot o.slot).seatStable = .opened) :
    let u := x.orderReturned o
    u.slot o.slot =
        SlotRec.empty (t.slot o.slot).seatRaw .opened (t.slot o.slot).debounce (t.slot o.slot).stepEntry ∧
      (u.link (shelfOf o.slot)).knows o.slot = false ∧ u.watch o.slot = WatchRec.empty ∧
      (u.linkSlot o.slot).last = none ∧ (∀ q ∈ u.port.queue, q.slot ≠ o.slot) ∧
      ((t.slot o.slot).permit = .none → u.port.queue = t.port.queue.filter (·.slot ≠ o.slot)) := by
  obtain ⟨slot, -, -⟩ := frame.reads
  rw [← slot] at opened ⊢
  obtain ⟨-, -, unknown, unordered⟩ := (x.engage o.slot).torn_reads o.slot
  dsimp only
  rw [State.orderReturned_opened kind opened]
  refine ⟨?_, ?_, ?_, ?_, ?_, fun free => ?_⟩
  · rw [State.teardown_slot_same, State.engage_slot_same, ← opened]
  · rw [State.teardown_eq, State.enterVacant_link, unknown]
  · rw [State.teardown_eq, State.enterVacant_watch_same]
  · rw [State.teardown_eq, State.enterVacant_last_same]
  · rw [State.teardown_eq, State.enterVacant_port]
    exact unordered
  · rw [State.teardown_queue (by rw [State.engage_slot_same]; exact free), State.engage_port, frame.port]

/-- An insertion whose drive is seated is withdrawn, and the run of a slot with an inactive line starts (R6). -/
theorem State.orderReturned_seated_reads (kind : o.kind = .insert) (closed : (t.slot o.slot).seatStable = .closed)
    (inactive : t.overcurrent[o.slot] = false) :
    let u := x.orderReturned o
    (u.slot o.slot).state = (if (t.slot o.slot).plan = none then .seated else .powering) ∧
      (u.slot o.slot).plan = (t.slot o.slot).plan ∧ (u.slot o.slot).seatStable = .closed ∧
      (u.slot o.slot).seatRaw = (t.slot o.slot).seatRaw ∧ (u.slot o.slot).debounce = (t.slot o.slot).debounce ∧
      (∀ q ∈ u.port.queue, q.slot ≠ o.slot) ∧
      ((t.slot o.slot).plan = none ∨ t.quiet → u.port.queue = t.port.queue.filter (·.slot ≠ o.slot)) := by
  obtain ⟨slot, -, -⟩ := frame.reads
  rw [← slot] at closed ⊢
  have lines : x.overcurrent = t.overcurrent := by rw [State.sameBeyondCartons_eq _ _ frame]
  rw [← lines] at inactive
  obtain ⟨⟨state, plan, stable, debounce⟩, -, -⟩ :=
    State.enterSeated_reads (s := x.withdrawOrder o.slot) (i := o.slot) inactive
  obtain ⟨raw, unordered, port⟩ := State.enterSeated_orders (s := x.withdrawOrder o.slot) (i := o.slot) inactive
    (by simp [State.withdrawOrder])
  dsimp only
  rw [State.orderReturned_seated kind closed]
  refine ⟨state, plan, stable.trans closed, raw, debounce, unordered, fun quiet => ?_⟩
  have quiet : (x.slot o.slot).plan = none ∨ x.quiet := quiet.imp_right fun q j => by rw [lines]; exact q j
  rw [port quiet, ← frame.port]
  rfl

end

/-! ## The accept timer expires (R153, R161) -/

/-- The port idle again, with the order in its place in the queue. -/
def Port.takesBack (p : Port) (o : Order) : Port := { p.cleared .idle with queue := returnOrder o p.queue }

/-- The state with the order back in the queue, CM's part done and the HANDLER notice queued. -/
def State.atReturn (s : State) (c : CurrentOrder) : State :=
  let t := (s.setPort (s.port.takesBack c.order)).endAtCarton c.order
  t.notify (.handlerSlot c.order.slot .acceptTimeout c.order ((t.orderReturned c.order).slot c.order.slot).state
    (saturate Config.acceptTimeoutTop (s.port.acceptTimeouts + 1)))

theorem State.atReturn_frame (s : State) (c : CurrentOrder) :
    (s.setPort (s.port.takesBack c.order)).sameBeyondCartons (s.atReturn c) := by
  simpa [State.atReturn] using (s.setPort (s.port.takesBack c.order)).sameBeyondCartons_refl

/-- The port after the timeout: the count raised, and FAULT at the third. -/
theorem State.acceptOver_eq (s : State) (c : CurrentOrder) :
    let n := min 3 (s.port.acceptTimeouts + 1)
    let u := (s.atReturn c).orderReturned c.order
    let v := u.setPort { u.port with acceptTimeouts := n }
    s.acceptOver c = if n = 3 then v.portFault .acceptTimeouts c.order else v := rfl

theorem State.acceptOver_port (s : State) (c : CurrentOrder) :
    let u := s.acceptOver c
    u.port.acceptTimeouts = min 3 (s.port.acceptTimeouts + 1) ∧ u.port.current = none ∧ u.port.timer = none ∧
      u.port.state = (if 3 ≤ s.port.acceptTimeouts + 1 then .fault else .idle) ∧
      (3 ≤ s.port.acceptTimeouts + 1 → u.port.fault = some .acceptTimeouts) := by
  have port : ((s.atReturn c).orderReturned c.order).port.besideOrders =
      (s.port.takesBack c.order).besideOrders := by
    rw [State.orderReturned_besideOrders, (s.atReturn_frame c).port]
    rfl
  obtain ⟨state, current, timer, -⟩ := Port.fields_of_besideOrders port
  dsimp only
  rw [State.acceptOver_eq]
  by_cases third : 3 ≤ s.port.acceptTimeouts + 1
  · have top : min 3 (s.port.acceptTimeouts + 1) = 3 := by omega
    simp only [top, if_true, third, State.portFault, State.notify_port]
    exact ⟨rfl, rfl, rfl, rfl, fun _ => rfl⟩
  · have below : min 3 (s.port.acceptTimeouts + 1) ≠ 3 := by omega
    simp only [if_neg below, if_neg third]
    exact ⟨rfl, current, timer, state, fun k => absurd k third⟩

/-- CM's part of the timeout (R170, R177). -/
theorem State.orderReturned_ring (s : State) (c : CurrentOrder) :
    let u := (s.atReturn c).orderReturned c.order
    (c.order.kind = .insert → u.ring = s.ring ∧ u.cartons = s.cartons) ∧
      (∀ b, c.order.kind = .extract b → u.ring = (s.endExtraction b).ring ∧ u.cartons = (s.endExtraction b).cartons) := by
  obtain ⟨-, -, -, -, -, -, -, -, cartons, ring, -⟩ := (s.atReturn c).same_orderReturned c.order
  dsimp only
  rw [ring, cartons]
  refine ⟨fun kind => ?_, fun b kind => ?_⟩
  · simp [State.atReturn, State.endAtCarton, kind]
  · simp only [State.atReturn, State.endAtCarton, kind, State.notify_ring, State.notify_cartons,
      ← State.endExtraction_setPort]
    exact ⟨rfl, rfl⟩

theorem State.notify_eq_setLine (s : State) (n : NoticeBody) : ∃ l, s.notify n = s.setLine l := by
  unfold State.notify
  split
  · exact ⟨s.line, rfl⟩
  · exact ⟨_, rfl⟩

/-- The timeout does to the rest of the rack what the order's return does, and no more to the queue. -/
theorem State.acceptOver_rest (s : State) (c : CurrentOrder) :
    let u := (s.atReturn c).orderReturned c.order
    ∃ x l, s.acceptOver c = (u.setPort x).setLine l ∧ x.queue = u.port.queue := by
  dsimp only
  rw [State.acceptOver_eq]
  split
  · obtain ⟨l, e⟩ := State.notify_eq_setLine _ _
    exact ⟨_, l, e, rfl⟩
  · exact ⟨_, _, (State.setLine_self _).symm, rfl⟩

theorem exec_acceptTimeout (state : s.port.state = .offered) (current : s.port.current = some c) :
    exec .acceptTimeout s = .next (s.acceptOver c).finish := by
  change execAcceptTimeout s = _
  simp only [execAcceptTimeout, (Port.currentIn_of state).trans current]

end Sys2Proof.Machine

open Sys2Proof Sys2Proof.Machine

/-- Settles O46: the port by `State.acceptOver_port`, CM by `State.orderReturned_ring`, the slot by the kind of the order,
its seat and the bar of its bin, and the place in the queue by `returnOrder_place`. -/
theorem acceptTimeoutReturnsOrder : Obligations.AcceptTimeoutReturnsOrder := by
  unfold Obligations.AcceptTimeoutReturnsOrder
  intro s c state current i
  obtain ⟨timeouts, none, timer, shown, fault⟩ := s.acceptOver_port c
  obtain ⟨kept, ended⟩ := s.orderReturned_ring c
  have frame := s.atReturn_frame c
  have same := State.orderReturned_frame (o := c.order) frame
  obtain ⟨x, l, rest, queue⟩ := s.acceptOver_rest c
  have placed : (s.setPort (s.port.takesBack c.order)).port.queue = returnOrder c.order s.port.queue := rfl
  have filtered : (returnOrder c.order s.port.queue).filter (·.slot ≠ i) = s.port.queue.filter (·.slot ≠ i) :=
    returnOrder_filter c.order s.port.queue
  refine ⟨s.acceptOver c, exec_acceptTimeout state current, timeouts, none, timer, shown, fault, ?_⟩
  have uq : (s.acceptOver c).port.queue = ((s.atReturn c).orderReturned c.order).port.queue := by rw [rest]; exact queue
  rw [uq, rest]
  refine ⟨same, kept, fun b kind => ?_, fun kind closed inactive => ?_, fun waits => ?_⟩
  · obtain ⟨ring, cartons⟩ := ended b kind
    refine ⟨ring, cartons, ?_, fun closed barred => ?_, fun closed unbarred => ?_, fun opened => ?_⟩
    · exact ring ▸ State.endExtraction_reservation
    · have reads := State.orderReturned_barred_reads frame kind closed barred
      exact reads
    · exact (State.orderReturned_graded_reads frame kind closed unbarred).1
    · obtain ⟨slot, unknown, watch, last, unordered, others⟩ := State.orderReturned_opened_reads frame kind opened
      exact ⟨slot, unknown, watch, last, unordered, fun free => (others free).trans filtered⟩
  · obtain ⟨st, plan, stable, raw, debounce, unordered, others⟩ :=
      State.orderReturned_seated_reads frame kind closed inactive
    exact ⟨st, plan, stable, raw, debounce, unordered, fun quiet => (others quiet).trans filtered⟩
  · obtain ⟨before, after, whole, place, older, younger⟩ := returnOrder_place c.order s.port.queue
    refine ⟨before, after, whole, ?_, older, younger⟩
    rw [← place]
    rcases waits with ⟨kind, opened⟩ | ⟨b, kind, closed, unbarred⟩
    · rw [State.orderReturned_waits kind (by rw [frame.reads.1]; exact opened), frame.port, placed]
    · rw [(State.orderReturned_graded_reads frame kind closed unbarred).2, placed]
end

