-- ==== Sys2Proof/Proofs/Dispatches.lean ====
section
/-! PROOFS. The arbiter (R147 to R152, R177): which orders are eligible, which one goes, and what a dispatch does. -/

namespace Sys2Proof.Machine

variable {s : State} {c : CurrentOrder} {o : Order} {b : LaneNo} {n : Nat}

/-! ## Eligibility (R147, R148) -/

theorem State.eligible_iff (s : State) (o : Order) :
    s.eligible o = true ↔
      s.port.readyLine = true ∧ s.port.state ≠ .fault ∧
        (match o.kind with
          | .extract b =>
            (s.carton b).state = .opened ∧
              (if (s.carton b).fill + 1 = (s.carton b).capacity then 2 else 1) ≤ s.ring.free
          | .insert =>
            (s.slot o.slot).state = .loadWait ∧ (s.slot o.slot).seatStable = .opened ∧
              (s.slot o.slot).debounce = none) := by
  unfold State.eligible State.orderTest
  cases ready : s.port.readyLine with
  | false => simp
  | true =>
    by_cases fault : s.port.state = .fault
    · simp [fault]
    · cases kind : o.kind with
      | extract b =>
        simp only [← Carton.need_eq]
        by_cases opened : (s.carton b).state = .opened <;> simp [fault, opened]
      | insert =>
        by_cases waits : (s.slot o.slot).state = .loadWait <;> simp [fault, waits]

/-! ## The oldest eligible orders (R149) -/

/-- No order of the kind in the queue is eligible. -/
def State.NoneEligible (s : State) (insert : Bool) : Prop :=
  ∀ x ∈ s.port.queue, (x.kind = .insert ↔ insert = true) → s.eligible x = false

/-- The order is the first eligible one of its kind in the queue. -/
def State.OldestEligible (s : State) (insert : Bool) (o : Order) : Prop :=
  (o.kind = .insert ↔ insert = true) ∧ s.eligible o = true ∧
    ∃ before after, s.port.queue = before ++ o :: after ∧
      ∀ x ∈ before, (x.kind = .insert ↔ insert = true) → s.eligible x = false

/-- The oldest eligible order of a kind, as the arbiter looks for it. -/
def State.oldest (s : State) (insert : Bool) : Option Order :=
  s.port.queue.find? fun o => decide (o.kind = .insert ↔ insert = true) && s.eligible o

theorem OrderKind.isInsert_eq (k : OrderKind) : k.isInsert = decide (k = .insert) := by
  cases k <;> rfl

theorem State.oldestInsert_eq (s : State) : s.oldestInsert = s.oldest true := by
  simp [State.oldestInsert, State.oldest, OrderKind.isInsert_eq]

theorem State.oldestExtract_eq (s : State) : s.oldestExtract = s.oldest false := by
  simp [State.oldestExtract, State.oldest, OrderKind.isInsert_eq]

theorem State.oldest_eq_none_iff {insert : Bool} : s.oldest insert = none ↔ s.NoneEligible insert := by
  simp only [State.oldest, State.NoneEligible, List.find?_eq_none, Bool.and_eq_true, decide_eq_true_eq, not_and,
    Bool.not_eq_true]

theorem State.OldestEligible.eq_some {insert : Bool} (g : s.OldestEligible insert o) : s.oldest insert = some o := by
  obtain ⟨kind, eligible, before, after, whole, first⟩ := g
  rw [State.oldest, List.find?_eq_some_iff_append]
  refine ⟨by simp [kind, eligible], before, after, whole, fun x m => ?_⟩
  simp only [Bool.not_eq_true', Bool.and_eq_false_imp, decide_eq_true_eq]
  exact first x m

/-! ## Dispatch (R151) -/

/-- The order made current, before the deskew. -/
def Port.takesUp (p : Port) (o : Order) (streak : Nat) : Port :=
  { p with
    queue := p.queue.filter (·.slot ≠ o.slot), current := some { order := o, settings := p.settings }
    streak := streak, state := .deskew }

/-- The port with an order dispatched: the deskew begun, or, with a deskew of 0, OFFER high, or the order in flight
(R151, R152). -/
def Port.dispatched (p : Port) (now : Time) (o : Order) (streak : Nat) : Port :=
  if p.settings.deskew ≠ 0 then
    { p.takesUp o streak with
      timer := some { kind := .deskew, expiry := now + BitVec.ofNat 32 p.settings.deskew } }
  else if p.acceptLine then (p.takesUp o streak).accepted now { order := o, settings := p.settings }
  else (p.takesUp o streak).offers now { order := o, settings := p.settings }

/-- No outcome line is read in the event of a dispatch (log entry 23). -/
def Port.dispatchUnread (p : Port) : Prop :=
  p.settings.deskew ≠ 0 ∨ p.acceptLine = false ∨ p.settings.mode = .strobed ∨
    (p.doneLine = false ∧ p.failLine = false)

/-- The deskew begins, or OFFER rises at once. -/
def State.beginDeskew (s : State) (c : CurrentOrder) : State :=
  if c.settings.deskew = 0 then s.raiseOffer c
  else s.setPort { s.port with timer := some { kind := .deskew, expiry := Time.after s.now c.settings.deskew } }

theorem State.dispatch_insert_eq (kind : o.kind = .insert) :
    s.dispatch o n = (s.setPort (s.port.takesUp o n)).beginDeskew { order := o, settings := s.port.settings } := by
  simp only [State.dispatch, kind]
  rfl

theorem State.dispatch_extract_eq (kind : o.kind = .extract b) :
    s.dispatch o n = (((s.setPort (s.port.takesUp o n)).reserve o.slot b).unload o.slot).beginDeskew
      { order := o, settings := s.port.settings } := by
  simp only [State.dispatch, kind]
  rfl

theorem State.beginDeskew_eq {p : Port} (unread : p.dispatchUnread) (port : s.port = p.takesUp o n) :
    s.beginDeskew { order := o, settings := p.settings } = s.setPort (p.dispatched s.now o n) := by
  unfold State.beginDeskew Port.dispatched
  by_cases deskew : p.settings.deskew = 0
  · rw [if_pos deskew, if_neg (not_not.mpr deskew)]
    by_cases accept : p.acceptLine = true
    · have unread : (p.takesUp o n).unread { order := o, settings := p.settings } :=
        (unread.resolve_left (not_not.mpr deskew)).resolve_left (by simp [accept])
      rw [if_pos accept, State.raiseOffer_taken (by rw [port]; exact accept) (by rw [port]; exact unread), port]
    · rw [if_neg accept, State.raiseOffer_waits (by rw [port]; exact Bool.eq_false_iff.mpr accept), port]
  · rw [if_neg deskew, if_pos deskew, port]
    rfl

theorem State.dispatch_insert (unread : s.port.dispatchUnread) (kind : o.kind = .insert) :
    s.dispatch o n = s.setPort (s.port.dispatched s.now o n) := by
  rw [State.dispatch_insert_eq kind, State.beginDeskew_eq (p := s.port) (n := n) unread rfl]
  rfl

theorem State.dispatch_extract (unread : s.port.dispatchUnread) (kind : o.kind = .extract b) :
    s.dispatch o n = ((s.reserve o.slot b).unload o.slot).setPort (s.port.dispatched s.now o n) := by
  have begun : (((s.setPort (s.port.takesUp o n)).reserve o.slot b).unload o.slot).port = s.port.takesUp o n := by
    simp [State.unload, State.reserve]
  have now : (((s.setPort (s.port.takesUp o n)).reserve o.slot b).unload o.slot).now = s.now := by
    rw [State.unload, State.enter, State.notify_now]
    rfl
  rw [State.dispatch_extract_eq kind, State.beginDeskew_eq unread begun, now]
  simp [State.unload, State.reserve, State.enter, State.modSlot_eq]

/-- What a dispatched extraction writes beside the port (R151, R177). -/
theorem State.reserve_unload_reads (s : State) (i : SlotNo) (b : LaneNo) :
    ((s.reserve i b).unload i).slots =
        s.slots.set i { s.slot i with latch := .released, state := .unloading, hold := none } ∧
      ((s.reserve i b).unload i).ring =
        { s.ring with reservation := some { slot := i, lane := b, entries := (s.carton b).need } } ∧
      State.sameBeyondSlots { s with ring := ((s.reserve i b).unload i).ring } ((s.reserve i b).unload i) := by
  have ring : ((s.reserve i b).unload i).ring = (s.reserve i b).ring := by simp [State.unload, State.enter]
  have same : (s.reserve i b).sameBeyondSlots ((s.reserve i b).unload i) := by
    simp [State.unload, State.sameBeyondSlots_refl]
  refine ⟨?_, ring, ?_⟩
  · simp [State.unload, State.enter, State.modSlot_eq, State.reserve]
  · rw [ring]
    exact same

/-! ## The arbiter (R149, R150) -/

theorem State.arbiter_none (inserts : s.oldest true = none) (extracts : s.oldest false = none) :
    s.arbiter = s.setPort { s.port with streak := 0 } := by
  simp only [State.arbiter, State.oldestInsert_eq, State.oldestExtract_eq, inserts, extracts]

theorem State.arbiter_insert (inserts : s.oldest true = some o)
    (extracts : s.oldest false = none ∨ 4 ≤ s.port.streak) : s.arbiter = s.dispatch o 0 := by
  simp only [State.arbiter, State.oldestInsert_eq, State.oldestExtract_eq, inserts]
  rcases extracts with absent | full
  · simp only [absent]
  · cases s.oldest false with
    | none => rfl
    | some e => exact if_neg (Nat.not_lt.mpr full)

theorem State.arbiter_extract (extracts : s.oldest false = some o)
    (inserts : (s.oldest true = none ∧ n = 0) ∨
      (s.oldest true ≠ none ∧ s.port.streak < 4 ∧ n = s.port.streak + 1)) : s.arbiter = s.dispatch o n := by
  simp only [State.arbiter, State.oldestInsert_eq, State.oldestExtract_eq, extracts]
  rcases inserts with ⟨absent, rfl⟩ | ⟨waits, room, rfl⟩
  · simp only [absent]
  · obtain ⟨i, e⟩ := Option.ne_none_iff_exists'.mp waits
    simp only [e]
    exact if_pos room

/-! ## A run of the arbiter keeps the READY line -/

@[simp] theorem State.endHandshake_readyLine (p : PortOutcome) :
    (s.endHandshake c p).port.readyLine = s.port.readyLine := by
  unfold State.endHandshake; (repeat' split) <;> rfl

theorem State.orderConfirmed_port (s : State) (o : Order) :
    (s.orderConfirmed o).port.besideOrders = s.port.besideOrders := by
  cases kind : o.kind with
  | extract b =>
    have counted := ((State.cartons_countIn_iff s s o.slot b).mpr s.sameBeyondCartons_refl).port
    simp [State.orderConfirmed, kind, counted]
  | insert => simp [State.orderConfirmed, kind]

theorem State.takeFail_readyLine : (s.takeFail c).port.readyLine = s.port.readyLine := by
  let t := s.setPort { s.port with outcome := some .fail, timer := none }
  obtain ⟨-, -, -, -, -, ready, -⟩ := Port.fields_of_besideOrders (t.orderFails_port c.order .fail .handlerFail)
  rw [State.takeFail, State.endHandshake_readyLine]
  exact ready

theorem State.takeDone_readyLine : (s.takeDone c).port.readyLine = s.port.readyLine := by
  let t := s.setPort { s.port with state := .checking, outcome := some .done, timer := none }
  obtain ⟨-, -, -, -, -, ready, -⟩ := Port.fields_of_besideOrders (t.orderConfirmed_port c.order)
  simp only [State.takeDone]
  split
  · rw [State.confirm, State.endHandshake_readyLine]
    exact ready
  · rfl

theorem State.takeAccept_readyLine : (s.takeAccept c).port.readyLine = s.port.readyLine := by
  have read (u : State) : (u.readLines c).port.readyLine = u.port.readyLine := by
    unfold State.readLines
    (repeat' split) <;> simp [State.takeFail_readyLine, State.takeDone_readyLine]
  rw [State.takeAccept, read]
  rfl

theorem State.beginDeskew_readyLine : (s.beginDeskew c).port.readyLine = s.port.readyLine := by
  unfold State.beginDeskew
  split
  · rw [State.raiseOffer_eq]
    split
    · rw [State.takeAccept_readyLine]
      rfl
    · rfl
  · rfl

theorem State.arbitrate_readyLine : s.arbitrate.port.readyLine = s.port.readyLine := by
  have dispatched (o : Order) (n : Nat) : (s.dispatch o n).port.readyLine = s.port.readyLine := by
    cases kind : o.kind with
    | insert => rw [State.dispatch_insert_eq kind, State.beginDeskew_readyLine]; rfl
    | extract b =>
      rw [State.dispatch_extract_eq kind, State.beginDeskew_readyLine, State.unload, State.enter_port]
      rfl
  unfold State.arbitrate State.arbiter
  (repeat' split) <;> simp [dispatched]

/-! ## The end of the event (R60, R61, R149, R192) -/

/-- In IDLE an event that makes no other change runs the arbiter, and leaves the line port its part. -/
theorem State.finish_of_idle (idle : s.port.state = .idle) : ∃ l, s.finish = s.advanceLinks.arbiter.setLine l := by
  have runs : s.advanceLinks.arbitrate = s.advanceLinks.arbiter := if_pos idle
  exact ⟨_, by rw [State.finish, runs]⟩

end Sys2Proof.Machine

open Sys2Proof Sys2Proof.Machine

/-- Settles O42: the eligibility tests as R147 and R148 list them, and the arbiter's choice (`State.arbiter_none`,
`State.arbiter_insert`, `State.arbiter_extract`) with what the dispatch of it does (`State.dispatch_insert`,
`State.dispatch_extract`). -/
theorem arbiterDispatches : Obligations.ArbiterDispatches := by
  unfold Obligations.ArbiterDispatches
  intro s
  refine ⟨s.eligible_iff, rfl, ⟨_, rfl, ?_⟩, fun idle => ?_⟩
  · exact State.arbitrate_readyLine (s := (s.setPort { s.port with readyLine := true }).advanceLinks)
  · intro oldest noneOf unread dispatched
    obtain ⟨l, run⟩ := State.finish_of_idle idle
    have runs : exec .orderDispatch s = .next (s.advanceLinks.arbiter.setLine l) := congrArg Host.Outcome.next run
    have none_of {insert : Bool} : noneOf insert ↔ s.advanceLinks.oldest insert = none :=
      State.oldest_eq_none_iff.symm
    have first {insert : Bool} {o : Order} (g : oldest insert o) : s.advanceLinks.oldest insert = some o :=
      State.OldestEligible.eq_some (s := s.advanceLinks) g
    have unread : s.advanceLinks.port.dispatchUnread := unread
    refine ⟨fun inserts extracts => ⟨_, runs, ?_⟩, fun o insert extracts => ⟨_, runs, ?_⟩,
      fun o b streak extract kind inserts => ⟨_, runs, ?_⟩⟩
    · rw [State.arbiter_none (none_of.mp inserts) (none_of.mp extracts)]
      exact ⟨s.sameBeyondSlots_refl, rfl, rfl⟩
    · have found := first insert
      obtain ⟨kind, -⟩ := insert
      rw [State.arbiter_insert found (extracts.imp_left none_of.mp), State.dispatch_insert unread (kind.mpr rfl)]
      exact ⟨s.sameBeyondSlots_refl, rfl, rfl⟩
    · rw [none_of] at inserts
      rw [State.arbiter_extract (first extract) inserts, State.dispatch_extract unread kind]
      obtain ⟨slots, ring, same⟩ := s.advanceLinks.reserve_unload_reads o.slot b
      exact ⟨same, rfl, slots, ring⟩
end

