-- ==== Sys2Proof/Proofs/CartonCloses.lean ====
section
/-! PROOFS. What each operation of CM writes of the ring and the cartons (R167 to R170, R174 to R178): a record, the
next carton of a bin, the close of a short carton, and freed space served. The frame beside them is the line port but
for its notices. -/

namespace Sys2Proof.Machine

variable {s t : State} {b x : LaneNo}

/-! ## The line port but for its notices (R193) -/

/-- What a rule that queues a notice leaves of the line port (R194, R195). -/
def Line.besideNotices (l : Line) : Line := { l with notices := [] }

theorem Line.eq_of_besideNotices {k l : Line} (e : k.besideNotices = l.besideNotices) :
    k = { l with notices := k.notices } := by
  simp only [Line.besideNotices, Line.mk.injEq] at e
  cases k; cases l; simp_all

theorem Line.rackTime_of_besideNotices {k l : Line} (e : k.besideNotices = l.besideNotices) :
    k.rackTime = l.rackTime := by
  rw [Line.eq_of_besideNotices e]

@[simp] theorem State.notify_besideNotices (n : NoticeBody) :
    (s.notify n).line.besideNotices = s.line.besideNotices := by
  unfold State.notify; split <;> rfl
@[simp] theorem State.notifyCarton_besideNotices (e : CartonEvent) (c : Option (Nat × Nat × Nat)) :
    (s.notifyCarton b e c).line.besideNotices = s.line.besideNotices := by simp [State.notifyCarton]
@[simp] theorem State.judgeHighWater_besideNotices :
    s.judgeHighWater.line.besideNotices = s.line.besideNotices := by
  simp only [State.judgeHighWater]; split <;> simp
@[simp] theorem State.writeRecord_besideNotices (m : ManifestBody) :
    (s.writeRecord m).line.besideNotices = s.line.besideNotices := by simp [State.writeRecord]
@[simp] theorem State.enterAbsent_besideNotices (e : CartonEvent) (c : Option (Nat × Nat × Nat)) :
    (s.enterAbsent b e c).line.besideNotices = s.line.besideNotices := by
  simp only [State.enterAbsent, State.openCarton]; split <;> simp
@[simp] theorem State.serveBin_besideNotices : (s.serveBin b).line.besideNotices = s.line.besideNotices := by
  unfold State.serveBin State.closeShort; split <;> simp

/-! ## Cartons written -/

theorem State.cartons_set_self : s.cartons.set b (s.carton b) = s.cartons := by simp [State.carton]

theorem State.carton_of_cartons {v : Carton} (e : t.cartons = s.cartons.set b v) :
    t.carton x = if x = b then v else s.carton x := by
  change t.cartons[x] = _
  rw [e]
  split
  case isTrue own => rw [own]; simp
  case isFalse away => exact State.carton_setCarton_ne s v away

/-- A carton gone by its close leaves the next number to its bin (R168, R169, R178). -/
theorem Carton.gone_emptied (c : Carton) : c.emptied.gone c.emptied.sequence = c.gone (nextWrap 65535 c.sequence) := by
  unfold Carton.gone
  rfl

/-- A bin whose carton is empty enters ABSENT, or goes on to a new carton, under its number as it stands (R166). -/
theorem State.enterAbsent_cartons (e : CartonEvent) (c : Option (Nat × Nat × Nat)) (empty : (s.carton b).fill = 0) :
    (s.enterAbsent b e c).cartons = s.cartons.set b ((s.carton b).gone (s.carton b).sequence) := by
  simp only [State.enterAbsent, State.notifyCarton_carton, State.carton_modCarton_same, Carton.gone]
  split
  · simp [State.openCarton, State.notifyCarton, State.modCarton, Carton.opening]
  · simp [State.notifyCarton, State.modCarton, ← empty]

/-- A bin whose input is LOW stays in ABSENT, with no notice but that of the event (R166). -/
theorem State.enterAbsent_low (e : CartonEvent) (c : Option (Nat × Nat × Nat)) (low : (s.carton b).present = false) :
    s.enterAbsent b e c =
      (s.modCarton b fun c => { c with state := .absent, pendingClose := false }).notifyCarton b e c := by
  simp only [State.enterAbsent, State.notifyCarton_carton, State.carton_modCarton_same, low]
  rfl

/-! ## Records written (R174, R181) -/

/-- The ring with its high-water state judged (R181). -/
def Ring.judged (r : Ring) : Ring := { r with above := decide (r.threshold ≤ r.records.length) }

theorem State.judgeHighWater_eq (s : State) :
    s.judgeHighWater =
      if s.ring.judged.above = true ∧ s.ring.above = false then
        (s.setRing s.ring.judged).notify (.manifestHigh s.ring.records.length s.ring.threshold s.ring.oldest
          s.ring.newest s.ring.reserved s.closingBins)
      else s.setRing s.ring.judged := by
  simp only [State.judgeHighWater, Bool.and_eq_true, Bool.not_eq_true', Ring.judged]
  rfl

@[simp] theorem State.judgeHighWater_ring : s.judgeHighWater.ring = s.ring.judged := by
  rw [State.judgeHighWater_eq]; split <;> simp
@[simp] theorem State.judgeHighWater_cartons : s.judgeHighWater.cartons = s.cartons := by
  rw [State.judgeHighWater_eq]; split <;> simp

/-- The ring with one record more, which takes the next number (R174). -/
def Ring.written (r : Ring) (time : Count32) (m : ManifestBody) : Ring :=
  { r with
    records := r.records ++ [{ number := r.next, time := time, body := m }]
    next := nextWrap 4294967295 r.next, above := decide (r.threshold ≤ r.records.length + 1) }

@[simp] theorem State.writeRecord_ring (m : ManifestBody) :
    (s.writeRecord m).ring = s.ring.written s.line.rackTime m := by
  simp [State.writeRecord, Ring.judged, Ring.written]
@[simp] theorem State.writeRecord_cartons (m : ManifestBody) : (s.writeRecord m).cartons = s.cartons := by
  simp [State.writeRecord]

/-! ## A short close (R169, R178) -/

/-- The CARTON record of a short carton (R176). -/
def Carton.shortRecord (c : Carton) (b : LaneNo) : ManifestBody :=
  .carton { lane := b, sequence := c.sequence, count := c.fill, short := true }

/-- The carton of a bin after the close of the one it holds (R168, R169, R178). -/
def Carton.succ (c : Carton) : Carton := c.gone (nextWrap 65535 c.sequence)

theorem State.closeShort_ring (s : State) (b : LaneNo) :
    (s.closeShort b).ring = s.ring.written s.line.rackTime ((s.carton b).shortRecord b) := by
  simp [State.closeShort, Carton.close, Carton.shortRecord]

theorem State.closeShort_cartons (s : State) (b : LaneNo) :
    (s.closeShort b).cartons = s.cartons.set b (s.carton b).succ := by
  rw [State.closeShort, State.enterAbsent_cartons _ _ (by simp [Carton.emptied]), State.carton_modCarton_same,
    Carton.gone_emptied, State.writeRecord_carton]
  simp [Carton.succ]

/-! ## One bin served (R178) -/

/-- The bin waits for space (R178). -/
def Carton.waits (c : Carton) : Bool := c.state = .closing ∧ c.pendingClose = false

theorem State.serveBin_eq (s : State) (b : LaneNo) :
    s.serveBin b = if (s.carton b).waits = true ∧ 1 ≤ s.ring.free then s.closeShort b else s := by
  simp [State.serveBin, Carton.waits]

theorem State.serveBin_served (waits : (s.carton b).waits = true) (free : 1 ≤ s.ring.free) :
    s.serveBin b = s.closeShort b := by
  rw [State.serveBin_eq, if_pos ⟨waits, free⟩]

theorem State.serveBin_unserved (unserved : ¬ ((s.carton b).waits = true ∧ 1 ≤ s.ring.free)) : s.serveBin b = s := by
  rw [State.serveBin_eq, if_neg unserved]

/-! ## Freed space (R178) -/

/-- The bins of a list that wait for space, as far as the free entries go (R178). -/
def State.servedOf (s : State) (lanes : List LaneNo) : List LaneNo :=
  (lanes.filter fun b => (s.carton b).waits).take s.ring.free

/-- Freed space has been served to bins: their short records follow those of the ring, and their cartons are gone
(R174, R176, R178). -/
structure State.ServedTo (s t : State) (served : List LaneNo) : Prop where
  line : t.line.besideNotices = s.line.besideNotices
  reservation : t.ring.reservation = s.ring.reservation
  threshold : t.ring.threshold = s.ring.threshold
  records : ∃ records, t.ring.records = s.ring.records ++ records ∧
    records.map (·.body) = served.map (fun b => (s.carton b).shortRecord b) ∧
    (∀ r ∈ records, r.time = s.line.rackTime) ∧ (∀ r, records.head? = some r → r.number = s.ring.next)
  cartons : ∀ b, t.carton b = if b ∈ served then (s.carton b).succ else s.carton b

theorem State.ServedTo.nothing : s.ServedTo s [] :=
  ⟨rfl, rfl, rfl, ⟨[], by simp⟩, fun _ => rfl⟩

/-- The bins served after one that takes an entry. -/
theorem State.ServedTo.after_closeShort {served : List LaneNo} (g : (s.closeShort b).ServedTo t served)
    (once : b ∉ served) : s.ServedTo t (b :: served) := by
  have beside : (s.closeShort b).line.besideNotices = s.line.besideNotices := by simp [State.closeShort]
  have cartons {x : LaneNo} : (s.closeShort b).carton x = if x = b then (s.carton b).succ else s.carton x :=
    State.carton_of_cartons (s.closeShort_cartons b)
  obtain ⟨line, reservation, threshold, ⟨records, ring, bodies, times, -⟩, gone⟩ := g
  rw [State.closeShort_ring] at reservation threshold ring
  refine ⟨line.trans beside, reservation, threshold,
    ⟨{ number := s.ring.next, time := s.line.rackTime, body := (s.carton b).shortRecord b } :: records, ?_, ?_, ?_, ?_⟩,
    fun x => ?_⟩
  · rw [ring]
    simp [Ring.written]
  · rw [List.map_cons, List.map_cons, bodies]
    refine congrArg _ (List.map_congr_left fun x m => ?_)
    rw [cartons, if_neg fun (e : x = b) => once (e ▸ m)]
  · simpa [Line.rackTime_of_besideNotices beside] using times
  · simp
  · rw [gone, cartons]
    by_cases own : x = b
    · subst own
      simp [once]
    · simp [own]

theorem State.foldl_serveBin_servedTo (lanes : List LaneNo) (once : lanes.Nodup) :
    s.ServedTo (lanes.foldl State.serveBin s) (s.servedOf lanes) := by
  induction lanes generalizing s with
  | nil => simpa [State.servedOf] using State.ServedTo.nothing
  | cons b lanes ih =>
    obtain ⟨fresh, once⟩ := List.nodup_cons.mp once
    rw [List.foldl_cons]
    by_cases serves : (s.carton b).waits = true ∧ 1 ≤ s.ring.free
    · obtain ⟨waits, free⟩ := serves
      rw [State.serveBin_served waits free]
      have others : (lanes.filter fun x => ((s.closeShort b).carton x).waits) =
          lanes.filter fun x => (s.carton x).waits := List.filter_congr fun x m => by
        rw [State.carton_of_cartons (s.closeShort_cartons b), if_neg fun (e : x = b) => fresh (e ▸ m)]
      have left : s.ring.free = (s.closeShort b).ring.free + 1 := by
        rw [Ring.free_eq] at free
        rw [Ring.free_eq, Ring.free_eq, State.closeShort_ring]
        simp only [Ring.written, Ring.reserved, List.length_append, List.length_singleton] at free ⊢
        omega
      have served : s.servedOf (b :: lanes) = b :: (s.closeShort b).servedOf lanes := by
        rw [State.servedOf, List.filter_cons, if_pos waits, left, List.take_succ_cons, State.servedOf, others]
      rw [served]
      exact (ih once).after_closeShort fun m => fresh (List.mem_of_mem_filter (List.mem_of_mem_take m))
    · rw [State.serveBin_unserved serves]
      have served : s.servedOf (b :: lanes) = s.servedOf lanes := by
        unfold State.servedOf
        by_cases waits : (s.carton b).waits = true
        · have full : s.ring.free = 0 := Nat.lt_one_iff.mp (Nat.lt_of_not_le fun free => serves ⟨waits, free⟩)
          rw [full, List.take_zero, List.take_zero]
        · rw [List.filter_cons, if_neg waits]
      rw [served]
      exact ih once

/-- The entries freed go to the bins that wait, lowest first (R178). -/
theorem State.serveFreed_servedTo : s.ServedTo s.serveFreed (s.servedOf allLanes) :=
  State.foldl_serveBin_servedTo allLanes (List.nodup_finRange 12)

/-- With no bin waiting there is nothing to serve (R178). -/
theorem State.serveFreed_idle (idle : ∀ b, (s.carton b).waits = false) : s.serveFreed = s := by
  unfold State.serveFreed
  induction allLanes with
  | nil => rfl
  | cons b lanes ih =>
    rw [List.foldl_cons, State.serveBin_unserved fun k => Bool.eq_false_iff.mp (idle b) k.1, ih]

end Sys2Proof.Machine
end

