-- ==== Sys2Proof/Proofs/CartonInputs.lean ====
section
/-! PROOFS. The carton-present inputs (R167, R169): a rise and a drop by the carton state in which they come. -/

namespace Sys2Proof.Machine

variable {s : State} {b : LaneNo}

/-- The carton of a bin written, with a CARTON notice of it (R171). -/
def State.cartonNoted (s : State) (b : LaneNo) (c : Carton) (e : CartonEvent) : State :=
  (s.setCarton b c).notify (.carton b e c none)

theorem State.modCarton_twice (f g : Carton → Carton) :
    (s.modCarton b f).modCarton b g = s.modCarton b fun c => g (f c) := by
  simp [State.modCarton]

theorem State.notifyCarton_modCarton (f : Carton → Carton) (e : CartonEvent) :
    (s.modCarton b f).notifyCarton b e none = s.cartonNoted b (f (s.carton b)) e := by
  rw [State.notifyCarton, State.carton_modCarton_same]
  rfl

/-! ## A rise (R167) -/

/-- The new carton that a rise opens (R167). -/
def Carton.raised (c : Carton) (sequence : Nat) : Carton :=
  { c with
    sequence := sequence, fill := 0, capacity := c.staged.getD c.capacity, staged := none, state := .opened,
    present := true }

theorem State.openCarton_raised :
    (s.modCarton b fun c => { c with present := true }).openCarton b =
      s.cartonNoted b ((s.carton b).raised
        (if (s.carton b).state = .changing then nextWrap 65535 (s.carton b).sequence else (s.carton b).sequence))
        .opened := by
  rw [State.openCarton, State.modCarton_twice, State.notifyCarton_modCarton]
  rfl

theorem State.presentRise_absent (absent : (s.carton b).state = .absent) :
    s.presentRise b = s.cartonNoted b ((s.carton b).raised (s.carton b).sequence) .opened := by
  simp only [State.presentRise, absent, State.openCarton_raised]
  rfl

/-- After a drop in CHANGING the new carton takes the next number (R167). -/
theorem State.presentRise_changing (changing : (s.carton b).state = .changing) (low : (s.carton b).present = false) :
    s.presentRise b = s.cartonNoted b ((s.carton b).raised (nextWrap 65535 (s.carton b).sequence)) .opened := by
  simp only [State.presentRise, changing, low, State.openCarton_raised]
  rfl

/-- Elsewhere a rise is a level alone. -/
theorem State.presentRise_level (stays : (s.carton b).state = .opened ∨ (s.carton b).state = .closing ∨
      ((s.carton b).state = .changing ∧ (s.carton b).present = true)) :
    s.presentRise b = s.setCarton b { s.carton b with present := true } := by
  change _ = s.modCarton b fun c => { c with present := true }
  rcases stays with state | state | ⟨state, high⟩
  · simp only [State.presentRise, state]
  · simp only [State.presentRise, state]
  · simp only [State.presentRise, state, high, if_true]

/-! ## A drop (R169) -/

theorem State.presentDrop_level (shut : (s.carton b).state ≠ .opened) :
    s.presentDrop b = s.setCarton b { s.carton b with present := false } := if_neg shut

theorem State.presentDrop_opened (opened : (s.carton b).state = .opened) :
    s.presentDrop b = (s.modCarton b fun c => { c with present := false }).cartonTaken b := if_pos opened

/-- The tests of a carton taken away, made on its record from before the drop. -/
theorem State.cartonTaken_dropped (s : State) (b : LaneNo) :
    (s.modCarton b fun c => { c with present := false }).cartonTaken b =
      if s.extracting b then
        s.cartonNoted b { s.carton b with present := false, state := .closing, pendingClose := true } .held
      else if (s.carton b).fill = 0 then
        s.cartonNoted b { s.carton b with present := false, state := .absent, pendingClose := false } .removedEmpty
      else if 1 ≤ s.ring.free then (s.modCarton b fun c => { c with present := false }).closeShort b
      else
        s.cartonNoted b { s.carton b with present := false, state := .closing, pendingClose := false }
          .awaitingSpace := by
  have low : ((s.modCarton b fun c => { c with present := false }).carton b).present = false := by simp
  simp only [State.cartonTaken, State.enterAbsent_low _ _ low, State.modCarton_twice, State.notifyCarton_modCarton,
    State.carton_modCarton_same]
  rfl

/-- The bin of a carton taken away and closed short is ABSENT under the next number (R169 item 2). -/
theorem State.closeShort_dropped (s : State) (b : LaneNo) :
    ((s.modCarton b fun c => { c with present := false }).closeShort b).carton b =
        { s.carton b with
          present := false, state := .absent, pendingClose := false, fill := 0
          sequence := nextWrap 65535 (s.carton b).sequence } ∧
      ((s.modCarton b fun c => { c with present := false }).closeShort b).ring =
        s.ring.written s.line.rackTime ((s.carton b).shortRecord b) := by
  refine ⟨?_, ?_⟩
  · rw [State.carton_of_cartons (State.closeShort_cartons _ _), if_pos rfl, State.carton_modCarton_same]
    rfl
  · rw [State.closeShort_ring, State.carton_modCarton_same]
    rfl

end Sys2Proof.Machine

open Sys2Proof Sys2Proof.Machine

/-- Settles O48: a rise by the state of its bin's carton, and a drop in OPEN by the tests of R169 in their order
(`State.cartonTaken_dropped`). -/
theorem cartonInputsTaken : Obligations.CartonInputsTaken := by
  unfold Obligations.CartonInputsTaken
  intro s b
  have rise {t : State} (e : s.presentRise b = t) : exec (.cartonPresentRise b) s = .next t.finish :=
    congrArg (fun u : State => Host.Outcome.next u.finish) e
  have drop {t : State} (e : s.presentDrop b = t) : exec (.cartonPresentDrop b) s = .next t.finish :=
    congrArg (fun u : State => Host.Outcome.next u.finish) e
  have taken (opened : (s.carton b).state = .opened) :=
    (State.presentDrop_opened opened).trans (s.cartonTaken_dropped b)
  refine ⟨fun absent => rise (State.presentRise_absent absent),
    fun changing low => rise (State.presentRise_changing changing low),
    fun stays => rise (State.presentRise_level stays), fun shut => drop (State.presentDrop_level shut),
    fun opened current => drop ?_, fun opened idle empty => drop ?_, fun opened idle holds none => drop ?_,
    fun opened idle holds free => ?_⟩
  · rw [taken opened, if_pos current]
    rfl
  · rw [taken opened, if_neg (Bool.eq_false_iff.mp idle), if_pos empty]
    rfl
  · rw [taken opened, if_neg (Bool.eq_false_iff.mp idle), if_neg holds, if_neg (by omega)]
    rfl
  · have closes := (taken opened).trans <|
      (if_neg (Bool.eq_false_iff.mp idle)).trans ((if_neg holds).trans (if_pos (Nat.pos_of_ne_zero free)))
    obtain ⟨carton, ring⟩ := s.closeShort_dropped b
    exact ⟨_, drop closes, carton, congrArg Ring.records ring, congrArg Ring.next ring⟩
end

