-- ==== Sys2Proof/Proofs/ManifestReleases.lean ====
section
/-! PROOFS. BIN CONFIG and MANIFEST RELEASE (R172, R180, R181), with their replies (R190, R203). -/

namespace Sys2Proof.Machine

variable {s t : State} {tag : Byte} {body : List Byte} {a : Answer} {b : LaneNo}

/-! ## The requests carried out -/

theorem exec_binConfig (ready : s.ready) (e : serveBinConfig body s = (t, a)) :
    exec (.binConfig tag body) s = .next (t.answered tag .binConfig a) :=
  congrArg Host.Outcome.next (State.request_serves (c := .binConfig) ready e)

theorem exec_manifestRelease (ready : s.ready) (e : serveManifestRelease body s = (t, a)) :
    exec (.manifestRelease tag body) s = .next (t.answered tag .manifestRelease a) :=
  congrArg Host.Outcome.next (State.request_serves (c := .manifestRelease) ready e)

/-! ## Numbers and presence bytes (R202) -/

theorem u16_be16 (x y : Byte) : u16 (be16 x y) = [x, y] := by
  have high : BitVec.ofNat 8 (be16 x y / 256) = x := by
    apply BitVec.eq_of_toNat_eq
    simp only [be16, BitVec.toNat_ofNat]
    omega
  have low : BitVec.ofNat 8 (be16 x y) = y := by
    apply BitVec.eq_of_toNat_eq
    simp only [be16, BitVec.toNat_ofNat]
    omega
  rw [u16, high, low]

theorem u32_be32 (x y z w : Byte) : u32 (be32 x y z w) = [x, y, z, w] := by
  have high : be32 x y z w / 65536 = be16 x y := by
    simp only [be32, be16]
    omega
  have low : u16 (be32 x y z w) = u16 (be16 z w) := by
    have bytes : BitVec.ofNat 8 (be32 x y z w / 256) = BitVec.ofNat 8 (be16 z w / 256) ∧
        BitVec.ofNat 8 (be32 x y z w) = BitVec.ofNat 8 (be16 z w) := by
      refine ⟨BitVec.eq_of_toNat_eq ?_, BitVec.eq_of_toNat_eq ?_⟩ <;>
      · simp only [be32, be16, BitVec.toNat_ofNat]
        omega
    rw [u16, u16, bytes.1, bytes.2]
  rw [u32, high, low, u16_be16, u16_be16]
  rfl

theorem be32_eq (x y z w : Byte) :
    be32 x y z w = ((x.toNat * 256 + y.toNat) * 256 + z.toNat) * 256 + w.toNat := by
  simp only [be32, be16]
  omega

theorem presence_none {h : Byte} (above : 2 ≤ h.toNat) : presence h = none := by
  rw [presence, if_neg, if_neg]
  · rintro rfl
    exact absurd above (by decide)
  · rintro rfl
    exact absurd above (by decide)

theorem presence_of {h : Byte} (flag : h = 0 ∨ h = 1) : presence h = some (decide (h = 1)) := by
  rcases flag with rfl | rfl <;> rfl

/-! ## BIN CONFIG (R172) -/

section
variable {bin cap has n1 n0 : Byte}

theorem serveBinConfig_outside (out : ofNum 12 bin.toNat = none ∨ 2 ≤ has.toNat) :
    serveBinConfig [bin, cap, has, n1, n0] s = s.refuse .range := by
  rcases out with none | above
  · simp only [serveBinConfig, none]
  · cases named : ofNum 12 bin.toNat <;> simp only [serveBinConfig, named, presence_none above]

/-- The capacity staged, and its reply (R190). -/
theorem serveBinConfig_unnumbered (named : ofNum 12 bin.toNat = some b) :
    serveBinConfig [bin, cap, 0, n1, n0] s =
      (s.setCarton b { s.carton b with staged := some (max 1 (min 60 cap.toNat)) },
        if 1 ≤ cap.toNat ∧ cap.toNat ≤ 60 then Answer.accept []
        else { body := [2, bin] ++ u8 (max 1 (min 60 cap.toNat)) ++ [0, 0, 0], after := .nothing }) := by
  simp only [serveBinConfig, named, presence_of (.inl rfl), Answer.taken_eq (takeNat_clamped_iff 1 60 cap.toNat)]
  rfl

theorem serveBinConfig_numbered (named : ofNum 12 bin.toNat = some b) :
    serveBinConfig [bin, cap, 1, n1, n0] s =
      if be16 n1 n0 = 0 then s.refuse .range
      else if (s.carton b).state ≠ .absent then s.refuse .state
      else
        (s.setCarton b { s.carton b with staged := some (max 1 (min 60 cap.toNat)), sequence := be16 n1 n0 },
          if 1 ≤ cap.toNat ∧ cap.toNat ≤ 60 then Answer.accept []
          else { body := [2, bin] ++ u8 (max 1 (min 60 cap.toNat)) ++ [1, n1, n0], after := .nothing }) := by
  have number : opt16 (some (be16 n1 n0)) = [1, n1, n0] := by
    rw [opt16, Option.map_some, u16_be16]
    rfl
  simp only [serveBinConfig, named, presence_of (.inr rfl), Answer.taken_eq (takeNat_clamped_iff 1 60 cap.toNat),
    decide_true, if_true, number, Option.some.injEq, Option.isSome_some, true_and]
  rfl

end

/-! ## MANIFEST RELEASE (R180) -/

/-- The record named goes with every one before it, and those after it stay. -/
theorem recordsAfter_append {n : Nat} {r : ManifestRec} (before after : List ManifestRec) (own : r.number = n)
    (first : ∀ x ∈ before, x.number ≠ n) : recordsAfter n (before ++ r :: after) = after := by
  induction before with
  | nil => exact if_pos own
  | cons x before ih =>
    rw [List.cons_append, recordsAfter, if_neg (first x List.mem_cons_self)]
    exact ih fun y m => first y (List.mem_cons_of_mem x m)

/-- The records kept and the threshold in force, with the high-water state judged (R180 items 1 to 3, R181). -/
def State.keeping (s : State) (kept : List ManifestRec) (threshold : Nat) : State :=
  (s.setRing { s.ring with records := kept, threshold := threshold }).judgeHighWater

theorem State.keeping_eq (s : State) (kept : List ManifestRec) (threshold : Nat) :
    s.keeping kept threshold =
      let ring : Ring :=
        { s.ring with records := kept, threshold := threshold, above := decide (threshold ≤ kept.length) }
      if ring.above = true ∧ s.ring.above = false then
        (s.setRing ring).notify
          (.manifestHigh kept.length threshold ring.oldest ring.newest ring.reserved s.closingBins)
      else s.setRing ring :=
  State.judgeHighWater_eq _

@[simp] theorem State.keeping_carton (kept : List ManifestRec) (threshold : Nat) :
    (s.keeping kept threshold).carton b = s.carton b := by simp [State.keeping]

/-- With no bin waiting for space, MANIFEST RELEASE serves none (R178). -/
theorem State.serveFreed_keeping {kept : List ManifestRec} {threshold : Nat} (judged : s.keeping kept threshold = t)
    (idle : ∀ b, (s.carton b).state = .closing → (s.carton b).pendingClose = true) : t.serveFreed = t :=
  State.serveFreed_idle fun b => by
    rw [← judged, State.keeping_carton]
    exact decide_eq_false fun waits => absurd (idle b waits.1) (Bool.eq_false_iff.mp waits.2)

section
variable {n3 n2 n1 n0 h1 h2 t1 t0 : Byte}

theorem serveManifestRelease_outside (above : 2 ≤ h1.toNat ∨ 2 ≤ h2.toNat) :
    serveManifestRelease [h1, n3, n2, n1, n0, h2, t1, t0] s = s.refuse .range := by
  rcases above with above | above
  · simp only [serveManifestRelease, presence_none above]
  · cases flag : presence h1 <;> simp only [serveManifestRelease, flag, presence_none above]

theorem serveManifestRelease_unknown (flag : h2 = 0 ∨ h2 = 1)
    (unknown : ∀ r ∈ s.ring.records, r.number ≠ be32 n3 n2 n1 n0) :
    serveManifestRelease [1, n3, n2, n1, n0, h2, t1, t0] s = s.refuse .range := by
  have none : (s.ring.records.any fun r => r.number = be32 n3 n2 n1 n0) = false := by simpa using unknown
  simp only [serveManifestRelease, presence_of (.inr rfl), presence_of flag, decide_true, if_true, Option.all_some,
    none]
  rfl

/-- The threshold MANIFEST RELEASE leaves in force (R180 item 2). -/
def Ring.retuned (r : Ring) (h2 : Byte) (t : Nat) : Nat := if h2 = 1 then max 1 (min 512 t) else r.threshold

theorem Ring.released_eq (r : Ring) (h1 h2 : Byte) (n t : Nat) :
    r.released (if h1 = 1 then some n else none) (if h2 = 1 then some (takeNat 1 512 t).value else none) =
      { r with
        records := if h1 = 1 then recordsAfter n r.records else r.records
        threshold := r.retuned h2 t } := by
  have records : (r.released (if h1 = 1 then some n else none) none).records =
      if h1 = 1 then recordsAfter n r.records else r.records := by
    by_cases numbered : h1 = 1
    · rw [if_pos numbered, if_pos numbered]
      rfl
    · rw [if_neg numbered, if_neg numbered]
      rfl
  have threshold : (if h2 = 1 then some (takeNat 1 512 t).value else none).getD r.threshold = r.retuned h2 t := by
    unfold Ring.retuned
    split <;> rfl
  rw [← records, ← threshold]
  rfl

/-- A record number, sent or not, as the reply repeats it (R202). -/
theorem optional_u32 (h1 n3 n2 n1 n0 : Byte) :
    optional 4 ((if h1 = 1 then some (be32 n3 n2 n1 n0) else none).map u32) =
      if h1 = 1 then [1, n3, n2, n1, n0] else [0, 0, 0, 0, 0] := by
  split
  · rw [Option.map_some, u32_be32]
    rfl
  · rfl

/-- A threshold, sent or not, as the reply repeats it where it was clamped (R190). -/
theorem Answer.taken_threshold (r : Ring) (h2 : Byte) (t : Nat) (number data : List Byte) :
    Answer.taken (decide (h2 = 1) && (takeNat 1 512 t).clamped)
        (number ++ opt16 (if h2 = 1 then some (takeNat 1 512 t).value else none)) data =
      { body :=
          (if h2 = 1 ∧ (t < 1 ∨ 512 < t) then [2] ++ number ++ [1] ++ u16 (r.retuned h2 t) else [1]) ++ data
        after := .nothing } := by
  by_cases clamps : h2 = 1 ∧ (t < 1 ∨ 512 < t)
  · have clamped : (decide (h2 = 1) && (takeNat 1 512 t).clamped) = true := by simpa [takeNat] using clamps
    have tuned := clamps.1
    rw [clamped, if_pos clamps, if_pos tuned, Ring.retuned, if_pos tuned]
    simp [Answer.taken, opt16, optional, u8, takeNat, clampNat]
  · have whole : (decide (h2 = 1) && (takeNat 1 512 t).clamped) = false := by simpa [takeNat] using clamps
    rw [whole, if_neg clamps]
    rfl

/-- MANIFEST RELEASE taken, with the records it keeps, and its reply (R180, R190). -/
theorem serveManifestRelease_taken {kept : List ManifestRec} (flag1 : h1 = 0 ∨ h1 = 1) (flag2 : h2 = 0 ∨ h2 = 1)
    (known : h1 = 1 → ∃ r ∈ s.ring.records, r.number = be32 n3 n2 n1 n0)
    (keeps : (if h1 = 1 then recordsAfter (be32 n3 n2 n1 n0) s.ring.records else s.ring.records) = kept)
    (judged : s.keeping kept (s.ring.retuned h2 (be16 t1 t0)) = t) :
    serveManifestRelease [h1, n3, n2, n1, n0, h2, t1, t0] s =
      (t.serveFreed,
        { body :=
            (if h2 = 1 ∧ (be16 t1 t0 < 1 ∨ 512 < be16 t1 t0) then
              [2] ++ (if h1 = 1 then [1, n3, n2, n1, n0] else [0, 0, 0, 0, 0]) ++ [1] ++
                u16 (s.ring.retuned h2 (be16 t1 t0))
            else [1]) ++ u16 (s.ring.records.length - kept.length) ++ t.serveFreed.ring.values 0
          after := .nothing }) := by
  subst judged
  have found : ((if h1 = 1 then some (be32 n3 n2 n1 n0) else none).all
      fun k => s.ring.records.any fun r => decide (r.number = k)) = true := by
    split
    · simpa using known ‹_›
    · rfl
  simp only [serveManifestRelease, presence_of flag1, presence_of flag2, decide_eq_true_eq, found, if_true,
    State.releaseRecords, Ring.released_eq, keeps, optional_u32, Answer.taken_threshold s.ring, List.append_assoc]
  rfl

end

end Sys2Proof.Machine

open Sys2Proof Sys2Proof.Machine

/-- Settles O49: each request stops at its first failing check, or is taken, and what it leaves is read from the values
its bytes give (`serveBinConfig_numbered`, `serveManifestRelease_taken`). -/
theorem binsAndRingConfigured : Obligations.BinsAndRingConfigured := by
  unfold Obligations.BinsAndRingConfigured
  intro s tag ready
  refine ⟨fun bin cap has n1 n0 => ⟨fun out => exec_binConfig ready (serveBinConfig_outside out), fun b named =>
      ⟨?_, ?_, ?_, ?_⟩⟩,
    fun n3 n2 n1 n0 h1 h2 t1 t0 flag1 flag2 => ?_,
    fun n3 n2 n1 n0 h1 h2 t1 t0 above => exec_manifestRelease ready (serveManifestRelease_outside above)⟩
  · rintro rfl
    exact exec_binConfig ready (serveBinConfig_unnumbered named)
  · rintro rfl zero
    exact exec_binConfig ready ((serveBinConfig_numbered named).trans (if_pos zero))
  · rintro rfl number closed
    exact exec_binConfig ready ((serveBinConfig_numbered named).trans ((if_neg number).trans (if_pos closed)))
  · rintro rfl number absent
    exact exec_binConfig ready
      ((serveBinConfig_numbered named).trans ((if_neg number).trans (if_neg (not_not.mpr absent))))
  · rw [← be32_eq]
    refine ⟨?_, ?_, ?_⟩
    · rintro rfl unknown
      exact exec_manifestRelease ready (serveManifestRelease_unknown flag2 unknown)
    · rintro before r after rfl whole own first
      have known : ∃ r ∈ s.ring.records, r.number = be32 n3 n2 n1 n0 := ⟨r, by simp [whole], own⟩
      have keeps : recordsAfter (be32 n3 n2 n1 n0) s.ring.records = after := by
        rw [whole, recordsAfter_append before after own first]
      have judged := s.keeping_eq after (s.ring.retuned h2 (be16 t1 t0))
      exact ⟨exec_manifestRelease ready
        (serveManifestRelease_taken flag1 flag2 (fun _ => known) ((if_pos rfl).trans keeps) judged),
        State.serveFreed_keeping judged⟩
    · rintro rfl
      have judged := s.keeping_eq s.ring.records (s.ring.retuned h2 (be16 t1 t0))
      exact ⟨exec_manifestRelease ready
        (serveManifestRelease_taken flag1 flag2 (fun e => absurd e (by decide)) (if_neg (by decide)) judged),
        State.serveFreed_keeping judged⟩
end

