-- ==== Sys2Proof/Proofs/CartonCounts.lean ====
section
/-! PROOFS. A drive counted into its carton, the end of an extraction, and a held close taken up (R168, R170, R174 to
R178, R181). Each ends in freed space served, of which the cartons and the ring depend on themselves and on the rack
time alone. -/

namespace Sys2Proof.Machine

variable {s t : State} {b : LaneNo}

/-! ## A record written (R174, R181) -/

theorem State.writeRecord_eq (s : State) (m : ManifestBody) :
    s.writeRecord m =
      let ring := s.ring.written s.line.rackTime m
      if s.ring.threshold ≤ s.ring.records.length + 1 ∧ s.ring.above = false then
        (s.setRing ring).notify
          (.manifestHigh ring.records.length ring.threshold ring.oldest ring.newest ring.reserved s.closingBins)
      else s.setRing ring := by
  simp only [State.writeRecord, State.judgeHighWater_eq, Ring.judged, Ring.written, List.length_append,
    List.length_singleton, State.setRing_ring, decide_eq_true_eq]
  rfl

/-! ## What the service of freed space depends on (R178) -/

/-- Two states whose cartons, ring and rack time are the same. -/
structure State.StockAs (s t : State) : Prop where
  ring : s.ring = t.ring
  cartons : s.cartons = t.cartons
  time : s.line.rackTime = t.line.rackTime

namespace State.StockAs

theorem carton (g : s.StockAs t) (b : LaneNo) : s.carton b = t.carton b := congrArg (fun v => v[b]) g.cartons

theorem closeShort (g : s.StockAs t) (b : LaneNo) : (s.closeShort b).StockAs (t.closeShort b) := by
  have time (u : State) : (u.closeShort b).line.rackTime = u.line.rackTime :=
    Line.rackTime_of_besideNotices (by simp [State.closeShort])
  refine ⟨?_, ?_, ?_⟩
  · rw [State.closeShort_ring, State.closeShort_ring, g.ring, g.time, g.carton b]
  · rw [State.closeShort_cartons, State.closeShort_cartons, g.cartons, g.carton b]
  · rw [time, time, g.time]

theorem serveBin (g : s.StockAs t) (b : LaneNo) : (s.serveBin b).StockAs (t.serveBin b) := by
  rw [State.serveBin_eq, State.serveBin_eq, g.ring, g.carton b]
  split
  · exact g.closeShort b
  · exact g

theorem serveFreed (g : s.StockAs t) : s.serveFreed.StockAs t.serveFreed := by
  unfold State.serveFreed
  induction allLanes generalizing s t with
  | nil => exact g
  | cons b lanes ih => exact ih (g.serveBin b)

/-- The cartons and the ring after freed space is served in either of two states with the same stock. -/
theorem serves (g : s.StockAs t) :
    s.serveFreed.ring = t.serveFreed.ring ∧ s.serveFreed.cartons = t.serveFreed.cartons :=
  ⟨g.serveFreed.ring, g.serveFreed.cartons⟩

end State.StockAs

/-! ## A held close taken up (R170) -/

/-- REMOVED_EMPTY, and the new carton of a bin whose input is HIGH, come before the bins served (log entry 50). -/
theorem State.takeUpClose_empty (empty : (s.carton b).fill = 0) :
    s.takeUpClose b =
      let gone : Carton := { s.carton b with state := .absent, pendingClose := false }
      let t := s.cartonNoted b gone .removedEmpty
      (if (s.carton b).present then t.cartonNoted b (gone.gone (s.carton b).sequence) .opened else t).serveFreed := by
  simp only [State.takeUpClose, State.carton_modCarton_same, if_pos empty, State.enterAbsent, State.modCarton_twice,
    State.notifyCarton_modCarton]
  refine congrArg State.serveFreed ?_
  simp only [State.cartonNoted, State.notify_carton, State.carton_setCarton_same]
  split
  · rename_i high
    simp [State.openCarton, State.notifyCarton, State.modCarton, Carton.opening, Carton.gone, high]
  · rfl

/-- AWAITING_SPACE comes after the bins served, where the bin itself is not among them. -/
theorem State.takeUpClose_filled (filled : (s.carton b).fill ≠ 0) :
    s.takeUpClose b =
      let u := (s.setCarton b { s.carton b with pendingClose := false }).serveFreed
      if (u.carton b).state = .closing then u.notify (.carton b .awaitingSpace (u.carton b) none) else u := by
  simp only [State.takeUpClose, State.carton_modCarton_same, if_neg filled]
  rfl

/-- The carton of a bin whose held close is taken up, before freed space is served (R170). -/
def Carton.closeTaken (c : Carton) : Carton :=
  if c.fill = 0 then c.gone c.sequence else { c with pendingClose := false }

theorem State.takeUpClose_stock (s : State) (b : LaneNo) :
    let freed := (s.setCarton b (s.carton b).closeTaken).serveFreed
    (s.takeUpClose b).ring = freed.ring ∧ (s.takeUpClose b).cartons = freed.cartons := by
  unfold Carton.closeTaken
  split
  case isTrue empty =>
    simp only [State.takeUpClose, State.carton_modCarton_same, if_pos empty]
    refine State.StockAs.serves ⟨by simp, ?_, Line.rackTime_of_besideNotices (by simp)⟩
    rw [State.enterAbsent_cartons _ _ (by simpa using empty), State.carton_modCarton_same]
    simp [Carton.gone]
  case isFalse filled =>
    rw [State.takeUpClose_filled filled]
    dsimp only
    split
    · exact ⟨by simp, by simp⟩
    · exact ⟨rfl, rfl⟩

/-! ## The end of an extraction (R170, R177) -/

theorem State.endExtraction_stock (s : State) (b : LaneNo) :
    let c := s.carton b
    let held : Bool := c.state = .closing && c.pendingClose
    let freed := State.serveFreed
      { s with
        ring := { s.ring with reservation := none }, cartons := s.cartons.set b (if held then c.closeTaken else c) }
    (s.endExtraction b).ring = freed.ring ∧ (s.endExtraction b).cartons = freed.cartons := by
  dsimp only
  unfold State.endExtraction
  split
  · exact s.release.takeUpClose_stock b
  · exact State.StockAs.serves ⟨rfl, State.cartons_set_self.symm, rfl⟩

/-! ## A drive counted in (R168, R175, R176) -/

theorem State.writePaid_ring (s : State) (m : ManifestBody) :
    (s.writePaid m).ring = s.ring.pay.written s.line.rackTime m := by simp [State.writePaid]
@[simp] theorem State.writePaid_cartons (m : ManifestBody) : (s.writePaid m).cartons = s.cartons := by
  simp [State.writePaid]
@[simp] theorem State.writePaid_rackTime (m : ManifestBody) : (s.writePaid m).line.rackTime = s.line.rackTime :=
  Line.rackTime_of_besideNotices (by simp [State.writePaid])

/-- The carton of a bin that its last drive has filled (R168 item 3). -/
def Carton.filled (c : Carton) : Carton := if c.state = .closing then c.succ else { c with state := .changing }

/-- The CARTON record of a full carton, and its bin CHANGING, or done with where its close was held (R168, R176). -/
theorem State.fullCarton_stock (s : State) (b : LaneNo) :
    (s.fullCarton b).ring = s.ring.pay.written s.line.rackTime ((s.carton b).close b false) ∧
      (s.fullCarton b).cartons = s.cartons.set b (s.carton b).filled ∧
      (s.fullCarton b).line.rackTime = s.line.rackTime := by
  simp only [State.fullCarton, Carton.filled]
  split
  · refine ⟨?_, ?_, ?_⟩
    · rw [State.enterAbsent_ring]
      exact s.writePaid_ring _
    · rw [State.enterAbsent_cartons _ _ (by simp [Carton.emptied]), State.carton_modCarton_same,
        Carton.gone_emptied, State.writePaid_carton]
      simp [Carton.succ]
    · rw [← s.writePaid_rackTime ((s.carton b).close b false)]
      exact Line.rackTime_of_besideNotices (by simp)
  · refine ⟨?_, ?_, ?_⟩
    · rw [State.notifyCarton_ring]
      exact s.writePaid_ring _
    · simp [State.notifyCarton]
    · rw [← s.writePaid_rackTime ((s.carton b).close b false)]
      exact Line.rackTime_of_besideNotices (by simp)

/-- The carton of a bin with one drive more (R168 item 1). -/
def Carton.counted (c : Carton) : Carton := { c with fill := c.fill + 1 }

/-- The ring with its reservation gone (R177). -/
def Ring.unreserved (r : Ring) : Ring := { r with reservation := none }

theorem Ring.written_unreserved (r : Ring) (time : Count32) (m : ManifestBody) :
    (r.written time m).unreserved =
      let records := r.records ++ [{ number := r.next, time := time, body := m }]
      { r with
        records := records, next := nextWrap 4294967295 r.next, reservation := none
        above := decide (r.threshold ≤ records.length) } := by
  simp [Ring.unreserved, Ring.written]

theorem Ring.written_twice_unreserved (r : Ring) (time : Count32) (m n : ManifestBody) :
    ((r.written time m).written time n).unreserved =
      let second := nextWrap 4294967295 r.next
      let records := r.records ++
        [{ number := r.next, time := time, body := m }, { number := second, time := time, body := n }]
      { r with
        records := records, next := nextWrap 4294967295 second, reservation := none
        above := decide (r.threshold ≤ records.length) } := by
  simp [Ring.unreserved, Ring.written]

section
variable {i : SlotNo}

/-- A drive in its carton, with its SHIPPED record written (R168 items 1 and 2). -/
def State.shippedTo (s : State) (i : SlotNo) (b : LaneNo) : State :=
  let t := s.setCarton b (s.carton b).counted
  t.writePaid (t.shipped i b)

theorem State.shippedTo_ring :
    (s.shippedTo i b).ring =
      s.ring.pay.written s.line.rackTime ((s.setCarton b (s.carton b).counted).shipped i b) :=
  State.writePaid_ring _ _

theorem State.shippedTo_cartons : (s.shippedTo i b).cartons = s.cartons.set b (s.carton b).counted :=
  State.writePaid_cartons _

theorem State.shippedTo_carton : (s.shippedTo i b).carton b = (s.carton b).counted :=
  (State.writePaid_carton _ _).trans (State.carton_setCarton_same _ _ _)

theorem State.shippedTo_rackTime : (s.shippedTo i b).line.rackTime = s.line.rackTime :=
  State.writePaid_rackTime _

/-- A count-in, by the fill it comes to (R168). -/
theorem State.countIn_eq (s : State) (i : SlotNo) (b : LaneNo) :
    s.countIn i b =
      if (s.carton b).counted.fill = (s.carton b).capacity then
        ((s.shippedTo i b).fullCarton b).release.serveFreed
      else (s.shippedTo i b).endExtraction b := by
  simp only [State.countIn, State.writePaid_carton, State.carton_modCarton_same]
  rfl

/-- A drive that fills its carton: SHIPPED and CARTON are written, and freed space is served (R168 item 3). -/
theorem State.countIn_full (full : (s.carton b).counted.fill = (s.carton b).capacity)
    (ring : t.ring = ((s.ring.written s.line.rackTime ((s.setCarton b (s.carton b).counted).shipped i b)).written
      s.line.rackTime ((s.carton b).counted.close b false)).unreserved)
    (cartons : t.cartons = s.cartons.set b (s.carton b).counted.filled) (time : t.line.rackTime = s.line.rackTime) :
    (s.countIn i b).ring = t.serveFreed.ring ∧ (s.countIn i b).cartons = t.serveFreed.cartons := by
  obtain ⟨fullRing, fullCartons, fullTime⟩ := (s.shippedTo i b).fullCarton_stock b
  rw [State.shippedTo_ring, State.shippedTo_carton, State.shippedTo_rackTime] at fullRing
  rw [State.shippedTo_cartons, State.shippedTo_carton, Vector.set_set] at fullCartons
  rw [State.countIn_eq, if_pos full]
  refine State.StockAs.serves ⟨?_, ?_, ?_⟩
  · change ((s.shippedTo i b).fullCarton b).ring.unreserved = _
    rw [fullRing, ring]
    rfl
  · exact fullCartons.trans cartons.symm
  · exact fullTime.trans (State.shippedTo_rackTime.trans time.symm)

/-- A drive that leaves room in its carton: SHIPPED is written, and the extraction ends (R168, R170). -/
theorem State.countIn_spare (spare : (s.carton b).counted.fill ≠ (s.carton b).capacity)
    (ring : t.ring = (s.ring.written s.line.rackTime ((s.setCarton b (s.carton b).counted).shipped i b)).unreserved)
    (cartons : t.cartons = s.cartons.set b
      (if ((s.carton b).state = .closing && (s.carton b).pendingClose) = true then (s.carton b).counted.closeTaken
        else (s.carton b).counted)) (time : t.line.rackTime = s.line.rackTime) :
    (s.countIn i b).ring = t.serveFreed.ring ∧ (s.countIn i b).cartons = t.serveFreed.cartons := by
  obtain ⟨endRing, endCartons⟩ := (s.shippedTo i b).endExtraction_stock b
  rw [State.countIn_eq, if_neg spare, endRing, endCartons]
  refine State.StockAs.serves ⟨?_, ?_, State.shippedTo_rackTime.trans time.symm⟩
  · rw [ring]
    change (s.shippedTo i b).ring.unreserved = _
    rw [State.shippedTo_ring]
    rfl
  · rw [cartons]
    simp only [State.shippedTo_cartons, State.shippedTo_carton, Vector.set_set]
    rfl

end

end Sys2Proof.Machine

open Sys2Proof Sys2Proof.Machine

/-- Settles O50: a record written (`State.writeRecord_eq`), freed space served (`State.serveFreed_servedTo`), a count-in
that fills its carton or leaves room (`State.countIn_full`, `State.countIn_spare`), the end of an extraction, and a held
close taken up with an empty carton or with drives in it. -/
theorem cartonsCountedAndClosed : Obligations.CartonsCountedAndClosed := by
  unfold Obligations.CartonsCountedAndClosed
  intro s
  refine ⟨fun body => ?_, ?_, fun i b takes => ?_, fun b => s.endExtraction_stock b,
    fun b => ⟨State.takeUpClose_empty, State.takeUpClose_filled⟩⟩
  · exact s.writeRecord_eq body
  · obtain ⟨line, reservation, threshold, records, cartons⟩ := s.serveFreed_servedTo
    have frame := State.sameBeyondCartons_eq s _ ((State.cartons_serveFreed_iff s s).mpr s.sameBeyondCartons_refl)
    rw [Line.eq_of_besideNotices line] at frame
    exact ⟨frame, reservation, threshold, records, cartons⟩
  · intro filled full after shipped closed records ring carton freed
    by_cases fills : filled.fill = (s.carton b).capacity
    · have isFull : full = true := decide_eq_true fills
      refine State.countIn_full fills ?_ ?_ rfl
      · simp only [ring, records, isFull, if_true]
        exact (Ring.written_twice_unreserved ..).symm
      · simp only [carton, isFull, if_true]
        rfl
    · have notFull : full = false := decide_eq_false fills
      refine State.countIn_spare fills ?_ ?_ rfl
      · simp only [ring, records, notFull]
        exact (Ring.written_unreserved ..).symm
      · simp only [carton, notFull]
        rcases takes with opened | ⟨closing, held⟩
        · simp [opened, filled, Carton.counted]
        · simp [closing, held, filled, Carton.counted, Carton.closeTaken]
end

