-- ==== Sys2Proof/Proofs/StockNotices.lean ====
section
/-! PROOFS. What the operations of CM keep of the line port (R171, R181): each queues CARTON and MANIFEST_HIGH notices
and touches the line port in no other way. -/

namespace Sys2Proof.Machine

variable {s t u : State} {b : LaneNo} {n : NoticeBody} {P : State → Prop}

/-- A notice that CM queues (R171, R181). -/
def NoticeBody.ofStock (n : NoticeBody) : Prop := n.kind = .carton ∨ n.kind = .manifestHigh

/-- A property of the line port that stands through the notices of CM. -/
structure State.StockStable (P : State → Prop) : Prop where
  of_line : ∀ {t u : State}, u.line = t.line → P t → P u
  notify : ∀ {t : State} {n : NoticeBody}, n.ofStock → P t → P (t.notify n)

namespace State.StockStable

variable (k : State.StockStable P)
include k

theorem notifyCarton {e : CartonEvent} {c : Option (Nat × Nat × Nat)} (h : P t) : P (t.notifyCarton b e c) :=
  k.notify (.inl rfl) h

theorem modCarton {f : Carton → Carton} (h : P t) : P (t.modCarton b f) := k.of_line (t := t) rfl h
theorem setRing {x : Ring} (h : P t) : P (t.setRing x) := k.of_line (t := t) rfl h
theorem release (h : P t) : P t.release := k.setRing h

theorem judgeHighWater (h : P t) : P t.judgeHighWater := by
  simp only [State.judgeHighWater]
  split
  · exact k.notify (.inr rfl) (k.setRing h)
  · exact k.setRing h

theorem writeRecord {m : ManifestBody} (h : P t) : P (t.writeRecord m) := k.judgeHighWater (k.setRing h)
theorem writePaid {m : ManifestBody} (h : P t) : P (t.writePaid m) := k.writeRecord (k.setRing h)
theorem openCarton (h : P t) : P (t.openCarton b) := k.notifyCarton (k.modCarton h)

theorem enterAbsent {e : CartonEvent} {c : Option (Nat × Nat × Nat)} (h : P t) : P (t.enterAbsent b e c) := by
  simp only [State.enterAbsent]
  split
  · exact k.openCarton (k.notifyCarton (k.modCarton h))
  · exact k.notifyCarton (k.modCarton h)

theorem closeShort (h : P t) : P (t.closeShort b) := k.enterAbsent (k.modCarton (k.writeRecord h))

theorem serveFreed (h : P t) : P t.serveFreed := by
  unfold State.serveFreed
  generalize allLanes = lanes
  induction lanes generalizing t with
  | nil => exact h
  | cons b lanes ih =>
    refine ih ?_
    unfold State.serveBin
    split
    · exact k.closeShort h
    · exact h

theorem takeUpClose (h : P t) : P (t.takeUpClose b) := by
  simp only [State.takeUpClose]
  split
  · exact k.serveFreed (k.enterAbsent (k.modCarton h))
  · split
    · exact k.notifyCarton (k.serveFreed (k.modCarton h))
    · exact k.serveFreed (k.modCarton h)

theorem endExtraction (h : P t) : P (t.endExtraction b) := by
  unfold State.endExtraction
  split
  · exact k.takeUpClose (k.release h)
  · exact k.serveFreed (k.release h)

theorem endAtCarton {o : Order} (h : P t) : P (t.endAtCarton o) := by
  unfold State.endAtCarton
  split
  · exact k.endExtraction h
  · exact h

theorem handshakeOver {o : Order} (h : P t) : P (t.handshakeOver o) := by
  unfold State.handshakeOver
  split
  · unfold State.endHeld
    split
    · exact k.takeUpClose h
    · exact h
  · exact h

theorem fullCarton (h : P t) : P (t.fullCarton b) := by
  simp only [State.fullCarton]
  split
  · exact k.enterAbsent (k.modCarton (k.writePaid h))
  · exact k.notifyCarton (k.modCarton (k.writePaid h))

theorem countIn {i : SlotNo} (h : P t) : P (t.countIn i b) := by
  simp only [State.countIn]
  split
  · exact k.serveFreed (k.release (k.fullCarton (k.writePaid (k.modCarton h))))
  · exact k.endExtraction (k.writePaid (k.modCarton h))

theorem presentRise (h : P t) : P (t.presentRise b) := by
  simp only [State.presentRise]
  split
  · exact k.openCarton (k.modCarton h)
  · split
    · exact k.modCarton h
    · exact k.openCarton (k.modCarton h)
  · exact k.modCarton h

theorem cartonTaken (h : P t) : P (t.cartonTaken b) := by
  unfold State.cartonTaken
  split
  · exact k.notifyCarton (k.modCarton h)
  · split
    · exact k.enterAbsent h
    · split
      · exact k.closeShort h
      · exact k.notifyCarton (k.modCarton h)

theorem presentDrop (h : P t) : P (t.presentDrop b) := by
  simp only [State.presentDrop]
  split
  · exact k.cartonTaken (k.modCarton h)
  · exact k.modCarton h

theorem releaseRecords {number threshold : Option Nat} (h : P t) : P (t.releaseRecords number threshold) :=
  k.serveFreed (k.judgeHighWater (k.setRing h))

end State.StockStable

end Sys2Proof.Machine
end

