-- ==== Sys2Proof/Proofs/LineQueues.lean ====
section
/-! PROOFS. What the blocks other than LP do to the line port's queues (R194 to R196): they offer notices, and leave the
requests, the replies and the frame being sent. `State.Tells s t` is the relation every operation keeps; it composes, so
each operation's lemma is a chain of those of the operations it calls. -/

namespace Sys2Proof.Machine

/-! ## Notices under their sources (R193, R195) -/

/-- The waiting notices as R195 has them, each under the source of its content (R193). -/
def noticesKept (ns : List Notice) : Prop := noticesInOrder ns ∧ noticesSourced ns

theorem Notice.countDrop_sourced {n : Notice} (h : n.source = n.body.source) :
    n.countDrop.source = n.countDrop.body.source := by
  unfold Notice.countDrop
  split
  · rename_i e
    rw [e] at h
    exact h
  · exact h

/-- Merging gives a notice content of the source it waits under (R195). -/
theorem noticesSourced_merge (c : NoticeBody) (time : Count32) {ns : List Notice} (h : noticesSourced ns) :
    noticesSourced (mergeNotice c time ns) := by
  induction ns with
  | nil => exact h
  | cons n ns ih =>
    obtain ⟨head, tail⟩ := List.forall_mem_cons.mp h
    unfold mergeNotice
    split
    · rename_i same
      simp only [Notice.sameAs, Bool.and_eq_true, decide_eq_true_eq] at same
      exact List.forall_mem_cons.mpr ⟨same.2, tail⟩
    · exact List.forall_mem_cons.mpr ⟨head, ih tail⟩

/-- Offering a notice keeps every notice under its source (R193, R195, R196). -/
theorem noticesSourced_place (c : NoticeBody) (time : Count32) {ns : List Notice} (h : noticesSourced ns) :
    noticesSourced (placeNotice c time ns) := by
  have joins {n : Notice} (own : n.source = n.body.source) : noticesSourced (ns ++ [n]) :=
    List.forall_mem_append.mpr ⟨h, List.forall_mem_singleton.mpr own⟩
  unfold placeNotice
  split
  · exact noticesSourced_merge c time h
  · split
    · exact joins rfl
    · unfold dropNotice
      split
      · exact List.forall_mem_map.mpr fun n m => Notice.countDrop_sourced (h n m)
      · exact joins rfl

theorem noticesKept_place (c : NoticeBody) (time : Count32) {ns : List Notice} (h : noticesKept ns) :
    noticesKept (placeNotice c time ns) :=
  ⟨noticesInOrder_place c time ns h.1, noticesSourced_place c time h.2⟩

/-! ## Operations that offer notices -/

/-- From `s` to `t` notices have been offered, and the requests, the replies and the frame being sent stand. -/
structure State.Tells (s t : State) : Prop where
  requests : t.line.requests = s.line.requests
  replies : t.line.replies = s.line.replies
  sending : t.line.sending = s.line.sending
  notices : noticesKept s.line.notices → noticesKept t.line.notices

variable {s t u : State} {i : SlotNo} {l : ShelfNo} {b : LaneNo} {z : ShelfNo} {o : Order} {c : CurrentOrder}

namespace State.Tells

theorem refl (s : State) : s.Tells s := ⟨rfl, rfl, rfl, id⟩

theorem of_line (h : s.Tells t) (e : u.line = t.line) : s.Tells u :=
  ⟨e ▸ h.requests, e ▸ h.replies, e ▸ h.sending, fun g => e ▸ h.notices g⟩

theorem notify {n : NoticeBody} (h : s.Tells t) : s.Tells (t.notify n) := by
  unfold State.notify
  split
  · exact h
  · exact ⟨h.requests, h.replies, h.sending, fun g => noticesKept_place n _ (h.notices g)⟩

/-- The rules of CM (chapter 9). -/
theorem stock (s : State) : State.StockStable s.Tells where
  of_line e h := h.of_line e
  notify _ h := h.notify

/-- SC's writes for a slot. -/
theorem stable (s : State) (j : SlotNo) : State.StableAt j s.Tells where
  modSlot _ h := h.of_line rfl
  notify _ h := h.notify
  uncountPlan _ h := h.of_line rfl
  queue _ h := h.of_line rfl
  leaveLink h := h.of_line rfl
  askLink _ _ h := h.of_line rfl
  askSummary h := h.of_line rfl
  setPort _ h := h.of_line rfl

theorem testGrants (h : s.Tells t) : s.Tells t.testGrants := by
  unfold State.testGrants
  generalize 41 = k
  induction k generalizing t with
  | zero => exact h
  | succ k ih =>
    unfold Machine.grants
    split
    · exact h
    · rename_i j _ _
      split
      · exact ih ((stable s j).checkOvercurrent ((stable s j).grant h))
      · exact h

/-- SC's operations for a slot, the grant test among them (R10). -/
theorem granted (s : State) (j : SlotNo) : State.GrantedAt j s.Tells := ⟨stable s j, fun h => h.testGrants⟩

/-- A function that keeps the relation at every member of a list keeps it over the list. -/
theorem foldl {α : Type} {f : State → α → State} (each : ∀ (t : State) (a : α), s.Tells t → s.Tells (f t a))
    (xs : List α) (h : s.Tells t) : s.Tells (xs.foldl f t) := by
  induction xs generalizing t with
  | nil => exact h
  | cons x xs ih => exact ih (each t x h)

/-! ## Writes of records, and the operations of one slot (chapter 1) -/

theorem modSlot {f : SlotRec → SlotRec} (h : s.Tells t) : s.Tells (t.modSlot i f) := h.of_line rfl
theorem modRun {f : RunRec → RunRec} (h : s.Tells t) : s.Tells (t.modRun i f) := h.of_line rfl
theorem modLink {f : Link → Link} (h : s.Tells t) : s.Tells (t.modLink l f) := h.of_line rfl
theorem modZone {f : Zone → Zone} (h : s.Tells t) : s.Tells (t.modZone z f) := h.of_line rfl
theorem setPort {x : Port} (h : s.Tells t) : s.Tells (t.setPort x) := h.of_line rfl
theorem setWatch {x : WatchRec} (h : s.Tells t) : s.Tells (t.setWatch i x) := h.of_line rfl
theorem setLinkSlot {x : LinkSlot} (h : s.Tells t) : s.Tells (t.setLinkSlot i x) := h.of_line rfl
theorem withdrawOrder (h : s.Tells t) : s.Tells (t.withdrawOrder i) := h.of_line rfl
theorem joinOrder {k : OrderKind} (h : s.Tells t) : s.Tells (t.joinOrder k i) := h.of_line rfl
theorem joinLink (h : s.Tells t) : s.Tells (t.joinLink i) := h.of_line rfl
theorem assignPlan {p : PlanNo} (h : s.Tells t) : s.Tells (t.assignPlan i p) := h.of_line rfl
theorem askLink {d : DirectedCode} {p : Purpose} (h : s.Tells t) : s.Tells (t.askLink i d p) := h.of_line rfl
theorem askPhase {n : Nat} (h : s.Tells t) : s.Tells (t.askPhase i n) := h.of_line rfl
theorem powerOff (h : s.Tells t) : s.Tells (t.powerOff i) := h.of_line rfl

theorem enter {st : SlotState} {why : Option HoldReason} (h : s.Tells t) : s.Tells (t.enter i st why) :=
  (stable s i).enter _ _ h
theorem enterHeld {why : HoldReason} (h : s.Tells t) : s.Tells (t.enterHeld i why) := h.enter
theorem dropPlan (h : s.Tells t) : s.Tells (t.dropPlan i) := (stable s i).dropPlan h
theorem recordEnd {e : EndCause} (h : s.Tells t) : s.Tells (t.recordEnd i e) := (stable s i).recordEnd e h
theorem verdict (h : s.Tells t) : s.Tells (t.verdict i) := (stable s i).verdict h
theorem toVerdict (h : s.Tells t) : s.Tells (t.toVerdict i) := (stable s i).toVerdict h
theorem dropPermit (h : s.Tells t) : s.Tells (t.dropPermit i) := (granted s i).dropPermit h
theorem endAtOnce {e : EndCause} (h : s.Tells t) : s.Tells (t.endAtOnce i e) := (granted s i).endAtOnce e h
theorem endWithSummary {e : EndCause} (h : s.Tells t) : s.Tells (t.endWithSummary i e) :=
  (granted s i).endWithSummary e h
theorem spinAgain (h : s.Tells t) : s.Tells (t.spinAgain i) := (granted s i).spinAgain h

theorem enterVacant {e : Option EndCause} (h : s.Tells t) : s.Tells (t.enterVacant i e) := by
  simp only [State.enterVacant]
  exact notify (h.of_line rfl)

theorem takeOvercurrent (h : s.Tells t) : s.Tells (t.takeOvercurrent i) := by
  unfold State.takeOvercurrent State.overcurrentEnd
  split
  · exact h.powerOff.dropPermit.recordEnd.toVerdict
  · split
    · exact h.powerOff.dropPermit.modRun.verdict
    · exact h.powerOff.dropPermit

theorem startRun {again : Bool} (h : s.Tells t) : s.Tells (t.startRun i again) := by
  have started : s.Tells (((t.modSlot i fun r =>
      { r with
        run := r.run.start again, hold := none, spin := SpinRec.empty, step := none, stepClock := 0,
        doseStart := 0, loops := Vector.replicate 16 0, cyclePhase := none, phaseArmed := false,
        offTimer := none, stepEntered := false }).setDose i DoseRec.empty).setWatch i WatchRec.empty) := h.of_line rfl
  have queued : ∀ {v : State}, s.Tells v → s.Tells (v.joinPermit i) := fun g => testGrants (g.of_line rfl)
  exact queued started.setLinkSlot.enter

theorem enterSeated (h : s.Tells t) : s.Tells (t.enterSeated i) := by
  simp only [State.enterSeated]
  split
  · exact h.enter.startRun
  · exact h.enter

theorem teardown (h : s.Tells t) : s.Tells (t.teardown i) := by
  have gone : s.Tells ((((t.powerOff i).dropPermit i).leaveLink i).withdrawOrder i) :=
    h.powerOff.dropPermit.of_line rfl
  simp only [State.teardown]
  split
  · exact gone.recordEnd.enterVacant
  · exact gone.enterVacant

/-! ## Steps (chapter 2) -/

theorem enterStep {n : Nat} (h : s.Tells t) : s.Tells (t.enterStep i n) :=
  enterChain_keeps (fun _ n g => (granted s i).enterOnce n g) _ h
theorem advance (h : s.Tells t) : s.Tells (t.advance i) := h.enterStep

theorem testLimit {x : PlanStep} (h : s.Tells t) : s.Tells (t.testLimit i x) := by
  unfold State.testLimit
  split
  · split
    · unfold State.takeLimit
      split
      · exact h.endWithSummary
      · unfold State.haltLeftPhase
        split
        · exact h.modRun.advance.askLink
        · exact h.modRun.advance
    · exact h
  · exact h

theorem tickSlot (h : s.Tells t) : s.Tells (t.tickSlot i) := by
  have credited : s.Tells (t.credit i) := by
    unfold State.credit
    split
    · exact h.of_line rfl
    · exact h
  unfold State.tickSlot State.tickStep
  split
  · unfold State.testStep
    split
    · split
      · exact credited.modSlot.advance
      · exact credited.modSlot.testLimit
    · exact credited.modSlot
  · exact credited

theorem testReply {x : LastStatus} (h : s.Tells t) : s.Tells (t.testReply i x) := by
  unfold State.testReply
  split
  · exact h.modRun.advance
  · split
    · split
      · exact h.advance
      · exact h.askPhase
    · exact h
  · split
    · exact h.advance
    · exact h
  · split
    · exact h.advance
    · exact h
  · exact h

theorem cycleOff (h : s.Tells t) : s.Tells (t.cycleOff i) := by
  simp only [State.cycleOff]
  exact h.powerOff.modSlot

theorem haltEnded {p : Purpose} (h : s.Tells t) : s.Tells (t.haltEnded i p) := by
  unfold State.haltEnded
  split
  · exact h
  · split
    · exact h.cycleOff
    · exact h
  · split
    · exact h.powerOff.dropPermit.toVerdict
    · exact h

theorem offTimeOver (h : s.Tells t) : s.Tells (t.offTimeOver i) := by
  simp only [State.offTimeOver]
  split
  · split
    · exact h.modSlot.modSlot
    · exact h.modSlot.spinAgain
  · exact h

theorem returnToRun (h : s.Tells t) : s.Tells (t.returnToRun i) := (granted s i).resumeStep h.modRun.enter

theorem identified {x : Identity} (h : s.Tells t) : s.Tells (t.identified i x) := by
  simp only [State.identified]
  split
  · exact h.modRun.modSlot.modRun.enter
  · exact h.modRun.enter.enterStep

theorem readyHigh (h : s.Tells t) : s.Tells (t.readyHigh i) := by
  have ended {f : SlotRec → SlotRec} : s.Tells (((t.modSlot i f).dropPermit i).checkOvercurrent i) :=
    (stable s i).checkOvercurrent h.modSlot.dropPermit
  simp only [State.readyHigh]
  split
  · exact h
  · split
    · exact ended.enter.joinLink.askLink
    · split
      · simp only [State.rejoin]
        split
        · exact ended.joinLink.modSlot.enter
        · exact ended.joinLink.modSlot
      · exact ended

/-! ## Zones (chapter 4) -/

theorem notifyTrip (h : s.Tells t) : s.Tells (t.notifyTrip z) := by
  unfold State.notifyTrip
  split
  · exact h.notify
  · exact h

theorem graceOver (h : s.Tells t) : s.Tells (t.graceOver z) := by
  unfold State.graceOver
  split
  · exact h.modZone.foldl (fun _ j g => (granted s j).slotGrace g) _
  · exact h

theorem tripZone {e : Cause} (h : s.Tells t) : s.Tells (t.tripZone z e) := by
  have tripped : s.Tells ((t.modZone z fun x => x.cut e t.line.rackTime).onShelf z State.slotTrip) :=
    h.modZone.foldl (fun _ j g => (stable s j).slotTrip g) _
  refine notifyTrip ?_
  simp only [State.startGrace]
  split
  · exact tripped.modZone.graceOver
  · exact tripped.modZone

theorem addCause {e : Cause} (h : s.Tells t) : s.Tells (t.addCause z e) := by
  simp only [State.addCause]
  split
  · exact h
  · split
    · exact h.modZone
    · exact h.modZone.tripZone
    · exact h.modZone.modZone.notifyTrip

theorem removeCause {e : Cause} (h : s.Tells t) : s.Tells (t.removeCause z e) := by
  simp only [State.removeCause]
  split
  · split
    · exact h.modZone.notify
    · exact h.modZone
  · exact h

theorem goodReading {v : Nat} (h : s.Tells t) : s.Tells (t.goodReading z v) := by
  simp only [State.goodReading, State.judgeOverLimit]
  split
  · exact h.modZone.removeCause.addCause
  · split
    · exact h.modZone.removeCause.removeCause
    · exact h.modZone.removeCause

theorem badReading (h : s.Tells t) : s.Tells (t.badReading z) := h.modZone.addCause

theorem windowEnd (h : s.Tells t) : s.Tells (t.windowEnd z) := by
  simp only [State.windowEnd]
  split
  · exact h.modZone.removeCause
  · split
    · exact h.modZone.addCause
    · exact h.modZone

theorem resumeZone (h : s.Tells t) : s.Tells (t.resumeZone z) :=
  h.modZone.foldl (fun _ j g => (granted s j).slotResume g) _

theorem minute (h : s.Tells t) : s.Tells t.minute := by
  refine foldl (fun u z g => ?_) _ (h.foldl (fun _ _ g => g.tickSlot) _)
  unfold State.tickZone
  split
  · exact g.modZone
  · exact g

/-! ## Watch rules and replies (chapters 3 and 6) -/

theorem watchAct {r : WatchRule} (h : s.Tells t) : s.Tells (t.watchAct i r) := by
  unfold State.watchAct
  split
  · exact h
  · unfold State.watchSuspend
    split
    · exact h.enter.askLink
    · exact h
  · unfold State.watchReject
    split
    · split
      · exact h.endWithSummary
      · exact h
    · exact h

theorem evaluate {w : FaultWord} (h : s.Tells t) : s.Tells (t.evaluate i w) := by
  refine setWatch ?_
  unfold State.takeMatch
  split
  · exact h
  · exact h.setWatch.notify.watchAct
  · simp only [State.hitLatch]
    split
    · exact h.setWatch.notify.watchAct
    · split
      · exact h
      · exact h.setWatch.notify

theorem goodReply (h : s.Tells t) : s.Tells (t.goodReply l i) := h.of_line rfl

theorem statusTaken {x : LastStatus} (h : s.Tells t) : s.Tells (t.statusTaken l i x) := by
  have fallback (u : State) (g : s.Tells u) : s.Tells (u.writeFallback i x.grown) := by
    unfold State.writeFallback
    split
    · exact g.modRun
    · exact g
  have watched (u : State) (g : s.Tells u) : s.Tells (u.watchStep i x.fault) := by
    unfold State.watchStep
    split
    · exact g.evaluate
    · exact g
  have failed (u : State) (g : s.Tells u) : s.Tells (u.failedStep i x.state) := by
    unfold State.failedStep
    split
    · exact g.endWithSummary
    · exact g
  have planned (u : State) (g : s.Tells u) : s.Tells (u.planStep i x) := by
    unfold State.planStep
    split
    · exact g.testReply
    · exact g
  exact planned _ (failed _ (watched _ (fallback _ h.goodReply.setLinkSlot)))

theorem identTaken {x : Identity} (h : s.Tells t) : s.Tells (t.identTaken l i x) := by
  simp only [State.identTaken]
  split
  · exact h.goodReply.identified
  · exact h.goodReply

theorem phaseTaken {p : Purpose} (h : s.Tells t) : s.Tells (t.phaseTaken l i p) := by
  simp only [State.phaseTaken]
  split
  · split
    · exact h.goodReply.modSlot
    · exact h.goodReply
  · exact h.goodReply

theorem blockTaken {op : SummaryOp} {x : SummaryBlock} (h : s.Tells t) : s.Tells (t.blockTaken l i op x) := by
  simp only [State.blockTaken]
  split
  · exact h.goodReply.modLink
  · split
    · exact h.goodReply.modLink.modRun.powerOff.verdict
    · exact h.goodReply.modLink
  · exact h.goodReply

theorem directedMiss {d : DirectedCode} {p : Purpose} (h : s.Tells t) : s.Tells (t.directedMiss i d p) := by
  unfold State.directedMiss
  split
  · split
    · exact h.askLink
    · exact h
  · split
    · exact h.askPhase
    · exact h
  · exact h
  · exact h.haltEnded

theorem summaryMiss (h : s.Tells t) : s.Tells (t.summaryMiss l i) := by
  simp only [State.summaryMiss]
  split
  · split
    · exact h.modLink.modLink.modRun.powerOff.verdict
    · exact h.modLink
  · exact h

theorem missed {x : Transaction} (h : s.Tells t) : s.Tells (t.missed l x) := by
  have ended : s.Tells (((t.endTransaction l).setLinkSlot x.slot (t.linkSlot x.slot).miss).judgeSilent l x.slot) := by
    unfold State.judgeSilent
    split
    · exact endAtOnce (h.of_line rfl)
    · exact h.of_line rfl
  unfold State.missed State.codeMiss
  split
  · exact ended.directedMiss
  · exact ended
  · exact ended.summaryMiss

theorem badReply {bytes : List Byte} (h : s.Tells t) : s.Tells (t.badReply l bytes) := by
  unfold State.badReply
  split
  · exact h.modLink
  · exact h

/-! ## The handler port and the seat (chapter 8, R5 to R7) -/

theorem endAtCarton (h : s.Tells t) : s.Tells (t.endAtCarton o) := (stock s).endAtCarton h
theorem handshakeOver (h : s.Tells t) : s.Tells (t.handshakeOver o) := (stock s).handshakeOver h
theorem portFault {why : FaultReason} (h : s.Tells t) : s.Tells (t.portFault why o) := h.setPort.notify

theorem endHandshake {x : PortOutcome} (h : s.Tells t) : s.Tells (t.endHandshake c x) := by
  unfold State.endHandshake
  split
  · exact h.setPort
  · split
    · exact h.setPort
    · exact h.setPort

theorem orderBack {why : HoldReason} (h : s.Tells t) : s.Tells (t.orderBack o why) := by
  have engaged : s.Tells (t.engage o.slot) := h.modSlot
  unfold State.orderBack
  split
  · simp only [State.extractBack]
    split
    · exact engaged.teardown
    · exact engaged.enterHeld
  · simp only [State.insertBack]
    split
    · exact h.dropPlan.enterVacant
    · exact h.dropPlan.enter

theorem orderFails {e : HandlerEvent} {why : HoldReason} (h : s.Tells t) : s.Tells (t.orderFails o e why) :=
  h.endAtCarton.notify.orderBack

theorem confirm (h : s.Tells t) : s.Tells (t.confirm c) := by
  refine endHandshake ?_
  unfold State.orderConfirmed
  split
  · exact ((stock s).countIn h).enterVacant
  · exact h.enterSeated

theorem takeDone (h : s.Tells t) : s.Tells (t.takeDone c) := by
  simp only [State.takeDone]
  split
  · exact h.setPort.confirm
  · exact h.setPort.setPort

theorem takeFail (h : s.Tells t) : s.Tells (t.takeFail c) := h.setPort.orderFails.endHandshake

theorem takeOutcome {x : PortOutcome} (h : s.Tells t) : s.Tells (t.takeOutcome c x) := by
  unfold State.takeOutcome
  split
  · exact h.takeFail
  · split
    · exact h.takeFail
    · exact h.takeDone

theorem takeAccept (h : s.Tells t) : s.Tells (t.takeAccept c) := by
  unfold State.takeAccept State.readLines
  split
  · split
    · exact h.setPort.takeFail
    · split
      · exact h.setPort.takeDone
      · exact h.setPort
  · exact h.setPort

theorem raiseOffer (h : s.Tells t) : s.Tells (t.raiseOffer c) := by
  simp only [State.raiseOffer]
  split
  · exact h.setPort.takeAccept
  · exact h.setPort

theorem orderReturned (h : s.Tells t) : s.Tells (t.orderReturned o) := by
  have engaged : s.Tells (t.engage o.slot) := h.modSlot
  simp only [State.orderReturned]
  split
  · split
    · exact engaged.teardown
    · split
      · exact engaged.withdrawOrder.enterHeld
      · exact engaged.enter
  · split
    · exact h.withdrawOrder.enterSeated
    · exact h

theorem acceptOver (h : s.Tells t) : s.Tells (t.acceptOver c) := by
  simp only [State.acceptOver]
  split
  · exact h.setPort.endAtCarton.notify.orderReturned.setPort.portFault
  · exact h.setPort.endAtCarton.notify.orderReturned.setPort

theorem dispatch {n : Nat} (h : s.Tells t) : s.Tells (t.dispatch o n) := by
  have unloads {v : State} {i : SlotNo} {b : LaneNo} (g : s.Tells v) : s.Tells ((v.reserve i b).unload i) := by
    have reserved : s.Tells (v.reserve i b) := g.of_line rfl
    exact reserved.modSlot.enter
  simp only [State.dispatch]
  split
  · split
    · exact (unloads h.setPort).raiseOffer
    · exact h.setPort.raiseOffer
  · split
    · exact (unloads h.setPort).setPort
    · exact h.setPort.setPort

theorem arbitrate (h : s.Tells t) : s.Tells t.arbitrate := by
  unfold State.arbitrate State.arbiter
  split
  · split
    · exact h.setPort
    · exact h.dispatch
    · exact h.dispatch
    · split
      · exact h.dispatch
      · exact h.dispatch
  · exact h

theorem rawSeat {v : Seat} (h : s.Tells t) : s.Tells (t.rawSeat i v) := by
  simp only [State.rawSeat]
  split
  · exact h
  · split
    · exact h.modSlot.enter
    · exact h.modSlot

theorem seatEvidence (h : s.Tells t) : s.Tells (t.seatEvidence i) := by
  unfold State.seatEvidence
  split
  · split
    · exact h.confirm
    · exact h
  · exact h

theorem debounceOver (h : s.Tells t) : s.Tells (t.debounceOver i) := by
  have settled : s.Tells (t.modSlot i fun r => { r with debounce := none, seatStable := r.seatRaw }) := h.modSlot
  simp only [State.debounceOver]
  split
  · split
    · split
      · exact settled.enter
      · exact settled.enterVacant
    · exact settled
  · split
    · unfold State.seatClosed
      split
      · exact settled.withdrawOrder.enterSeated
      · exact settled.withdrawOrder.enterSeated
      · split
        · exact settled.withdrawOrder.enterSeated
        · exact settled.seatEvidence
      · exact settled.seatEvidence
    · unfold State.seatOpened
      split
      case h_10 => exact settled.seatEvidence
      all_goals exact settled.teardown

/-! ## Requests served (R189) -/

theorem abortSlot (h : s.Tells t) (takes : t.abortSlot i = some u) : s.Tells u := by
  unfold State.abortSlot at takes
  split at takes
  · split at takes
    · cases takes
      exact h.withdrawOrder.dropPlan.enterVacant
    · cases takes
  case h_7 =>
    cases takes
    exact h.powerOff.modRun.verdict
  case h_8 =>
    cases takes
    exact h.withdrawOrder.enterHeld
  case h_9 => cases takes
  all_goals
    cases takes
    exact h.endAtOnce

theorem served (h : s.Tells t) (g : t.Served u) : s.Tells u := by
  cases g with
  | unchanged => exact h
  | opened => exact h.assignPlan.enter.joinOrder
  | started | rerun => exact h.assignPlan.startRun
  | suspended =>
    simp only [State.suspend]
    split
    · exact h.modRun.enter.askLink
    · exact h.enter.askLink
  | continued =>
    unfold State.continueSlot
    split
    · exact h.modRun.enter
    · exact h.returnToRun
  | ended => exact h.endWithSummary
  | aborted i u takes => exact h.abortSlot takes
  | released => exact h.modRun.enter.joinOrder
  | spinSet x =>
    have set : s.Tells { t with spin := x } := h.of_line rfl
    exact set.testGrants
  | zoneResumed => exact h.resumeZone
  | barred b =>
    have set : s.Tells (t.setBar b true) := h.of_line rfl
    exact set.foldl (fun _ _ g => g.withdrawOrder.enterHeld) _
  | recordsReleased => exact (stock s).releaseRecords h
  | maskSet | timeSet => exact ⟨h.requests, h.replies, h.sending, h.notices⟩
  | planLoaded | linkSet | profileLoaded | zoneStarted | zoneStopped | zoneSet | dosesSet | rulesSet | watchCleared
  | sortSet | portSet | portReset | binSet => exact h.of_line rfl

theorem restartPort (h : s.Tells t) : s.Tells t.restartPort := by
  simp only [State.restartPort]
  split
  · exact h.setPort.endAtCarton
  · exact h.setPort

end State.Tells

end Sys2Proof.Machine
end

