-- ==== Sys2Proof/Proofs/LineSizes.lean ====
section
/-! PROOFS. The line port's queues stay within their sizes (R182, R188, R189, R195) through every command: the other
blocks only offer notices (`State.Tells`), and LP places, serves and sends one frame at a time. -/

namespace Sys2Proof.Machine

variable {s t u : State}

namespace State.lineWithinSizes

/-- An operation of another block. -/
theorem told (g : s.lineWithinSizes) (h : s.Tells t) : t.lineWithinSizes := by
  obtain ⟨requests, busy, served, inOrder, sourced⟩ := g
  refine ⟨?_, ?_, ?_, h.notices ⟨inOrder, sourced⟩⟩
  · rwa [h.requests]
  · rwa [Line.busyReplies, h.replies]
  · rwa [h.replies, h.sending]

/-- A change of the line port that leaves its four queues and the frame being sent. -/
theorem setLine {x : Line} (g : t.lineWithinSizes) (requests : x.requests = t.line.requests)
    (replies : x.replies = t.line.replies) (sending : x.sending = t.line.sending)
    (notices : x.notices = t.line.notices) : (t.setLine x).lineWithinSizes :=
  g.told ⟨requests, replies, sending, fun k => notices ▸ k⟩

/-! ## Requests placed and served (R188, R189) -/

/-- At most one more request, or one more BUSY refusal, and only where there is room (R188). -/
theorem place (g : t.lineWithinSizes) (r : Request) : (t.setLine (t.line.place r)).lineWithinSizes := by
  obtain ⟨requests, busy, served, notices⟩ := id g
  unfold Line.place
  split
  · rename_i room
    refine ⟨?_, busy, served, notices⟩
    rw [State.setLine_line, List.length_append, List.length_singleton]
    exact room
  · split
    · rename_i room
      refine ⟨requests, ?_, ?_, notices⟩
      · rw [Line.busyReplies, State.setLine_line, List.countP_append]
        exact room
      · rw [State.setLine_line, List.countP_append]
        exact served
    · exact g.setLine rfl rfl rfl rfl

/-- A request is served where no served reply waits or is being sent, so that its own is the one (R189). -/
theorem serveHead (g : t.lineWithinSizes) : t.serveHead.lineWithinSizes := by
  unfold State.serveHead
  split
  · exact g
  · rename_i waits
    split
    · rename_i r rest queue
      obtain ⟨requests, busy, -, notices⟩ := id g
      have taken : (t.setLine { t.line with requests := rest }).Tells
          (r.answer (t.setLine { t.line with requests := rest })).1 :=
        (State.Tells.refl _).served (r.answer_served _)
      simp only [Line.servedWaits, Bool.or_eq_true, not_or, Bool.not_eq_true] at waits
      obtain ⟨none_waits, none_sent⟩ := waits
      have none_served : t.line.replies.countP (·.served) = 0 := by
        simpa [List.countP_eq_zero] using none_waits
      refine ⟨?_, ?_, ?_, taken.notices notices⟩
      · rw [State.serve, State.addReply, State.setLine_line, taken.requests]
        rw [queue, List.length_cons] at requests
        exact Nat.le_of_succ_le requests
      · simpa [State.serve, Line.busyReplies, taken.replies, Request.reply] using busy
      · simp [State.serve, taken.replies, taken.sending, Request.reply, none_served, none_sent]
    · exact g

/-- The transmitter takes a reply from the list, or the notice at the head of the queue (R192). -/
theorem flush (g : t.lineWithinSizes) : t.flush.lineWithinSizes := by
  obtain ⟨requests, busy, served, ⟨ordinary, apart⟩, sourced⟩ := id g
  unfold State.flush Line.transmit
  split
  · exact g
  · rename_i f rest idle replies
    rw [Line.busyReplies, replies, List.countP_cons] at busy
    rw [replies, idle, List.countP_cons] at served
    refine ⟨requests, Nat.le_of_add_right_le busy, ?_, ⟨ordinary, apart⟩, sourced⟩
    exact served
  · rename_i n rest idle replies notices
    rw [notices] at ordinary apart sourced
    rw [idle] at served
    refine ⟨requests, ?_, ?_, ⟨?_, apart.of_cons⟩, fun m k => sourced m (.tail n k)⟩
    · simp [Line.busyReplies, replies]
    · simp [replies, Notice.frame]
    · rw [List.countP_cons] at ordinary
      exact Nat.le_of_add_right_le ordinary
  · exact g

/-- What an event leaves to be done in it (R60, R149, R192). -/
theorem finish (g : t.lineWithinSizes) : t.finish.lineWithinSizes := by
  have links : t.Tells t.advanceLinks := (State.Tells.refl t).of_line rfl
  exact (g.told links.arbitrate).flush

theorem arrive (g : t.lineWithinSizes) (r : Request) : (t.arrive r).lineWithinSizes := (g.place r).serveHead.finish

/-! ## RESTART, and frames sent (R192, R200, R201) -/

/-- RESTART empties the notice queue; the closes it takes up queue notices of their own (R201). -/
theorem restart (g : t.lineWithinSizes) : t.restart.lineWithinSizes := by
  obtain ⟨requests, busy, served, -⟩ := g
  have emptied : (t.setLine { t.line with notices := [] }).lineWithinSizes :=
    ⟨requests, busy, served, ⟨Nat.zero_le _, .nil⟩, fun _ m => absurd m List.not_mem_nil⟩
  have closed := emptied.told (State.Tells.refl _).restartPort
  unfold State.restart
  generalize (t.setLine { t.line with notices := [] }).restartPort = u at closed ⊢
  obtain ⟨requests, busy, served, inOrder, sourced⟩ := closed
  have filtered : u.release.withoutHighWater.lineWithinSizes :=
    ⟨requests, busy, served, noticesInOrder_filter _ _ inOrder, fun n m => sourced n (List.mem_of_mem_filter m)⟩
  exact (filtered.told ((State.Tells.refl _).of_line rfl)).setLine rfl rfl rfl rfl

theorem frameOut (g : t.lineWithinSizes) : t.frameOut.lineWithinSizes := by
  unfold State.frameOut
  split
  · rename_i f _
    obtain ⟨requests, busy, served, notices⟩ := g
    have freed : (t.setLine { t.line with sending := none }).lineWithinSizes :=
      ⟨requests, busy, Nat.le_of_add_right_le served, notices⟩
    refine serveHead ?_ |>.finish
    cases f.after with
    | nothing => exact freed
    | newRate r =>
      simp only [State.afterSent, Line.setRate]
      split
      · exact freed
      · exact freed.setLine rfl rfl rfl rfl
    | restart => exact freed.restart
  · exact g

/-! ## The receiver (R185) -/

theorem lapse (g : t.lineWithinSizes) (now : Time) : (t.setLine (t.line.lapse now)).lineWithinSizes := by
  rw [Line.lapse_eq]
  exact g.setLine rfl rfl rfl rfl

theorem receive (g : t.lineWithinSizes) (x : Byte) : (t.receive x).lineWithinSizes := by
  have lapsed : t.lapse.lineWithinSizes := g.lapse t.now
  simp only [State.receive]
  split
  · split
    · exact lapsed.setLine rfl rfl rfl rfl
    · exact lapsed
  · simp only [State.collect]
    split
    · exact lapsed
    · split
      · exact lapsed.setLine rfl rfl rfl rfl
      · split
        · unfold State.frameTaken
          split
          · exact (lapsed.setLine (x := t.lapse.line.hunt) rfl rfl rfl rfl).arrive _
          · exact lapsed.setLine rfl rfl rfl rfl
        · exact lapsed.setLine rfl rfl rfl rfl

theorem receiveAll (g : t.lineWithinSizes) (bytes : List Byte) : (t.receiveAll bytes).lineWithinSizes := by
  unfold State.receiveAll
  induction bytes generalizing t with
  | nil => exact g
  | cons x bytes ih => exact ih (g.receive x)

/-! ## Commands -/

/-- An event that is taken where a condition holds, and is discarded elsewhere (R4). -/
theorem taken {p : Prop} [Decidable p] (yes : s.lineWithinSizes) (no : t.lineWithinSizes) :
    (if p then s else t).lineWithinSizes := by
  split
  · exact yes
  · exact no

/-- An event on a link is discarded where no transaction is outstanding (R52). -/
theorem onLink {x : Option Transaction} {f : Transaction → State} (discarded : t.lineWithinSizes)
    (acts : ∀ y, (f y).lineWithinSizes) : (match x with | some y => f y | none => t).lineWithinSizes := by
  split
  · exact acts _
  · exact discarded

/-- An event at the handler port is discarded where no order is current in the state it is for (R146). -/
theorem atPort {x : Option CurrentOrder} {f : CurrentOrder → State} (discarded : t.lineWithinSizes)
    (acts : ∀ y, (f y).lineWithinSizes) : (match x with | some y => f y | none => t).lineWithinSizes := by
  split
  · exact acts _
  · exact discarded

/-- An operation of another block, and the end of its event. -/
theorem ends (g : s.lineWithinSizes) (h : s.Tells t) : t.finish.lineWithinSizes := (g.told h).finish

end State.lineWithinSizes

/-- At power-on the line port is empty (R29, R182). -/
theorem State.lineWithinSizes_ofInputs (x : Inputs) (pending : List Instr) :
    ({ State.ofInputs x with pending := pending } : State).lineWithinSizes :=
  ⟨Nat.zero_le _, Nat.zero_le _, Nat.zero_le _, ⟨Nat.zero_le _, .nil⟩, fun _ m => absurd m List.not_mem_nil⟩

/-- Every command leads to a next state with the line port within its sizes. -/
theorem State.lineWithinSizes.exec (g : s.lineWithinSizes) (e : Instr) :
    ∃ t, Machine.exec e s = .next t ∧ t.lineWithinSizes := by
  have h := State.Tells.refl s
  have bad {l : ShelfNo} {bytes : List Byte} : (s.badReply l bytes).lineWithinSizes := g.told h.badReply
  cases e with
  | powerOn x => exact ⟨_, rfl, State.lineWithinSizes_ofInputs x _⟩
  | restartEffect x =>
    have strapped : (s.setStraps x).lineWithinSizes := g.told (h.of_line rfl)
    exact ⟨_, rfl, .taken strapped.frameOut g⟩
  | lineRateChange => exact ⟨_, rfl, .taken g.frameOut g⟩
  | frameReceived bytes => exact ⟨_, rfl, g.receiveAll bytes⟩
  | lineGap => exact ⟨_, rfl, .taken (g.setLine rfl rfl rfl rfl) g⟩
  | lineBreak => exact ⟨_, rfl, (g.lapse s.now).setLine rfl rfl rfl rfl⟩
  | framingDiscard =>
    refine ⟨_, rfl, ?_⟩
    unfold Line.badStop
    split
    · exact (g.lapse s.now).setLine rfl rfl rfl rfl
    · exact g.lapse s.now
  | frameSent => exact ⟨_, rfl, g.frameOut⟩
  | startByte => exact ⟨_, rfl, g.receive _⟩
  | lengthDiscard x => exact ⟨_, rfl, g.receive x⟩
  | secondTick =>
    exact ⟨_, rfl, ((g.lapse s.clock.second.ms).setLine (x := (s.line.lapse s.clock.second.ms).second)
      rfl rfl rfl rfl).told ((State.Tells.refl _).of_line rfl)⟩
  | doseMinuteTick =>
    have ticked : s.Tells { s with clock := s.clock.minute } := h.of_line rfl
    exact ⟨_, rfl, g.ends ticked.minute⟩
  | rawSeatChange => exact ⟨_, rfl, g.ends h.rawSeat⟩
  | seatDebounceExpiry => exact ⟨_, rfl, .taken (g.ends h.debounceOver) g⟩
  | readySeen => exact ⟨_, rfl, .taken (g.ends h.readyHigh) g⟩
  | spinLimitExpiry => exact ⟨_, rfl, .taken (g.ends h.endAtOnce) g⟩
  | overcurrentLineActive slot active =>
    have leveled : s.Tells (s.setOvercurrent slot active) := h.of_line rfl
    exact ⟨_, rfl, .taken (g.ends leveled.takeOvercurrent) (g.told leveled)⟩
  | inrushBlankingEnd =>
    exact ⟨_, rfl, .taken (.taken (g.ends h.modSlot.takeOvercurrent) (g.told h.modSlot)) g⟩
  | stepTimeLimit =>
    refine ⟨_, rfl, ?_⟩
    split
    · exact .taken (g.ends h.testLimit) g
    · exact g
  | cycleOffTimeExpiry => exact ⟨_, rfl, .taken (g.ends h.offTimeOver) g⟩
  | frameStart | poll | directedTransaction | summaryTransaction => exact ⟨_, rfl, .taken (g.told h.modLink) g⟩
  | statusReply =>
    refine ⟨_, rfl, .onLink g fun y => ?_⟩
    split
    · split
      · exact g.ends h.statusTaken
      · exact bad
    · exact bad
  | identReply =>
    refine ⟨_, rfl, .onLink g fun y => ?_⟩
    split
    · split
      · exact g.ends h.identTaken
      · exact bad
    · exact bad
  | phaseStartReply =>
    refine ⟨_, rfl, .onLink g fun y => ?_⟩
    split
    · exact g.ends h.phaseTaken
    · exact bad
  | haltReply =>
    refine ⟨_, rfl, .onLink g fun y => ?_⟩
    split
    · exact g.ends h.goodReply.haltEnded
    · exact bad
  | summaryReply =>
    refine ⟨_, rfl, .onLink g fun y => ?_⟩
    split
    · split
      · exact g.ends h.blockTaken
      · exact bad
    · exact bad
  | miss => exact ⟨_, rfl, .onLink g fun y => .taken (g.ends h.missed) g⟩
  | airSensorRead => exact ⟨_, rfl, finish (.taken (g.told h.goodReading) (g.told h.badReading))⟩
  | sensorNoResponse => exact ⟨_, rfl, g.ends h.badReading⟩
  | cutoffChange => exact ⟨_, rfl, finish (.taken (g.told h.addCause) (g.told h.removeCause))⟩
  | tachEdge => exact ⟨_, rfl, g.told h.modZone⟩
  | fanWindowEnd => exact ⟨_, rfl, g.ends h.windowEnd⟩
  | segmentEnd | controlInterval | pwmPeriodStart | pwmOnTimeEnd => exact ⟨_, rfl, .taken (g.told h.modZone) g⟩
  | tripGraceExpiry => exact ⟨_, rfl, .taken (g.ends h.graceOver) g⟩
  | orderDispatch => exact ⟨_, rfl, g.finish⟩
  | handlerReadyRise => exact ⟨_, rfl, g.ends h.setPort⟩
  | deskewExpiry => exact ⟨_, rfl, .atPort g fun c => g.ends h.raiseOffer⟩
  | handlerAccept => exact ⟨_, rfl, .atPort (g.told h.setPort) fun c => g.ends h.setPort.takeAccept⟩
  | acceptTimeout => exact ⟨_, rfl, .atPort g fun c => g.ends h.acceptOver⟩
  | handlerDone | handlerFail =>
    exact ⟨_, rfl, .atPort (g.told h.setPort) fun c => .taken (g.ends h.setPort.takeOutcome) (g.told h.setPort)⟩
  | evidenceTimeout => exact ⟨_, rfl, .atPort g fun c => g.ends h.orderFails.endHandshake⟩
  | completionTimeout => exact ⟨_, rfl, .atPort g fun c => g.ends h.setPort.orderFails.portFault⟩
  | handlerLineDrop =>
    exact ⟨_, rfl, .atPort (g.told h.setPort) fun c =>
      .taken (g.ends h.setPort.setPort.handshakeOver) (g.told h.setPort)⟩
  | releaseTimeout => exact ⟨_, rfl, .atPort g fun c => g.ends h.handshakeOver.portFault⟩
  | cartonPresentRise => exact ⟨_, rfl, g.ends ((State.Tells.stock s).presentRise h)⟩
  | cartonPresentDrop => exact ⟨_, rfl, g.ends ((State.Tells.stock s).presentDrop h)⟩
  | unknown => exact ⟨_, rfl, g.arrive _⟩
  | slotOpen | slotStart | slotSuspend | slotContinue | slotEnd | slotAbort | slotRelease | slotRerun | spinSettings
  | slotQuery | planLoad | planRead | linkConfig | profileLoad | zoneStart | zoneStop | zoneResume | zoneSettings
  | zoneQuery | doseTableLoad | watchLoad | watchClear | weightsLoad | gradeMapLoad | faultTableLoad | gradeMapRead
  | binBar | binUnbar | sortProbe | handlerSettings | handlerReset | queueQuery | binConfig | binQuery | manifestRead
  | manifestRelease | lineConfig | noticeMask | setTime | rackQuery | restart => exact ⟨_, rfl, g.arrive _⟩

end Sys2Proof.Machine

open Sys2Proof Sys2Proof.Machine

/-- Settles O60: a step carries out a command, which keeps the queues within their sizes, or idles, which touches no
queue of the line port. -/
theorem stepKeepsLineSizes : Obligations.StepKeepsLineSizes := by
  unfold Obligations.StepKeepsLineSizes
  intro s t within h
  rcases step_cases h with ⟨c, rest, -, run⟩ | ⟨-, rfl⟩
  · have front : ({ s with pending := rest } : State).lineWithinSizes := within
    obtain ⟨u, run', kept⟩ := front.exec c
    obtain rfl : u = t := by simpa using run'.symm.trans run
    exact kept
  · rcases s.idle_eq with ⟨c, e⟩ | e
    · exact e ▸ within
    · exact e ▸ within
end

