-- ==== Sys2Proof/Proofs/Refusals.lean ====
section
/-! PROOFS. How a request ends (R190): refused, with nothing changed, or accepted, as it stands or clamped; and the
checks of the slot requests that refuse (R24 to R28). -/

namespace Sys2Proof.Machine

variable {s t : State} {i : SlotNo} {z : ShelfNo} {slot plan tag : Byte} {code : RefusalCode} {c : RequestCode}
  {body : List Byte}

/-! ## The three outcomes (R190) -/

/-- The two ways a request served in `s` ends (R190). -/
inductive State.Concludes (s : State) : State × Answer → Prop
  /-- refused, and nothing has changed -/
  | refused (code : RefusalCode) (detail : List Byte) : s.Concludes (s, Answer.refuse code detail)
  /-- ACCEPTED or ACCEPTED_CLAMPED -/
  | taken (t : State) (a : Answer) (outcome : a.body.head? = some 1 ∨ a.body.head? = some 2) : s.Concludes (t, a)

namespace State.Concludes

/-- Only a refusal says REFUSED, and it changes nothing. -/
theorem unchanged {r : State × Answer} (h : s.Concludes r) (refused : r.2.body.head? = some 3) : r.1 = s := by
  cases h with
  | refused => rfl
  | taken t a outcome =>
    rw [refused] at outcome
    exact absurd outcome (by decide)

theorem outcome {r : State × Answer} (h : s.Concludes r) :
    r.2.body.head? = some 1 ∨ r.2.body.head? = some 2 ∨ r.2.body.head? = some 3 := by
  cases h with
  | refused => exact .inr (.inr rfl)
  | taken t a outcome => exact outcome.imp_right .inl

@[simp] theorem refuse : s.Concludes (s.refuse code) := .refused _ _
@[simp] theorem refuseCause : s.Concludes (s.refuseCause z) := .refused _ _
@[simp] theorem accept {data : List Byte} : s.Concludes (t, Answer.accept data) := .taken _ _ (.inl rfl)
@[simp] theorem slotReply : s.Concludes (t.slotReply i) := accept
@[simp] theorem followed {data : List Byte} {x : AfterSent} : s.Concludes (t, { body := u8 1 ++ data, after := x }) :=
  .taken _ _ (.inl rfl)
@[simp] theorem clamped {cut : Bool} {values data : List Byte} : s.Concludes (t, Answer.taken cut values data) :=
  .taken _ _ (by cases cut <;> simp [Answer.taken, u8])

end State.Concludes

/-- Every branch of every request ends in one of the two ways (R189, R190). -/
theorem RequestCode.serve_concludes (c : RequestCode) (body : List Byte) (s : State) :
    s.Concludes (c.serve body s) := by
  cases c with
  | slotOpen | slotStart | slotRerun =>
    simp only [serve, serveSlotOpen, serveSlotStart, serveSlotRerun, State.withPlan]
    (repeat' split) <;> simp
  | slotSuspend | slotContinue | slotEnd | slotAbort | slotQuery | watchClear =>
    simp only [serve, serveSlotSuspend, serveSlotContinue, serveSlotEnd, serveSlotAbort, serveSlotQuery,
      serveWatchClear, State.withSlot]
    (repeat' split) <;> simp
  | slotRelease | binBar | binUnbar | binConfig | binQuery =>
    simp only [serve, serveSlotRelease, serveBinBar, serveBinUnbar, serveBinConfig, serveBinQuery]
    (repeat' split) <;> simp
  | profileLoad | zoneStart | zoneStop | zoneResume | zoneSettings | zoneQuery =>
    simp only [serve, serveProfileLoad, serveZoneStart, serveZoneStop, serveZoneResume, serveZoneSettings,
      serveZoneQuery, State.withZone]
    (repeat' split) <;> simp
  | spinSettings | planLoad | planRead | linkConfig | queueQuery =>
    simp only [serve, serveSpinSettings, servePlanLoad, servePlanRead, serveLinkConfig, serveQueueQuery]
    (repeat' split) <;> simp
  | doseTableLoad | watchLoad | weightsLoad | gradeMapLoad | faultTableLoad | gradeMapRead | sortProbe =>
    simp only [serve, serveDoseTableLoad, serveWatchLoad, serveWeightsLoad, serveGradeMapLoad, serveFaultTableLoad,
      serveGradeMapRead, serveSortProbe]
    (repeat' split) <;> simp
  | handlerSettings | handlerReset | manifestRead | manifestRelease =>
    simp only [serve, serveHandlerSettings, serveHandlerReset, serveManifestRead, serveManifestRelease]
    (repeat' split) <;> simp
  | lineConfig | noticeMask | setTime | rackQuery =>
    simp only [serve, serveLineConfig, serveNoticeMask, serveSetTime, serveRackQuery]
    (repeat' split) <;> simp
  | restart =>
    simp only [serve, serveRestart]
    split
    · exact .taken _ _ (.inl rfl)
    · exact .refuse

/-! ## The checks of the slot requests (R24 to R28) -/

/-- A request that its block refuses (R189, R190). -/
theorem State.request_refused (h : s.ready) (e : c.serve body s = s.refuse code) :
    (.next (s.request c tag body) : Host.Outcome State Fault Refusal) =
      .next (s.answered tag c (Answer.refuse code [])) :=
  congrArg _ (State.request_serves h e)

theorem State.withSlot_range (h : ofNum 40 slot.toNat = none) (f : SlotNo → State × Answer) :
    s.withSlot slot f = s.refuse .range := by
  simp [State.withSlot, h]

theorem State.withPlan_noSlot (h : ofNum 40 slot.toNat = none) (f : SlotNo → PlanNo → State × Answer) :
    s.withPlan slot plan f = s.refuse .range := by
  simp [State.withPlan, h]

/-- A plan without steps is refused, whatever the slot's number (R24). -/
theorem State.withPlan_noSteps {p : PlanNo} (k : ofNum 8 plan.toNat = some p) (empty : (s.plan p).steps = [])
    (f : SlotNo → PlanNo → State × Answer) : s.withPlan slot plan f = s.refuse .range := by
  unfold State.withPlan
  split
  · rename_i q _ found
    obtain rfl : p = q := Option.some.inj (k.symm.trans found)
    rw [empty]
    rfl
  · rfl

end Sys2Proof.Machine

open Sys2Proof Sys2Proof.Machine

/-- Settles O53: every request ends refused or accepted (`RequestCode.serve_concludes`), and the checks of the slot
requests refuse in the order of R24. -/
theorem refusalsChangeNothing : Obligations.RefusalsChangeNothing := by
  unfold Obligations.RefusalsChangeNothing
  refine ⟨fun c body s => ?_, RequestCode.ofByte_byte, fun s tag code body ready unknown => ?_,
    fun s tag slot x ready => ⟨fun noSlot => ?_, fun p plan empty => ?_, fun i p b own plan loaded bin => ?_⟩⟩
  · have ends := c.serve_concludes body s
    exact ⟨ends.unchanged, ends.outcome⟩
  · refine congrArg _ ((s.arrive_of_ready _ ready).trans ?_)
    simp only [State.serve, Request.answer, unknown]
    rfl
  · exact ⟨State.request_refused ready (State.withPlan_noSlot noSlot _),
      State.request_refused ready (State.withPlan_noSlot noSlot _),
      State.request_refused ready (State.withSlot_range noSlot _),
      State.request_refused ready (State.withSlot_range noSlot _),
      State.request_refused ready (State.withSlot_range noSlot _),
      State.request_refused ready (State.withSlot_range noSlot _),
      State.request_refused ready (by simp [RequestCode.serve, serveSlotRelease, noSlot]),
      State.request_refused ready (State.withPlan_noSlot noSlot _)⟩
  · exact ⟨State.request_refused ready (State.withPlan_noSteps plan empty _),
      State.request_refused ready (State.withPlan_noSteps plan empty _),
      State.request_refused ready (State.withPlan_noSteps plan empty _)⟩
  · refine ⟨fun other => ?_, fun other => ?_, fun other => ?_, fun other => ?_, fun other => ?_,
      fun paused running => ?_, fun running paused review => ?_⟩
    · exact State.request_refused ready ((State.withPlan_of own plan loaded _).trans (if_neg other))
    · exact State.request_refused ready ((State.withPlan_of own plan loaded _).trans (if_neg other))
    · refine State.request_refused ready ((State.withPlan_of own plan loaded _).trans (if_neg fun held => ?_))
      rcases other with other | unknown
      · exact other held.1
      · simp [unknown] at held
    · refine State.request_refused ready ?_
      simp only [RequestCode.serve, serveSlotRelease, own, bin]
      exact if_neg fun held => other held.1
    · exact State.request_refused ready ((State.withSlot_of own _).trans (if_neg other))
    · refine State.request_refused ready ((State.withSlot_of own _).trans (if_neg fun may => ?_))
      simp only [SlotRec.suspendable, paused, decide_false, Bool.false_or, Bool.and_eq_true, decide_eq_true_eq,
        Bool.not_eq_true'] at may
      rcases running with other | off
      · exact other may.1
      · simp [off] at may
    · refine State.request_refused ready ((State.withSlot_of own _).trans (if_neg fun may => ?_))
      rcases may with e | e | e
      · exact running e
      · exact paused e
      · exact review e
end

