-- ==== Sys2Proof/Proofs/Receiver.lean ====
section
/-! PROOFS. The receiver (R183 to R188): a byte that comes in time, one that comes too late, and a frame taken whole. -/

namespace Sys2Proof.Machine

variable {s : State} {x tag code : Byte} {bytes body : List Byte} {last : Time}

/-! ## One byte (R185) -/

/-- In HUNT a start byte begins a frame, and every other byte is ignored. -/
theorem State.receive_hunt (hunt : s.line.receiver = .hunt) (x : Byte) :
    s.receive x =
      if x = Config.startByte then s.setLine { s.line with receiver := .collect [] s.now } else s := by
  simp only [State.receive, State.lapse_hunt hunt, hunt]

/-- In COLLECT a byte that comes in time joins the frame. -/
theorem State.receive_inTime (at_ : s.line.receiver = .collect bytes last)
    (inTime : Time.since s.now last ≤ Config.gapMs) (x : Byte) : s.receive x = s.collect bytes x := by
  have stays : s.lapse = s := by rw [State.lapse, Line.lapse_inTime at_ inTime, State.setLine_self]
  simp only [State.receive, stays, at_]

theorem State.lapse_late (at_ : s.line.receiver = .collect bytes last) (late : Config.gapMs < Time.since s.now last) :
    s.lapse = s.setLine s.line.hunt.countGap := by
  rw [State.lapse, Line.lapse_late at_ late]

/-- A byte that comes too late finds the frame gone and the receiver in HUNT (R185). -/
theorem State.receive_late (at_ : s.line.receiver = .collect bytes last) (late : Config.gapMs < Time.since s.now last)
    (x : Byte) :
    s.receive x =
      if x = Config.startByte then s.setLine { s.line.hunt.countGap with receiver := .collect [] s.now }
      else s.setLine s.line.hunt.countGap := by
  simp only [State.receive, State.lapse_late at_ late]
  rfl

theorem State.lapse_lapse (s : State) : s.lapse.lapse = s.lapse := by
  change s.setLine ((s.line.lapse s.now).lapse s.now) = s.setLine (s.line.lapse s.now)
  rw [Line.lapse_lapse]

/-- A byte finds the frame as the gap has left it. -/
theorem State.receive_lapse (s : State) (x : Byte) : s.lapse.receive x = s.receive x := by
  simp only [State.receive, State.lapse_lapse]

/-- Bytes that come find the frame as the gap has left it. -/
theorem State.receiveAll_lapse (s : State) (some : bytes ≠ []) : s.lapse.receiveAll bytes = s.receiveAll bytes := by
  cases bytes with
  | nil => exact absurd rfl some
  | cons x bytes => rw [State.receiveAll, State.receiveAll, List.foldl_cons, List.foldl_cons, State.receive_lapse]

/-- A byte above 240 is no start byte. -/
theorem ne_startByte_of_long (long : Config.bodyTop < x.toNat) : x ≠ Config.startByte := by
  rintro rfl
  exact absurd long (by decide)

/-- A length byte above 240 discards the frame (R185). -/
theorem State.collect_long (long : Config.bodyTop < x.toNat) : s.collect [] x = s.setLine s.line.hunt.countLength :=
  if_pos long

/-! ## A frame byte by byte (R183, R185) -/

theorem Time.since_self (now : Time) : Time.since now now = 0 := by simp [Time.since]

/-- The receiver with the bytes of a frame taken, the last of them just now. -/
def State.collected (s : State) (bytes : List Byte) : State :=
  s.setLine { s.line with receiver := .collect bytes s.now }

theorem State.collected_receive (s : State) (bytes : List Byte) (x : Byte) :
    (s.collected bytes).receive x = (s.collected bytes).collect bytes x :=
  State.receive_inTime (s := s.collected bytes) (last := s.now) rfl
    ((Nat.le_of_eq (Time.since_self s.now)).trans (Nat.zero_le _)) x

/-- A frame taken whole leaves the receiver as it was before the frame began. -/
theorem State.collected_hunt (hunt : s.line.receiver = .hunt) (bytes : List Byte) :
    (s.collected bytes).setLine (s.collected bytes).line.hunt = s := by
  change s.setLine { s.line with receiver := .hunt } = s
  rw [← hunt]
  rfl

/-- A byte before the last of the frame. -/
theorem State.collected_receive_more {len : Byte} {taken : List Byte} (all : bytes ++ [x] = len :: taken)
    (short : len.toNat ≤ Config.bodyTop) (more : (bytes ++ [x]).length ≠ len.toNat + 5) :
    (s.collected bytes).receive x = s.collected (bytes ++ [x]) := by
  rw [State.collected_receive, State.collect]
  rw [all] at more ⊢
  simp only [if_neg (Nat.not_lt.mpr short), if_neg more]
  rfl

/-- The last byte of the frame. -/
theorem State.collected_receive_last {len : Byte} {taken : List Byte} (all : bytes ++ [x] = len :: taken)
    (short : len.toNat ≤ Config.bodyTop) (whole : (bytes ++ [x]).length = len.toNat + 5) :
    (s.collected bytes).receive x = (s.collected bytes).frameTaken (bytes ++ [x]) := by
  rw [State.collected_receive, State.collect]
  rw [all] at whole ⊢
  simp only [if_neg (Nat.not_lt.mpr short), if_pos whole]

/-- The bytes after the length byte, but for the last. -/
theorem State.collected_receiveAll {len : Byte} {taken : List Byte} (short : len.toNat ≤ Config.bodyTop)
    (bs : List Byte) (more : taken.length + bs.length < len.toNat + 4) :
    (s.collected (len :: taken)).receiveAll bs = s.collected (len :: taken ++ bs) := by
  induction bs generalizing taken with
  | nil => rw [List.append_nil]; rfl
  | cons x bs ih =>
    rw [List.length_cons] at more
    have next : (s.collected (len :: taken)).receive x = s.collected (len :: (taken ++ [x])) :=
      State.collected_receive_more rfl short (by simp; omega)
    change ((s.collected (len :: taken)).receive x).receiveAll bs = _
    rw [next, ih (by simp; omega)]
    simp

/-- A frame of the length its length byte says, from HUNT on, is taken whole with its last byte. -/
theorem State.receiveAll_frame (hunt : s.line.receiver = .hunt) {len : Byte} (short : len.toNat ≤ Config.bodyTop)
    (bs : List Byte) (x : Byte) (whole : bs.length = len.toNat + 3) :
    s.receiveAll (Config.startByte :: len :: bs ++ [x]) =
      (s.collected (len :: bs)).frameTaken (len :: bs ++ [x]) := by
  have begun : s.receive Config.startByte = s.collected [] := by
    rw [State.receive_hunt hunt, if_pos rfl]
    rfl
  have measured : (s.collected []).receive len = s.collected [len] :=
    State.collected_receive_more rfl short (by simp)
  have ended : (s.collected (len :: bs)).receive x = (s.collected (len :: bs)).frameTaken (len :: bs ++ [x]) :=
    State.collected_receive_last rfl short (by simp; omega)
  have collected := State.collected_receiveAll (s := s) (taken := []) short bs (by simp; omega)
  simp only [State.receiveAll, List.cons_append, List.foldl_cons, List.foldl_append, List.foldl_nil, begun,
    measured] at collected ⊢
  rw [collected]
  exact ended

/-! ## A frame of the line reads back (R183, R203) -/

theorem toNat_length_byte (fits : body.length ≤ Config.bodyTop) :
    (BitVec.ofNat 8 body.length : Byte).toNat = body.length := by
  rw [BitVec.toNat_ofNat]
  exact Nat.mod_eq_of_lt (Nat.lt_of_le_of_lt fits (by decide))

/-- The bytes of a frame between the start byte and the CRC (R183). -/
def frameBytes (tag code : Byte) (body : List Byte) : List Byte := BitVec.ofNat 8 body.length :: tag :: code :: body

/-- A frame with its own CRC is the request it was made of. -/
theorem judgeFrame_lineFrame (fits : body.length ≤ Config.bodyTop) :
    judgeFrame (frameBytes tag code body ++ u16 (crc16 (frameBytes tag code body)).toNat) =
      some { tag := tag, code := code, body := body } := by
  have crc : be16 (BitVec.ofNat 8 ((crc16 (frameBytes tag code body)).toNat / 256))
      (BitVec.ofNat 8 (crc16 (frameBytes tag code body)).toNat) = (crc16 (frameBytes tag code body)).toNat :=
    be16_bytes (Nat.le_of_lt_succ (BitVec.isLt _))
  generalize check : (crc16 (frameBytes tag code body)).toNat = n at crc ⊢
  simp only [frameBytes, u16, List.cons_append, judgeFrame, toNat_length_byte fits, List.take_left', List.drop_left']
  exact if_pos (crc.trans check.symm)

/-- A frame that comes in HUNT becomes a request (R188). -/
theorem State.receiveAll_lineFrame (hunt : s.line.receiver = .hunt) (fits : body.length ≤ Config.bodyTop) :
    s.receiveAll (lineFrame tag code body) = s.arrive { tag := tag, code := code, body := body } := by
  have short : (BitVec.ofNat 8 body.length : Byte).toNat ≤ Config.bodyTop := (toNat_length_byte fits).trans_le fits
  have judged := judgeFrame_lineFrame (tag := tag) (code := code) fits
  have wire : lineFrame tag code body =
      Config.startByte :: (frameBytes tag code body ++ u16 (crc16 (frameBytes tag code body)).toNat) := rfl
  generalize (crc16 (frameBytes tag code body)).toNat = n at judged wire
  have taken := State.receiveAll_frame hunt short (tag :: code :: body ++ [BitVec.ofNat 8 (n / 256)])
    (BitVec.ofNat 8 n) (by simp [toNat_length_byte fits])
  have split : BitVec.ofNat 8 body.length :: (tag :: code :: body ++ [BitVec.ofNat 8 (n / 256)]) ++
      [BitVec.ofNat 8 n] = frameBytes tag code body ++ u16 n := by
    simp [frameBytes, u16]
  rw [List.cons_append, split, State.frameTaken, judged, State.collected_hunt hunt] at taken
  rw [wire, taken]

end Sys2Proof.Machine
end

