-- ==== Sys2Proof/Proofs/LineDiscards.lean ====
section
/-! PROOFS. What the line port discards, places and drops (R185, R187, R188, R194 to R196). -/

namespace Sys2Proof.Machine

variable {s : State} {b : NoticeBody} {x : Notice} {time : Count32} {ns before after : List Notice}

/-! ## A notice offered (R194 to R196) -/

theorem Notice.sameAs_iff : x.sameAs b = true ↔ x.body.kind = b.kind ∧ x.source = b.source := by
  simp [Notice.sameAs]

theorem State.notify_masked (masked : s.line.mask.masks b.kind = true) : s.notify b = s := if_pos masked

theorem State.notify_open (opened : s.line.mask.masks b.kind = false) :
    s.notify b = s.setLine { s.line with notices := placeNotice b s.line.rackTime s.line.notices } := by
  simp [State.notify, opened]

/-- The waiting notice of the kind and source takes the content in its place (R195, item 1). -/
theorem placeNotice_merges (same : x.sameAs b = true) (first : ∀ y ∈ before, ¬ y.sameAs b = true) :
    placeNotice b time (before ++ x :: after) = before ++ x.replacedBy b time :: after := by
  have merged : mergeNotice b time (before ++ x :: after) = before ++ x.replacedBy b time :: after := by
    induction before with
    | nil => exact if_pos same
    | cons y before ih =>
      obtain ⟨other, rest⟩ := List.forall_mem_cons.mp first
      rw [List.cons_append, mergeNotice, if_neg other, ih rest, List.cons_append]
  rw [placeNotice, if_pos (by simp [same]), merged]

/-- With no notice of its kind and source waiting, a notice joins the tail where there is room (R195, item 2). -/
theorem placeNotice_joins (fresh : ∀ y ∈ ns, ¬ y.sameAs b = true)
    (room : ns.countP (fun n => !n.isOverflow) < Config.ordinaryNotices) :
    placeNotice b time ns = ns ++ [{ source := b.source, body := b, time := time, merges := 0 }] := by
  rw [placeNotice, if_neg (by simpa using fresh), if_pos room]

/-- With 63 ordinary notices waiting, a fresh notice is dropped (R195, item 3). -/
theorem placeNotice_drops (fresh : ∀ y ∈ ns, ¬ y.sameAs b = true)
    (full : Config.ordinaryNotices ≤ ns.countP (fun n => !n.isOverflow)) :
    placeNotice b time ns = dropNotice b time ns := by
  rw [placeNotice, if_neg (by simpa using fresh), if_neg (Nat.not_lt.mpr full)]

/-- The first drop is told by an OVERFLOW notice (R196). -/
theorem dropNotice_first (none : ∀ y ∈ ns, y.body.kind ≠ .overflow) :
    dropNotice b time ns =
      ns ++ [{ source := 0, body := .overflow 1 b.kind b.source time, time := time, merges := 0 }] := by
  rw [dropNotice, if_neg (by simpa [Notice.isOverflow] using none)]

/-- A later drop is counted in it, and the other notices stand (R196). -/
theorem dropNotice_counts {count source : Nat} {k : NoticeKind} {at_ : Count32}
    (overflow : x.body = .overflow count k source at_) (others : ∀ y ∈ before ++ after, y.body.kind ≠ .overflow) :
    dropNotice b time (before ++ x :: after) =
      before ++ { x with body := .overflow (min 65535 (count + 1)) k source at_ } :: after := by
  have stand {l : List Notice} (other : ∀ y ∈ l, y.body.kind ≠ .overflow) : l.map Notice.countDrop = l :=
    (List.map_congr_left (g := id) fun y m => countDrop_of_not_overflow (other y m)).trans (List.map_id l)
  obtain ⟨ahead, behind⟩ := List.forall_mem_append.mp others
  have counts : x.countDrop = { x with body := .overflow (min 65535 (count + 1)) k source at_ } := by
    simp only [Notice.countDrop, overflow]
    rfl
  rw [dropNotice, if_pos (by simp [Notice.isOverflow, overflow, NoticeBody.kind]), List.map_append, List.map_cons,
    stand ahead, stand behind, counts]

/-! ## A request placed while a served reply waits (R188) -/

variable {l : Line} {r : Request}

theorem Line.busyReplies_eq : l.busyReplies = l.replies.countP fun f => f.served = false := by
  unfold Line.busyReplies
  congr 1
  funext f
  cases f.served <;> rfl

theorem Line.place_joins (room : l.requests.length < Config.requestQueueSize) :
    l.place r = { l with requests := l.requests ++ [r] } := if_pos room

theorem Line.place_refuses (full : Config.requestQueueSize ≤ l.requests.length)
    (room : l.busyReplies < Config.requestQueueSize) :
    l.place r =
      { l with
        replies := l.replies ++ [r.busy l.requests.length]
        counters := { l.counters with busy := saturate Config.cap16 (l.counters.busy + 1) } } := by
  rw [Line.place, if_neg (Nat.not_lt.mpr full), if_pos room]

theorem Line.place_unanswered (full : Config.requestQueueSize ≤ l.requests.length)
    (busy : Config.requestQueueSize ≤ l.busyReplies) :
    l.place r =
      { l with counters := { l.counters with unanswered := saturate Config.cap16 (l.counters.unanswered + 1) } } := by
  rw [Line.place, if_neg (Nat.not_lt.mpr full), if_neg (Nat.not_lt.mpr busy)]

/-- Placing a request takes no served reply away. -/
theorem Line.servedWaits_place (waits : l.servedWaits = true) (r : Request) : (l.place r).servedWaits = true := by
  unfold Line.place
  split
  · exact waits
  · split
    · simp only [Line.servedWaits, List.any_append, Bool.or_eq_true] at waits ⊢
      exact waits.imp_left .inl
    · exact waits

/-- While a served reply waits or is being sent, a request that arrives is placed, and none is served (R188, R189). -/
theorem State.arrive_of_waits (waits : s.line.servedWaits = true) :
    s.arrive r = (s.setLine (s.line.place r)).finish := by
  rw [State.arrive, State.serveHead, State.setLine_line, if_pos (Line.servedWaits_place waits r)]

/-! ## The discards (R185, R187) -/

theorem Line.badStop_hunt (hunt : l.receiver = .hunt) : l.badStop = l := by
  simp [Line.badStop, Line.collecting, hunt]

theorem Line.badStop_collect {bytes : List Byte} {last : Time} (at_ : l.receiver = .collect bytes last) :
    l.badStop = l.hunt.countFraming := by
  simp [Line.badStop, Line.collecting, at_]

theorem exec_lineGap_hunt (hunt : s.line.receiver = .hunt) : exec .lineGap s = .next s := by
  simp [exec, execLineGap, Line.collecting, hunt]

theorem exec_lineGap_collect {bytes : List Byte} {last : Time} (at_ : s.line.receiver = .collect bytes last) :
    exec .lineGap s = .next (s.setLine s.line.hunt.countGap) := by
  simp [exec, execLineGap, Line.collecting, at_]

/-- A low stop bit, as the gap before it has left the line. -/
theorem exec_framingDiscard (lapsed : s.line.lapse s.now = l) :
    exec .framingDiscard s = .next (s.setLine l.badStop) := by
  rw [← lapsed]
  rfl

/-- A break, as the gap before it has left the line. -/
theorem exec_lineBreak (lapsed : s.line.lapse s.now = l) : exec .lineBreak s = .next (s.setLine l.hunt.countBreak) := by
  rw [← lapsed]
  rfl

end Sys2Proof.Machine

open Sys2Proof Sys2Proof.Machine

/-- Settles O54: the receiver in HUNT and in COLLECT, a request placed while a served reply waits, and a notice offered
to the queue. -/
theorem lineDiscardsJoinsAndDrops : Obligations.LineDiscardsJoinsAndDrops := by
  unfold Obligations.LineDiscardsJoinsAndDrops
  intro s
  refine ⟨fun hunt => ?_, fun bytes last at_ => ?_, fun hunt => exec_lineBreak (Line.lapse_hunt hunt),
    fun tag code body fits hunt served => ?_, fun b => ?_⟩
  · refine ⟨exec_lineGap_hunt hunt, ?_, fun len long => ?_, ?_⟩
    · rw [exec_framingDiscard (Line.lapse_hunt hunt), Line.badStop_hunt hunt]
      rfl
    · exact congrArg _ ((State.receive_hunt hunt len).trans (if_neg (ne_startByte_of_long long)))
    · exact congrArg _ ((State.receive_hunt hunt _).trans (if_pos rfl))
  · refine ⟨exec_lineGap_collect at_, fun inTime => ?_, fun late => ?_⟩
    · refine ⟨?_, fun empty len long => ?_, exec_lineBreak (Line.lapse_inTime at_ inTime), fun empty => ?_⟩
      · rw [exec_framingDiscard (Line.lapse_inTime at_ inTime), Line.badStop_collect at_]
        rfl
      · subst empty
        exact congrArg _ ((State.receive_inTime at_ inTime len).trans (State.collect_long long))
      · subst empty
        exact congrArg _ (State.receive_inTime at_ inTime Config.startByte)
    · refine ⟨exec_framingDiscard (Line.lapse_late at_ late), fun len long => ?_,
        exec_lineBreak (Line.lapse_late at_ late), ?_, fun bs => ?_⟩
      · exact congrArg _ ((State.receive_late at_ late len).trans (if_neg (ne_startByte_of_long long)))
      · exact congrArg _ ((State.receive_late at_ late _).trans (if_pos rfl))
      · by_cases none : bs = []
        · rw [if_pos none]
        · rw [if_neg none]
          refine congrArg Host.Outcome.next ((s.receiveAll_lapse none).symm.trans ?_)
          rw [State.lapse_late at_ late]
          rfl
  · have waits : s.line.servedWaits = true := by
      simpa only [Line.servedWaits, Bool.or_eq_true] using served
    have arrives : exec (.frameReceived (lineFrame tag code body)) s =
        .next (s.setLine (s.line.place { tag := tag, code := code, body := body })).finish :=
      congrArg _ ((State.receiveAll_lineFrame hunt fits).trans (State.arrive_of_waits waits))
    refine ⟨fun room => ?_, fun full room => ?_, fun full busy => ?_⟩
    · rw [arrives, Line.place_joins room]
    · rw [arrives, Line.place_refuses full (Line.busyReplies_eq.trans_lt room)]
      rfl
    · rw [arrives, Line.place_unanswered full (busy.trans_eq Line.busyReplies_eq.symm)]
      rfl
  · have group : (match b with
        | .slotState .. | .runEnd .. | .watch .. => s.line.mask.slot
        | .zoneTrip .. | .zoneClear .. => s.line.mask.climate
        | .carton .. | .handlerSlot .. | .handlerPort .. | .manifestHigh .. => s.line.mask.ship
        | .overflow .. => false) = s.line.mask.masks b.kind := by cases b <;> rfl
    have kinds : (s.line.notices.countP fun x => x.body.kind ≠ .overflow) =
        s.line.notices.countP fun n => !n.isOverflow :=
      List.countP_congr fun n _ => by simp [Notice.isOverflow]
    intro masked same waits ordinary
    refine ⟨fun closed => State.notify_masked (group.symm.trans closed), fun opened => ?_⟩
    have offered := State.notify_open (s := s) (b := b) (group.symm.trans opened)
    refine ⟨fun before x after queue merges first => ?_, fun others => ?_⟩
    · rw [offered, queue, placeNotice_merges (Notice.sameAs_iff.mpr merges) fun y m e =>
        first y m (Notice.sameAs_iff.mp e)]
      rfl
    · have fresh : ∀ y ∈ s.line.notices, ¬ y.sameAs b = true := fun y m e => others y m (Notice.sameAs_iff.mp e)
      refine ⟨fun room => ?_, fun full none => ?_,
        fun before x after count k source time full queue overflow rest => ?_⟩
      · rw [offered, placeNotice_joins fresh (kinds.symm.trans_lt room)]
      · rw [offered, placeNotice_drops fresh (full.trans_eq kinds), dropNotice_first none]
      · rw [offered, placeNotice_drops fresh (full.trans_eq kinds), queue, dropNotice_counts overflow rest]
end

