-- ==== Sys2Proof/Proofs/FramesSent.lean ====
section
/-! PROOFS. The transmitter, and what the last byte of a reply brings with it (R184, R192, R199 to R201). At RESTART the
notice queue starts empty, and CM takes up the close that was held, if there is one; its notices find room, so that none
is dropped, and MANIFEST_HIGH goes again (log entry 51). -/

namespace Sys2Proof.Machine

variable {s t u : State} {n : NoticeBody} {time : Count32} {ns : List Notice} {f : OutFrame}

/-! ## The notices of CM in an empty queue (R171, R181, R195) -/

/-- The kinds and sources of the notices that CM queues. -/
def stockKeys : List (NoticeKind × Nat) := (.manifestHigh, 0) :: allLanes.map fun b => (.carton, num b)

theorem NoticeBody.ofStock.key_mem (stock : n.ofStock) : (n.kind, n.source) ∈ stockKeys := by
  cases n with
  | carton b => simp [stockKeys, allLanes, NoticeBody.kind, NoticeBody.source]
  | manifestHigh => exact .head _
  | _ => rcases stock with e | e <;> cases e

/-- Notices of CM alone, no two of one kind and source, leave room in the queue. -/
theorem countP_lt_of_stock (apart : noticesInOrder ns) (stock : ∀ k ∈ keys ns, k ∈ stockKeys) :
    ns.countP (fun n => !n.isOverflow) < Config.ordinaryNotices := by
  have once : (keys ns).Nodup := ((noticesInOrder_iff_keys ns).mp apart).2
  have few : ns.length ≤ stockKeys.length := by
    simpa [keys] using (once.subperm stock).length_le
  exact Nat.lt_of_le_of_lt (List.countP_le_length.trans few) (by decide)

/-- With room in the queue, a notice adds at most its own kind and source. -/
theorem keys_placeNotice (room : ns.countP (fun n => !n.isOverflow) < Config.ordinaryNotices) :
    keys (placeNotice n time ns) = keys ns ∨ keys (placeNotice n time ns) = keys ns ++ [(n.kind, n.source)] := by
  unfold placeNotice
  split
  · exact .inl (keys_mergeNotice n time ns)
  · exact .inr (by simp [keys])

/-- From `s` to `t` the line port has changed in its notices alone, which are CM's, no two of one kind and source. -/
structure State.StockTold (s t : State) : Prop where
  beside : t.line.besideNotices = s.line.besideNotices
  apart : noticesInOrder t.line.notices
  stock : ∀ k ∈ keys t.line.notices, k ∈ stockKeys

theorem State.StockTold.notify (h : s.StockTold t) (stock : n.ofStock) : s.StockTold (t.notify n) := by
  refine ⟨(State.notify_besideNotices n).trans h.beside, t.noticesInOrder_notify n h.apart, ?_⟩
  unfold State.notify
  split
  · exact h.stock
  · rcases keys_placeNotice (n := n) (time := t.line.rackTime) (countP_lt_of_stock h.apart h.stock) with e | e
    · rw [State.setLine_line, e]
      exact h.stock
    · rw [State.setLine_line, e]
      exact List.forall_mem_append.mpr ⟨h.stock, List.forall_mem_singleton.mpr stock.key_mem⟩

theorem State.StockTold.stable (s : State) : State.StockStable s.StockTold where
  of_line e h := ⟨e ▸ h.beside, e ▸ h.apart, e ▸ h.stock⟩
  notify stock h := h.notify stock

/-! ## RESTART (R30, R56, R95, R145, R200, R201) -/

/-- The port at RESTART, before CM ends the extraction of its current order (R145). -/
def Port.restarted (p : Port) : Port :=
  { p.cleared .idle with queue := [], acceptTimeouts := 0, streak := 0, fault := none }

/-- HP's part of a RESTART is the port's own record, and a rule of CM. -/
theorem State.restartPort_frame (s : State) : (s.setPort s.port.restarted).sameBeyondCartons s.restartPort := by
  simp only [State.restartPort]
  split
  · exact (State.cartons_endAtCarton_iff _ _ _).mpr (State.sameBeyondCartons_refl _)
  · exact State.sameBeyondCartons_refl _

/-- HP's part of a RESTART, in an empty notice queue, queues notices of CM alone. -/
theorem State.restartPort_told (empty : s.line.notices = []) : s.StockTold s.restartPort := by
  have told : s.StockTold (s.setPort s.port.restarted) := by
    refine ⟨rfl, ?_, ?_⟩
    · rw [State.setPort_line, empty]
      exact ⟨Nat.zero_le _, .nil⟩
    · rw [State.setPort_line, empty]
      exact fun k m => absurd m List.not_mem_nil
  simp only [State.restartPort]
  split
  · exact (State.StockTold.stable s).endAtCarton told
  · exact told

/-- The other blocks' parts of a RESTART (R30, R56, R95, R98, R110, R201). -/
def State.restartRest (v : State) : State := v.restartSlots.restartLinks.restartZones.restartRecords.restartLine

section

variable (v : State)

theorem State.restartRest_slot (i : SlotNo) : v.restartRest.slot i = SlotRec.sampled (v.slot i).seatRaw :=
  getElem_mapEach _ v.slots i i.isLt
theorem State.restartRest_plan (p : PlanNo) : v.restartRest.plan p = { steps := (v.plan p).steps, refs := 0 } :=
  getElem_mapEach _ v.plans p p.isLt
theorem State.restartRest_link (l : ShelfNo) :
    v.restartRest.link l = Link.idleFrom v.now ((v.link l).staged.getD (v.link l).settings) :=
  getElem_mapEach _ v.links l l.isLt
theorem State.restartRest_zone (z : ShelfNo) : v.restartRest.zone z = (v.zone z).toOff :=
  getElem_mapEach _ v.zones z z.isLt
theorem State.restartRest_dose (i : SlotNo) : v.restartRest.dose i = DoseRec.empty := Vector.getElem_replicate i.isLt
theorem State.restartRest_watch (i : SlotNo) : v.restartRest.watch i = WatchRec.empty := Vector.getElem_replicate i.isLt
theorem State.restartRest_linkSlot (i : SlotNo) : v.restartRest.linkSlot i = LinkSlot.empty :=
  Vector.getElem_replicate i.isLt
theorem State.restartRest_line : v.restartRest.line =
    { v.line with restarts := min 65535 (v.line.restarts + 1), rackId := v.straps } := rfl

end

/-- What RESTART finds when HP and CM have done their part: the port and the cartons aside, the part as it was, no
reservation, and no notice but of cartons. -/
theorem State.restart_from (s : State) : ∃ v : State,
    s.restart = v.restartRest ∧
      (s.setPort s.port.restarted).sameBeyondCartons v ∧ v.ring.reservation = none ∧
      v.line.besideNotices = s.line.besideNotices ∧ ∀ m ∈ v.line.notices, m.body.kind = .carton := by
  have told := State.restartPort_told (s := s.setLine { s.line with notices := [] }) rfl
  have frame := (s.setLine { s.line with notices := [] }).restartPort_frame
  refine ⟨_, rfl, ?_, rfl, ?_, fun m waits => ?_⟩
  · exact (State.cartons_setLine_iff _ _ _).mpr ((State.cartons_release_iff _ _).mpr frame)
  · exact told.beside
  · simp only [State.withoutHighWater_eq, State.setLine_line, List.mem_filter, decide_eq_true_eq] at waits
    obtain ⟨queued, other⟩ := waits
    have key := told.stock (m.body.kind, m.source) (List.mem_map_of_mem queued)
    simp only [stockKeys, List.mem_cons, List.mem_map, Prod.mk.injEq] at key
    rcases key with ⟨high, -⟩ | ⟨b, -, carton, -⟩
    · exact absurd high other
    · exact carton.symm

/-! ## Frames sent (R184, R189, R192) -/

theorem State.frameOut_idle (idle : s.line.sending = none) : s.frameOut = s := by
  simp only [State.frameOut, idle]

theorem State.frameOut_of (sends : s.line.sending = some f) :
    s.frameOut = (((s.setLine { s.line with sending := none }).afterSent f.after).serveHead).finish := by
  simp only [State.frameOut, sends]

theorem exec_restartEffect (sends : s.line.sending = some f) (after : f.after = .restart) (x : Option Byte) :
    exec (.restartEffect x) s = .next (s.setStraps x).frameOut := by
  have with_ : s.sendingWith AfterSent.isRestart = true := by
    simp [State.sendingWith, sends, after, AfterSent.isRestart]
  simp only [exec, execRestartEffect, with_, if_true]

theorem exec_lineRateChange (sends : s.line.sending = some f) {r : LineRate} (after : f.after = .newRate r) :
    exec .lineRateChange s = .next s.frameOut := by
  have with_ : s.sendingWith AfterSent.isRate = true := by
    simp [State.sendingWith, sends, after, AfterSent.isRate]
  simp only [exec, execLineRateChange, with_, if_true]

end Sys2Proof.Machine

open Sys2Proof Sys2Proof.Machine

/-- Settles O55: the last byte of a frame (`State.frameOut_of`), the restart it brings (`State.restart_from`), and the
transmitter's choice. -/
theorem framesLeaveInOrder : Obligations.FramesLeaveInOrder := by
  unfold Obligations.FramesLeaveInOrder
  intro s
  refine ⟨fun idle => ?_, fun f sends => ⟨fun after => ?_, fun r after => ?_, fun after => ?_⟩, fun l idle => ?_,
    fun l busy => ?_⟩
  · have nothing (p : AfterSent → Bool) : s.sendingWith p = false := by simp [State.sendingWith, idle]
    refine ⟨congrArg _ (State.frameOut_idle idle), fun x => ?_, ?_⟩
    · simp only [exec, execRestartEffect, nothing]
      rfl
    · simp only [exec, execLineRateChange, nothing]
      rfl
  · refine congrArg _ ((State.frameOut_of sends).trans ?_)
    rw [after]
    rfl
  · have sent : exec .lineRateChange s = .next
        ((s.setLine (({ s.line with sending := none } : Line).setRate r)).serveHead).finish := by
      rw [exec_lineRateChange sends after, State.frameOut_of sends, after]
      rfl
    refine ⟨exec_lineRateChange sends after, fun same => ?_, fun other => ?_⟩
    · rw [sent, Line.setRate, if_pos same.symm]
    · rw [sent, Line.setRate, if_neg (Ne.symm other)]
  · refine ⟨exec_restartEffect sends after none, fun x => ?_⟩
    obtain ⟨v, restarted, frame, reservation, beside, cartons⟩ :=
      ((s.setStraps x).setLine { s.line with sending := none }).restart_from
    obtain ⟨-, clock, slots, plans, -, spin, -, links, -, zones, -, doseTable, rules, -, sort, port, straps⟩ := frame
    have line := Line.eq_of_besideNotices beside
    refine ⟨v.restartRest, ?_, fun i => ?_, fun p => ?_, rfl, spin, fun z => ?_, fun i => ?_, fun l => ?_, ?_, ?_, ?_,
      reservation, cartons, straps, straps, ?_, ?_, sort, rules, doseTable⟩
    · rw [exec_restartEffect sends after, State.frameOut_of (s := s.setStraps x) sends, after, ← restarted]
      rfl
    · rw [State.restartRest_slot, State.slot, slots]
      rfl
    · rw [State.restartRest_plan, State.plan, plans]
      rfl
    · rw [State.restartRest_zone, State.zone, zones]
      exact ⟨rfl, rfl, rfl, rfl⟩
    · exact ⟨v.restartRest_dose i, v.restartRest_watch i, v.restartRest_linkSlot i⟩
    · rw [State.restartRest_link, State.now, clock]
      exact ⟨rfl, rfl, rfl⟩
    · exact congrArg Port.state port
    · exact congrArg Port.queue port
    · exact congrArg Port.current port
    · rw [State.restartRest_line, line]
      rfl
    · rw [State.restartRest_line, line]
      rfl
  · refine ⟨fun f rest replies => ?_, fun n rest replies notices => ?_⟩
    · simp only [Line.transmit, idle, replies]
    · simp only [Line.transmit, idle, replies, notices]
      rfl
  · obtain ⟨f, sends⟩ := Option.ne_none_iff_exists'.mp busy
    simp only [Line.transmit, sends]
end

