-- ==== Sys2Proof/Proofs/RackTime.lean ====
section
/-! PROOFS. The second tick and SET TIME (R76, R79, R185, R197). -/

namespace Sys2Proof.Machine

variable {s : State} {tag : Byte} {body : List Byte}

/-- The part after a second tick (R197). -/
def State.secondTicked (s : State) : State :=
  { s with
    clock := s.clock.second, line := (s.line.lapse s.clock.second.ms).second, zones := mapEach Zone.second s.zones }

theorem exec_secondTick (s : State) : exec .secondTick s = .next s.secondTicked := rfl

theorem State.secondTicked_line (s : State) : s.secondTicked.line = (s.line.lapse s.clock.second.ms).second := rfl

theorem State.secondTicked_zone (s : State) (z : ShelfNo) : s.secondTicked.zone z = (s.zone z).second :=
  getElem_mapEach _ s.zones z z.isLt

/-- A frame whose next byte is overdue at the tick is discarded as GAP, and another stands (R185). -/
theorem Line.lapse_collect {l : Line} {now last : Time} {bytes : List Byte} (at_ : l.receiver = .collect bytes last) :
    l.lapse now = if Config.gapMs < Time.since now last then l.hunt.countGap else l := by
  split
  · exact Line.lapse_late at_ ‹_›
  · exact Line.lapse_inTime at_ (Nat.not_lt.mp ‹_›)

/-- Neither rack time nor uptime depends on the receiver. -/
theorem Line.lapse_times (l : Line) (now : Time) :
    (l.lapse now).rackTime = l.rackTime ∧ (l.lapse now).uptime = l.uptime := by
  rw [Line.lapse_eq]
  exact ⟨rfl, rfl⟩

/-! ## SET TIME (R197) -/

theorem exec_setTime {t : State} {a : Answer} (ready : s.ready) (e : serveSetTime body s = (t, a)) :
    exec (.setTime tag body) s = .next (t.answered tag .setTime a) :=
  congrArg Host.Outcome.next (State.request_serves (c := .setTime) ready e)

theorem toNat_append_byte {n : Nat} (x : BitVec n) (y : Byte) : (x ++ y).toNat = x.toNat * 256 + y.toNat := by
  rw [BitVec.toNat_append, ← Nat.shiftLeft_add_eq_or_of_lt y.isLt, Nat.shiftLeft_eq]

/-- Four bytes as a count of 32 bits (R202). -/
theorem toNat_append_be32 (x y z w : Byte) : (x ++ y ++ z ++ w).toNat = be32 x y z w := by
  simp only [toNat_append_byte, be32_eq]

theorem ofNat_be32 (x y z w : Byte) : (BitVec.ofNat 32 (be32 x y z w) : Count32) = x ++ y ++ z ++ w := by
  rw [← toNat_append_be32]
  exact (BitVec.ofNat_toNat 32 (x ++ y ++ z ++ w)).trans (BitVec.setWidth_eq _)

/-- SET TIME as it is served (R197). -/
theorem serveSetTime_four (s : State) (t3 t2 t1 t0 : Byte) :
    serveSetTime [t3, t2, t1, t0] s =
      (s.setLine { s.line with rackTime := t3 ++ t2 ++ t1 ++ t0 },
        Answer.accept (u32 s.line.rackTime.toNat ++ [t3, t2, t1, t0])) := by
  simp only [serveSetTime, ofNat_be32, toNat_append_be32, u32_be32]

theorem serveSetTime_length (wrong : body.length ≠ 4) : serveSetTime body s = s.refuse .length := by
  unfold serveSetTime
  split
  · exact absurd rfl wrong
  · rfl

end Sys2Proof.Machine

open Sys2Proof Sys2Proof.Machine

/-- Settles O56: the tick as one write of the clock, the line port and the zones (`exec_secondTick`), and SET TIME with
its two replies. -/
theorem rackTimeTicksAndSets : Obligations.RackTimeTicksAndSets := by
  unfold Obligations.RackTimeTicksAndSets
  intro s
  refine ⟨⟨s.secondTicked, exec_secondTick s, ?_, ?_, ⟨fun hunt => ?_, fun bytes last at_ => ?_⟩, s.secondTicked_zone,
    rfl⟩, fun tag t3 t2 t1 t0 ready => ?_, fun tag body ready wrong => exec_setTime ready (serveSetTime_length wrong)⟩
  · exact congrArg (· + 1#32) (s.line.lapse_times _).1
  · exact congrArg (· + 1#32) (s.line.lapse_times _).2
  · rw [s.secondTicked_line, Line.lapse_hunt hunt]
    rfl
  · rw [s.secondTicked_line, Line.lapse_collect at_]
    split
    · exact (if_pos ‹_›).symm
    · exact (if_neg ‹_›).symm
  · exact exec_setTime ready (serveSetTime_four s t3 t2 t1 t0)
end
